-- ==== Sys2Proof/Word.lean ====
section
/-! DEFINITION. The widths of the ZV3203's fields and the table of a fixed number of like records. -/

namespace Sys2Proof

/-- A frame byte, a tag, a handle, a level byte or a lane mask (R120). -/
abbrev Byte := BitVec 8

/-- A 16-bit quantity: periods, durations, the time-base count (R120). -/
abbrev Half := BitVec 16

/-- A set of lines: bit `n` stands for `Ln` (R120). -/
abbrev LineMask := BitVec 32

/-- The vector whose entry `i` is `f i`. Every write of a whole table is one of these. -/
def tabulate {α : Type} {n : Nat} (f : Fin n → α) : Vector α n :=
  ⟨(List.ofFn f).toArray, by simp⟩

end Sys2Proof
end

