-- ==== Sys2Proof/Syntax.lean ====
section
/-! DEFINITION. The commands: one constructor for each row of spec/opcode_table.json, in the table's order.

A request row is the Claim Controller's take of that request. The opcode, tag and payload are those of the
frame that stands in the request queue (R118), so the command does not repeat them (log 3). -/

namespace Sys2Proof

/-- A host, named after its port (00 section 4). -/
inductive HostId where
  | a | b | c
  deriving DecidableEq, Repr

/-- A two-wire port (chapter 8). -/
inductive TwoWire where
  | a | b
  deriving DecidableEq, Repr

/-- The host behind a two-wire port. -/
def TwoWire.host : TwoWire → HostId
  | .a => .a
  | .b => .b

/-- The commands of the block.

`raw` is the set of raw levels sensed at the pads in that event, after the event's new modes, levels and pull-ups
have acted on the pads (R5): an input from the board (log 4). -/
inductive Instr where
  /-- IDENTIFY (R113). -/
  | identify
  /-- STATUS (R114). -/
  | status
  /-- CONFIG_PORT (R152). -/
  | configPort
  /-- RESET_PORT (R116). `bits`: bits already clocked of the byte on the requester's bus (R143, R150; log 10). -/
  | resetPort (raw : LineMask) (bits : Fin 8)
  /-- CLAIM_NOW (R44). -/
  | claimNow
  /-- CLAIM_WAIT (R47). -/
  | claimWait
  /-- CANCEL_WAIT (R56). -/
  | cancelWait
  /-- RELEASE (R36). -/
  | release (raw : LineMask)
  /-- TRIM (R38). -/
  | trim (raw : LineMask)
  /-- RENEW (R34). -/
  | renew
  /-- QUERY_HOLDING (R39). -/
  | queryHolding
  /-- LIST_HOLDINGS (R40). -/
  | listHoldings
  /-- SET_MODE (R14). -/
  | setMode (raw : LineMask)
  /-- SET_FILTER (R15). -/
  | setFilter
  /-- DRIVE (R16). -/
  | drive
  /-- SET_SAFE (R18). -/
  | setSafe (raw : LineMask)
  /-- SAMPLE (R19). -/
  | sample
  /-- START_PATTERN (R69). -/
  | startPattern
  /-- STOP_PATTERN (R74). -/
  | stopPattern
  /-- QUERY_PATTERN (R76). -/
  | queryPattern
  /-- WATCH (R85). -/
  | watch
  /-- UNWATCH (R86). -/
  | unwatch
  /-- REVOKE (R110). -/
  | revoke (raw : LineMask)
  /-- FULL_RESET (R111). -/
  | fullReset
  /-- A request whose opcode is not defined (R104). -/
  | unknownOpcodeRequest
  /-- A 10 ms boundary of the Time Base (R31, R53). -/
  | intervalBoundary
  /-- The lease expiry of one holding slot is taken (R32). -/
  | leaseExpiry (slot : Fin 16) (raw : LineMask)
  /-- The wait expiry of one waiting entry, named by host and tag (R54). -/
  | waitExpiry (host : HostId) (tag : Byte)
  /-- The step time of one pattern slot runs out (R70 to R72). -/
  | patternStepEnd (slot : Fin 4)
  /-- One line is sampled at the given raw level (R6). -/
  | lineSample (line : Fin 32) (raw : Bool)
  /-- A start or repeated start on a two-wire bus (R132). -/
  | startCondition (port : TwoWire)
  /-- The address byte of a write (R133). -/
  | writeAddress (port : TwoWire) (byte : Byte)
  /-- A hold reaches 10 ms (R134). -/
  | holdLimit (port : TwoWire)
  /-- A frame byte of a write (R135). -/
  | writeByte (port : TwoWire) (byte : Byte)
  /-- A stop condition on a two-wire bus (R137, R139). -/
  | stopCondition (port : TwoWire)
  /-- The address byte of a read (R138). -/
  | readAddress (port : TwoWire) (byte : Byte)
  /-- One byte of a read is clocked; `ack`: whether the host acknowledges it (R138). -/
  | readByte (port : TwoWire) (ack : Bool)
  /-- The stuck time of a two-wire bus reaches 35 ms (R141). -/
  | stuckBus (port : TwoWire)
  /-- The Claim Controller takes a port-reset notice (R103). -/
  | portResetNotice (port : TwoWire) (raw : LineMask)
  /-- SELC falls (R146). -/
  | selcFall
  /-- The eighth rising SCKC edge of a byte: one inbound byte, one outbound byte (R144, R148). -/
  | exchangeByte (byte : Byte)
  /-- SELC rises; `bits`: rising SCKC edges since the last whole byte (R147, R149). -/
  | selcRise (bits : Fin 8)
  /-- RESETN goes low (R2). -/
  | resetnLow
  /-- The supply falls below its operating range (R158). -/
  | supplyLoss
  /-- The part is released from a device reset, with the strap values ADR and SUP sampled then (R158). -/
  | resetRelease (adr : BitVec 2) (sup : BitVec 2)
  /-- An address byte that the port does not acknowledge (R130). -/
  | addressNotAcknowledged (port : TwoWire) (byte : Byte)
  deriving DecidableEq, Repr

end Sys2Proof
end

