-- ==== Sys2Proof/Config.lean ====
section
/-! DEFINITION. What the spec fixes for every ZV3203: capacities, the part's identity and the time limits; and the free values, the
levels of the two-wire buses, which the part does not decide (log 15). -/

namespace Sys2Proof.Config

/-- Places in a port's request queue (R118). -/
def requestPlaces : Nat := 4
/-- Places in a port's reply queue (R99). -/
def replyPlaces : Nat := 4
/-- Places in a port's event queue (R91). -/
def eventPlaces : Nat := 16
/-- Places in the Wait Queue (R51). -/
def waitPlaces : Nat := 8
/-- Waiting entries one host may have (R51). -/
def waitPlacesPerHost : Nat := 4
/-- The longest lease period, in units of 10 ms (R43). -/
def maxLease : Nat := 4095
/-- The longest payload of a request frame (R118). -/
def maxPayload : Nat := 32
/-- The part code IDENTIFY reports (R113). -/
def partCode : Half := 0x3203
/-- The revision IDENTIFY reports (R113). -/
def revision : Byte := 1
/-- The hold limit in microseconds (R134). -/
def holdLimit : Nat := 10000
/-- The stuck-bus time in microseconds (R140). -/
def stuckLimit : Nat := 35000

/-- FREE VALUE (log 15): in the microsecond counted `n`, SCL of a port's bus is low and the port is not itself holding it (R140). -/
opaque sclLow (p : TwoWire) (n : Nat) : Bool
/-- FREE VALUE (log 15): in the microsecond counted `n`, SDA of a port's bus is low and the port is not itself pulling it (R140). -/
opaque sdaLow (p : TwoWire) (n : Nat) : Bool
/-- FREE VALUE (log 15): in a byte at the count `n`, SDA of a port's bus is low other than by the port's own pull on every clock whose level
the command does not tell (R140). -/
opaque sdaHeld (p : TwoWire) (n : Nat) : Bool

end Sys2Proof.Config
end

