-- ==== Sys2Proof/Machine/State.lean ====
section
/-! DEFINITION. The state of the ZV3203 as plain data, and the state right after a reset release. -/

namespace Sys2Proof.Machine

/-! ### Three hosts, two two-wire ports -/

/-- One value for each host's port. -/
structure PerHost (α : Type) where
  a : α
  b : α
  c : α
  deriving DecidableEq, Repr

/-- The value of one host. -/
def PerHost.get {α : Type} (v : PerHost α) : HostId → α
  | .a => v.a
  | .b => v.b
  | .c => v.c

/-- The same values with one host's changed. -/
def PerHost.update {α : Type} (v : PerHost α) (h : HostId) (f : α → α) : PerHost α :=
  match h with
  | .a => { v with a := f v.a }
  | .b => { v with b := f v.b }
  | .c => { v with c := f v.c }

/-- One value for each two-wire port. -/
structure PerTwoWire (α : Type) where
  a : α
  b : α
  deriving DecidableEq, Repr

/-- The value of one two-wire port. -/
def PerTwoWire.get {α : Type} (v : PerTwoWire α) : TwoWire → α
  | .a => v.a
  | .b => v.b

/-- The same values with one port's changed. -/
def PerTwoWire.update {α : Type} (v : PerTwoWire α) (p : TwoWire) (f : α → α) : PerTwoWire α :=
  match p with
  | .a => { v with a := f v.a }
  | .b => { v with b := f v.b }

/-! ### Line Table (R1) -/

/-- How a pad is used (R3). -/
inductive Mode where
  | disconnected | input | pushPull | openDrain
  deriving DecidableEq, Repr

/-- The stability interval of the input filter (R7). -/
inductive Filter where
  | none | f10us | f100us | f1ms
  deriving DecidableEq, Repr

/-- The state a line takes when it leaves a holding (R11). -/
structure SafeState where
  mode   : Mode
  level  : Bool
  pullUp : Bool
  deriving DecidableEq, Repr

/-- One line record (R1). -/
structure LineRecord where
  mode     : Mode
  level    : Bool
  pullUp   : Bool
  filter   : Filter
  filtered : Bool
  settling : Nat
  safe     : SafeState
  deriving DecidableEq, Repr

/-- The device reset values of a line record (R1, R11). -/
def LineRecord.reset : LineRecord :=
  { mode := .disconnected, level := false, pullUp := false, filter := .none, filtered := false, settling := 0
    safe := { mode := .disconnected, level := false, pullUp := false } }

/-- The edges of a line that a host is told of (R83). -/
inductive Edges where
  | none | rising | falling | both
  deriving DecidableEq, Repr

/-! ### Holding Table (R21) -/

/-- Why the part ended a holding (R21). -/
inductive EndCause where
  | leaseExpired | revoked
  deriving DecidableEq, Repr

/-- The lease of a holding, in units of 10 ms (R21). -/
structure Lease where
  period    : Nat
  remaining : Nat
  deriving DecidableEq, Repr

/-- What a slot records in each of its states (R21). The line set is empty in `free` and `ended`. -/
inductive SlotBody where
  | free
  | held (owner : HostId) (lines : LineMask) (tag : Byte) (lease : Option Lease)
  | ended (owner : HostId) (tag : Byte) (lease : Option Lease) (cause : EndCause)
  deriving DecidableEq, Repr

/-- One slot of the Holding Table (R21). -/
structure Slot where
  gen  : BitVec 4
  body : SlotBody
  deriving DecidableEq, Repr

/-- One waiting entry (R51). `period` is 0 for an unleased claim; `remaining` is absent for a wait without limit. -/
structure WaitEntry where
  host      : HostId
  tag       : Byte
  lines     : LineMask
  period    : Nat
  remaining : Option Nat
  deriving DecidableEq, Repr

/-! ### Pattern Slots (R65) -/

/-- One step of a pattern: a level byte and a duration in units of 10 µs (R65). -/
structure PatternStep where
  level    : Byte
  duration : Nat
  deriving DecidableEq, Repr

/-- The fields of a RUNNING pattern slot (R65). `passes` is absent for an endless pattern. -/
structure Pattern where
  handle   : Byte
  tag      : Byte
  bank     : Fin 4
  lanes    : Byte
  steps    : List PatternStep
  repeats  : Nat
  current  : Nat
  passes   : Option Nat
  timeLeft : Nat
  deriving DecidableEq, Repr

/-! ### Ports -/

/-- A request frame in a request queue (R118). -/
structure Frame where
  opcode  : Byte
  tag     : Byte
  payload : List Byte
  deriving DecidableEq, Repr

/-- The status of a reply (R127). -/
inductive Status where
  | ok | queued | ended
  | badOpcode | badLength | badArgument | notPermitted | staleHandle | notOwner
  | linesHeld | contended | noSlot | queueFull | hostLimit | duplicateTag | selfHeld | notFound
  | lineBusy | modeConflict | noPatternSlot
  deriving DecidableEq, Repr

/-- A reply in a reply queue (R121): its ref is the tag of the request answered. -/
structure Reply where
  tag     : Byte
  status  : Status
  payload : List Byte
  deriving DecidableEq, Repr

/-- Why a pattern was aborted (R78). -/
inductive AbortCause where
  | released | trimmed | leaseExpired | revoked
  deriving DecidableEq, Repr

/-- An event in an event queue, with the fields of its kind (R89). -/
inductive Event where
  | lineEdge (line : Fin 32) (level : Bool) (stamp : Half)
  | granted (tag handle : Byte)
  | waitExpired (tag : Byte)
  | leaseExpired (handle tag : Byte)
  | revoked (handle tag : Byte)
  | patternDone (slot : Fin 4) (handle tag : Byte)
  | patternAborted (slot : Fin 4) (handle tag : Byte) (cause : AbortCause)
  deriving DecidableEq, Repr

/-- The four port flags (R155). -/
structure PortFlags where
  resetSeen      : Bool
  frameError     : Bool
  requestOverrun : Bool
  eventOverflow  : Bool
  deriving DecidableEq, Repr

/-- The attention mask (R151). -/
structure AttentionMask where
  replyWaiting : Bool
  eventWaiting : Bool
  requestRoom  : Bool
  deriving DecidableEq, Repr

/-- What a port reset does to the host's holdings (R151). -/
inductive ResetPolicy where
  | keep | release
  deriving DecidableEq, Repr

/-- What every port keeps: its queues, its flags and the configuration fields all ports have (R151). -/
structure Port where
  requests : List Frame
  replies  : List Reply
  events   : List Event
  flags    : PortFlags
  mask     : AttentionMask
  policy   : ResetPolicy
  deriving DecidableEq, Repr

/-- A port at reset release (R158, R151). -/
def Port.reset : Port :=
  { requests := [], replies := [], events := []
    flags := { resetSeen := true, frameError := false, requestOverrun := false, eventOverflow := false }
    mask := { replyWaiting := true, eventWaiting := true, requestRoom := false }
    policy := .keep }

/-- The mark of a receive record: ERROR, OVERRUN and DONE of R131, NOP of R136; `done` is COMPLETE on Port C (R145). -/
inductive RxMark where
  | unmarked | nop | error | overrun | done
  deriving DecidableEq, Repr

/-- A receive record (R131, R145): the bytes received so far, the length once recorded, the running sum and the mark. -/
structure RxRecord where
  bytes : List Byte
  len   : Option Byte
  sum   : Byte
  mark  : RxMark
  deriving DecidableEq, Repr

/-- What was selected as the outbound frame (R123). -/
inductive OutSource where
  | reply | event | empty
  deriving DecidableEq, Repr

/-- An outbound selection (R131, R145): the frame's bytes as formed and the number of them sent. `inTransit`: a reply
or event that still stands at the head of its queue for this transfer (R93). -/
structure OutSelection where
  source    : OutSource
  bytes     : List Byte
  sent      : Nat
  inTransit : Bool
  deriving DecidableEq, Repr

/-- How a two-wire port meets a write that finds the request queue full (R151). -/
inductive HoldMode where
  | refuse | hold
  deriving DecidableEq, Repr

/-- The state of a two-wire port with the records each state has (R131). `time` is in microseconds. `refused`: the
host has refused a byte of this read, so nothing further is sent (R138). -/
inductive TwoWireState where
  | idle
  | address
  | receiving (rx : RxRecord)
  | holding (rx : RxRecord) (time : Nat)
  | sending (out : OutSelection) (refused : Bool)
  | resetting
  deriving DecidableEq, Repr

/-- What a two-wire port keeps beside its queues (R131, R151). `stuckTime` is in microseconds (R140). `ack` and `tx` are what it last showed
on SDA: the answer on the acknowledge clock and the byte shifted out (log 12). -/
structure TwoWireBus where
  state     : TwoWireState
  holdMode  : HoldMode
  stuckTime : Nat
  ack       : Bool
  tx        : Byte
  deriving DecidableEq, Repr

/-- A two-wire port at reset release (R131, R151). -/
def TwoWireBus.reset : TwoWireBus :=
  { state := .idle, holdMode := .refuse, stuckTime := 0, ack := false, tx := 0xFF }

/-- The state of Port C (R145). `bits`: bits received of the current byte. -/
inductive FourWireState where
  | deselected
  | exchange (rx : RxRecord) (bits : Fin 8) (out : OutSelection)
  deriving DecidableEq, Repr

/-- What Port C keeps beside its queues (R145). `tx` is the byte it last shifted out on SDOC (log 12). -/
structure FourWireBus where
  state : FourWireState
  tx    : Byte
  deriving DecidableEq, Repr

/-- Port C at reset release (R145). -/
def FourWireBus.reset : FourWireBus := { state := .deselected, tx := 0xFF }

/-! ### The part -/

/-- The cause of the last device reset (R98, R112). -/
inductive ResetCause where
  | powerOn | pin | command
  deriving DecidableEq, Repr

/-- What has happened since the previous reset release (R112). -/
structure ResetHistory where
  supply  : Bool
  pin     : Bool
  command : Bool
  deriving DecidableEq, Repr

/-- The free-running counter: `count` in units of 100 µs, wrapping (R113), and `micro` microseconds into the unit. -/
structure TimeBase where
  count : Half
  micro : Fin 100
  deriving DecidableEq, Repr

/-- An expiry or a notice that the Claim Controller has still to take (R102, R103). -/
inductive Due where
  | lease (slot : Fin 16)
  | wait (host : HostId) (tag : Byte)
  | notice (port : TwoWire)
  deriving DecidableEq, Repr

/-- The whole part. -/
structure State where
  /-- The commands that are waiting, first in first out (log 1). -/
  pending    : List Instr
  /-- A device reset is in progress (R158). -/
  inReset    : Bool
  /-- What has happened since the previous reset release (R112). -/
  since      : ResetHistory
  /-- The level of the SELC pin is low (R144, R145). -/
  selcLow    : Bool
  /-- The strap value ADR latched at reset release (R130). -/
  adr        : BitVec 2
  /-- The supervisor designation; absent is NONE (R108). -/
  supervisor : Option HostId
  /-- The reset cause (R112). -/
  resetCause : ResetCause
  /-- The rotation pointer (R100). -/
  rotation   : HostId
  /-- The due expiries and notices that a request has overtaken since they became due (R102, R103; log 9). -/
  overtaken  : List Due
  /-- The Time Base. -/
  time       : TimeBase
  /-- The MODEL's own counter: the microseconds that have passed, to which the free levels of the buses are applied (log 15). -/
  micros     : Nat
  /-- The Line Table (R1). -/
  lines      : Vector LineRecord 32
  /-- The Watch Table: each host's 32 entries (R83). -/
  watches    : PerHost (Vector Edges 32)
  /-- The Holding Table (R21). -/
  slots      : Vector Slot 16
  /-- The Wait Queue, oldest first (R51). -/
  waitQueue  : List WaitEntry
  /-- The Pattern Slots; absent is IDLE (R65). -/
  patterns   : Vector (Option Pattern) 4
  /-- The ports' queues, flags and configuration (R151, R155). -/
  ports      : PerHost Port
  /-- The two-wire ports A and B (R131). -/
  twoWire    : PerTwoWire TwoWireBus
  /-- Port C (R145). -/
  fourWire   : FourWireBus
  deriving DecidableEq, Repr

/-- A command that ends in no next state: the spec gives the block none, so there is no constructor. Errors are
statuses, port flags and bus refusals, each of them a next state. -/
inductive Fault where
  deriving DecidableEq, Repr

/-- Why a command has no meaning. -/
inductive Refusal where
  /-- Raised by no arm of `exec`: every command has its meaning. Safe: the machine stops. -/
  | notModelled (mnemonic : String)
  deriving DecidableEq, Repr

/-- Right after the reset release of a power-on: R1, R11, R22, R51, R65, R83, R91, R98, R131, R145, R151, R158.
DESIGN CHOICE (log 7, unsafe): the straps read 0, SELC is high, and the reset just ended was a power-on. -/
def State.reset : State :=
  { pending := []
    inReset := false
    since := { supply := false, pin := false, command := false }
    selcLow := false
    adr := 0
    supervisor := none
    resetCause := .powerOn
    rotation := .a
    overtaken := []
    time := { count := 0, micro := 0 }
    micros := 0
    lines := tabulate fun _ => LineRecord.reset
    watches := { a := tabulate fun _ => .none, b := tabulate fun _ => .none, c := tabulate fun _ => .none }
    slots := tabulate fun _ => { gen := 0, body := .free }
    waitQueue := []
    patterns := tabulate fun _ => none
    ports := { a := Port.reset, b := Port.reset, c := Port.reset }
    twoWire := { a := TwoWireBus.reset, b := TwoWireBus.reset }
    fourWire := FourWireBus.reset }

end Sys2Proof.Machine
end

