-- ==== Sys2Proof/Machine/Operands.lean ====
section
/-! DEFINITION. The fields and codes of frames: byte order and field forms (R120), the opcodes and their payload
lengths (R105, R125), the single-byte encodings (R126), the statuses (R127), the events (R128) and the layout of
an outbound frame (R121). -/

namespace Sys2Proof.Machine

/-! ### Opcodes (R125) -/

/-- The defined opcodes other than NOP (R125). -/
inductive Opcode where
  | identify | status | configPort | resetPort
  | claimNow | claimWait | cancelWait | release | trim | renew | queryHolding | listHoldings
  | setMode | setFilter | setSafe | drive | sample
  | startPattern | stopPattern | queryPattern
  | watch | unwatch
  | revoke | fullReset
  deriving DecidableEq, Repr

/-- The code of an opcode (R125). -/
def opcodeByte : Opcode → Byte
  | .identify => 0x01
  | .status => 0x02
  | .configPort => 0x03
  | .resetPort => 0x04
  | .claimNow => 0x10
  | .claimWait => 0x11
  | .cancelWait => 0x12
  | .release => 0x13
  | .trim => 0x14
  | .renew => 0x15
  | .queryHolding => 0x16
  | .listHoldings => 0x17
  | .setMode => 0x20
  | .setFilter => 0x21
  | .setSafe => 0x22
  | .drive => 0x23
  | .sample => 0x24
  | .startPattern => 0x30
  | .stopPattern => 0x31
  | .queryPattern => 0x32
  | .watch => 0x40
  | .unwatch => 0x41
  | .revoke => 0x50
  | .fullReset => 0x51

/-- Every defined opcode, in the order of R125. -/
def allOpcodes : List Opcode :=
  [.identify, .status, .configPort, .resetPort, .claimNow, .claimWait, .cancelWait, .release, .trim, .renew,
   .queryHolding, .listHoldings, .setMode, .setFilter, .setSafe, .drive, .sample, .startPattern, .stopPattern,
   .queryPattern, .watch, .unwatch, .revoke, .fullReset]

/-- The opcode a byte stands for, if it is defined (R104 order 1). NOP is not among them. -/
def opcodeOf (b : Byte) : Option Opcode := allOpcodes.find? fun o => opcodeByte o == b

/-- The payload lengths the Claim Controller accepts (R105). -/
def lengthAccepted : Opcode → Nat → Bool
  | .identify, n => n == 0
  | .status, n => n == 0
  | .configPort, n => n == 3
  | .resetPort, n => n == 0
  | .claimNow, n => n == 6
  | .claimWait, n => n == 7
  | .cancelWait, n => n == 1
  | .release, n => n == 1
  | .trim, n => n == 5
  | .renew, n => n == 3
  | .queryHolding, n => n == 1
  | .listHoldings, n => n == 0
  | .setMode, n => n == 6
  | .setFilter, n => n == 5
  | .setSafe, n => n == 7
  | .drive, n => n == 8
  | .sample, n => n == 0
  | .startPattern, n => decide (8 ≤ n) && decide (n ≤ 29)
  | .stopPattern, n => n == 2
  | .queryPattern, n => n == 1
  | .watch, n => n == 5
  | .unwatch, n => n == 4
  | .revoke, n => n == 1
  | .fullReset, n => n == 0

/-- REVOKE and FULL_RESET are supervisor-only (R106). -/
def supervisorOnly : Opcode → Bool
  | .revoke => true
  | .fullReset => true
  | _ => false

/-! ### Fields of a request payload (R120): least significant byte first -/

/-- The one-byte field at position `i` of the payload. -/
def Frame.byteAt (f : Frame) (i : Nat) : Byte := f.payload.getD i 0

/-- The two-byte field that begins at position `i` of the payload. -/
def Frame.halfAt (f : Frame) (i : Nat) : Half := f.byteAt (i + 1) ++ f.byteAt i

/-- The line mask that begins at position `i` of the payload. -/
def Frame.maskAt (f : Frame) (i : Nat) : LineMask :=
  f.byteAt (i + 3) ++ f.byteAt (i + 2) ++ f.byteAt (i + 1) ++ f.byteAt i

/-- The defined values of a mode field (R126). -/
def modeOf (b : Byte) : Option Mode :=
  if b = 0x00 then some .disconnected
  else if b = 0x01 then some .input
  else if b = 0x02 then some .pushPull
  else if b = 0x03 then some .openDrain
  else none

/-- The defined values of a pull-up field and of a safe level: 0x00 and 0x01 (R126). -/
def bitOf (b : Byte) : Option Bool :=
  if b = 0x00 then some false
  else if b = 0x01 then some true
  else none

/-- The defined values of a filter field (R126). -/
def filterOf (b : Byte) : Option Filter :=
  if b = 0x00 then some .none
  else if b = 0x01 then some .f10us
  else if b = 0x02 then some .f100us
  else if b = 0x03 then some .f1ms
  else none

/-- The values of an edges field that WATCH accepts (R85, R126). -/
def edgesOf (b : Byte) : Option Edges :=
  if b = 0x01 then some .rising
  else if b = 0x02 then some .falling
  else if b = 0x03 then some .both
  else none

/-- An attention mask with bits 3 to 7 clear (R126, R152). -/
def attentionMaskOf (b : Byte) : Option AttentionMask :=
  if b &&& 0xF8 = 0 then
    some { replyWaiting := b.getLsbD 0, eventWaiting := b.getLsbD 1, requestRoom := b.getLsbD 2 }
  else none

/-- The defined values of a hold mode field (R126). -/
def holdModeOf (b : Byte) : Option HoldMode :=
  if b = 0x00 then some .refuse
  else if b = 0x01 then some .hold
  else none

/-- The defined values of a reset policy field (R126). -/
def policyOf (b : Byte) : Option ResetPolicy :=
  if b = 0x00 then some .keep
  else if b = 0x01 then some .release
  else none

/-- The steps of a START_PATTERN payload: three bytes each, a level byte and a duration (R67). -/
def stepsOf : List Byte → List PatternStep
  | level :: lo :: hi :: rest => { level := level, duration := (hi ++ lo : Half).toNat } :: stepsOf rest
  | _ => []

/-! ### Codes the part sends (R126, R127, R128) -/

/-- The code of a host (R126). -/
def hostByte : HostId → Byte
  | .a => 0x01
  | .b => 0x02
  | .c => 0x03

/-- The code of the supervisor designation: NONE is 0x00 (R126). -/
def supervisorByte : Option HostId → Byte
  | none => 0x00
  | some h => hostByte h

/-- The code of a slot state (R126). -/
def slotStateByte : SlotBody → Byte
  | .free => 0x00
  | .held _ _ _ _ => 0x01
  | .ended _ _ _ _ => 0x02

/-- The code of an end cause (R126). -/
def endCauseByte : EndCause → Byte
  | .leaseExpired => 0x01
  | .revoked => 0x02

/-- The code of an abort cause (R126). -/
def abortCauseByte : AbortCause → Byte
  | .released => 0x01
  | .trimmed => 0x02
  | .leaseExpired => 0x03
  | .revoked => 0x04

/-- The code of a reset cause (R126). -/
def resetCauseByte : ResetCause → Byte
  | .powerOn => 0x01
  | .pin => 0x02
  | .command => 0x03

/-- The code of a status (R127). -/
def statusByte : Status → Byte
  | .ok => 0x00
  | .queued => 0x01
  | .ended => 0x02
  | .badOpcode => 0x10
  | .badLength => 0x11
  | .badArgument => 0x12
  | .notPermitted => 0x13
  | .staleHandle => 0x14
  | .notOwner => 0x15
  | .linesHeld => 0x20
  | .contended => 0x21
  | .noSlot => 0x22
  | .queueFull => 0x23
  | .hostLimit => 0x24
  | .duplicateTag => 0x25
  | .selfHeld => 0x26
  | .notFound => 0x27
  | .lineBusy => 0x30
  | .modeConflict => 0x31
  | .noPatternSlot => 0x32

/-- A number sent as one byte. -/
def countByte (n : Nat) : Byte := BitVec.ofNat 8 n

/-- A 16-bit quantity as sent, least significant byte first (R120). -/
def halfBytes (v : Half) : List Byte := [v.extractLsb' 0 8, v.extractLsb' 8 8]

/-- A line mask as sent, L0 to L7 first (R120). -/
def maskBytes (m : LineMask) : List Byte :=
  [m.extractLsb' 0 8, m.extractLsb' 8 8, m.extractLsb' 16 8, m.extractLsb' 24 8]

/-- The code of an event, carried in the ref byte (R128). -/
def eventCode : Event → Byte
  | .lineEdge _ _ _ => 0x01
  | .granted _ _ => 0x02
  | .waitExpired _ => 0x03
  | .leaseExpired _ _ => 0x04
  | .revoked _ _ => 0x05
  | .patternDone _ _ _ => 0x06
  | .patternAborted _ _ _ _ => 0x07

/-- The payload of an event frame (R128). -/
def eventPayload : Event → List Byte
  | .lineEdge line level stamp => [countByte line, if level then 1 else 0] ++ halfBytes stamp
  | .granted tag handle => [tag, handle]
  | .waitExpired tag => [tag]
  | .leaseExpired handle tag => [handle, tag]
  | .revoked handle tag => [handle, tag]
  | .patternDone slot handle tag => [countByte slot, handle, tag]
  | .patternAborted slot handle tag cause => [countByte slot, handle, tag, abortCauseByte cause]

/-- LINE_EDGE is the edge kind; the overflow rule treats the other six alike (R89). -/
def Event.isLineEdge : Event → Bool
  | .lineEdge _ _ _ => true
  | _ => false

/-! ### Outbound frames (R121) -/

/-- The sum of the bytes modulo 256. -/
def byteSum (bytes : List Byte) : Byte := bytes.foldr (· + ·) 0

/-- The same bytes followed by the check byte that makes the frame sum to 0 (R121). -/
def withCheck (bytes : List Byte) : List Byte := bytes ++ [-(byteSum bytes)]

/-- An outbound frame: kind, flags, ref, status, length, payload, check (R121). -/
def outboundFrame (kind flags ref status : Byte) (payload : List Byte) : List Byte :=
  withCheck ([kind, flags, ref, status, countByte payload.length] ++ payload)

end Sys2Proof.Machine
end

