-- ==== Sys2Proof/Machine/Flags.lean ====
section
/-! DEFINITION. The port flags: their byte, MORE, and the events that set and clear them (R96, R115, R119, R122, R155, R156). -/

namespace Sys2Proof.Machine

/-- Bits 0 to 3 of the flags byte, as STATUS reports them (R122). -/
def PortFlags.byte (f : PortFlags) : Byte :=
  (if f.resetSeen then 0x01 else 0) ||| (if f.frameError then 0x02 else 0) |||
    (if f.requestOverrun then 0x04 else 0) ||| (if f.eventOverflow then 0x08 else 0)

/-- The flags byte of an outbound frame: the port flags and MORE in bit 7 (R122). -/
def flagsByte (f : PortFlags) (more : Bool) : Byte := f.byte ||| (if more then 0x80 else 0)

/-- MORE: the reply queue and the event queue together hold at least two entries (R122). -/
def Port.more (p : Port) : Bool := decide (2 ≤ p.replies.length + p.events.length)

/-- The flags after the STATUS snapshot-and-clear (R115). -/
def PortFlags.cleared : PortFlags :=
  { resetSeen := false, frameError := false, requestOverrun := false, eventOverflow := false }

/-- The flags after a port reset: RESET_SEEN is set and the other three are clear (R156). -/
def PortFlags.afterReset : PortFlags :=
  { resetSeen := true, frameError := false, requestOverrun := false, eventOverflow := false }

/-- FRAME_ERROR is set (R119). -/
def Port.setFrameError (p : Port) : Port := { p with flags := { p.flags with frameError := true } }

/-- REQUEST_OVERRUN is set (R134, R149). -/
def Port.setRequestOverrun (p : Port) : Port := { p with flags := { p.flags with requestOverrun := true } }

/-- EVENT_OVERFLOW is set when an arrival was dropped or displaced an entry, and otherwise unchanged (R92, R96). -/
def Port.noteOverflow (p : Port) (lost : Bool) : Port :=
  { p with flags := { p.flags with eventOverflow := p.flags.eventOverflow || lost } }

/-- The port-side effects of a port reset: the queues are emptied, three flags are cleared and RESET_SEEN is set; the
configuration is kept (R156). -/
def Port.portReset (p : Port) : Port :=
  { p with requests := [], replies := [], events := [], flags := PortFlags.afterReset }

end Sys2Proof.Machine
end

