-- ==== Sys2Proof/Machine/Ops.lean ====
section
/-! DEFINITION. The shared operations at the ports and at the intake: event arrival (R92 to R95), reply placing (R101),
intake by rotation (R99 to R103), validation (R104 to R106), and the answering of a taken request. -/

namespace Sys2Proof.Machine

/-- The outcome of one step. -/
abbrev Result := Host.Outcome State Fault Refusal

/-! ### Access to the ports -/

/-- The two-wire port of a host, if its port is one. -/
def hostTwoWire : HostId → Option TwoWire
  | .a => some .a
  | .b => some .b
  | .c => none

/-- The queues, flags and configuration of a host's port. -/
def State.port (s : State) (h : HostId) : Port := s.ports.get h

/-- One port changed. -/
def State.mapPort (s : State) (h : HostId) (f : Port → Port) : State := { s with ports := s.ports.update h f }

/-- A two-wire port's own record. -/
def State.bus (s : State) (p : TwoWire) : TwoWireBus := s.twoWire.get p

/-- One two-wire port's own record changed. -/
def State.mapBus (s : State) (p : TwoWire) (f : TwoWireBus → TwoWireBus) : State :=
  { s with twoWire := s.twoWire.update p f }

/-- The port is RESETTING; Port C never is (R145). -/
def State.resetting (s : State) (h : HostId) : Bool :=
  match hostTwoWire h with
  | some p => decide ((s.bus p).state = .resetting)
  | none => false

/-- The outbound selection of a transfer in progress on a host's port (R131, R145). -/
def State.selection (s : State) (h : HostId) : Option OutSelection :=
  match hostTwoWire h with
  | some p =>
    match (s.bus p).state with
    | .sending out _ => some out
    | _ => none
  | none =>
    match s.fourWire.state with
    | .exchange _ _ out => some out
    | .deselected => none

/-- The head of a host's event queue is in transit (R93). -/
def State.eventInTransit (s : State) (h : HostId) : Bool :=
  match s.selection h with
  | some out => out.inTransit && decide (out.source = .event)
  | none => false

/-! ### Event arrival -/

/-- The list less its oldest LINE_EDGE, if it holds one. -/
def removeOldestEdge : List Event → Option (List Event)
  | [] => none
  | e :: es => if e.isLineEdge then some es else (removeOldestEdge es).map (e :: ·)

/-- The queue less its oldest LINE_EDGE that is not in transit, if it holds one (R92, R93). -/
def displaceEdge (headInTransit : Bool) : List Event → Option (List Event)
  | [] => none
  | e :: es => if headInTransit then (removeOldestEdge es).map (e :: ·) else removeOldestEdge (e :: es)

/-- The event queue after an arrival, and whether an event was dropped or displaced (R92). -/
def arrive (headInTransit : Bool) (queue : List Event) (e : Event) : List Event × Bool :=
  if queue.length < Config.eventPlaces then (queue ++ [e], false)
  else if e.isLineEdge then (queue, true)
  else
    match displaceEdge headInTransit queue with
    | some rest => (rest ++ [e], true)
    | none => (queue, true)

/-- An event is sent to a host's event queue: dropped at a RESETTING port (R95), else decided by R92. -/
def State.sendEvent (s : State) (h : HostId) (e : Event) : State :=
  if s.resetting h then s
  else
    let moved := arrive (s.eventInTransit h) (s.port h).events e
    s.mapPort h fun p => ({ p with events := moved.1 }).noteOverflow moved.2

/-- Events sent one after the other (R94). -/
def State.sendEvents (s : State) : List (HostId × Event) → State
  | [] => s
  | (h, e) :: rest => (s.sendEvent h e).sendEvents rest

/-! ### Replies -/

/-- A reply enters at the tail of a host's reply queue (R101). -/
def State.placeReply (s : State) (h : HostId) (r : Reply) : State :=
  s.mapPort h fun p => { p with replies := p.replies ++ [r] }

/-! ### Intake -/

/-- The port that follows in the rotation: B after A, C after B, A after C (R100). -/
def nextHost : HostId → HostId
  | .a => .b
  | .b => .c
  | .c => .a

/-- The order of a search that starts at a port (R100). -/
def searchOrder (h : HostId) : List HostId := [h, nextHost h, nextHost (nextHost h)]

/-- A port is eligible for intake (R99). -/
def State.eligible (s : State) (h : HostId) : Bool :=
  !(s.port h).requests.isEmpty && decide ((s.port h).replies.length < Config.replyPlaces) && !s.resetting h

/-- The slot's lease has run out and its expiry is to be taken (R32). -/
def Slot.expiryDue (x : Slot) : Bool :=
  match x.body with
  | .held _ _ _ (some l) => l.remaining == 0
  | _ => false

/-- The entry's wait has run out and its expiry is to be taken (R54). -/
def WaitEntry.expiryDue (e : WaitEntry) : Bool := e.remaining == some 0

/-- The expiries and notices that wait to be taken. A notice is sent when the port enters RESETTING and taken when it
leaves (R141, R142). -/
def State.dueNow (s : State) : List Due :=
  ((List.finRange 16).filter fun k => s.slots[k].expiryDue).map Due.lease ++
  (s.waitQueue.filter WaitEntry.expiryDue).map (fun e => Due.wait e.host e.tag) ++
  ([TwoWire.a, TwoWire.b].filter fun p => decide ((s.bus p).state = .resetting)).map Due.notice

/-- A due expiry or notice has already been overtaken by one request, so no further request is taken before it (R102,
R103). -/
def State.intakeHeld (s : State) : Bool := s.dueNow.any fun d => decide (d ∈ s.overtaken)

/-- The port at which the next request is taken (R100): none during a device reset (R98). -/
def State.nextPort (s : State) : Option HostId :=
  if s.inReset || s.intakeHeld then none else (searchOrder s.rotation).find? s.eligible

/-- The request that is taken next, with its port. -/
def State.nextRequest (s : State) : Option (HostId × Frame) :=
  match s.nextPort with
  | some h => (s.port h).requests.head?.map fun f => (h, f)
  | none => none

/-- An empty receive record (R133). -/
def RxRecord.empty : RxRecord := { bytes := [], len := none, sum := 0, mark := .unmarked }

/-- A place frees in the request queue of a port: a hold on it ends (R134), and the stuck time is measured from that end (R140). -/
def State.endHold (s : State) (h : HostId) : State :=
  match hostTwoWire h with
  | some p => s.mapBus p fun b =>
      match b.state with
      | .holding _ _ => { b with state := .receiving RxRecord.empty, stuckTime := 0 }
      | _ => b
  | none => s

/-- The head request of a port is taken: it leaves its queue, a hold on that port ends, the rotation pointer moves past
the port, and every due expiry and notice is overtaken (R100 to R103, R134). -/
def State.take (s : State) (h : HostId) : State :=
  { (s.mapPort h fun p => { p with requests := p.requests.tail }).endHold h with
    rotation := nextHost h
    overtaken := s.dueNow }

/-! ### Validation and answering -/

/-- Orders 2 and 3 of the validation of a defined opcode: the refusal, if one applies (R104). -/
def State.validate (s : State) (o : Opcode) (h : HostId) (f : Frame) : Option Status :=
  if !lengthAccepted o f.payload.length then some .badLength
  else if supervisorOnly o && s.supervisor != some h then some .notPermitted
  else none

/-- What the execution of a request leaves: the state before its reply is placed, the status and the payload. -/
structure Answer where
  state   : State
  status  : Status
  payload : List Byte

/-- A refusal: nothing is changed, and the reply carries no payload. -/
def State.refuse (s : State) (status : Status) : Answer := { state := s, status := status, payload := [] }

/-- Carried out, with no payload. -/
def State.done (s : State) : Answer := { state := s, status := .ok, payload := [] }

/-- Carried out, with a payload. -/
def State.answer (s : State) (payload : List Byte) : Answer := { state := s, status := .ok, payload := payload }

/-- The reply of an answer is placed, echoing the tag of the request (R101). The reply enters the reply queue and the
events of the answer their event queues, so the order of R30 between them is kept (log 14). -/
def Answer.place (a : Answer) (h : HostId) (f : Frame) : State :=
  a.state.placeReply h { tag := f.tag, status := a.status, payload := a.payload }

/-- The request of a given opcode is taken, if the next request is one, and what follows the take is `k`. -/
def State.onRequest (s : State) (o : Opcode) (k : HostId → Frame → State → State) : State :=
  match s.nextRequest with
  | some (h, f) =>
    if opcodeOf f.opcode = some o then
      match (s.take h).validate o h f with
      | some refusal => ((s.take h).refuse refusal).place h f
      | none => k h f (s.take h)
    else s
  | none => s

/-- A request that is answered: taken, validated, executed by `body`, and its reply placed (R101, R104). -/
def State.request (s : State) (o : Opcode) (body : HostId → Frame → State → Answer) : State :=
  s.onRequest o fun h f t => (body h f t).place h f

/-- An event that no device reset lets happen (R2, R98, R158): in a device reset nothing changes. -/
def State.running (s : State) (f : State → State) : State := if s.inReset then s else f s

end Sys2Proof.Machine
end

