-- ==== Sys2Proof/Machine/LineBank.lean ====
section
/-! DEFINITION. The Line Bank: pads (R3, R4), mode changes (R5), samples and edges (R6 to R9), filter writes (R8), safe states
(R12), and the Watch Table (R83, R84). -/

namespace Sys2Proof.Machine

/-! ### Line records -/

/-- The modes in which the raw level is sensed: all but DISCONNECTED (R3). -/
def Mode.sensed : Mode → Bool
  | .disconnected => false
  | .input => true
  | .pushPull => true
  | .openDrain => true

/-- The driven modes, PUSH_PULL and OPEN_DRAIN. -/
def Mode.driven : Mode → Bool
  | .disconnected => false
  | .input => false
  | .pushPull => true
  | .openDrain => true

/-- A change of mode with its effect on the filter (R5). `raw`: the raw level sensed at the pad in this event. -/
def LineRecord.enterMode (l : LineRecord) (m : Mode) (raw : Bool) : LineRecord :=
  match l.mode.sensed, m.sensed with
  | false, true => { l with mode := m, filtered := raw, settling := 0 }
  | true, false => { l with mode := m, filtered := false, settling := 0 }
  | _, _ => { l with mode := m }

/-- A write of the filter field (R8). -/
def LineRecord.writeFilter (l : LineRecord) (f : Filter) : LineRecord := { l with filter := f, settling := 0 }

/-- The safe state applied to a line (R12). -/
def LineRecord.applySafe (l : LineRecord) (raw : Bool) : LineRecord :=
  { (l.enterMode l.safe.mode raw).writeFilter .none with level := l.safe.level, pullUp := l.safe.pullUp }

/-- The number of differing samples a filter needs (R7). -/
def Filter.samples : Filter → Nat
  | .none => 1
  | .f10us => 10
  | .f100us => 100
  | .f1ms => 1000

/-- A sample of a line at a raw level (R6). -/
def LineRecord.sample (l : LineRecord) (raw : Bool) : LineRecord :=
  if !l.mode.sensed then l
  else if raw = l.filtered then { l with settling := 0 }
  else if l.filter.samples ≤ l.settling + 1 then { l with filtered := raw, settling := 0 }
  else { l with settling := l.settling + 1 }

/-! ### Line sets -/

/-- The lines of a set, changed each by `f`. -/
def State.onLines (s : State) (mask : LineMask) (f : Fin 32 → LineRecord → LineRecord) : State :=
  { s with lines := tabulate fun n => if mask.getLsbD n then f n s.lines[n] else s.lines[n] }

/-- The set of lines that satisfy a test. -/
def linesWhere (test : Fin 32 → Bool) : LineMask :=
  ((List.finRange 32).map fun n => if test n then BitVec.twoPow 32 n else 0).foldr (· ||| ·) 0

/-- The lines of a set take their safe states, in one application (R12). -/
def State.applySafeStates (s : State) (mask raw : LineMask) : State :=
  s.onLines mask fun n l => l.applySafe (raw.getLsbD n)

/-! ### Watches and edges -/

/-- A watch value matches an edge to the given level (R84). -/
def Edges.matches : Edges → Bool → Bool
  | .none, _ => false
  | .rising, level => level
  | .falling, level => !level
  | .both, _ => true

/-- One host's watch entries changed. -/
def State.mapWatches (s : State) (h : HostId) (f : Vector Edges 32 → Vector Edges 32) : State :=
  { s with watches := s.watches.update h f }

/-- The entries of one host for the lines of a set take a value (R85, R86). -/
def State.writeWatches (s : State) (h : HostId) (mask : LineMask) (e : Edges) : State :=
  s.mapWatches h fun w => tabulate fun n => if mask.getLsbD n then e else w[n]

/-- All 32 entries of one host become NONE (R88). -/
def State.clearWatches (s : State) (h : HostId) : State :=
  s.mapWatches h fun _ => tabulate fun _ => Edges.none

/-- An edge is offered to the Watch Table: one LINE_EDGE to each host whose entry matches (R9, R84). -/
def State.offerEdge (s : State) (n : Fin 32) (level : Bool) : State :=
  s.sendEvents ((([HostId.a, HostId.b, HostId.c].filter fun h => (s.watches.get h)[n].matches level)).map
    fun h => (h, Event.lineEdge n level s.time.count))

/-- A sample event of one line (R6, R9). -/
def State.sampleLine (s : State) (n : Fin 32) (raw : Bool) : State :=
  let l := s.lines[n].sample raw
  let t := { s with lines := s.lines.set n l }
  if l.filtered = s.lines[n].filtered then t else t.offerEdge n l.filtered

/-! ### What the pins show -/

/-- What a pad driver does (R3). -/
inductive PadDrive where
  | highZ | low | high
  deriving DecidableEq, Repr

/-- The pad driver of a line: high impedance for the whole of a device reset (R2, R3). -/
def State.padDrive (s : State) (n : Fin 32) : PadDrive :=
  if s.inReset then .highZ
  else
    match s.lines[n].mode, s.lines[n].level with
    | .pushPull, true => .high
    | .pushPull, false => .low
    | .openDrain, false => .low
    | _, _ => .highZ

/-- The weak pull-up at the pad of a line is connected (R2, R3). -/
def State.padPullUp (s : State) (n : Fin 32) : Bool :=
  !s.inReset && (decide (s.lines[n].mode = .input) || decide (s.lines[n].mode = .openDrain)) && s.lines[n].pullUp

/-- The attention output of a port is asserted (R153). It is computed from the state, so it follows every event (R154). -/
def State.attention (s : State) (h : HostId) : Bool :=
  let p := s.port h
  !s.inReset && !s.resetting h &&
    ((p.mask.replyWaiting && !p.replies.isEmpty) || (p.mask.eventWaiting && !p.events.isEmpty) ||
      (p.mask.requestRoom && decide (p.requests.length < Config.requestPlaces)))

/-- The port holds SCL low (R131, R134). -/
def State.sclHeldLow (s : State) (p : TwoWire) : Bool :=
  match (s.bus p).state with
  | .holding _ _ => true
  | _ => false

end Sys2Proof.Machine
end

