-- ==== Sys2Proof/Machine/PatternEngine.lean ====
section
/-! DEFINITION. The Pattern Engine: lanes (R66), the writing of levels (R69, R71), step ends (R70 to R72) and aborts (R77). -/

namespace Sys2Proof.Machine

/-- The slot a handle names (R23). -/
def handleSlot (handle : Byte) : Fin 16 := ⟨handle.toNat / 16, by have := handle.isLt; omega⟩

/-- The generation a handle names (R23). -/
def handleGen (handle : Byte) : BitVec 4 := handle.setWidth 4

/-- The handle of a slot at a generation: the slot number times 16 plus the generation (R23). -/
def handleOf (k : Fin 16) (gen : BitVec 4) : Byte := BitVec.ofNat 8 (k * 16 + gen.toNat)

/-- The bank of a line (R1). -/
def lineBank (n : Fin 32) : Fin 4 := ⟨n / 8, by omega⟩

/-- Line `n` is a lane of a lane mask on a bank (R65). -/
def isLane (bank : Fin 4) (lanes : Byte) (n : Fin 32) : Bool :=
  decide (lineBank n = bank) && lanes.getLsbD (n % 8)

/-- The lines of a lane mask on a bank: bit `j` is line `L8k+j` of bank `k` (R120). -/
def laneLines (bank : Fin 4) (lanes : Byte) : LineMask := lanes.setWidth 32 <<< (8 * bank.val)

/-- The lanes of a pattern. -/
def Pattern.lines (p : Pattern) : LineMask := laneLines p.bank p.lanes

/-- The lanes of every RUNNING pattern slot (R66). -/
def State.laneMask (s : State) : LineMask :=
  ((List.finRange 4).map fun i => (s.patterns[i].map Pattern.lines).getD 0).foldr (· ||| ·) 0

/-- The output levels of the lanes are written from a level byte, all together; no other field is written (R66, R69). -/
def State.writeLanes (s : State) (bank : Fin 4) (lanes level : Byte) : State :=
  { s with lines := tabulate fun n =>
      if isLane bank lanes n then { s.lines[n] with level := level.getLsbD (n % 8) } else s.lines[n] }

/-- The step of a pattern with the given number. -/
def Pattern.step (p : Pattern) (i : Nat) : PatternStep := p.steps.getD i { level := 0, duration := 1 }

/-- A pattern begins a step: the current step, the step time and the lanes' levels (R71, R72). -/
def State.beginStep (s : State) (i : Fin 4) (p : Pattern) (k : Nat) : State :=
  { s with patterns := s.patterns.set i (some { p with current := k, timeLeft := (p.step k).duration }) }.writeLanes
    p.bank p.lanes (p.step k).level

/-- The host that owns the holding a handle names, HELD or ENDED. -/
def State.ownerOf (s : State) (handle : Byte) : Option HostId :=
  match s.slots[handleSlot handle].body with
  | .held owner _ _ _ => some owner
  | .ended owner _ _ _ => some owner
  | .free => none

/-- The pattern is complete: the slot becomes IDLE and PATTERN_DONE goes to the owner of its holding (R72). -/
def State.completePattern (s : State) (i : Fin 4) (p : Pattern) : State :=
  let t := { s with patterns := s.patterns.set i none }
  match s.ownerOf p.handle with
  | some h => t.sendEvent h (.patternDone i p.handle p.tag)
  | none => t

/-- The step time of a RUNNING slot has gone to 0: its step end is to be taken (R70). -/
def State.stepDue (s : State) (i : Fin 4) : Bool :=
  match s.patterns[i] with
  | some p => decide (p.timeLeft = 0)
  | none => false

/-- The end of a step of a RUNNING slot (R71, R72). -/
def State.stepEnd (s : State) (i : Fin 4) : State :=
  match s.patterns[i] with
  | none => s
  | some p =>
    if p.current + 1 < p.steps.length then s.beginStep i p (p.current + 1)
    else
      match p.passes with
      | none => s.beginStep i p 0
      | some n => if n ≤ 1 then s.completePattern i p else s.beginStep i { p with passes := some (n - 1) } 0

/-- The RUNNING slots that `hit` selects become IDLE; the lanes are not written (R77). -/
def State.abortPatterns (s : State) (hit : Pattern → Bool) : State :=
  { s with patterns := tabulate fun i => (s.patterns[i]).filter fun p => !hit p }

/-- The PATTERN_ABORTED events of an abort, in ascending order of slot number (R77). -/
def State.abortEvents (s : State) (hit : Pattern → Bool) (owner : HostId) (cause : AbortCause) :
    List (HostId × Event) :=
  (List.finRange 4).filterMap fun i =>
    match s.patterns[i] with
    | some p => if hit p then some (owner, Event.patternAborted i p.handle p.tag cause) else none
    | none => none

end Sys2Proof.Machine
end

