-- ==== Sys2Proof/Machine/HoldingTable.lean ====
section
/-! DEFINITION. The Holding Table and the Wait Queue: ownership masks (R21), handles (R23, R24), grants (R25), the grant scan
(R58, R59), and the ways a holding ends (R26, R27, R29, R38, R42). -/

namespace Sys2Proof.Machine

/-! ### Ownership -/

/-- The lines that belong to a slot: none unless it is HELD (R21). -/
def Slot.lines (x : Slot) : LineMask :=
  match x.body with
  | .held _ lines _ _ => lines
  | .free => 0
  | .ended _ _ _ _ => 0

/-- The slot is FREE. -/
def Slot.isFree (x : Slot) : Bool :=
  match x.body with
  | .free => true
  | .held _ _ _ _ => false
  | .ended _ _ _ _ => false

/-- The slot is HELD by a host. -/
def Slot.heldBy (x : Slot) (h : HostId) : Bool :=
  match x.body with
  | .held owner _ _ _ => decide (owner = h)
  | .free => false
  | .ended _ _ _ _ => false

/-- The slot is ENDED with a host as owner. -/
def Slot.endedOf (x : Slot) (h : HostId) : Bool :=
  match x.body with
  | .ended owner _ _ _ => decide (owner = h)
  | .free => false
  | .held _ _ _ _ => false

/-- The union of line sets. -/
def unionLines (sets : List LineMask) : LineMask := sets.foldr (· ||| ·) 0

/-- The lines that belong to HELD slots. -/
def heldLines (t : Vector Slot 16) : LineMask := unionLines ((List.finRange 16).map fun k => t[k].lines)

/-- The lines that belong to HELD slots of a host. -/
def linesHeldBy (t : Vector Slot 16) (h : HostId) : LineMask :=
  unionLines ((List.finRange 16).map fun k => if t[k].heldBy h then t[k].lines else 0)

/-- The lowest-numbered FREE slot (R25). -/
def lowestFree (t : Vector Slot 16) : Option (Fin 16) := (List.finRange 16).find? fun k => t[k].isFree

/-- The lines named by waiting entries. -/
def waitingLines (q : List WaitEntry) : LineMask := unionLines (q.map WaitEntry.lines)

/-- The waiting entries of a host, oldest first. -/
def waitsOf (q : List WaitEntry) (h : HostId) : List WaitEntry := q.filter fun e => decide (e.host = h)

/-- The handle of the holding in a slot. -/
def slotHandle (t : Vector Slot 16) (k : Fin 16) : Byte := handleOf k t[k].gen

/-! ### Grants -/

/-- The lease of a claim: absent when the claim gave 0 (R25). -/
def leaseOf (period : Nat) : Option Lease :=
  if period = 0 then none else some { period := period, remaining := period }

/-- A claim is placed in a slot, whose generation is increased by 1 (R25). -/
def grantInto (t : Vector Slot 16) (k : Fin 16) (h : HostId) (lines : LineMask) (tag : Byte) (period : Nat) :
    Vector Slot 16 :=
  t.set k { gen := t[k].gen + 1, body := .held h lines tag (leaseOf period) }

/-- The slot an entry is granted into when the walk reaches it, if it is granted (R58). -/
def grantSlot (t : Vector Slot 16) (blocked : LineMask) (e : WaitEntry) : Option (Fin 16) :=
  if e.lines &&& heldLines t = 0 ∧ e.lines &&& blocked = 0 then lowestFree t else none

/-- What a walk over the Wait Queue leaves: the table, the entries that stay, and the GRANTED events in grant order. -/
structure Walk where
  slots  : Vector Slot 16
  kept   : List WaitEntry
  events : List (HostId × Event)

/-- The walk over the Wait Queue from the oldest entry to the newest, with its blocked set (R58, R59). -/
def grantWalk : List WaitEntry → LineMask → Vector Slot 16 → Walk
  | [], _, t => { slots := t, kept := [], events := [] }
  | e :: es, blocked, t =>
    match grantSlot t blocked e with
    | some k =>
      let u := grantInto t k e.host e.lines e.tag e.period
      let w := grantWalk es blocked u
      { w with events := (e.host, .granted e.tag (slotHandle u k)) :: w.events }
    | none =>
      let w := grantWalk es (blocked ||| e.lines) t
      { w with kept := e :: w.kept }

/-- The grant scan (R58). -/
def State.grantScan (s : State) : State :=
  let w := grantWalk s.waitQueue 0 s.slots
  { s with slots := w.slots, waitQueue := w.kept }.sendEvents w.events

/-! ### The ends of holdings -/

/-- The pattern runs under a handle. -/
def Pattern.under (handle : Byte) (p : Pattern) : Bool := decide (p.handle = handle)

/-- A slot becomes FREE; its generation is kept (R26, R29). -/
def State.freeSlot (s : State) (k : Fin 16) : State :=
  { s with slots := s.slots.set k { s.slots[k] with body := .free } }

/-- A holding goes from HELD to FREE: its patterns are aborted, its lines take their safe states and the slot becomes FREE
(R26 steps 1 to 3). The PATTERN_ABORTED events go to the owner, except under a port reset, where `cause` is absent. -/
def State.releaseHolding (s : State) (k : Fin 16) (raw : LineMask) (cause : Option AbortCause) : State :=
  match s.slots[k].body with
  | .held owner lines _ _ =>
    let hit := Pattern.under (slotHandle s.slots k)
    let t := ((s.abortPatterns hit).freeSlot k).applySafeStates lines raw
    match cause with
    | some c => t.sendEvents (s.abortEvents hit owner c)
    | none => t
  | _ => s

/-- The abort cause of an ending (R78). -/
def EndCause.abort : EndCause → AbortCause
  | .leaseExpired => .leaseExpired
  | .revoked => .revoked

/-- The ownership event of an ending (R27 step 4). -/
def EndCause.event (c : EndCause) (handle tag : Byte) : Event :=
  match c with
  | .leaseExpired => .leaseExpired handle tag
  | .revoked => .revoked handle tag

/-- A holding goes from HELD to ENDED (R27 steps 1 to 4). -/
def State.endHolding (s : State) (k : Fin 16) (raw : LineMask) (cause : EndCause) : State :=
  match s.slots[k].body with
  | .held owner lines tag lease =>
    let handle := slotHandle s.slots k
    let hit := Pattern.under handle
    let t := s.abortPatterns hit
    let u := { t with slots := t.slots.set k { t.slots[k] with body := .ended owner tag lease cause } }
    (u.applySafeStates lines raw).sendEvents (s.abortEvents hit owner cause.abort ++ [(owner, cause.event handle tag)])
  | _ => s

/-- Lines leave a holding that keeps others: each pattern under the handle with a lane among them is aborted, and the lines
take their safe states (R38 steps 1 and 2). -/
def State.trimHolding (s : State) (k : Fin 16) (named raw : LineMask) : State :=
  match s.slots[k].body with
  | .held owner lines tag lease =>
    let hit := fun p : Pattern => p.under (slotHandle s.slots k) && decide (p.lines &&& named ≠ 0)
    let t := s.abortPatterns hit
    let u := { t with slots := t.slots.set k { t.slots[k] with body := .held owner (lines &&& ~~~named) tag lease } }
    (u.applySafeStates named raw).sendEvents (s.abortEvents hit owner .trimmed)
  | _ => s

/-- A RESET_PORT or a notice acts on one slot of the reset host under the RELEASE policy (R42). -/
def State.dropSlot (s : State) (h : HostId) (raw : LineMask) (k : Fin 16) : State :=
  if s.slots[k].heldBy h then s.releaseHolding k raw none
  else if s.slots[k].endedOf h then s.freeSlot k
  else s

/-- The reset policy in the port's record is applied to the host's holdings, in ascending slot order (R42). -/
def State.applyPolicy (s : State) (h : HostId) (raw : LineMask) : State :=
  match (s.port h).policy with
  | .keep => s
  | .release => (List.finRange 16).foldl (fun t k => t.dropSlot h raw k) s

/-- Every waiting entry of a host is withdrawn, with no frame (R62). -/
def State.withdrawWaits (s : State) (h : HostId) : State :=
  { s with waitQueue := s.waitQueue.filter fun e => decide (e.host ≠ h) }

/-- The Claim Controller's part of a port reset, up to the grant scan (R157 steps 1 to 4). -/
def State.resetContext (s : State) (h : HostId) (raw : LineMask) : State :=
  (((s.withdrawWaits h).clearWatches h).applyPolicy h raw).grantScan

/-! ### Handle checks -/

/-- The slot a valid handle names: HELD or ENDED, at the handle's generation (R23). -/
def State.validSlot (s : State) (handle : Byte) : Option (Fin 16) :=
  let k := handleSlot handle
  if !s.slots[k].isFree && s.slots[k].gen == handleGen handle then some k else none

/-- The handle checks of every request but REVOKE (R24, R29). `k` is what follows on a HELD slot of the requester. -/
def State.withHolding (s : State) (h : HostId) (handle : Byte)
    (k : Fin 16 → LineMask → Option Lease → Answer) : Answer :=
  match s.validSlot handle with
  | none => s.refuse .staleHandle
  | some i =>
    match s.slots[i].body with
    | .free => s.refuse .staleHandle
    | .held owner lines _ lease => if owner = h then k i lines lease else s.refuse .notOwner
    | .ended owner _ _ cause =>
      if owner = h then
        { state := (s.freeSlot i).grantScan, status := .ended, payload := [endCauseByte cause] }
      else s.refuse .notOwner

end Sys2Proof.Machine
end

