-- ==== Sys2Proof/Machine/ClaimRequests.lean ====
section
/-! DEFINITION. CLAIM_NOW, CLAIM_WAIT and CANCEL_WAIT (chapter 3). -/

namespace Sys2Proof.Machine

/-- How a claim for lines at once is decided (R44). -/
inductive ClaimVerdict where
  | refused (status : Status) (payload : List Byte)
  | granted (slot : Fin 16)
  deriving DecidableEq, Repr

/-- The conditions of R44, in their order. -/
def State.claimVerdict (s : State) (lines : LineMask) (period : Nat) : ClaimVerdict :=
  if lines = 0 ∨ Config.maxLease < period then .refused .badArgument []
  else if lines &&& heldLines s.slots ≠ 0 then .refused .linesHeld (maskBytes (lines &&& heldLines s.slots))
  else if lines &&& waitingLines s.waitQueue ≠ 0 then
    .refused .contended (maskBytes (lines &&& waitingLines s.waitQueue))
  else
    match lowestFree s.slots with
    | none => .refused .noSlot []
    | some k => .granted k

/-- A claim granted at once: the slot is written and the reply carries the new handle (R25, R44, R48). -/
def State.grantClaim (s : State) (k : Fin 16) (h : HostId) (lines : LineMask) (tag : Byte) (period : Nat) : Answer :=
  let t := { s with slots := grantInto s.slots k h lines tag period }
  t.answer [slotHandle t.slots k]

/-- CLAIM_NOW (R44). -/
def execClaimNow (s : State) : Result :=
  .next (s.request .claimNow fun h f t =>
    match t.claimVerdict (f.maskAt 0) (f.halfAt 4).toNat with
    | .refused status payload => { state := t, status := status, payload := payload }
    | .granted k => t.grantClaim k h (f.maskAt 0) f.tag (f.halfAt 4).toNat)

/-- The waiting entry a CLAIM_WAIT creates (R49). -/
def waitEntryOf (h : HostId) (f : Frame) : WaitEntry :=
  { host := h, tag := f.tag, lines := f.maskAt 0, period := (f.halfAt 4).toNat
    remaining := if f.byteAt 6 = 0 then none else some (f.byteAt 6).toNat }

/-- A CLAIM_WAIT that was not granted: orders 5 to 7 of R47 (R49). -/
def State.queueClaim (s : State) (h : HostId) (f : Frame) : Answer :=
  if Config.waitPlaces ≤ s.waitQueue.length then s.refuse .queueFull
  else if Config.waitPlacesPerHost ≤ (waitsOf s.waitQueue h).length then s.refuse .hostLimit
  else
    { state := { s with waitQueue := s.waitQueue ++ [waitEntryOf h f] }
      status := .queued
      payload := [countByte (s.waitQueue.length + 1)] }

/-- CLAIM_WAIT (R47 to R49). -/
def execClaimWait (s : State) : Result :=
  .next (s.request .claimWait fun h f t =>
    if f.maskAt 0 = 0 ∨ Config.maxLease < (f.halfAt 4).toNat then t.refuse .badArgument
    else if f.maskAt 0 &&& linesHeldBy t.slots h ≠ 0 then t.refuse .selfHeld
    else if (waitsOf t.waitQueue h).any (fun e => e.tag == f.tag) then t.refuse .duplicateTag
    else
      match t.claimVerdict (f.maskAt 0) (f.halfAt 4).toNat with
      | .granted k => t.grantClaim k h (f.maskAt 0) f.tag (f.halfAt 4).toNat
      | .refused _ _ => t.queueClaim h f)

/-- The waiting entry of a host with a tag leaves the Wait Queue (R54, R56). -/
def State.removeWait (s : State) (h : HostId) (tag : Byte) : State :=
  { s with waitQueue := s.waitQueue.filter fun e => !(decide (e.host = h) && e.tag == tag) }

/-- CANCEL_WAIT (R56). -/
def execCancelWait (s : State) : Result :=
  .next (s.request .cancelWait fun h f t =>
    if (waitsOf t.waitQueue h).any (fun e => e.tag == f.byteAt 0) then
      ((t.removeWait h (f.byteAt 0)).grantScan).done
    else t.refuse .notFound)

end Sys2Proof.Machine
end

