-- ==== Sys2Proof/Machine/Transfers.lean ====
section
/-! DEFINITION. What both port types do with frames: the judging of an inbound byte by its place (R118, R119, R135, R148), the
selection of the outbound frame (R122, R123), its sending (R138, R146) and its removal or abandonment (R124, R143, R150). -/

namespace Sys2Proof.Machine

/-! ### Inbound -/

/-- How a byte of an inbound frame is judged (R135, R148). -/
inductive Verdict where
  | nop | accepted | badLength | good | badCheck
  deriving DecidableEq, Repr

/-- A byte judged by its place in the frame: opcode, tag, length, payload or check (R135, R148). -/
def RxRecord.judge (r : RxRecord) (b : Byte) : Verdict :=
  if r.bytes.length = 0 then (if b = 0 then .nop else .accepted)
  else if r.bytes.length = 2 then (if b.toNat ≤ Config.maxPayload then .accepted else .badLength)
  else if r.bytes.length = (r.len.getD 0).toNat + 3 then
    (if r.sum + b = 0 then .good else .badCheck)
  else .accepted

/-- The mark a judgement leaves (R135, R148). -/
def Verdict.mark : Verdict → RxMark
  | .nop => .nop
  | .accepted => .unmarked
  | .badLength => .error
  | .good => .done
  | .badCheck => .error

/-- The record after a byte is counted and added to the running sum; a third byte up to 32 is recorded as the length (R135, R148). -/
def RxRecord.keep (r : RxRecord) (b : Byte) : RxRecord :=
  { r with
    bytes := r.bytes ++ [b]
    sum := r.sum + b
    len := if r.bytes.length = 2 ∧ b.toNat ≤ Config.maxPayload then some b else r.len }

/-- The request frame in the bytes received (R118). -/
def RxRecord.frame (r : RxRecord) : Frame :=
  { opcode := r.bytes.getD 0 0
    tag := r.bytes.getD 1 0
    payload := (r.bytes.drop 3).take (r.len.getD 0).toNat }

/-- The record after a byte received with no mark: counted, summed and judged (R135, R148). The record stays whole under its mark;
the mark says that the frame is discarded (ERROR), a NOP, or a request already judged good (DONE, COMPLETE). -/
def RxRecord.receive (r : RxRecord) (b : Byte) : RxRecord := { r.keep b with mark := (r.judge b).mark }

/-- The frame was broken off: at least one byte received and no mark (R137, R149). -/
def RxRecord.broken (r : RxRecord) : Bool := decide (r.mark = .unmarked) && !r.bytes.isEmpty

/-- A request frame is appended to the request queue (R118). -/
def Port.appendRequest (p : Port) (f : Frame) : Port := { p with requests := p.requests ++ [f] }

/-! ### Outbound -/

/-- The outbound frame selected at the start of a transfer, with its flags byte and check byte as formed (R121 to R123). -/
def Port.select (p : Port) : OutSelection :=
  let flags := flagsByte p.flags p.more
  match p.replies, p.events with
  | r :: _, _ =>
    { source := .reply, bytes := outboundFrame 0x01 flags r.tag (statusByte r.status) r.payload, sent := 0
      inTransit := true }
  | [], e :: _ =>
    { source := .event, bytes := outboundFrame 0x02 flags (eventCode e) 0x00 (eventPayload e), sent := 0
      inTransit := true }
  | [], [] =>
    { source := .empty, bytes := outboundFrame 0x00 flags 0x00 0x00 [], sent := 0, inTransit := false }

/-- The byte shifted out next: 0xFF once nothing of the frame is left (R138, R146). -/
def OutSelection.next (o : OutSelection) : Byte := o.bytes.getD o.sent 0xFF

/-- The level of SDOC; absent is high impedance (R144, R145). From the fall of SELC it is the most significant bit of the first
outbound byte. Later it is the bit that the last rising edge sampled: bit `bits` of a byte under way, counted from 1 at the most
significant, or the last bit of the byte shifted out (log 11). -/
def State.sdoc (s : State) : Option Bool :=
  match s.fourWire.state with
  | .exchange rx bits out =>
    some (if bits ≠ 0 then out.next.getMsbD (bits.val - 1)
      else if rx.bytes = [] then out.next.getMsbD 0
      else s.fourWire.tx.getLsbD 0)
  | .deselected => none

/-- One byte of the frame has been sent. -/
def OutSelection.advance (o : OutSelection) : OutSelection :=
  { o with sent := if o.sent < o.bytes.length then o.sent + 1 else o.sent }

/-- The whole frame through its check byte has been sent (R124). -/
def OutSelection.complete (o : OutSelection) : Bool := o.sent == o.bytes.length

/-- The head of the queue the frame was selected from is removed (R124). -/
def Port.removeHead (p : Port) (source : OutSource) : Port :=
  match source with
  | .reply => { p with replies := p.replies.tail }
  | .event => { p with events := p.events.tail }
  | .empty => p

/-- A frame in transit is abandoned by a RESET_PORT: the byte under way, if any, is completed and every further byte reads
0xFF. An EMPTY frame and a frame already removed go on unchanged (R143, R150). -/
def OutSelection.abandon (o : OutSelection) (underWay : Bool) : OutSelection :=
  if o.inTransit then
    { o with bytes := o.bytes.take (if underWay then o.sent + 1 else o.sent), inTransit := false }
  else o

/-- A byte of the selected frame is being shifted out. On Port C the first byte is, from the fall of SELC on, since its most
significant bit stands on SDOC (R144); else one is once a bit of it has been clocked (log 10). -/
def OutSelection.underWay (o : OutSelection) (h : HostId) (bits : Fin 8) : Bool :=
  decide (bits ≠ 0) || (decide (h = .c) && decide (o.sent = 0))

/-- A RESET_PORT acts on the transfer in progress on its port, and on nothing else of the bus (R143, R150). -/
def State.abandonTransfer (s : State) (h : HostId) (bits : Fin 8) : State :=
  match hostTwoWire h with
  | some p => s.mapBus p fun b =>
      match b.state with
      | .sending out refused => { b with state := .sending (out.abandon (out.underWay h bits)) refused }
      | _ => b
  | none =>
    match s.fourWire.state with
    | .exchange rx _ out =>
      { s with fourWire := { s.fourWire with state := .exchange rx bits (out.abandon (out.underWay h bits)) } }
    | .deselected => s

end Sys2Proof.Machine
end

