-- ==== Sys2Proof/Machine/DeviceReset.lean ====
section
/-! DEFINITION. The device reset (R2, R111, R158), its release (R108, R112, R130, R158) and the commands RESETN_LOW, SUPPLY_LOSS
and RESET_RELEASE. -/

namespace Sys2Proof.Machine

/-- Every block takes its device reset values, and the part is in reset. The straps latched, the supervisor designation and the
reset cause keep their values until the release (R108, R112, R130); the SELC pin is the host's (log 8), and the model's count of
microseconds goes on (log 15). -/
def State.deviceReset (s : State) : State :=
  { State.reset with
    pending := s.pending
    inReset := true
    since := s.since
    micros := s.micros
    selcLow := s.selcLow
    adr := s.adr
    supervisor := s.supervisor
    resetCause := s.resetCause }

/-- The supervisor designation the straps give (R108). -/
def supervisorOf (sup : BitVec 2) : Option HostId :=
  if sup = 0 then none
  else if sup = 1 then some .a
  else if sup = 2 then some .b
  else some .c

/-- The reset cause recorded at a release (R112). -/
def ResetHistory.cause (r : ResetHistory) : ResetCause :=
  if r.supply then .powerOn
  else if r.pin then .pin
  else .command

/-- The reset release: the straps are sampled, the cause is recorded and every block comes up with its reset values (R158). -/
def State.releaseReset (s : State) (adr sup : BitVec 2) : State :=
  { State.reset with
    pending := s.pending
    micros := s.micros
    selcLow := s.selcLow
    adr := adr
    supervisor := supervisorOf sup
    resetCause := s.since.cause }

/-- RESETN_LOW (R2, R112). -/
def execResetnLow (s : State) : Result :=
  .next { s.deviceReset with since := { s.since with pin := true } }

/-- SUPPLY_LOSS: a power-on reset begins (R2, R112, R158). -/
def execSupplyLoss (s : State) : Result :=
  .next { s.deviceReset with since := { s.since with supply := true } }

/-- RESET_RELEASE: only a part in reset is released (R158). -/
def execResetRelease (adr sup : BitVec 2) (s : State) : Result :=
  .next (if s.inReset then s.releaseReset adr sup else s)

end Sys2Proof.Machine
end

