-- ==== Sys2Proof/Machine/DeviceRequests.lean ====
section
/-! DEFINITION. The requests that belong to the Claim Controller and the ports: IDENTIFY, STATUS, CONFIG_PORT, RESET_PORT,
REVOKE, FULL_RESET, and a request with an unknown opcode. -/

namespace Sys2Proof.Machine

/-- The payload of an IDENTIFY reply (R113). -/
def State.identifyPayload (s : State) (h : HostId) : List Byte :=
  halfBytes Config.partCode ++
  [Config.revision, supervisorByte s.supervisor, hostByte h, resetCauseByte s.resetCause] ++
  halfBytes s.time.count

/-- IDENTIFY (R113). -/
def execIdentify (s : State) : Result :=
  .next (s.request .identify fun h _ t => t.answer (t.identifyPayload h))

/-- The number of a host's HELD slots (R114). -/
def heldCount (t : Vector Slot 16) (h : HostId) : Nat := (List.finRange 16).countP fun k => t[k].heldBy h

/-- The number of a host's ENDED slots (R114). -/
def endedCount (t : Vector Slot 16) (h : HostId) : Nat := (List.finRange 16).countP fun k => t[k].endedOf h

/-- The payload of a STATUS reply, taken after the STATUS has left its request queue and before its reply is placed (R114). -/
def State.statusPayload (s : State) (h : HostId) : List Byte :=
  [ (s.port h).flags.byte
  , countByte (s.port h).requests.length
  , countByte (s.port h).replies.length
  , countByte (s.port h).events.length
  , countByte (waitsOf s.waitQueue h).length
  , countByte (heldCount s.slots h)
  , countByte (endedCount s.slots h) ]

/-- STATUS, with the snapshot-and-clear of the port flags (R114, R115). -/
def execStatus (s : State) : Result :=
  .next (s.request .status fun h _ t =>
    (t.mapPort h fun p => { p with flags := PortFlags.cleared }).answer (t.statusPayload h))

/-- The configuration record of a port is written; Port C keeps no hold mode (R151, R152). -/
def State.writeConfig (s : State) (h : HostId) (m : AttentionMask) (mode : HoldMode) (policy : ResetPolicy) : State :=
  let t := s.mapPort h fun p => { p with mask := m, policy := policy }
  match hostTwoWire h with
  | some p => t.mapBus p fun b => { b with holdMode := mode }
  | none => t

/-- CONFIG_PORT (R152). -/
def execConfigPort (s : State) : Result :=
  .next (s.request .configPort fun h f t =>
    match attentionMaskOf (f.byteAt 0), holdModeOf (f.byteAt 1), policyOf (f.byteAt 2) with
    | some m, some mode, some policy => (t.writeConfig h m mode policy).done
    | _, _, _ => t.refuse .badArgument)

/-- RESET_PORT (R116, R143, R150, R157). -/
def execResetPort (raw : LineMask) (bits : Fin 8) (s : State) : Result :=
  .next (s.request .resetPort fun h _ t =>
    (((t.mapPort h Port.portReset).abandonTransfer h bits).resetContext h raw).done)

/-- REVOKE (R41, R110). -/
def execRevoke (raw : LineMask) (s : State) : Result :=
  .next (s.request .revoke fun _ f t =>
    match t.validSlot (f.byteAt 0) with
    | none => t.refuse .staleHandle
    | some k =>
      match t.slots[k].body with
      | .free => t.refuse .staleHandle
      | .held _ _ _ _ => ((t.endHolding k raw .revoked).grantScan).done
      | .ended _ _ _ _ => ((t.freeSlot k).grantScan).done)

/-- FULL_RESET: a device reset with cause COMMAND begins, and no reply is placed (R111, R112). -/
def execFullReset (s : State) : Result :=
  .next (s.onRequest .fullReset fun _ _ t => { t.deviceReset with since := { t.since with command := true } })

/-- A request whose opcode is not defined is answered BAD_OPCODE, whatever its length (R104). -/
def execUnknownOpcodeRequest (s : State) : Result :=
  .next (match s.nextRequest with
    | some (h, f) => if opcodeOf f.opcode = none then ((s.take h).refuse .badOpcode).place h f else s
    | none => s)

end Sys2Proof.Machine
end

