-- ==== Sys2Proof/Machine/FourWirePort.lean ====
section
/-! DEFINITION. The four-wire port C (chapter 9): SELC_FALL, EXCHANGE_BYTE and SELC_RISE. -/

namespace Sys2Proof.Machine

/-- SELC_FALL: an exchange starts, with the outbound frame selected (R145, R146). While a device reset lasts the port ignores
SELC; the level of the pin is followed all the same, so that an exchange starts only at a fall seen after SELC was high. -/
def execSelcFall (s : State) : Result :=
  .next (if s.selcLow then s
    else if s.inReset then { s with selcLow := true }
    else { s with
      selcLow := true
      fourWire := { s.fourWire with state := .exchange RxRecord.empty 0 (s.port .c).select } })

/-- The inbound half of a byte of an exchange (R148). -/
def State.exchangeIn (s : State) (rx : RxRecord) (byte : Byte) : State :=
  match rx.mark, rx.judge byte with
  | .unmarked, .badLength => s.mapPort .c Port.setFrameError
  | .unmarked, .badCheck => s.mapPort .c Port.setFrameError
  | _, _ => s

/-- The receive record after a byte of an exchange: once a mark is set, later bytes are ignored (R148). -/
def RxRecord.exchanged (rx : RxRecord) (byte : Byte) : RxRecord :=
  match rx.mark with
  | .unmarked => rx.receive byte
  | _ => rx

/-- EXCHANGE_BYTE (R146, R148). -/
def execExchangeByte (byte : Byte) (s : State) : Result :=
  .next (s.running fun t =>
    match t.fourWire.state with
    | .exchange rx _ out =>
      { t.exchangeIn rx byte with
        fourWire := { state := .exchange (rx.exchanged byte) 0 out.advance, tx := out.next } }
    | .deselected => t)

/-- The outbound half ends: a reply or event sent whole is removed (R147). -/
def Port.endOutbound (p : Port) (out : OutSelection) : Port :=
  if out.inTransit && out.complete then p.removeHead out.source else p

/-- The inbound half ends, and the frame is disposed of by its receive record (R149). -/
def Port.endInbound (p : Port) (rx : RxRecord) : Port :=
  match rx.mark with
  | .done => if p.requests.length < Config.requestPlaces then p.appendRequest rx.frame else p.setRequestOverrun
  | .unmarked => if rx.broken then p.setFrameError else p
  | .nop => p
  | .error => p
  | .overrun => p

/-- SELC_RISE (R145, R147, R149). The bits of a partial byte change no outcome. -/
def execSelcRise (_bits : Fin 8) (s : State) : Result :=
  .next (if s.inReset then { s with selcLow := false }
    else
      match s.fourWire.state with
      | .exchange rx _ out =>
        { (s.mapPort .c fun p => (p.endOutbound out).endInbound rx) with
          selcLow := false
          fourWire := { s.fourWire with state := .deselected } }
      | .deselected => { s with selcLow := false })

end Sys2Proof.Machine
end

