-- ==== Sys2Proof/Machine/HoldingRequests.lean ====
section
/-! DEFINITION. RELEASE, TRIM, RENEW, QUERY_HOLDING and LIST_HOLDINGS (chapter 2). -/

namespace Sys2Proof.Machine

/-- RELEASE (R36). -/
def execRelease (raw : LineMask) (s : State) : Result :=
  .next (s.request .release fun h f t =>
    t.withHolding h (f.byteAt 0) fun k _ _ => ((t.releaseHolding k raw (some .released)).grantScan).done)

/-- TRIM (R37, R38). -/
def execTrim (raw : LineMask) (s : State) : Result :=
  .next (s.request .trim fun h f t =>
    t.withHolding h (f.byteAt 0) fun k lines _ =>
      let named := f.maskAt 1
      if named = 0 ∨ named &&& ~~~lines ≠ 0 then t.refuse .badArgument
      else if named = lines then
        ((t.releaseHolding k raw (some .released)).grantScan).answer (maskBytes 0)
      else ((t.trimHolding k named raw).grantScan).answer (maskBytes (lines &&& ~~~named)))

/-- The lease after a RENEW with a period in range (R34): 0xFFFF keeps the present period. -/
def renewedLease (lease : Option Lease) (period : Half) : Option Lease :=
  if period = 0xFFFF then lease.map fun l => { l with remaining := l.period } else leaseOf period.toNat

/-- The lease of a HELD slot is written (R34). -/
def State.writeLease (s : State) (k : Fin 16) (lease : Option Lease) : State :=
  match s.slots[k].body with
  | .held owner lines tag _ => { s with slots := s.slots.set k { s.slots[k] with body := .held owner lines tag lease } }
  | _ => s

/-- The lease period as a reply reports it: 0 for an unleased holding (R34, R39). -/
def periodOf (lease : Option Lease) : Nat := (lease.map Lease.period).getD 0

/-- The lease remaining as a reply reports it: 0 for an unleased holding (R39). -/
def remainingOf (lease : Option Lease) : Nat := (lease.map Lease.remaining).getD 0

/-- RENEW (R34). -/
def execRenew (s : State) : Result :=
  .next (s.request .renew fun h f t =>
    t.withHolding h (f.byteAt 0) fun k _ lease =>
      let period := f.halfAt 1
      if Config.maxLease < period.toNat ∧ period ≠ 0xFFFF then t.refuse .badArgument
      else
        (t.writeLease k (renewedLease lease period)).answer
          (halfBytes (BitVec.ofNat 16 (periodOf (renewedLease lease period)))))

/-- The fields of a full record that stand after its owner: tag, line set, lease period, lease remaining, end cause (R39). -/
def recordTail (tag : Byte) (lines : LineMask) (lease : Option Lease) (cause : Byte) : List Byte :=
  [tag] ++ maskBytes lines ++ halfBytes (BitVec.ofNat 16 (periodOf lease)) ++
    halfBytes (BitVec.ofNat 16 (remainingOf lease)) ++ [cause]

/-- The reply to a QUERY_HOLDING of a slot (R39). -/
def State.queryAnswer (s : State) (h : HostId) (k : Fin 16) : Answer :=
  let x := s.slots[k]
  let head := [countByte k, slotStateByte x.body]
  match x.body with
  | .free => s.answer head
  | .held owner lines tag lease =>
    if owner = h ∨ s.supervisor = some h then
      s.answer (head ++ [x.gen.setWidth 8, hostByte owner] ++ recordTail tag lines lease 0x00)
    else s.refuse .notOwner
  | .ended owner tag lease cause =>
    if owner = h ∨ s.supervisor = some h then
      s.answer (head ++ [x.gen.setWidth 8, hostByte owner] ++ recordTail tag 0 lease (endCauseByte cause))
    else s.refuse .notOwner

/-- QUERY_HOLDING (R39). -/
def execQueryHolding (s : State) : Result :=
  .next (s.request .queryHolding fun h f t =>
    if hk : (f.byteAt 0).toNat < 16 then t.queryAnswer h ⟨(f.byteAt 0).toNat, hk⟩ else t.refuse .badArgument)

/-- The 16-slot mask of the slots that satisfy a test: bit `s` stands for `Hs` (R120). -/
def slotsWhere (test : Fin 16 → Bool) : Half :=
  ((List.finRange 16).map fun k => if test k then BitVec.twoPow 16 k else 0).foldr (· ||| ·) 0

/-- The payload of a LIST_HOLDINGS reply (R40). -/
def State.listPayload (s : State) (h : HostId) : List Byte :=
  halfBytes (slotsWhere fun k => s.slots[k].heldBy h) ++ halfBytes (slotsWhere fun k => s.slots[k].endedOf h) ++
    [countByte (waitsOf s.waitQueue h).length] ++ (waitsOf s.waitQueue h).map WaitEntry.tag

/-- LIST_HOLDINGS (R40). -/
def execListHoldings (s : State) : Result :=
  .next (s.request .listHoldings fun h _ t => t.answer (t.listPayload h))

end Sys2Proof.Machine
end

