-- ==== Sys2Proof/Machine/LineRequests.lean ====
section
/-! DEFINITION. SET_MODE, SET_FILTER, DRIVE, SET_SAFE and SAMPLE (chapter 1), WATCH and UNWATCH (chapter 5). -/

namespace Sys2Proof.Machine

/-- Checks 2 and 3 of R13, after check 1 has found at least one line: the refusal, if one applies. -/
def State.lineRefusal (s : State) (h : HostId) (mask : LineMask) : Option Status :=
  if mask &&& ~~~(linesHeldBy s.slots h) ≠ 0 then some .notOwner
  else if mask &&& s.laneMask ≠ 0 then some .lineBusy
  else none

/-- SET_MODE, SET_FILTER and DRIVE: the checks of R13, then the change of every named line. `change` is absent where a field
holds none of its defined values. -/
def State.changeLines (s : State) (h : HostId) (mask : LineMask)
    (change : Option (Fin 32 → LineRecord → LineRecord)) : Answer :=
  match change with
  | none => s.refuse .badArgument
  | some f =>
    if mask = 0 then s.refuse .badArgument
    else
      match s.lineRefusal h mask with
      | some refusal => s.refuse refusal
      | none => (s.onLines mask f).done

/-- What SET_MODE does to a line (R5, R14). -/
def LineRecord.setMode (l : LineRecord) (m : Mode) (pullUp raw : Bool) : LineRecord :=
  { l.enterMode m raw with pullUp := pullUp }

/-- SET_MODE (R13, R14). -/
def execSetMode (raw : LineMask) (s : State) : Result :=
  .next (s.request .setMode fun h f t =>
    t.changeLines h (f.maskAt 0)
      (match modeOf (f.byteAt 4), bitOf (f.byteAt 5) with
        | some m, some pullUp => some fun n l => l.setMode m pullUp (raw.getLsbD n)
        | _, _ => none))

/-- SET_FILTER (R13, R15). -/
def execSetFilter (s : State) : Result :=
  .next (s.request .setFilter fun h f t =>
    t.changeLines h (f.maskAt 0) ((filterOf (f.byteAt 4)).map fun x => fun _ l => l.writeFilter x))

/-- DRIVE (R13, R16). -/
def execDrive (s : State) : Result :=
  .next (s.request .drive fun h f t =>
    t.changeLines h (f.maskAt 0) (some fun n l => { l with level := (f.maskAt 4).getLsbD n }))

/-- The safe state of the fields of a SET_SAFE, if each holds a defined value (R17). -/
def safeStateOf (f : Frame) : Option SafeState :=
  match modeOf (f.byteAt 4), bitOf (f.byteAt 5), bitOf (f.byteAt 6) with
  | some m, some level, some pullUp => some { mode := m, level := level, pullUp := pullUp }
  | _, _, _ => none

/-- The safe records are written, and the named lines that belong to no holding take the new safe state at once (R18). -/
def State.writeSafe (s : State) (mask : LineMask) (x : SafeState) (raw : LineMask) : State :=
  (s.onLines mask fun _ l => { l with safe := x }).applySafeStates (mask &&& ~~~(heldLines s.slots)) raw

/-- SET_SAFE (R17, R18). -/
def execSetSafe (raw : LineMask) (s : State) : Result :=
  .next (s.request .setSafe fun h f t =>
    match safeStateOf f with
    | none => t.refuse .badArgument
    | some x =>
      if f.maskAt 0 = 0 then t.refuse .badArgument
      else if t.supervisor ≠ some h ∧ f.maskAt 0 &&& ~~~(linesHeldBy t.slots h) ≠ 0 then t.refuse .notOwner
      else (t.writeSafe (f.maskAt 0) x raw).done)

/-- The payload of a SAMPLE reply (R19). -/
def State.samplePayload (s : State) (h : HostId) : List Byte :=
  maskBytes (linesWhere fun n => s.lines[n].filtered) ++
  maskBytes (linesWhere fun n => decide (s.lines[n].mode = .disconnected)) ++
  maskBytes (linesHeldBy s.slots h) ++
  halfBytes s.time.count

/-- SAMPLE (R19). -/
def execSample (s : State) : Result :=
  .next (s.request .sample fun h _ t => t.answer (t.samplePayload h))

/-- WATCH (R85). -/
def execWatch (s : State) : Result :=
  .next (s.request .watch fun h f t =>
    match edgesOf (f.byteAt 4) with
    | none => t.refuse .badArgument
    | some e => if f.maskAt 0 = 0 then t.refuse .badArgument else (t.writeWatches h (f.maskAt 0) e).done)

/-- UNWATCH (R86). -/
def execUnwatch (s : State) : Result :=
  .next (s.request .unwatch fun h f t =>
    if f.maskAt 0 = 0 then t.refuse .badArgument else (t.writeWatches h (f.maskAt 0) .none).done)

end Sys2Proof.Machine
end

