-- ==== Sys2Proof/Machine/PatternRequests.lean ====
section
/-! DEFINITION. START_PATTERN, STOP_PATTERN and QUERY_PATTERN (chapter 4). -/

namespace Sys2Proof.Machine

/-- The payload fields of a START_PATTERN after its handle (R67). -/
structure PatternRequest where
  bank    : Fin 4
  lanes   : Byte
  repeats : Nat
  steps   : List PatternStep
  deriving DecidableEq, Repr

/-- The fields of a START_PATTERN, if its length agrees with its step count and every field is in range: check 1 of R68, but
for the lanes' ownership. -/
def patternRequestOf (f : Frame) : Option PatternRequest :=
  let count := (f.byteAt 4).toNat
  let steps := stepsOf (f.payload.drop 5)
  if hb : (f.byteAt 1).toNat < 4 then
    if f.payload.length = 5 + 3 * count ∧ f.byteAt 2 ≠ 0 ∧ 1 ≤ count ∧ count ≤ 8 ∧
        steps.all (fun x => decide (1 ≤ x.duration)) then
      some { bank := ⟨(f.byteAt 1).toNat, hb⟩, lanes := f.byteAt 2, repeats := (f.byteAt 3).toNat, steps := steps }
    else none
  else none

/-- The lowest-numbered IDLE slot (R69). -/
def State.lowestIdle (s : State) : Option (Fin 4) := (List.finRange 4).find? fun i => s.patterns[i].isNone

/-- The lines that are in no driven mode (R68 check 2). -/
def State.undriven (s : State) : LineMask := linesWhere fun n => !s.lines[n].mode.driven

/-- The record a START_PATTERN writes (R69). -/
def patternOf (f : Frame) (r : PatternRequest) : Pattern :=
  { handle := f.byteAt 0, tag := f.tag, bank := r.bank, lanes := r.lanes, steps := r.steps, repeats := r.repeats
    current := 0, passes := if r.repeats = 0 then none else some r.repeats
    timeLeft := (r.steps.head?.map PatternStep.duration).getD 1 }

/-- The checks of R68 on a HELD slot of the requester with the given lines, and the start of R69. -/
def State.startOn (s : State) (f : Frame) (lines : LineMask) : Answer :=
  match patternRequestOf f with
  | none => s.refuse .badArgument
  | some r =>
    let lanes := laneLines r.bank r.lanes
    if lanes &&& ~~~lines ≠ 0 then s.refuse .badArgument
    else if lanes &&& s.undriven ≠ 0 then s.refuse .modeConflict
    else if lanes &&& s.laneMask ≠ 0 then s.refuse .lineBusy
    else
      match s.lowestIdle with
      | none => s.refuse .noPatternSlot
      | some i => (s.beginStep i (patternOf f r) 0).answer [countByte i]

/-- START_PATTERN (R67 to R69). -/
def execStartPattern (s : State) : Result :=
  .next (s.request .startPattern fun h f t =>
    t.withHolding h (f.byteAt 0) fun _ lines _ => t.startOn f lines)

/-- STOP_PATTERN on a HELD slot of the requester (R74). -/
def State.stopSlot (s : State) (f : Frame) : Answer :=
  if hi : (f.byteAt 0).toNat < 4 then
    match s.patterns[(f.byteAt 0).toNat] with
    | some p =>
      if p.handle = f.byteAt 1 then { s with patterns := s.patterns.set (f.byteAt 0).toNat none }.done
      else s.refuse .notFound
    | none => s.refuse .notFound
  else s.refuse .badArgument

/-- STOP_PATTERN (R74). -/
def execStopPattern (s : State) : Result :=
  .next (s.request .stopPattern fun h f t =>
    t.withHolding h (f.byteAt 1) fun _ _ _ => t.stopSlot f)

/-- The payload of a QUERY_PATTERN reply (R76). -/
def State.patternPayload (s : State) (i : Fin 4) : List Byte :=
  match s.patterns[i] with
  | some p => [countByte i, 0x01, p.handle, countByte p.current, countByte (p.passes.getD 0)]
  | none => [countByte i, 0x00, 0x00, 0x00, 0x00]

/-- QUERY_PATTERN (R76). -/
def execQueryPattern (s : State) : Result :=
  .next (s.request .queryPattern fun _ f t =>
    if hi : (f.byteAt 0).toNat < 4 then t.answer (t.patternPayload ⟨(f.byteAt 0).toNat, hi⟩)
    else t.refuse .badArgument)

end Sys2Proof.Machine
end

