-- ==== Sys2Proof/Machine/TimeEvents.lean ====
section
/-! DEFINITION. The events of the Time Base: INTERVAL_BOUNDARY (R31, R53), LEASE_EXPIRY (R32), WAIT_EXPIRY (R54),
PATTERN_STEP_END (R70 to R72) and LINE_SAMPLE (R6). -/

namespace Sys2Proof.Machine

/-- The lease remaining of a HELD, leased slot is decreased by 1; one that has reached 0 is not (R31). -/
def Slot.countDown (x : Slot) : Slot :=
  match x.body with
  | .held owner lines tag (some l) =>
    { x with body := .held owner lines tag (some { l with remaining := l.remaining - 1 }) }
  | _ => x

/-- The wait remaining of an entry is decreased by 1; one that has reached 0 is not (R53). -/
def WaitEntry.countDown (e : WaitEntry) : WaitEntry := { e with remaining := e.remaining.map (· - 1) }

/-- A 10 ms boundary. An expiry that becomes due here has not been overtaken by any request (R31, R53, R102). -/
def State.boundary (s : State) : State :=
  { s with
    slots := tabulate fun k => s.slots[k].countDown
    waitQueue := s.waitQueue.map WaitEntry.countDown
    overtaken := s.overtaken.filter fun d => decide (d ∈ s.dueNow) }

/-- INTERVAL_BOUNDARY (R31, R53). -/
def execIntervalBoundary (s : State) : Result := .next (s.running State.boundary)

/-- LEASE_EXPIRY: an expiry that is not due does nothing (R32). -/
def execLeaseExpiry (k : Fin 16) (raw : LineMask) (s : State) : Result :=
  .next (s.running fun t =>
    if t.slots[k].expiryDue then (t.endHolding k raw .leaseExpired).grantScan else t)

/-- WAIT_EXPIRY: the entry leaves, WAIT_EXPIRED is sent and the grant scan runs; otherwise nothing (R54). -/
def execWaitExpiry (h : HostId) (tag : Byte) (s : State) : Result :=
  .next (s.running fun t =>
    if t.waitQueue.any (fun e => decide (e.host = h) && e.tag == tag && e.expiryDue) then
      ((t.removeWait h tag).sendEvent h (.waitExpired tag)).grantScan
    else t)

/-- PATTERN_STEP_END: the step time of the slot has gone to 0; a step with time left goes on (R70 to R72). -/
def execPatternStepEnd (i : Fin 4) (s : State) : Result :=
  .next (s.running fun t => if t.stepDue i then t.stepEnd i else t)

/-- LINE_SAMPLE (R6, R9, R84). -/
def execLineSample (n : Fin 32) (raw : Bool) (s : State) : Result := .next (s.running fun t => t.sampleLine n raw)

end Sys2Proof.Machine
end

