-- ==== Sys2Proof/Machine/TwoWirePorts.lean ====
section
/-! DEFINITION. The two-wire ports (chapter 8): the bus events of Ports A and B, the stuck bus and the port-reset notice. -/

namespace Sys2Proof.Machine

/-- The 7-bit address of a port: 0x34 + ADR for A, 0x38 + ADR for B (R130). -/
def State.ownAddress (s : State) (p : TwoWire) : BitVec 7 :=
  match p with
  | .a => 0x34 + s.adr.setWidth 7
  | .b => 0x38 + s.adr.setWidth 7

/-- The upper seven bits of an address byte (R130). -/
def addressOf (byte : Byte) : BitVec 7 := byte.extractLsb' 1 7

/-- A port goes into a state. -/
def TwoWireBus.enter (b : TwoWireBus) (st : TwoWireState) : TwoWireBus := { b with state := st }

/-- A port answers on an acknowledge clock. -/
def TwoWireBus.answer (b : TwoWireBus) (ack : Bool) : TwoWireBus := { b with ack := ack }

/-- A port shows a byte on SDA. -/
def TwoWireBus.send (b : TwoWireBus) (byte : Byte) : TwoWireBus := { b with tx := byte }

/-- An event passes: if at an instant of it no line is low other than by the port's own pull, the stuck time returns to 0 (R140). -/
def TwoWireBus.linesFree (b : TwoWireBus) (free : Bool) : TwoWireBus :=
  { b with stuckTime := if free then 0 else b.stuckTime }

/-- A start or stop condition passes: at one instant of it both lines are high (R129, R140; DEDUCED, log 22). -/
def TwoWireBus.linesHigh (b : TwoWireBus) : TwoWireBus := b.linesFree true

/-- Whether no line is low other than by the port's own pull at an instant of a byte that the port receives at the count `n`: on the
acknowledge clock if the port acknowledges, on the clock of a 1 bit, or on the acknowledge clock of a byte that nobody acknowledges
(R129, R140; DEDUCED, log 22). -/
def freeInReceived (p : TwoWire) (n : Nat) (byte : Byte) (ack : Bool) : Bool := ack || byte != 0 || !Config.sdaHeld p n

/-- Whether no line is low other than by the port's own pull at an instant of a byte that the port sends at the count `n`: on the clock
of a 0 bit, on the acknowledge clock if the host refuses the byte, or on the clock of a 1 bit on which nobody holds SDA low
(R129, R138, R140; DEDUCED, log 22). -/
def freeInSent (p : TwoWire) (n : Nat) (byte : Byte) (ack : Bool) : Bool := !ack || byte != 0xFF || !Config.sdaHeld p n

/-- A port receives a byte, answers on its acknowledge clock and goes into a state. -/
def State.answerByte (s : State) (p : TwoWire) (st : TwoWireState) (byte : Byte) (ack : Bool) : State :=
  s.mapBus p fun b => ((b.enter st).answer ack).linesFree (freeInReceived p s.micros byte ack)

/-- A port shows a byte on SDA, which the host acknowledges or refuses, and goes into a state. -/
def State.showByte (s : State) (p : TwoWire) (st : TwoWireState) (byte : Byte) (ack : Bool) : State :=
  s.mapBus p fun b => ((b.enter st).send byte).linesFree (freeInSent p s.micros byte ack)

/-- The transaction in progress ends: a partial frame is discarded with FRAME_ERROR (R137); a read that was not complete is
broken off, and its frame, no longer in transit, stays in its queue (R139). -/
def State.endTransaction (s : State) (p : TwoWire) : State :=
  match (s.bus p).state with
  | .receiving rx => if rx.broken then s.mapPort p.host Port.setFrameError else s
  | _ => s

/-- START_CONDITION (R132). In HOLDING the bus can show none, and a RESETTING port stays as it is. -/
def execStartCondition (p : TwoWire) (s : State) : Result :=
  .next (s.running fun t =>
    match (t.bus p).state with
    | .idle => t.mapBus p fun b => (b.enter .address).linesHigh
    | .address => t.mapBus p fun b => (b.enter .address).linesHigh
    | .receiving _ => (t.endTransaction p).mapBus p fun b => (b.enter .address).linesHigh
    | .sending _ _ => (t.endTransaction p).mapBus p fun b => (b.enter .address).linesHigh
    | .holding _ _ => t
    | .resetting => t)

/-- STOP_CONDITION (R132, R137, R139). In HOLDING the bus can show none. -/
def execStopCondition (p : TwoWire) (s : State) : Result :=
  .next (s.running fun t =>
    match (t.bus p).state with
    | .idle => t.mapBus p fun b => (b.enter .idle).linesHigh
    | .address => t.mapBus p fun b => (b.enter .idle).linesHigh
    | .receiving _ => (t.endTransaction p).mapBus p fun b => (b.enter .idle).linesHigh
    | .sending _ _ => (t.endTransaction p).mapBus p fun b => (b.enter .idle).linesHigh
    | .holding _ _ => t
    | .resetting => t)

/-- An address byte is not acknowledged: the port returns to IDLE and takes no part in the rest of the transaction (R130, R133). -/
def State.ignoreTransaction (s : State) (p : TwoWire) (byte : Byte) : State := s.answerByte p .idle byte false

/-- The decision on a write to the port's address (R133). -/
def State.beginWrite (s : State) (p : TwoWire) (byte : Byte) : State :=
  if (s.port p.host).requests.length < Config.requestPlaces then s.answerByte p (.receiving RxRecord.empty) byte true
  else
    match (s.bus p).holdMode with
    | .refuse => s.ignoreTransaction p byte
    | .hold => s.answerByte p (.holding RxRecord.empty 0) byte true

/-- WRITE_ADDRESS (R130, R133, R142). -/
def execWriteAddress (p : TwoWire) (byte : Byte) (s : State) : Result :=
  .next (s.running fun t =>
    match (t.bus p).state with
    | .address =>
      if byte.getLsbD 0 then t
      else if addressOf byte = t.ownAddress p then t.beginWrite p byte
      else t.ignoreTransaction p byte
    | .resetting => t.mapBus p fun b => b.answer false
    | _ => t)

/-- The outbound frame is selected and the port enters SENDING (R138). -/
def State.beginRead (s : State) (p : TwoWire) (byte : Byte) : State :=
  s.answerByte p (.sending (s.port p.host).select false) byte true

/-- READ_ADDRESS (R130, R138, R142). -/
def execReadAddress (p : TwoWire) (byte : Byte) (s : State) : Result :=
  .next (s.running fun t =>
    match (t.bus p).state with
    | .address =>
      if !byte.getLsbD 0 then t
      else if addressOf byte = t.ownAddress p then t.beginRead p byte
      else t.ignoreTransaction p byte
    | .resetting => t.mapBus p fun b => b.answer false
    | _ => t)

/-- ADDRESS_NOT_ACKNOWLEDGED: an address other than the port's, or a RESETTING port (R130, R132, R142). A port in IDLE, which waits for a
start, takes no part in any transaction under way. -/
def execAddressNotAcknowledged (p : TwoWire) (byte : Byte) (s : State) : Result :=
  .next (s.running fun t =>
    match (t.bus p).state with
    | .address => if addressOf byte = t.ownAddress p then t else t.ignoreTransaction p byte
    | .idle => t.ignoreTransaction p byte
    | .resetting => t.mapBus p fun b => b.answer false
    | _ => t)

/-- The hold of a port has lasted 10 ms: its hold limit is to be taken (R134). -/
def State.holdDue (s : State) (p : TwoWire) : Bool :=
  match (s.bus p).state with
  | .holding _ time => decide (Config.holdLimit ≤ time)
  | _ => false

/-- A hold ends at its limit: SCL is released, REQUEST_OVERRUN is set, the rest of the write is refused (R134), and the stuck time is
measured from that end (R140). -/
def State.passHoldLimit (s : State) (p : TwoWire) : State :=
  (s.mapPort p.host Port.setRequestOverrun).mapBus p fun b =>
    { b.enter (.receiving { RxRecord.empty with mark := .overrun }) with stuckTime := 0 }

/-- HOLD_LIMIT: a hold that has lasted less goes on (R134). -/
def execHoldLimit (p : TwoWire) (s : State) : Result :=
  .next (s.running fun t => if t.holdDue p then t.passHoldLimit p else t)

/-- A frame byte received with no mark (R135, R136). -/
def State.receiveByte (s : State) (p : TwoWire) (rx : RxRecord) (byte : Byte) : State :=
  match rx.judge byte with
  | .nop => s.answerByte p (.receiving (rx.receive byte)) byte true
  | .accepted => s.answerByte p (.receiving (rx.receive byte)) byte true
  | .good =>
    (s.mapPort p.host fun q => q.appendRequest (rx.keep byte).frame).answerByte p (.receiving (rx.receive byte)) byte true
  | .badLength => (s.mapPort p.host Port.setFrameError).answerByte p (.receiving (rx.receive byte)) byte false
  | .badCheck => (s.mapPort p.host Port.setFrameError).answerByte p (.receiving (rx.receive byte)) byte false

/-- WRITE_BYTE (R135, R136). After a NOP's first byte the bytes are acknowledged and none is kept; with any other mark every byte is refused; a
port that takes no part in the transaction acknowledges nothing (R130, R142). -/
def execWriteByte (p : TwoWire) (byte : Byte) (s : State) : Result :=
  .next (s.running fun t =>
    match (t.bus p).state with
    | .receiving rx =>
      match rx.mark with
      | .unmarked => t.receiveByte p rx byte
      | .nop => t.answerByte p (.receiving rx) byte true
      | .error => t.answerByte p (.receiving rx) byte false
      | .overrun => t.answerByte p (.receiving rx) byte false
      | .done => t.answerByte p (.receiving rx) byte false
    | .idle => t.answerByte p .idle byte false
    | .resetting => t.mapBus p fun b => b.answer false
    | _ => t)

/-- A byte of the selected frame is sent. When it is the check byte, a reply or event in transit is removed from its queue,
whatever the host answers (R138). -/
def State.sendByte (s : State) (p : TwoWire) (out : OutSelection) (ack : Bool) : State :=
  let o := out.advance
  let leaves := out.inTransit && o.complete
  let t := if leaves then s.mapPort p.host fun q => q.removeHead out.source else s
  t.showByte p (.sending { o with inTransit := out.inTransit && !leaves } (!ack)) out.next ack

/-- READ_BYTE (R138). After a refused byte, and on a port that sends nothing, SDA is left released. -/
def execReadByte (p : TwoWire) (ack : Bool) (s : State) : Result :=
  .next (s.running fun t =>
    match (t.bus p).state with
    | .sending out refused => if refused then t.showByte p (.sending out true) 0xFF ack else t.sendByte p out ack
    | .idle => t.showByte p .idle 0xFF ack
    | .resetting => t.mapBus p fun b => b.send 0xFF
    | _ => t)

/-- The stuck time of a port has reached 35 ms: its bus is stuck. In HOLDING and RESETTING none is measured (R140). -/
def State.stuckDue (s : State) (p : TwoWire) : Bool :=
  match (s.bus p).state with
  | .holding _ _ => false
  | .resetting => false
  | _ => decide (Config.stuckLimit ≤ (s.bus p).stuckTime)

/-- The port finds its bus stuck (R141). -/
def State.findStuck (s : State) (p : TwoWire) : State :=
  { (s.mapPort p.host Port.portReset).mapBus p fun b =>
      { b.enter .resetting with stuckTime := Config.stuckLimit, ack := false, tx := 0xFF } with
    overtaken := s.overtaken.filter fun d => decide (d ≠ .notice p) }

/-- STUCK_BUS: a bus that has not been stuck for 35 ms is not found stuck (R140, R141). -/
def execStuckBus (p : TwoWire) (s : State) : Result :=
  .next (s.running fun t => if t.stuckDue p then t.findStuck p else t)

/-- PORT_RESET_NOTICE: the controller's part of the port reset, then the order to leave RESETTING (R103, R142, R157). -/
def execPortResetNotice (p : TwoWire) (raw : LineMask) (s : State) : Result :=
  .next (s.running fun t =>
    match (t.bus p).state with
    | .resetting => (t.resetContext p.host raw).mapBus p fun b => { (b.enter .idle) with stuckTime := 0 }
    | _ => t)

end Sys2Proof.Machine
end

