-- ==== Sys2Proof/Machine/Dispatch.lean ====
section
/-! DEFINITION. The dispatch: one arm for each row of spec/opcode_table.json, in the table's order. -/

namespace Sys2Proof.Machine

/-- The effect of a command on everything but the queue of waiting commands. -/
def exec (i : Instr) (s : State) : Host.Outcome State Fault Refusal :=
  match i with
  | .identify => Sys2Proof.Machine.execIdentify s
  | .status => Sys2Proof.Machine.execStatus s
  | .configPort => Sys2Proof.Machine.execConfigPort s
  | .resetPort raw bits => Sys2Proof.Machine.execResetPort raw bits s
  | .claimNow => Sys2Proof.Machine.execClaimNow s
  | .claimWait => Sys2Proof.Machine.execClaimWait s
  | .cancelWait => Sys2Proof.Machine.execCancelWait s
  | .release raw => Sys2Proof.Machine.execRelease raw s
  | .trim raw => Sys2Proof.Machine.execTrim raw s
  | .renew => Sys2Proof.Machine.execRenew s
  | .queryHolding => Sys2Proof.Machine.execQueryHolding s
  | .listHoldings => Sys2Proof.Machine.execListHoldings s
  | .setMode raw => Sys2Proof.Machine.execSetMode raw s
  | .setFilter => Sys2Proof.Machine.execSetFilter s
  | .drive => Sys2Proof.Machine.execDrive s
  | .setSafe raw => Sys2Proof.Machine.execSetSafe raw s
  | .sample => Sys2Proof.Machine.execSample s
  | .startPattern => Sys2Proof.Machine.execStartPattern s
  | .stopPattern => Sys2Proof.Machine.execStopPattern s
  | .queryPattern => Sys2Proof.Machine.execQueryPattern s
  | .watch => Sys2Proof.Machine.execWatch s
  | .unwatch => Sys2Proof.Machine.execUnwatch s
  | .revoke raw => Sys2Proof.Machine.execRevoke raw s
  | .fullReset => Sys2Proof.Machine.execFullReset s
  | .unknownOpcodeRequest => Sys2Proof.Machine.execUnknownOpcodeRequest s
  | .intervalBoundary => Sys2Proof.Machine.execIntervalBoundary s
  | .leaseExpiry slot raw => Sys2Proof.Machine.execLeaseExpiry slot raw s
  | .waitExpiry host tag => Sys2Proof.Machine.execWaitExpiry host tag s
  | .patternStepEnd slot => Sys2Proof.Machine.execPatternStepEnd slot s
  | .lineSample line raw => Sys2Proof.Machine.execLineSample line raw s
  | .startCondition port => Sys2Proof.Machine.execStartCondition port s
  | .writeAddress port byte => Sys2Proof.Machine.execWriteAddress port byte s
  | .holdLimit port => Sys2Proof.Machine.execHoldLimit port s
  | .writeByte port byte => Sys2Proof.Machine.execWriteByte port byte s
  | .stopCondition port => Sys2Proof.Machine.execStopCondition port s
  | .readAddress port byte => Sys2Proof.Machine.execReadAddress port byte s
  | .readByte port ack => Sys2Proof.Machine.execReadByte port ack s
  | .stuckBus port => Sys2Proof.Machine.execStuckBus port s
  | .portResetNotice port raw => Sys2Proof.Machine.execPortResetNotice port raw s
  | .selcFall => Sys2Proof.Machine.execSelcFall s
  | .exchangeByte byte => Sys2Proof.Machine.execExchangeByte byte s
  | .selcRise bits => Sys2Proof.Machine.execSelcRise bits s
  | .resetnLow => Sys2Proof.Machine.execResetnLow s
  | .supplyLoss => Sys2Proof.Machine.execSupplyLoss s
  | .resetRelease adr sup => Sys2Proof.Machine.execResetRelease adr sup s
  | .addressNotAcknowledged port byte => Sys2Proof.Machine.execAddressNotAcknowledged port byte s

end Sys2Proof.Machine
end

