-- ==== Sys2Proof/Machine/TimeBase.lean ====
section
/-! DEFINITION. The Time Base: what a step does when no command waits (log 5). -/

namespace Sys2Proof.Machine

/-- One microsecond of the Time Base: the count advances every 100 and wraps from 65535 to 0 (R113). -/
def TimeBase.tick (t : TimeBase) : TimeBase :=
  if t.micro = 99 then { count := t.count + 1, micro := 0 } else { t with micro := t.micro + 1 }

/-- A 10 µs interval of a RUNNING slot passes (R70). -/
def Pattern.countDown (p : Pattern) : Pattern := { p with timeLeft := p.timeLeft - 1 }

/-- In the microsecond counted `n`, a line of a port's bus is low other than by the port's own pull (R140). -/
def heldLow (p : TwoWire) (n : Nat) : Bool := Config.sclLow p n || Config.sdaLow p n

/-- A microsecond on a port's bus. A hold lasts longer, and its stuck time is 0; a RESETTING port measures none; else the stuck time
runs while another party holds a line low, and returns to 0 when none does (R131, R140). -/
def TwoWireBus.tick (b : TwoWireBus) (low : Bool) : TwoWireBus :=
  match b.state with
  | .holding rx t => { b with state := .holding rx (t + 1), stuckTime := 0 }
  | .resetting => b
  | _ => { b with stuckTime := if low then b.stuckTime + 1 else 0 }

/-- One microsecond passes. At a 10 µs boundary the step time of every RUNNING slot is decreased by 1 (R70). -/
def State.tick (s : State) : State :=
  { s with
    time := s.time.tick
    micros := s.micros + 1
    patterns := if s.time.tick.micro.val % 10 = 0 then tabulate fun i => s.patterns[i].map Pattern.countDown
      else s.patterns
    twoWire := { a := s.twoWire.a.tick (heldLow .a s.micros), b := s.twoWire.b.tick (heldLow .b s.micros) } }

/-- The lowest RUNNING slot whose step end is to be taken. -/
def State.dueStep (s : State) : Option (Fin 4) := (List.finRange 4).find? s.stepDue

/-- The first two-wire port whose hold limit is to be taken. -/
def State.dueHold (s : State) : Option TwoWire := [TwoWire.a, TwoWire.b].find? s.holdDue

/-- The first two-wire port that has been stuck for 35 ms. -/
def State.dueStuck (s : State) : Option TwoWire := [TwoWire.a, TwoWire.b].find? s.stuckDue

/-- What a step on an empty queue does. A step time that has gone to 0 ends its step, a hold that has lasted 10 ms ends, and a bus stuck for
35 ms is found stuck, before any further time passes (R70, R134, R140); otherwise one microsecond passes. The Time Base is stopped during a
device reset (R2). -/
def State.idle (s : State) : State :=
  s.running fun t =>
    match t.dueStep with
    | some i => t.stepEnd i
    | none =>
      match t.dueHold with
      | some p => t.passHoldLimit p
      | none =>
        match t.dueStuck with
        | some p => t.findStuck p
        | none => t.tick

end Sys2Proof.Machine
end

