-- ==== Sys2Proof/Safety.lean ====
section
/-! DEFINITION. The terms claims are made in: when a request is taken and valid, what its take and reply leave, when a line has
taken its safe state, and the laws of the device as invariants of a state. -/

namespace Sys2Proof.Machine

/-! ### Requests -/

/-- The next request is one of opcode `o`, from host `h`, in frame `f`. -/
abbrev State.Next (s : State) (o : Opcode) (h : HostId) (f : Frame) : Prop :=
  s.nextRequest = some (h, f) ∧ opcodeOf f.opcode = some o

/-- The next request is one of opcode `o` that passes validation (R104 to R106). -/
abbrev State.Valid (s : State) (o : Opcode) (h : HostId) (f : Frame) : Prop :=
  s.Next o h f ∧ lengthAccepted o f.payload.length = true ∧ (supervisorOnly o = true → s.supervisor = some h)

/-- The reply to a frame. -/
def replyTo (f : Frame) (status : Status) (payload : List Byte) : Reply :=
  { tag := f.tag, status := status, payload := payload }

/-- The state after a request that changes nothing but the queues: it is taken and its reply is placed. -/
def State.served (s : State) (h : HostId) (f : Frame) (status : Status) (payload : List Byte) : State :=
  (s.take h).placeReply h (replyTo f status payload)

/-- The command that takes a request of each opcode. -/
def requestCommand (o : Opcode) (raw : LineMask) (bits : Fin 8) : Instr :=
  match o with
  | .identify => .identify
  | .status => .status
  | .configPort => .configPort
  | .resetPort => .resetPort raw bits
  | .claimNow => .claimNow
  | .claimWait => .claimWait
  | .cancelWait => .cancelWait
  | .release => .release raw
  | .trim => .trim raw
  | .renew => .renew
  | .queryHolding => .queryHolding
  | .listHoldings => .listHoldings
  | .setMode => .setMode raw
  | .setFilter => .setFilter
  | .setSafe => .setSafe raw
  | .drive => .drive
  | .sample => .sample
  | .startPattern => .startPattern
  | .stopPattern => .stopPattern
  | .queryPattern => .queryPattern
  | .watch => .watch
  | .unwatch => .unwatch
  | .revoke => .revoke raw
  | .fullReset => .fullReset

/-! ### Slots, patterns and lines -/

/-- `k` is the lowest-numbered FREE slot. -/
abbrev LowestFree (t : Vector Slot 16) (k : Fin 16) : Prop :=
  t[k].isFree = true ∧ ∀ j : Fin 16, j < k → t[j].isFree = false

/-- The table `t'` is `t` with slot `k` holding `x`. -/
abbrev SlotWritten (t t' : Vector Slot 16) (k : Fin 16) (x : Slot) : Prop :=
  t'[k] = x ∧ ∀ j : Fin 16, j ≠ k → t'[j] = t[j]

/-- What a mode change makes of the filtered level (R5). -/
def filteredAfter (old : LineRecord) (m : Mode) (raw : Bool) : Bool :=
  if old.mode = .disconnected ∧ m ≠ .disconnected then raw
  else if old.mode ≠ .disconnected ∧ m = .disconnected then false
  else old.filtered

/-- A line has taken its safe state (R12): mode, output level and pull-up of the safe record, filter NONE, a restarted count, and
the filtered level the mode change gives. -/
abbrev TookSafeState (old new : LineRecord) (raw : Bool) : Prop :=
  new.mode = old.safe.mode ∧ new.level = old.safe.level ∧ new.pullUp = old.safe.pullUp ∧ new.filter = .none ∧
    new.settling = 0 ∧ new.safe = old.safe ∧ new.filtered = filteredAfter old old.safe.mode raw

/-- The lines of a set have taken their safe states, and the others are unchanged. -/
abbrev LeftHolding (old new : Vector LineRecord 32) (gone raw : LineMask) : Prop :=
  ∀ n : Fin 32, (gone.getLsbD n = true → TookSafeState old[n] new[n] (raw.getLsbD n)) ∧
    (gone.getLsbD n = false → new[n] = old[n])

/-- The output levels of the lanes are those of a level byte, no other field is written and no other line (R66, R69). -/
abbrev LanesWritten (old new : Vector LineRecord 32) (bank : Fin 4) (lanes level : Byte) : Prop :=
  ∀ n : Fin 32, new[n] =
    if n.val / 8 = bank.val ∧ lanes.getLsbD (n.val % 8) = true then { old[n] with level := level.getLsbD (n.val % 8) }
    else old[n]

/-- The RUNNING slots selected have become IDLE, and the others are unchanged. -/
abbrev Aborted (old new : Vector (Option Pattern) 4) (hit : Pattern → Prop) : Prop :=
  ∀ i : Fin 4, ∀ p, old[i] = some p → (hit p → new[i] = none) ∧ (¬ hit p → new[i] = some p)

/-- IDLE slots stay IDLE. -/
abbrev IdleKept (old new : Vector (Option Pattern) 4) : Prop := ∀ i : Fin 4, old[i] = none → new[i] = none

/-! ### The laws of the device -/

/-- The Wait Queue never holds more than 8 entries, nor more than 4 of one host, nor two of one host with one tag (R51). -/
def State.WaitQueueLaw (s : State) : Prop :=
  s.waitQueue.length ≤ 8 ∧ (∀ h : HostId, (waitsOf s.waitQueue h).length ≤ 4) ∧
    s.waitQueue.Pairwise fun x y => ¬ (x.host = y.host ∧ x.tag = y.tag)

/-- The queues keep their limits (R91), a write in progress will find room for its frame (R133), and a stuck time is at most 35 ms and
is 0 in HOLDING (R131, R140). -/
def State.QueueLaw (s : State) : Prop :=
  (∀ h : HostId, (s.port h).requests.length ≤ 4 ∧ (s.port h).replies.length ≤ 4 ∧ (s.port h).events.length ≤ 16) ∧
    (∀ (p : TwoWire) (rx : RxRecord), (s.bus p).state = .receiving rx → rx.mark = .unmarked →
      (s.port p.host).requests.length < 4) ∧
    ∀ p : TwoWire, (s.bus p).stuckTime ≤ 35000 ∧
      ∀ (rx : RxRecord) (t : Nat), (s.bus p).state = .holding rx t → (s.bus p).stuckTime = 0

/-- After any event no waiting entry remains that the grant scan would grant: one whose lines are unowned and named by no older
entry finds no FREE slot (R58). -/
def State.ScanLaw (s : State) : Prop :=
  ∀ (older newer : List WaitEntry) (e : WaitEntry), s.waitQueue = older ++ e :: newer →
    e.lines &&& heldLines s.slots = 0 → e.lines &&& waitingLines older = 0 → lowestFree s.slots = none

/-- A line carries its safe state and filter NONE (R12). -/
abbrev InSafeState (l : LineRecord) : Prop :=
  l.mode = l.safe.mode ∧ l.level = l.safe.level ∧ l.pullUp = l.safe.pullUp ∧ l.filter = .none

/-- A running pattern's lanes belong to the HELD holding its handle names and are in a driven mode (R66). -/
def State.LaneLaw (s : State) (p : Pattern) : Prop :=
  ∃ (owner : HostId) (lines : LineMask) (tag : Byte) (lease : Option Lease),
    s.slots[handleSlot p.handle] = { gen := handleGen p.handle, body := .held owner lines tag lease } ∧
      p.lines &&& ~~~lines = 0 ∧
      ∀ n : Fin 32, p.lines.getLsbD n = true → s.lines[n].mode = .pushPull ∨ s.lines[n].mode = .openDrain

/-- The laws of ownership: every line belongs to at most one holding, and a HELD slot and a waiting entry name at least one line
(R21, R51); a line of no holding carries its safe state (R12); lanes belong to their pattern's holding, are driven, and are lanes of
no other pattern (R66). -/
def State.OwnershipLaw (s : State) : Prop :=
  (∀ i j : Fin 16, i ≠ j → s.slots[i].lines &&& s.slots[j].lines = 0) ∧
  (∀ (k : Fin 16) (h : HostId), s.slots[k].heldBy h = true → s.slots[k].lines ≠ 0) ∧
  (∀ e ∈ s.waitQueue, e.lines ≠ 0) ∧
  (∀ n : Fin 32, (∀ k : Fin 16, s.slots[k].lines.getLsbD n = false) → InSafeState s.lines[n]) ∧
  (∀ (i : Fin 4) (p : Pattern), s.patterns[i] = some p → s.LaneLaw p) ∧
  (∀ (i j : Fin 4) (p q : Pattern), i ≠ j → s.patterns[i] = some p → s.patterns[j] = some q → p.lines &&& q.lines = 0)

/-- A DISCONNECTED line reads 0 with no count, and no count has reached its filter's number of samples (R1, R3, R6). -/
def State.SamplingLaw (s : State) : Prop :=
  ∀ n : Fin 32, (s.lines[n].mode = .disconnected → s.lines[n].filtered = false ∧ s.lines[n].settling = 0) ∧
    s.lines[n].settling < s.lines[n].filter.samples

/-- A reply or event in transit stands at the head of its queue, and the bytes being sent are its own (R93, R123). -/
def State.TransitLaw (s : State) : Prop :=
  ∀ (h : HostId) (out : OutSelection), s.selection h = some out → out.inTransit = true →
    (out.source = .reply ∧ ∃ (r : Reply) (rest : List Reply) (flags : Byte), (s.port h).replies = r :: rest ∧
      out.bytes = outboundFrame 0x01 flags r.tag (statusByte r.status) r.payload) ∨
    (out.source = .event ∧ ∃ (e : Event) (rest : List Event) (flags : Byte), (s.port h).events = e :: rest ∧
      out.bytes = outboundFrame 0x02 flags (eventCode e) 0x00 (eventPayload e))

end Sys2Proof.Machine
end

