-- ==== Sys2Proof/Certificates/Slice0/Obligations.lean ====
section
/-! DEFINITION. The statements for the provers. Each request statement gives the whole next state: the state the take leaves
(Obligations.TakeMovesHeadRequestAndPointer), with the fields named changed as said, and the reply placed. -/

open Sys2Proof Sys2Proof.Machine

/-! ### Steps and intake -/

/-- The command at the front of the queue is run with the queue's rest. The queue of commands is the model's choice (log 1). -/
def Obligations.StepRunsFrontCommand : Prop :=
  ∀ (c : Instr) (rest : List Instr) (s : State),
    step { s with pending := c :: rest } = exec c { s with pending := rest }

/-- What a step on an empty queue does (the model's choice, log 5). In a device reset nothing: the Time Base is stopped (R2). Else a step
time that has gone to 0 ends its step, the lowest slot first (R70); else a hold that has lasted 10 ms ends, Port A first (R134); else a port
that is neither HOLDING nor RESETTING and has measured 35 ms finds its bus stuck, Port A first (R140); else one microsecond passes: the Time
Base advances, at each 10 µs boundary every RUNNING slot's step time is decreased by 1 (R70), a hold lasts longer with stuck time 0, a
RESETTING port measures nothing, and any other port's stuck time runs while SCL or SDA is low other than by its own pull and else returns to 0
(R140). Whether a line is low so is a free value, applied to the model's count of microseconds (log 15). -/
def Obligations.IdleStepIsOneMicrosecond : Prop :=
  ∀ s : State, s.pending = [] →
    let ended := fun i : Fin 4 => ∃ p, s.patterns[i] = some p ∧ p.timeLeft = 0
    let limit := fun q : TwoWire => ∃ (rx : RxRecord) (t : Nat), (s.bus q).state = .holding rx t ∧ 10000 ≤ t
    let stuck := fun q : TwoWire => (s.bus q).state ≠ .resetting ∧
      (∀ (rx : RxRecord) (t : Nat), (s.bus q).state ≠ .holding rx t) ∧ 35000 ≤ (s.bus q).stuckTime
    (s.inReset = true → step s = .next s) ∧
    (s.inReset = false → ∀ i : Fin 4, ended i → (∀ j : Fin 4, j < i → ¬ ended j) → step s = exec (.patternStepEnd i) s) ∧
    (s.inReset = false → (∀ i : Fin 4, ¬ ended i) → limit .a → step s = exec (.holdLimit .a) s) ∧
    (s.inReset = false → (∀ i : Fin 4, ¬ ended i) → ¬ limit .a → limit .b → step s = exec (.holdLimit .b) s) ∧
    (s.inReset = false → (∀ i : Fin 4, ¬ ended i) → (∀ q : TwoWire, ¬ limit q) → stuck .a →
      step s = exec (.stuckBus .a) s) ∧
    (s.inReset = false → (∀ i : Fin 4, ¬ ended i) → (∀ q : TwoWire, ¬ limit q) → ¬ stuck .a → stuck .b →
      step s = exec (.stuckBus .b) s) ∧
    (s.inReset = false → (∀ i : Fin 4, ¬ ended i) → (∀ q : TwoWire, ¬ limit q) → (∀ q : TwoWire, ¬ stuck q) →
      ∃ (T : TimeBase) (P : Vector (Option Pattern) 4) (W : PerTwoWire TwoWireBus),
        step s = .next { s with time := T, micros := s.micros + 1, patterns := P, twoWire := W } ∧
        T.count.toNat * 100 + T.micro.val = (s.time.count.toNat * 100 + s.time.micro.val + 1) % 6553600 ∧
        (∀ i : Fin 4, P[i] =
          if (s.time.micro.val + 1) % 10 = 0 then
            (s.patterns[i]).map fun p => { p with timeLeft := p.timeLeft - 1 }
          else s.patterns[i]) ∧
        (∀ (p : TwoWire) (rx : RxRecord) (t : Nat), (s.bus p).state = .holding rx t →
          W.get p = { s.bus p with state := .holding rx (t + 1), stuckTime := 0 }) ∧
        (∀ p : TwoWire, (s.bus p).state = .resetting → W.get p = s.bus p) ∧
        (∀ p : TwoWire, (s.bus p).state ≠ .resetting → (∀ (rx : RxRecord) (t : Nat), (s.bus p).state ≠ .holding rx t) →
          W.get p = { s.bus p with
            stuckTime := if Config.sclLow p s.micros = true ∨ Config.sdaLow p s.micros = true
              then (s.bus p).stuckTime + 1 else 0 }))

/-- No command ends the run: each answers a next state, also where its event cannot occur (the model's choice, log 2), and leaves the queue
of waiting commands to the step (the model's choice, log 1). -/
def Obligations.EveryCommandAnswersNext : Prop :=
  ∀ (c : Instr) (s : State), ∃ t : State, exec c s = .next t ∧ t.pending = s.pending

/-- The request taken next is the head of the first eligible port in the rotation (R99, R100), none in a device reset (R98), and none
while a due expiry or a sent notice has been overtaken by a request already, so that at most one request is taken before it (R102, R103,
in the model's terms, log 9). Only a two-wire port is ever RESETTING (R99, R145). -/
def Obligations.IntakeTakesFirstEligiblePort : Prop :=
  (∀ (s : State) (h : HostId), s.resetting h = true ↔ ∃ p : TwoWire, p.host = h ∧ (s.bus p).state = .resetting) ∧
  ∀ (s : State) (h : HostId) (f : Frame),
    s.nextRequest = some (h, f) ↔
      s.inReset = false ∧
        (∀ (k : Fin 16) (owner : HostId) (lines : LineMask) (tag : Byte) (period : Nat),
          s.slots[k].body = .held owner lines tag (some { period := period, remaining := 0 }) →
          Due.lease k ∉ s.overtaken) ∧
        (∀ e ∈ s.waitQueue, e.remaining = some 0 → Due.wait e.host e.tag ∉ s.overtaken) ∧
        (∀ p : TwoWire, (s.bus p).state = .resetting → Due.notice p ∉ s.overtaken) ∧
        (s.port h).requests.head? = some f ∧
        (s.port h).replies.length < 4 ∧ s.resetting h = false ∧
        ∀ g ∈ ((match s.rotation with
            | .a => [.a, .b, .c]
            | .b => [.b, .c, .a]
            | .c => [.c, .a, .b]) : List HostId).takeWhile (fun x => decide (x ≠ h)),
          (s.port g).requests = [] ∨ 4 ≤ (s.port g).replies.length ∨ s.resetting g = true

/-- What a take does: the head request leaves, a hold on the port ends in an empty receive record (R134) with stuck time 0 (R140), the
rotation pointer moves to the port that follows (R100), the due expiries and notices count as overtaken (R102, log 9), and nothing else
changes. Due are the expiries of the leases and waits that have run out (R32, R54) and the notices of the ports that are RESETTING (R103).
-/
def Obligations.TakeMovesHeadRequestAndPointer : Prop :=
  (∀ (s : State) (d : Due), d ∈ s.dueNow ↔
    match d with
    | .lease k => ∃ (owner : HostId) (lines : LineMask) (tag : Byte) (period : Nat),
        s.slots[k].body = .held owner lines tag (some { period := period, remaining := 0 })
    | .wait host tag => ∃ e ∈ s.waitQueue, e.host = host ∧ e.tag = tag ∧ e.remaining = some 0
    | .notice p => (s.bus p).state = .resetting) ∧
  ∀ (s : State) (h : HostId), ∃ W : PerTwoWire TwoWireBus,
    s.take h = { s with
      ports := s.ports.update h fun p => { p with requests := p.requests.drop 1 }
      twoWire := W
      rotation := (match h with
        | .a => .b
        | .b => .c
        | .c => .a)
      overtaken := s.dueNow } ∧
    (∀ (p : TwoWire) (rx : RxRecord) (t : Nat), p.host = h → (s.bus p).state = .holding rx t →
      W.get p = { s.bus p with state := .receiving { bytes := [], len := none, sum := 0, mark := .unmarked }, stuckTime := 0 }) ∧
    (∀ p : TwoWire, (p.host ≠ h ∨ ∀ (rx : RxRecord) (t : Nat), (s.bus p).state ≠ .holding rx t) → W.get p = s.bus p)

/-- The first two orders of validation: a request whose opcode is not defined is answered BAD_OPCODE whatever its length, and one of a
defined opcode whose payload length is not accepted is answered BAD_LENGTH, whoever sent it; neither changes anything else (R104). The
codes and the lengths accepted are those of R105 and R125, and a reply enters at the tail of its host's reply queue (R101). -/
def Obligations.UnknownOpcodeOrLengthRefused : Prop :=
  (∀ (s : State) (h : HostId) (f : Frame), s.nextRequest = some (h, f) →
    (f.opcode ∉ [0x01, 0x02, 0x03, 0x04, 0x10, 0x11, 0x12, 0x13, 0x14, 0x15, 0x16, 0x17, 0x20, 0x21, 0x22, 0x23, 0x24,
        0x30, 0x31, 0x32, 0x40, 0x41, 0x50, 0x51] →
      exec .unknownOpcodeRequest s = .next (s.served h f .badOpcode [])) ∧
    (∀ (o : Opcode) (raw : LineMask) (bits : Fin 8), f.opcode = opcodeByte o →
      lengthAccepted o f.payload.length = false →
        exec (requestCommand o raw bits) s = .next (s.served h f .badLength []))) ∧
  (∀ (o : Opcode) (n : Nat),
    (opcodeByte o, lengthAccepted o n) =
      match o with
      | .identify => (0x01, decide (n = 0))
      | .status => (0x02, decide (n = 0))
      | .configPort => (0x03, decide (n = 3))
      | .resetPort => (0x04, decide (n = 0))
      | .claimNow => (0x10, decide (n = 6))
      | .claimWait => (0x11, decide (n = 7))
      | .cancelWait => (0x12, decide (n = 1))
      | .release => (0x13, decide (n = 1))
      | .trim => (0x14, decide (n = 5))
      | .renew => (0x15, decide (n = 3))
      | .queryHolding => (0x16, decide (n = 1))
      | .listHoldings => (0x17, decide (n = 0))
      | .setMode => (0x20, decide (n = 6))
      | .setFilter => (0x21, decide (n = 5))
      | .setSafe => (0x22, decide (n = 7))
      | .drive => (0x23, decide (n = 8))
      | .sample => (0x24, decide (n = 0))
      | .startPattern => (0x30, decide (8 ≤ n ∧ n ≤ 29))
      | .stopPattern => (0x31, decide (n = 2))
      | .queryPattern => (0x32, decide (n = 1))
      | .watch => (0x40, decide (n = 5))
      | .unwatch => (0x41, decide (n = 4))
      | .revoke => (0x50, decide (n = 1))
      | .fullReset => (0x51, decide (n = 0))) ∧
  (∀ (s : State) (h : HostId) (r : Reply),
    s.placeReply h r = { s with ports := s.ports.update h fun p => { p with replies := p.replies ++ [r] } }) ∧
  (∀ (s : State) (h : HostId) (f : Frame) (status : Status) (payload : List Byte),
    ((s.served h f status payload).port h).replies =
      (s.port h).replies ++ [{ tag := f.tag, status := status, payload := payload }])

/-- REVOKE and FULL_RESET are refused NOT_PERMITTED to every host but the designated supervisor, and change nothing; no other opcode
is refused by validation once its length is accepted (R106). -/
def Obligations.SupervisorOnlyRequestsRefused : Prop :=
  ∀ (s : State) (o : Opcode) (h : HostId) (f : Frame) (raw : LineMask) (bits : Fin 8),
    s.Next o h f → lengthAccepted o f.payload.length = true →
      ((o = .revoke ∨ o = .fullReset) → s.supervisor ≠ some h →
        exec (requestCommand o raw bits) s = .next (s.served h f .notPermitted [])) ∧
      (¬ (o = .revoke ∨ o = .fullReset) → (s.take h).validate o h f = none)

/-! ### Device requests -/

/-- IDENTIFY reports the part, the supervisor, the requesting port, the reset cause and the time, and changes no state (R113). -/
def Obligations.IdentifyReportsThePart : Prop :=
  ∀ (s : State) (h : HostId) (f : Frame), s.Valid .identify h f →
    exec .identify s = .next (s.served h f .ok
      [0x03, 0x32, 0x01,
        (match s.supervisor with
          | none => 0
          | some .a => 1
          | some .b => 2
          | some .c => 3),
        (match h with
          | .a => 1
          | .b => 2
          | .c => 3),
        (match s.resetCause with
          | .powerOn => 1
          | .pin => 2
          | .command => 3),
        s.time.count.setWidth 8, (s.time.count >>> 8).setWidth 8])

/-- STATUS reports the flags, the occupancies and the host's counts, and clears the four flags of its own port (R114, R115). -/
def Obligations.StatusReportsAndClearsFlags : Prop :=
  ∀ (s : State) (h : HostId) (f : Frame), s.Valid .status h f →
    ∃ flags : Byte,
      exec .status s = .next (((s.take h).mapPort h fun p => { p with flags :=
          { resetSeen := false, frameError := false, requestOverrun := false, eventOverflow := false } }).placeReply h
        (replyTo f .ok
          [flags, countByte ((s.port h).requests.length - 1), countByte (s.port h).replies.length,
            countByte (s.port h).events.length, countByte (waitsOf s.waitQueue h).length,
            countByte ((List.finRange 16).filter fun k => s.slots[k].heldBy h).length,
            countByte ((List.finRange 16).filter fun k => s.slots[k].endedOf h).length])) ∧
      flags.getLsbD 0 = (s.port h).flags.resetSeen ∧ flags.getLsbD 1 = (s.port h).flags.frameError ∧
      flags.getLsbD 2 = (s.port h).flags.requestOverrun ∧ flags.getLsbD 3 = (s.port h).flags.eventOverflow ∧
      flags &&& 0xF0 = 0

/-- CONFIG_PORT writes every configuration field of its own port (Port C keeps no hold mode), or is refused BAD_ARGUMENT and changes nothing
(R152). Writing one port's record, or one two-wire port's bus, writes nothing else (R117). The attention output of a running part is
asserted exactly when a condition that the mask enables holds and the port is not RESETTING (R153). -/
def Obligations.ConfigPortWritesOwnRecord : Prop :=
  (∀ (s : State) (h : HostId) (f : Port → Port),
    s.mapPort h f = { s with ports := (s.mapPort h f).ports } ∧
      ∀ g : HostId, (s.mapPort h f).port g = if g = h then f (s.port g) else s.port g) ∧
  (∀ (s : State) (p : TwoWire) (f : TwoWireBus → TwoWireBus),
    s.mapBus p f = { s with twoWire := (s.mapBus p f).twoWire } ∧
      ∀ q : TwoWire, (s.mapBus p f).bus q = if q = p then f (s.bus q) else s.bus q) ∧
  (∀ (s : State) (h : HostId), s.attention h = true ↔
    s.inReset = false ∧ s.resetting h = false ∧
      ((s.port h).mask.replyWaiting = true ∧ (s.port h).replies ≠ [] ∨
        (s.port h).mask.eventWaiting = true ∧ (s.port h).events ≠ [] ∨
        (s.port h).mask.requestRoom = true ∧ (s.port h).requests.length < 4)) ∧
  ∀ (s : State) (h : HostId) (f : Frame), s.Valid .configPort h f →
    (f.byteAt 0 &&& 0xF8 = 0 ∧ (f.byteAt 1).toNat ≤ 1 ∧ (f.byteAt 2).toNat ≤ 1 →
      ∃ W : PerTwoWire TwoWireBus,
        exec .configPort s = .next (({ (s.take h).mapPort h (fun p => { p with
            mask := { replyWaiting := (f.byteAt 0).getLsbD 0, eventWaiting := (f.byteAt 0).getLsbD 1
                      requestRoom := (f.byteAt 0).getLsbD 2 }
            policy := if f.byteAt 2 = 0 then .keep else .release }) with twoWire := W } : State).placeReply h
          (replyTo f .ok [])) ∧
        ∀ p : TwoWire, W.get p =
          if p.host = h then { (s.take h).bus p with holdMode := if f.byteAt 1 = 0 then .refuse else .hold }
          else (s.take h).bus p) ∧
    (f.byteAt 0 &&& 0xF8 ≠ 0 ∨ 1 < (f.byteAt 1).toNat ∨ 1 < (f.byteAt 2).toNat →
      exec .configPort s = .next (s.served h f .badArgument []))

/-- RESET_PORT: the state before the grant scan that ends the event is the take's, with the port's queues emptied and its flags set, the
host's waits withdrawn, its watches cleared and its holdings kept or freed by the policy, and with the transfer on the port's own bus
carried on: a receive record and the hold mode are kept, a hold ends in an empty record with stuck time 0 (R140), and a frame in transit is
abandoned after the byte under way (R116, R117, R143, R150, R151, R157). On Port C the first byte is under way from the fall of SELC on
(R144). Whether another byte is under way on the bus, and the bits of Port C's current byte, are the command's operand (the model's choice,
log 10). -/
def Obligations.ResetPortStartsHostAfresh : Prop :=
  ∀ (s : State) (h : HostId) (f : Frame) (raw : LineMask) (bits : Fin 8), s.Valid .resetPort h f →
    let afresh : Port → Port := fun p => { p with
      requests := [], replies := [], events := []
      flags := { resetSeen := true, frameError := false, requestOverrun := false, eventOverflow := false } }
    let abandoned : OutSelection → OutSelection := fun out =>
      if out.inTransit = true then
        { out with
          bytes := out.bytes.take (if bits ≠ 0 ∨ (h = .c ∧ out.sent = 0) then out.sent + 1 else out.sent)
          inTransit := false }
      else out
    ∃ (t u : State) (S : Vector Slot 16) (L : Vector LineRecord 32) (P : Vector (Option Pattern) 4)
      (W : PerTwoWire TwoWireBus) (F : FourWireBus),
      exec (.resetPort raw bits) s = .next t ∧
      t = u.grantScan.placeReply h (replyTo f .ok []) ∧
      u = { s.take h with
        ports := s.ports.update h afresh
        waitQueue := s.waitQueue.filter (fun e => decide (e.host ≠ h))
        watches := s.watches.update h fun _ => Vector.replicate 32 Edges.none
        slots := S, lines := L, patterns := P, twoWire := W, fourWire := F } ∧
      ((s.port h).policy = .keep → S = s.slots ∧ L = s.lines ∧ P = s.patterns) ∧
      ((s.port h).policy = .release → ∀ k : Fin 16,
        S[k] = if s.slots[k].heldBy h = true ∨ s.slots[k].endedOf h = true
          then { gen := s.slots[k].gen, body := .free } else s.slots[k]) ∧
      (∀ q : TwoWire, W.get q =
        if q.host = h then
          { s.bus q with
            state := match (s.bus q).state with
              | .holding _ _ => .receiving { bytes := [], len := none, sum := 0, mark := .unmarked }
              | .sending out refused => .sending (abandoned out) refused
              | other => other
            stuckTime := match (s.bus q).state with
              | .holding _ _ => 0
              | _ => (s.bus q).stuckTime }
        else s.bus q) ∧
      F = (if h = .c then
          { s.fourWire with
            state := match s.fourWire.state with
              | .exchange rx _ out => .exchange rx bits (abandoned out)
              | .deselected => .deselected }
        else s.fourWire) ∧
      t.port h = { s.port h with
        requests := [], replies := [replyTo f .ok []], events := []
        flags := { resetSeen := true, frameError := false, requestOverrun := false, eventOverflow := false } } ∧
      (∀ g : HostId, g ≠ h → (t.port g).requests = (s.port g).requests ∧ (t.port g).replies = (s.port g).replies ∧
        (t.port g).mask = (s.port g).mask ∧ (t.port g).policy = (s.port g).policy ∧ t.watches.get g = s.watches.get g ∧
        t.selection g = s.selection g) ∧
      (∀ n : Fin 32, (t.watches.get h)[n] = .none) ∧
      (∀ e ∈ t.waitQueue, e.host ≠ h ∧ e ∈ s.waitQueue) ∧
      (∀ out : OutSelection, s.selection h = some out → t.selection h = some (abandoned out)) ∧
      (∀ (k : Fin 16) (g : HostId), g ≠ h → s.slots[k].heldBy g = true ∨ s.slots[k].endedOf g = true →
        t.slots[k] = s.slots[k]) ∧
      ((s.port h).policy = .keep →
        (∀ k : Fin 16, s.slots[k].heldBy h = true ∨ s.slots[k].endedOf h = true → t.slots[k] = s.slots[k]) ∧
          t.patterns = s.patterns ∧ t.lines = s.lines) ∧
      ((s.port h).policy = .release → ∀ k : Fin 16, t.slots[k].heldBy h = false ∧ t.slots[k].endedOf h = false) ∧
      t.rotation = nextHost h ∧ t.supervisor = s.supervisor ∧ t.resetCause = s.resetCause ∧ t.adr = s.adr ∧
      t.time = s.time ∧ t.inReset = s.inReset

/-- Under the RELEASE policy, in a RESET_PORT and in the taking of a port-reset notice, every pattern under a HELD slot of the reset host is
aborted, its lines take their safe states, and all other patterns and lines are unchanged (R42, R81, R157), in any state that keeps the laws
of ownership. -/
def Obligations.ReleasePolicyFreesLinesAndPatterns : Prop :=
  (∀ (s : State) (h : HostId) (f : Frame) (raw : LineMask) (bits : Fin 8), s.Valid .resetPort h f → s.OwnershipLaw →
    (s.port h).policy = .release →
    ∃ t : State, exec (.resetPort raw bits) s = .next t ∧
      LeftHolding s.lines t.lines (linesHeldBy s.slots h) raw ∧
      IdleKept s.patterns t.patterns ∧
      Aborted s.patterns t.patterns (fun p => s.slots[handleSlot p.handle].heldBy h = true)) ∧
  (∀ (s : State) (p : TwoWire) (raw : LineMask), s.inReset = false → (s.bus p).state = .resetting → s.OwnershipLaw →
    (s.port p.host).policy = .release →
    ∃ t : State, exec (.portResetNotice p raw) s = .next t ∧
      LeftHolding s.lines t.lines (linesHeldBy s.slots p.host) raw ∧
      IdleKept s.patterns t.patterns ∧
      Aborted s.patterns t.patterns (fun q => s.slots[handleSlot q.handle].heldBy p.host = true))

/-! ### Claims -/

/-- CLAIM_NOW is decided by the first condition that holds; a grant goes into the lowest FREE slot (R44, R25). -/
def Obligations.ClaimNowDecidedInOrder : Prop :=
  ∀ (s : State) (h : HostId) (f : Frame), s.Valid .claimNow h f →
    let lines := f.maskAt 0
    let period := (f.halfAt 4).toNat
    (lines = 0 ∨ 4095 < period → exec .claimNow s = .next (s.served h f .badArgument [])) ∧
    (lines ≠ 0 → period ≤ 4095 → lines &&& heldLines s.slots ≠ 0 →
      exec .claimNow s = .next (s.served h f .linesHeld (maskBytes (lines &&& heldLines s.slots)))) ∧
    (lines ≠ 0 → period ≤ 4095 → lines &&& heldLines s.slots = 0 → lines &&& waitingLines s.waitQueue ≠ 0 →
      exec .claimNow s = .next (s.served h f .contended (maskBytes (lines &&& waitingLines s.waitQueue)))) ∧
    (lines ≠ 0 → period ≤ 4095 → lines &&& heldLines s.slots = 0 → lines &&& waitingLines s.waitQueue = 0 →
      (∀ k : Fin 16, s.slots[k].isFree = false) → exec .claimNow s = .next (s.served h f .noSlot [])) ∧
    (lines ≠ 0 → period ≤ 4095 → lines &&& heldLines s.slots = 0 → lines &&& waitingLines s.waitQueue = 0 →
      ∀ k : Fin 16, LowestFree s.slots k →
        ∃ S : Vector Slot 16,
          exec .claimNow s = .next (({ s.take h with slots := S } : State).placeReply h
            (replyTo f .ok [handleOf k (s.slots[k].gen + 1)])) ∧
          SlotWritten s.slots S k
            { gen := s.slots[k].gen + 1
              body := .held h lines f.tag
                (if period = 0 then none else some { period := period, remaining := period }) }) ∧
    (∀ n : Fin 32, (heldLines s.slots).getLsbD n = true ↔ ∃ k : Fin 16, s.slots[k].lines.getLsbD n = true) ∧
    (∀ n : Fin 32, (waitingLines s.waitQueue).getLsbD n = true ↔ ∃ e ∈ s.waitQueue, e.lines.getLsbD n = true)

/-- CLAIM_WAIT is decided by the first order of R47 that applies: refused BAD_ARGUMENT, SELF_HELD or DUPLICATE_TAG; granted at once where
a CLAIM_NOW would be, with no waiting entry (R48); refused QUEUE_FULL or HOST_LIMIT; and otherwise queued at the tail and answered QUEUED
with its position (R49). -/
def Obligations.ClaimWaitDecidedInOrder : Prop :=
  ∀ (s : State) (h : HostId) (f : Frame), s.Valid .claimWait h f →
    let lines := f.maskAt 0
    let period := (f.halfAt 4).toNat
    let duplicate := ∃ e ∈ s.waitQueue, e.host = h ∧ e.tag = f.tag
    let wellFormed := lines ≠ 0 ∧ period ≤ 4095
    let allowed := wellFormed ∧ lines &&& linesHeldBy s.slots h = 0 ∧ ¬ duplicate
    let unobstructed := lines &&& heldLines s.slots = 0 ∧ lines &&& waitingLines s.waitQueue = 0
    let grantable := unobstructed ∧ ∃ k : Fin 16, s.slots[k].isFree = true
    (¬ wellFormed → exec .claimWait s = .next (s.served h f .badArgument [])) ∧
    (wellFormed → lines &&& linesHeldBy s.slots h ≠ 0 → exec .claimWait s = .next (s.served h f .selfHeld [])) ∧
    (wellFormed → lines &&& linesHeldBy s.slots h = 0 → duplicate →
      exec .claimWait s = .next (s.served h f .duplicateTag [])) ∧
    (allowed → unobstructed → ∀ k : Fin 16, LowestFree s.slots k →
      ∃ S : Vector Slot 16,
        exec .claimWait s = .next (({ s.take h with slots := S } : State).placeReply h
          (replyTo f .ok [handleOf k (s.slots[k].gen + 1)])) ∧
        SlotWritten s.slots S k
          { gen := s.slots[k].gen + 1
            body := .held h lines f.tag
              (if period = 0 then none else some { period := period, remaining := period }) }) ∧
    (allowed → ¬ grantable → 8 ≤ s.waitQueue.length → exec .claimWait s = .next (s.served h f .queueFull [])) ∧
    (allowed → ¬ grantable → s.waitQueue.length < 8 → 4 ≤ (waitsOf s.waitQueue h).length →
      exec .claimWait s = .next (s.served h f .hostLimit [])) ∧
    (allowed → ¬ grantable → s.waitQueue.length < 8 → (waitsOf s.waitQueue h).length < 4 →
      exec .claimWait s = .next (({ s.take h with
          waitQueue := s.waitQueue ++ [{ host := h, tag := f.tag, lines := lines, period := period
                                         remaining := if f.byteAt 6 = 0 then none else some (f.byteAt 6).toNat }] } :
        State).placeReply h (replyTo f .queued [countByte (s.waitQueue.length + 1)])))

/-- CANCEL_WAIT removes the requester's entry with the wait tag and runs the grant scan, or is answered NOT_FOUND and changes nothing;
other hosts' entries with the tag are not looked at (R56). -/
def Obligations.CancelWaitRemovesOwnEntry : Prop :=
  ∀ (s : State) (h : HostId) (f : Frame), s.Valid .cancelWait h f →
    ((∃ e ∈ s.waitQueue, e.host = h ∧ e.tag = f.byteAt 0) →
      exec .cancelWait s = .next ((({ s.take h with
          waitQueue := s.waitQueue.filter fun e => !(decide (e.host = h) && decide (e.tag = f.byteAt 0))
        } : State).grantScan).placeReply h (replyTo f .ok []))) ∧
    ((∀ e ∈ s.waitQueue, e.host = h → e.tag ≠ f.byteAt 0) →
      exec .cancelWait s = .next (s.served h f .notFound []))

/-- One entry reached by the walk of the grant scan: it is granted into the lowest FREE slot, with its GRANTED event, exactly when its
lines are unowned, none is in the blocked set and a slot is FREE; otherwise it stays and its lines join the blocked set (R58, R59).
The walk ends after the newest entry. -/
def Obligations.GrantScanDecidesEachEntry : Prop :=
  (∀ (e : WaitEntry) (rest : List WaitEntry) (blocked : LineMask) (t : Vector Slot 16) (k : Fin 16),
    e.lines &&& heldLines t = 0 → e.lines &&& blocked = 0 → LowestFree t k →
    ∃ S : Vector Slot 16,
      SlotWritten t S k
        { gen := t[k].gen + 1
          body := .held e.host e.lines e.tag
            (if e.period = 0 then none else some { period := e.period, remaining := e.period }) } ∧
      (grantWalk (e :: rest) blocked t).slots = (grantWalk rest blocked S).slots ∧
      (grantWalk (e :: rest) blocked t).kept = (grantWalk rest blocked S).kept ∧
      (grantWalk (e :: rest) blocked t).events =
        (e.host, .granted e.tag (handleOf k (t[k].gen + 1))) :: (grantWalk rest blocked S).events) ∧
  (∀ (e : WaitEntry) (rest : List WaitEntry) (blocked : LineMask) (t : Vector Slot 16),
    (e.lines &&& heldLines t ≠ 0 ∨ e.lines &&& blocked ≠ 0 ∨ ∀ k : Fin 16, t[k].isFree = false) →
      (grantWalk (e :: rest) blocked t).slots = (grantWalk rest (blocked ||| e.lines) t).slots ∧
      (grantWalk (e :: rest) blocked t).kept = e :: (grantWalk rest (blocked ||| e.lines) t).kept ∧
      (grantWalk (e :: rest) blocked t).events = (grantWalk rest (blocked ||| e.lines) t).events) ∧
  (∀ (blocked : LineMask) (t : Vector Slot 16),
    (grantWalk [] blocked t).slots = t ∧ (grantWalk [] blocked t).kept = [] ∧ (grantWalk [] blocked t).events = []) ∧
  (∀ s : State, s.grantScan = ({ s with
      slots := (grantWalk s.waitQueue 0 s.slots).slots
      waitQueue := (grantWalk s.waitQueue 0 s.slots).kept } : State).sendEvents (grantWalk s.waitQueue 0 s.slots).events)

/-! ### Holdings -/

/-- The handle checks of RENEW, RELEASE, TRIM, START_PATTERN and STOP_PATTERN: STALE_HANDLE, NOT_OWNER, or ENDED with the end cause,
the slot freed and the grant scan run; in each case the request itself is not carried out (R24, R29). A handle is the slot number times 16
plus the generation (R23). -/
def Obligations.HandleChecksComeFirst : Prop :=
  (∀ (k : Fin 16) (gen : BitVec 4), (handleOf k gen).toNat = k.val * 16 + gen.toNat ∧ handleSlot (handleOf k gen) = k) ∧
  ∀ (s : State) (o : Opcode) (h : HostId) (f : Frame) (raw : LineMask) (bits : Fin 8) (k : Fin 16) (gen : BitVec 4),
    (o = .renew ∨ o = .release ∨ o = .trim ∨ o = .startPattern ∨ o = .stopPattern) → s.Valid o h f →
    f.byteAt (if o = .stopPattern then 1 else 0) = handleOf k gen →
    (s.slots[k].isFree = true ∨ s.slots[k].gen ≠ gen →
      exec (requestCommand o raw bits) s = .next (s.served h f .staleHandle [])) ∧
    (s.slots[k].gen = gen →
      (∀ (owner : HostId) (lines : LineMask) (tag : Byte) (lease : Option Lease),
        s.slots[k].body = .held owner lines tag lease → owner ≠ h →
          exec (requestCommand o raw bits) s = .next (s.served h f .notOwner [])) ∧
      (∀ (owner : HostId) (tag : Byte) (lease : Option Lease) (cause : EndCause),
        s.slots[k].body = .ended owner tag lease cause →
          (owner ≠ h → exec (requestCommand o raw bits) s = .next (s.served h f .notOwner [])) ∧
          (owner = h → ∃ S : Vector Slot 16,
            exec (requestCommand o raw bits) s = .next ((({ s.take h with slots := S } : State).grantScan).placeReply h
              (replyTo f .ended [if cause = EndCause.leaseExpired then 0x01 else 0x02])) ∧
            SlotWritten s.slots S k { gen := gen, body := .free })))

/-- RELEASE of a HELD slot of the requester: the patterns under the handle are aborted, the lines take their safe states, the slot
becomes FREE with its generation kept, PATTERN_ABORTED goes to the requester, and the grant scan runs (R36, R26). The events of an abort are
one PATTERN_ABORTED for each slot aborted, in ascending slot order, with slot, handle, tag and cause (R77, R78). -/
def Obligations.ReleaseFreesHolding : Prop :=
  (∀ (s : State) (hit : Pattern → Bool) (owner : HostId) (cause : AbortCause),
    ∃ events : Fin 4 → List (HostId × Event),
      s.abortEvents hit owner cause = events 0 ++ events 1 ++ events 2 ++ events 3 ∧
      ∀ i : Fin 4,
        (s.patterns[i] = none → events i = []) ∧
        (∀ p, s.patterns[i] = some p →
          events i = if hit p = true then [(owner, Event.patternAborted i p.handle p.tag cause)] else [])) ∧
  ∀ (s : State) (h : HostId) (f : Frame) (raw : LineMask) (k : Fin 16) (gen : BitVec 4) (lines : LineMask) (tag : Byte)
    (lease : Option Lease), s.Valid .release h f → f.byteAt 0 = handleOf k gen →
    s.slots[k] = { gen := gen, body := .held h lines tag lease } →
    ∃ (S : Vector Slot 16) (L : Vector LineRecord 32) (P : Vector (Option Pattern) 4),
      exec (.release raw) s = .next (((({ s.take h with slots := S, lines := L, patterns := P } : State).sendEvents
          (s.abortEvents (fun p => decide (p.handle = f.byteAt 0)) h .released)).grantScan).placeReply h
        (replyTo f .ok [])) ∧
      SlotWritten s.slots S k { gen := gen, body := .free } ∧
      LeftHolding s.lines L lines raw ∧
      IdleKept s.patterns P ∧ Aborted s.patterns P (fun p => p.handle = f.byteAt 0)

/-- TRIM of some of the lines of a HELD slot of the requester keeps the rest under the same handle, tag and lease, and aborts whole
each pattern under the handle with a lane among the named lines (R38, R79); TRIM of every line acts as RELEASE, with an empty mask in
the reply; an empty or ill-fitting line set is a BAD_ARGUMENT (R37). -/
def Obligations.TrimGivesUpNamedLines : Prop :=
  ∀ (s : State) (h : HostId) (f : Frame) (raw : LineMask) (k : Fin 16) (gen : BitVec 4) (lines : LineMask) (tag : Byte)
    (lease : Option Lease), s.Valid .trim h f → f.byteAt 0 = handleOf k gen →
    s.slots[k] = { gen := gen, body := .held h lines tag lease } →
    let named := f.maskAt 1
    (named = 0 ∨ named &&& ~~~lines ≠ 0 → exec (.trim raw) s = .next (s.served h f .badArgument [])) ∧
    (named ≠ 0 → named &&& ~~~lines = 0 → named ≠ lines →
      ∃ (S : Vector Slot 16) (L : Vector LineRecord 32) (P : Vector (Option Pattern) 4),
        exec (.trim raw) s = .next (((({ s.take h with slots := S, lines := L, patterns := P } : State).sendEvents
            (s.abortEvents (fun p => decide (p.handle = f.byteAt 0) && decide (p.lines &&& named ≠ 0)) h
              .trimmed)).grantScan).placeReply h (replyTo f .ok (maskBytes (lines &&& ~~~named)))) ∧
        SlotWritten s.slots S k { gen := gen, body := .held h (lines &&& ~~~named) tag lease } ∧
        LeftHolding s.lines L named raw ∧
        IdleKept s.patterns P ∧ Aborted s.patterns P (fun p => p.handle = f.byteAt 0 ∧ p.lines &&& named ≠ 0)) ∧
    (named ≠ 0 → named = lines →
      ∃ (S : Vector Slot 16) (L : Vector LineRecord 32) (P : Vector (Option Pattern) 4),
        exec (.trim raw) s = .next (((({ s.take h with slots := S, lines := L, patterns := P } : State).sendEvents
            (s.abortEvents (fun p => decide (p.handle = f.byteAt 0)) h .released)).grantScan).placeReply h
          (replyTo f .ok [0, 0, 0, 0])) ∧
        SlotWritten s.slots S k { gen := gen, body := .free } ∧
        LeftHolding s.lines L lines raw ∧
        IdleKept s.patterns P ∧ Aborted s.patterns P (fun p => p.handle = f.byteAt 0))

/-- RENEW of a HELD slot of the requester restarts, changes or removes the lease and reports the period in force; a period from 4096 to
0xFFFE is a BAD_ARGUMENT (R34). -/
def Obligations.RenewWritesLease : Prop :=
  ∀ (s : State) (h : HostId) (f : Frame) (k : Fin 16) (gen : BitVec 4) (lines : LineMask) (tag : Byte)
    (lease : Option Lease), s.Valid .renew h f → f.byteAt 0 = handleOf k gen →
    s.slots[k] = { gen := gen, body := .held h lines tag lease } →
    let period := (f.halfAt 1).toNat
    (4096 ≤ period → period ≤ 0xFFFE → exec .renew s = .next (s.served h f .badArgument [])) ∧
    (period ≤ 4095 ∨ period = 0xFFFF →
      ∃ (S : Vector Slot 16) (inForce : Half),
        exec .renew s = .next (({ s.take h with slots := S } : State).placeReply h
          (replyTo f .ok [inForce.setWidth 8, (inForce >>> 8).setWidth 8])) ∧
        (period = 0xFFFF → ∀ l, lease = some l →
          SlotWritten s.slots S k
            { gen := gen, body := .held h lines tag (some { period := l.period, remaining := l.period }) } ∧
          inForce = BitVec.ofNat 16 l.period) ∧
        (period = 0xFFFF → lease = none →
          SlotWritten s.slots S k { gen := gen, body := .held h lines tag none } ∧ inForce = 0) ∧
        (1 ≤ period → period ≤ 4095 →
          SlotWritten s.slots S k
            { gen := gen, body := .held h lines tag (some { period := period, remaining := period }) } ∧
          inForce = BitVec.ofNat 16 period) ∧
        (period = 0 → SlotWritten s.slots S k { gen := gen, body := .held h lines tag none } ∧ inForce = 0))

/-- The reads of the Holding Table change nothing: QUERY_HOLDING answers by the slot's state and by who asks (R39); LIST_HOLDINGS reports the
requester's held and ended slots and its waiting tags in queue order (R40). -/
def Obligations.QueriesReportHoldings : Prop :=
  (∀ (s : State) (h : HostId) (f : Frame), s.Valid .queryHolding h f →
      (16 ≤ (f.byteAt 0).toNat → exec .queryHolding s = .next (s.served h f .badArgument [])) ∧
      (∀ k : Fin 16, f.byteAt 0 = countByte k →
        (s.slots[k].body = .free → exec .queryHolding s = .next (s.served h f .ok [countByte k, 0x00])) ∧
        (∀ (owner : HostId) (lines : LineMask) (tag : Byte) (lease : Option Lease),
          s.slots[k].body = .held owner lines tag lease →
          (owner ≠ h → s.supervisor ≠ some h → exec .queryHolding s = .next (s.served h f .notOwner [])) ∧
          (owner = h ∨ s.supervisor = some h → exec .queryHolding s = .next (s.served h f .ok
            ([countByte k, 0x01, s.slots[k].gen.setWidth 8, hostByte owner, tag] ++ maskBytes lines ++
              halfBytes (BitVec.ofNat 16 (match lease with | some l => l.period | none => 0)) ++
              halfBytes (BitVec.ofNat 16 (match lease with | some l => l.remaining | none => 0)) ++ [0x00])))) ∧
        (∀ (owner : HostId) (tag : Byte) (lease : Option Lease) (cause : EndCause),
          s.slots[k].body = .ended owner tag lease cause →
          (owner ≠ h → s.supervisor ≠ some h → exec .queryHolding s = .next (s.served h f .notOwner [])) ∧
          (owner = h ∨ s.supervisor = some h → exec .queryHolding s = .next (s.served h f .ok
            ([countByte k, 0x02, s.slots[k].gen.setWidth 8, hostByte owner, tag, 0, 0, 0, 0] ++
              halfBytes (BitVec.ofNat 16 (match lease with | some l => l.period | none => 0)) ++
              halfBytes (BitVec.ofNat 16 (match lease with | some l => l.remaining | none => 0)) ++
              [if cause = EndCause.leaseExpired then 0x01 else 0x02])))))) ∧
  (∀ (s : State) (h : HostId) (f : Frame), s.Valid .listHoldings h f →
      ∃ held ended : BitVec 16,
        exec .listHoldings s = .next (s.served h f .ok
          ([held.setWidth 8, (held >>> 8).setWidth 8, ended.setWidth 8, (ended >>> 8).setWidth 8,
            countByte (s.waitQueue.filter fun e => decide (e.host = h)).length] ++
            (s.waitQueue.filter fun e => decide (e.host = h)).map WaitEntry.tag)) ∧
        ∀ k : Fin 16, held.getLsbD k = s.slots[k].heldBy h ∧ ended.getLsbD k = s.slots[k].endedOf h)

/-! ### Lines and watches -/

/-- SET_MODE, SET_FILTER and DRIVE are refused by the first failing check of R13, and a refused request changes no line record. A slot is
FREE, HELD by its owner with its lines, or ENDED of its owner with no line, and the lines a host holds are those of its HELD slots (R21). -/
def Obligations.LineRequestsRefusedInOrder : Prop :=
  (∀ (x : Slot) (h : HostId),
    (x.isFree, x.heldBy h, x.endedOf h, x.lines) =
      match x.body with
      | .free => (true, false, false, 0)
      | .held owner lines _ _ => (false, decide (owner = h), false, lines)
      | .ended owner _ _ _ => (false, false, decide (owner = h), 0)) ∧
  (∀ (t : Vector Slot 16) (h : HostId) (n : Fin 32), (linesHeldBy t h).getLsbD n = true ↔
    ∃ k : Fin 16, t[k].heldBy h = true ∧ t[k].lines.getLsbD n = true) ∧
  ∀ (s : State) (o : Opcode) (h : HostId) (f : Frame) (raw : LineMask) (bits : Fin 8), s.Valid o h f →
    (o = .setMode ∨ o = .setFilter ∨ o = .drive) →
    let fieldsDefined := (o = .setMode → (f.byteAt 4).toNat ≤ 3 ∧ (f.byteAt 5).toNat ≤ 1) ∧
      (o = .setFilter → (f.byteAt 4).toNat ≤ 3)
    (f.maskAt 0 = 0 ∨ ¬ fieldsDefined → exec (requestCommand o raw bits) s = .next (s.served h f .badArgument [])) ∧
    (f.maskAt 0 ≠ 0 → fieldsDefined → f.maskAt 0 &&& ~~~(linesHeldBy s.slots h) ≠ 0 →
      exec (requestCommand o raw bits) s = .next (s.served h f .notOwner [])) ∧
    (f.maskAt 0 ≠ 0 → fieldsDefined → f.maskAt 0 &&& ~~~(linesHeldBy s.slots h) = 0 →
      (∃ (i : Fin 4) (p : Pattern), s.patterns[i] = some p ∧ f.maskAt 0 &&& p.lines ≠ 0) →
      exec (requestCommand o raw bits) s = .next (s.served h f .lineBusy []))

/-- SET_MODE writes the mode and the pull-up of every named line, with the filter effects of the mode change, and nothing else
(R14, R5). The pad of a line is driven and pulled up as its mode, output level and pull-up give, and not at all in a device reset (R2, R3,
R4). -/
def Obligations.SetModeWritesNamedLines : Prop :=
  (∀ (s : State) (n : Fin 32),
    (s.inReset = true → s.padDrive n = .highZ ∧ s.padPullUp n = false) ∧
    (s.inReset = false →
      s.padDrive n = (match s.lines[n].mode with
        | .disconnected => .highZ
        | .input => .highZ
        | .pushPull => if s.lines[n].level then .high else .low
        | .openDrain => if s.lines[n].level then .highZ else .low) ∧
      s.padPullUp n = (match s.lines[n].mode with
        | .disconnected => false
        | .input => s.lines[n].pullUp
        | .pushPull => false
        | .openDrain => s.lines[n].pullUp))) ∧
  ∀ (s : State) (h : HostId) (f : Frame) (raw : LineMask) (m : Mode) (pullUp : Bool), s.Valid .setMode h f →
    f.maskAt 0 ≠ 0 →
    f.byteAt 4 = (match m with
      | .disconnected => 0
      | .input => 1
      | .pushPull => 2
      | .openDrain => 3) →
    f.byteAt 5 = (if pullUp then 1 else 0) →
    f.maskAt 0 &&& ~~~(linesHeldBy s.slots h) = 0 →
    (∀ (i : Fin 4) (p : Pattern), s.patterns[i] = some p → f.maskAt 0 &&& p.lines = 0) →
    ∃ L : Vector LineRecord 32,
      exec (.setMode raw) s = .next (({ s.take h with lines := L } : State).placeReply h (replyTo f .ok [])) ∧
      ∀ n : Fin 32, L[n] =
        if (f.maskAt 0).getLsbD n = true then
          { s.lines[n] with
            mode := m
            pullUp := pullUp
            filtered := filteredAfter s.lines[n] m (raw.getLsbD n)
            settling := if (s.lines[n].mode = .disconnected ↔ m = .disconnected) then s.lines[n].settling else 0 }
        else s.lines[n]

/-- SET_FILTER writes the filter of every named line and restarts its count (R15, R8); DRIVE writes the output level of every named line
from the level mask (R16); neither writes any other field. -/
def Obligations.SetFilterAndDriveWriteNamedLines : Prop :=
  ∀ (s : State) (h : HostId) (f : Frame), f.maskAt 0 ≠ 0 →
    f.maskAt 0 &&& ~~~(linesHeldBy s.slots h) = 0 →
    (∀ (i : Fin 4) (p : Pattern), s.patterns[i] = some p → f.maskAt 0 &&& p.lines = 0) →
    (∀ x : Filter, s.Valid .setFilter h f →
      f.byteAt 4 = (match x with
        | .none => 0
        | .f10us => 1
        | .f100us => 2
        | .f1ms => 3) →
      ∃ L : Vector LineRecord 32,
        exec .setFilter s = .next (({ s.take h with lines := L } : State).placeReply h (replyTo f .ok [])) ∧
        ∀ n : Fin 32, L[n] =
          if (f.maskAt 0).getLsbD n = true then { s.lines[n] with filter := x, settling := 0 } else s.lines[n]) ∧
    (s.Valid .drive h f →
      ∃ L : Vector LineRecord 32,
        exec .drive s = .next (({ s.take h with lines := L } : State).placeReply h (replyTo f .ok [])) ∧
        ∀ n : Fin 32, L[n] =
          if (f.maskAt 0).getLsbD n = true then { s.lines[n] with level := (f.maskAt 4).getLsbD n } else s.lines[n])

/-- SET_SAFE writes the safe record of every named line; a line that belongs to no holding takes the new safe state at once (R18). It is
refused BAD_ARGUMENT, or NOT_OWNER to a host that is not the supervisor and does not hold every named line (R17). -/
def Obligations.SetSafeWritesSafeRecords : Prop :=
  ∀ (s : State) (h : HostId) (f : Frame) (raw : LineMask), s.Valid .setSafe h f →
    let defined := (f.byteAt 4).toNat ≤ 3 ∧ (f.byteAt 5).toNat ≤ 1 ∧ (f.byteAt 6).toNat ≤ 1
    let owned := f.maskAt 0 &&& ~~~(linesHeldBy s.slots h) = 0
    (f.maskAt 0 = 0 ∨ ¬ defined → exec (.setSafe raw) s = .next (s.served h f .badArgument [])) ∧
    (f.maskAt 0 ≠ 0 → defined → s.supervisor ≠ some h → ¬ owned →
      exec (.setSafe raw) s = .next (s.served h f .notOwner [])) ∧
    (f.maskAt 0 ≠ 0 → defined → s.supervisor = some h ∨ owned →
      ∃ (L : Vector LineRecord 32) (m : Mode),
        f.byteAt 4 = (match m with
          | .disconnected => 0
          | .input => 1
          | .pushPull => 2
          | .openDrain => 3) ∧
        exec (.setSafe raw) s = .next (({ s.take h with lines := L } : State).placeReply h (replyTo f .ok [])) ∧
        ∀ n : Fin 32,
          ((f.maskAt 0).getLsbD n = false → L[n] = s.lines[n]) ∧
          ((f.maskAt 0).getLsbD n = true →
            let written : LineRecord := { s.lines[n] with
              safe := { mode := m, level := decide (f.byteAt 5 = 1), pullUp := decide (f.byteAt 6 = 1) } }
            ((heldLines s.slots).getLsbD n = true → L[n] = written) ∧
            ((heldLines s.slots).getLsbD n = false → TookSafeState written L[n] (raw.getLsbD n))))

/-- SAMPLE reports the filtered levels, the disconnected lines, the lines the requester holds and the time, and changes nothing
(R19). -/
def Obligations.SampleReportsLines : Prop :=
  ∀ (s : State) (h : HostId) (f : Frame), s.Valid .sample h f →
    ∃ filtered disconnected held : LineMask,
      exec .sample s = .next (s.served h f .ok
        (maskBytes filtered ++ maskBytes disconnected ++ maskBytes held ++
          [s.time.count.setWidth 8, (s.time.count >>> 8).setWidth 8])) ∧
      (∀ n : Fin 32, filtered.getLsbD n = s.lines[n].filtered) ∧
      (∀ n : Fin 32, disconnected.getLsbD n = decide (s.lines[n].mode = .disconnected)) ∧
      (∀ n : Fin 32, held.getLsbD n = true ↔
        ∃ k : Fin 16, s.slots[k].heldBy h = true ∧ s.slots[k].lines.getLsbD n = true)

/-- WATCH writes the requester's entry for every named line with RISING, FALLING or BOTH, and is refused BAD_ARGUMENT when it names no line
or its edges field is none of these (R85); UNWATCH sets the requester's entry for every named line to NONE, and is refused BAD_ARGUMENT when
it names no line (R86). Neither writes another entry, nor reaches into an event queue. -/
def Obligations.WatchAndUnwatchWriteOwnEntries : Prop :=
  ∀ (s : State) (h : HostId) (f : Frame),
    let written : Instr → Edges → Prop := fun c e =>
      ∃ V : PerHost (Vector Edges 32),
        exec c s = .next (({ s.take h with watches := V } : State).placeReply h (replyTo f .ok [])) ∧
        (∀ g : HostId, g ≠ h → V.get g = s.watches.get g) ∧
        ∀ n : Fin 32, (V.get h)[n] = if (f.maskAt 0).getLsbD n = true then e else (s.watches.get h)[n]
    (s.Valid .watch h f →
      (f.maskAt 0 = 0 ∨ f.byteAt 4 = 0 ∨ 3 < (f.byteAt 4).toNat →
        exec .watch s = .next (s.served h f .badArgument [])) ∧
      (f.maskAt 0 ≠ 0 → f.byteAt 4 = 1 → written .watch .rising) ∧
      (f.maskAt 0 ≠ 0 → f.byteAt 4 = 2 → written .watch .falling) ∧
      (f.maskAt 0 ≠ 0 → f.byteAt 4 = 3 → written .watch .both)) ∧
    (s.Valid .unwatch h f →
      (f.maskAt 0 = 0 → exec .unwatch s = .next (s.served h f .badArgument [])) ∧
      (f.maskAt 0 ≠ 0 → written .unwatch .none))

/-! ### Patterns -/

/-- START_PATTERN on a HELD slot of the requester, with a payload of the right form: it is refused by the first failing check, and
otherwise starts in the lowest IDLE slot and writes step 0's levels to the lanes (R68, R69). Bit j of a lane mask on bank k is line 8k + j
(R120), and each step is a level byte and a duration, least significant byte first (R67, R120). -/
def Obligations.StartPatternStartsLowestIdleSlot : Prop :=
  (∀ (bank : Fin 4) (lanes : Byte) (n : Fin 32),
    (laneLines bank lanes).getLsbD n = (decide (n.val / 8 = bank.val) && lanes.getLsbD (n.val % 8))) ∧
  (∀ p : Pattern, p.lines = laneLines p.bank p.lanes) ∧
  (stepsOf [] = [] ∧ ∀ (level low high : Byte) (rest : List Byte), stepsOf (level :: low :: high :: rest) =
    { level := level, duration := low.toNat + 256 * high.toNat } :: stepsOf rest) ∧
  ∀ (s : State) (h : HostId) (f : Frame) (k : Fin 16) (gen : BitVec 4) (lines : LineMask) (tag : Byte)
    (lease : Option Lease) (bank : Fin 4) (first : PatternStep) (others : List PatternStep),
    s.Valid .startPattern h f → f.byteAt 0 = handleOf k gen →
    s.slots[k] = { gen := gen, body := .held h lines tag lease } →
    f.byteAt 1 = countByte bank → f.byteAt 2 ≠ 0 → (f.byteAt 4).toNat ≤ 8 →
    f.payload.length = 5 + 3 * (f.byteAt 4).toNat →
    stepsOf (f.payload.drop 5) = first :: others → (∀ x ∈ first :: others, 1 ≤ x.duration) →
    let lanes := laneLines bank (f.byteAt 2)
    let undriven := ∃ n : Fin 32, lanes.getLsbD n = true ∧ s.lines[n].mode ≠ .pushPull ∧ s.lines[n].mode ≠ .openDrain
    let busy := ∃ (i : Fin 4) (p : Pattern), s.patterns[i] = some p ∧ lanes &&& p.lines ≠ 0
    (lanes &&& ~~~lines ≠ 0 → exec .startPattern s = .next (s.served h f .badArgument [])) ∧
    (lanes &&& ~~~lines = 0 → undriven → exec .startPattern s = .next (s.served h f .modeConflict [])) ∧
    (lanes &&& ~~~lines = 0 → ¬ undriven → busy → exec .startPattern s = .next (s.served h f .lineBusy [])) ∧
    (lanes &&& ~~~lines = 0 → ¬ undriven → ¬ busy → (∀ i : Fin 4, s.patterns[i] ≠ none) →
      exec .startPattern s = .next (s.served h f .noPatternSlot [])) ∧
    (lanes &&& ~~~lines = 0 → ¬ undriven → ¬ busy →
      ∀ i : Fin 4, s.patterns[i] = none → (∀ j : Fin 4, j < i → s.patterns[j] ≠ none) →
        ∃ (L : Vector LineRecord 32) (P : Vector (Option Pattern) 4),
          exec .startPattern s = .next (({ s.take h with lines := L, patterns := P } : State).placeReply h
            (replyTo f .ok [countByte i])) ∧
          LanesWritten s.lines L bank (f.byteAt 2) first.level ∧
          P[i] = some { handle := f.byteAt 0, tag := f.tag, bank := bank, lanes := f.byteAt 2
                        steps := first :: others, repeats := (f.byteAt 3).toNat, current := 0
                        passes := if f.byteAt 3 = 0 then none else some (f.byteAt 3).toNat
                        timeLeft := first.duration } ∧
          ∀ j : Fin 4, j ≠ i → P[j] = s.patterns[j])

/-- START_PATTERN on a HELD slot of the requester is a BAD_ARGUMENT when its length does not agree with its step count, its bank is above
3, its lane mask is 0, its step count is not 1 to 8 or a duration is 0 (R68 check 1). -/
def Obligations.StartPatternIllFormedRefused : Prop :=
  ∀ (s : State) (h : HostId) (f : Frame) (k : Fin 16) (gen : BitVec 4) (lines : LineMask) (tag : Byte)
    (lease : Option Lease), s.Valid .startPattern h f → f.byteAt 0 = handleOf k gen →
    s.slots[k] = { gen := gen, body := .held h lines tag lease } →
    (f.payload.length ≠ 5 + 3 * (f.byteAt 4).toNat ∨ 4 ≤ (f.byteAt 1).toNat ∨ f.byteAt 2 = 0 ∨ f.byteAt 4 = 0 ∨
        8 < (f.byteAt 4).toNat ∨ ∃ i : Nat, i < (f.byteAt 4).toNat ∧ f.halfAt (6 + 3 * i) = 0) →
    exec .startPattern s = .next (s.served h f .badArgument [])

/-- STOP_PATTERN on a HELD slot of the requester: the matching RUNNING slot becomes IDLE with no line written and no event sent;
otherwise BAD_ARGUMENT or NOT_FOUND with no effect (R74). -/
def Obligations.StopPatternIdlesMatchingSlot : Prop :=
  ∀ (s : State) (h : HostId) (f : Frame) (k : Fin 16) (gen : BitVec 4) (lines : LineMask) (tag : Byte)
    (lease : Option Lease), s.Valid .stopPattern h f → f.byteAt 1 = handleOf k gen →
    s.slots[k] = { gen := gen, body := .held h lines tag lease } →
    (4 ≤ (f.byteAt 0).toNat → exec .stopPattern s = .next (s.served h f .badArgument [])) ∧
    (∀ i : Fin 4, f.byteAt 0 = countByte i →
      (∀ p, s.patterns[i] = some p → p.handle = f.byteAt 1 →
        ∃ P : Vector (Option Pattern) 4,
          exec .stopPattern s = .next (({ s.take h with patterns := P } : State).placeReply h (replyTo f .ok [])) ∧
          P[i] = none ∧ ∀ j : Fin 4, j ≠ i → P[j] = s.patterns[j]) ∧
      ((∀ p, s.patterns[i] = some p → p.handle ≠ f.byteAt 1) →
        exec .stopPattern s = .next (s.served h f .notFound [])))

/-- QUERY_PATTERN needs no ownership, changes nothing and reports the slot, whichever host asks (R76). -/
def Obligations.QueryPatternReportsSlot : Prop :=
  ∀ (s : State) (h : HostId) (f : Frame), s.Valid .queryPattern h f →
    (3 < (f.byteAt 0).toNat → exec .queryPattern s = .next (s.served h f .badArgument [])) ∧
    (∀ i : Fin 4, f.byteAt 0 = countByte i →
      (s.patterns[i] = none → exec .queryPattern s = .next (s.served h f .ok [countByte i, 0, 0, 0, 0])) ∧
      (∀ p, s.patterns[i] = some p →
        exec .queryPattern s = .next (s.served h f .ok
          [countByte i, 1, p.handle, countByte p.current,
            countByte (match p.passes with | some n => n | none => 0)])))

/-- The end of a step whose step time has gone to 0 (R70): the next step begins, or the list begins again with one pass less, or without
end; its levels are written to the lanes (R71, R72). The last step of the last pass leaves the slot IDLE, the lanes unwritten, and sends
PATTERN_DONE to the holding's owner (R72). An IDLE slot has no step end, nor has a step with time left: the command then changes nothing (the
model's choice, log 2). -/
def Obligations.StepEndAdvancesPattern : Prop :=
  ∀ (s : State) (i : Fin 4), s.inReset = false →
    (s.patterns[i] = none → exec (.patternStepEnd i) s = .next s) ∧
    (∀ (p : Pattern), s.patterns[i] = some p → p.timeLeft ≠ 0 → exec (.patternStepEnd i) s = .next s) ∧
    (∀ (p : Pattern), s.patterns[i] = some p → p.timeLeft = 0 →
      (∀ st : PatternStep, p.steps[p.current + 1]? = some st →
        ∃ (L : Vector LineRecord 32) (P : Vector (Option Pattern) 4),
          exec (.patternStepEnd i) s = .next { s with lines := L, patterns := P } ∧
          LanesWritten s.lines L p.bank p.lanes st.level ∧
          P[i] = some { p with current := p.current + 1, timeLeft := st.duration } ∧
          ∀ j : Fin 4, j ≠ i → P[j] = s.patterns[j]) ∧
      (∀ st : PatternStep, p.current + 1 = p.steps.length → p.steps[0]? = some st → p.passes ≠ some 1 →
        p.passes ≠ some 0 →
        ∃ (L : Vector LineRecord 32) (P : Vector (Option Pattern) 4),
          exec (.patternStepEnd i) s = .next { s with lines := L, patterns := P } ∧
          LanesWritten s.lines L p.bank p.lanes st.level ∧
          P[i] = some { p with current := 0, passes := p.passes.map (· - 1), timeLeft := st.duration } ∧
          ∀ j : Fin 4, j ≠ i → P[j] = s.patterns[j]) ∧
      (p.current + 1 = p.steps.length → p.passes = some 1 →
        ∀ (owner : HostId) (lines : LineMask) (tag : Byte) (lease : Option Lease),
          s.slots[handleSlot p.handle].body = .held owner lines tag lease →
          ∃ P : Vector (Option Pattern) 4,
            exec (.patternStepEnd i) s = .next (({ s with patterns := P } : State).sendEvent owner
              (.patternDone i p.handle p.tag)) ∧
            P[i] = none ∧ ∀ j : Fin 4, j ≠ i → P[j] = s.patterns[j]))

/-! ### The supervisor and device resets -/

/-- REVOKE by the supervisor: a HELD slot of any owner becomes ENDED with cause REVOKED, its patterns aborted and its lines in their safe
states, with PATTERN_ABORTED and then REVOKED to the owner; an ENDED slot becomes FREE; an invalid handle is STALE_HANDLE; the grant scan
ends the event (R41, R27, R110). -/
def Obligations.RevokeEndsOrFreesSlot : Prop :=
  ∀ (s : State) (h : HostId) (f : Frame) (raw : LineMask) (k : Fin 16) (gen : BitVec 4), s.Valid .revoke h f →
    f.byteAt 0 = handleOf k gen →
    (s.slots[k].isFree = true ∨ s.slots[k].gen ≠ gen →
      exec (.revoke raw) s = .next (s.served h f .staleHandle [])) ∧
    (∀ (owner : HostId) (lines : LineMask) (tag : Byte) (lease : Option Lease),
      s.slots[k] = { gen := gen, body := .held owner lines tag lease } →
      ∃ (S : Vector Slot 16) (L : Vector LineRecord 32) (P : Vector (Option Pattern) 4),
        exec (.revoke raw) s = .next (((({ s.take h with slots := S, lines := L, patterns := P } : State).sendEvents
            (s.abortEvents (fun p => decide (p.handle = f.byteAt 0)) owner .revoked ++
              [(owner, Event.revoked (f.byteAt 0) tag)])).grantScan).placeReply h (replyTo f .ok [])) ∧
        SlotWritten s.slots S k { gen := gen, body := .ended owner tag lease .revoked } ∧
        LeftHolding s.lines L lines raw ∧
        IdleKept s.patterns P ∧ Aborted s.patterns P (fun p => p.handle = f.byteAt 0)) ∧
    (∀ (owner : HostId) (tag : Byte) (lease : Option Lease) (cause : EndCause),
      s.slots[k] = { gen := gen, body := .ended owner tag lease cause } →
      ∃ S : Vector Slot 16,
        exec (.revoke raw) s = .next ((({ s.take h with slots := S } : State).grantScan).placeReply h (replyTo f .ok [])) ∧
        SlotWritten s.slots S k { gen := gen, body := .free })

/-- RESETN_LOW, SUPPLY_LOSS and a supervisor's FULL_RESET start a device reset: every line record, watch, slot and queue takes its reset
values, no reply is placed (R1, R2, R11, R22, R51, R65, R83, R91, R98, R111, R158), and a two-wire port shows a released SDA. The latched ADR,
the supervisor, the cause and the SELC pin keep their values until the release (DEDUCED, log 8), the model's count of microseconds goes on (log
15), and what has happened since the previous
release is kept, SUPPLY_LOSS counting as the supply's fall and rise (the model's choice, log 16). The fields ack and tx are the model's own
view of the pins, and their values here, not acknowledged and 0xFF, are the model's choice (logs 7 and 12). -/
def Obligations.DeviceResetClearsEveryBlock : Prop :=
  ∀ (s : State) (c : Instr),
    (c = .resetnLow ∨ c = .supplyLoss ∨ (c = .fullReset ∧ ∃ (h : HostId) (f : Frame), s.Valid .fullReset h f)) →
    ∃ t : State, exec c s = .next t ∧ t.inReset = true ∧
      (∀ n : Fin 32, t.lines[n] =
        { mode := .disconnected, level := false, pullUp := false, filter := .none, filtered := false, settling := 0
          safe := { mode := .disconnected, level := false, pullUp := false } }) ∧
      (∀ (h : HostId) (n : Fin 32), (t.watches.get h)[n] = .none) ∧
      (∀ k : Fin 16, t.slots[k] = { gen := 0, body := .free }) ∧
      t.waitQueue = [] ∧ (∀ i : Fin 4, t.patterns[i] = none) ∧
      (∀ h : HostId, t.port h =
        { requests := [], replies := [], events := []
          flags := { resetSeen := true, frameError := false, requestOverrun := false, eventOverflow := false }
          mask := { replyWaiting := true, eventWaiting := true, requestRoom := false }, policy := .keep }) ∧
      (∀ p : TwoWire, t.bus p = { state := .idle, holdMode := .refuse, stuckTime := 0, ack := false, tx := 0xFF }) ∧
      t.fourWire = { state := .deselected, tx := 0xFF } ∧ t.rotation = .a ∧ t.overtaken = [] ∧
      (∀ h : HostId, t.attention h = false) ∧
      t.adr = s.adr ∧ t.supervisor = s.supervisor ∧ t.resetCause = s.resetCause ∧ t.selcLow = s.selcLow ∧
      t.pending = s.pending ∧ t.micros = s.micros ∧
      t.since = { supply := decide (c = .supplyLoss) || s.since.supply
                  pin := decide (c = .resetnLow) || s.since.pin
                  command := decide (c = .fullReset) || s.since.command }

/-- In a device reset no request is taken, no timer counts and no bus is served: only another cause of a reset, the release and the SELC
pin change the state (R2, R98, R158). Of the pin only its level is followed, so that no exchange starts in the reset, nor after the release
until a fall that comes after SELC was seen high (R145; the level's being followed is DEDUCED, log 8). -/
def Obligations.DeviceResetStopsEverything : Prop :=
  ∀ (s : State), s.inReset = true →
    (∀ c : Instr, c ≠ .resetnLow → c ≠ .supplyLoss → (∀ adr sup, c ≠ .resetRelease adr sup) →
      c ≠ .selcFall → (∀ bits, c ≠ .selcRise bits) →
      exec c s = .next s) ∧
    exec .selcFall s = .next { s with selcLow := true } ∧
    (∀ bits : Fin 8, exec (.selcRise bits) s = .next { s with selcLow := false })

/-- At reset release the straps are sampled and the Time Base starts from 0; each port comes up with RESET_SEEN as its one set flag, its
queues empty and its reset configuration, and every line record, watch and slot at its reset values (R1, R11, R22, R83, R108, R130, R158).
The SELC pin keeps its level (DEDUCED, log 8), and the model's count of microseconds goes on (log 15). A part that is not in reset is not
released: the command changes nothing (the model's choice, log 2). -/
def Obligations.ReleaseSamplesStraps : Prop :=
  ∀ (s : State) (adr sup : BitVec 2),
    (s.inReset = false → exec (.resetRelease adr sup) s = .next s) ∧
    (s.inReset = true →
      ∃ t : State, exec (.resetRelease adr sup) s = .next t ∧ t.inReset = false ∧ t.adr = adr ∧
        t.supervisor = (match sup.toNat with
          | 0 => none
          | 1 => some .a
          | 2 => some .b
          | _ => some .c) ∧
        t.time = { count := 0, micro := 0 } ∧ t.rotation = .a ∧
        t.since = { supply := false, pin := false, command := false } ∧
        (∀ h : HostId, t.port h =
          { requests := [], replies := [], events := []
            flags := { resetSeen := true, frameError := false, requestOverrun := false, eventOverflow := false }
            mask := { replyWaiting := true, eventWaiting := true, requestRoom := false }, policy := .keep } ∧
          t.attention h = false) ∧
        (∀ p : TwoWire, (t.bus p).state = .idle ∧ (t.bus p).holdMode = .refuse ∧ (t.bus p).stuckTime = 0 ∧
          t.ownAddress p = (match p with
            | .a => 0x34
            | .b => 0x38) + adr.setWidth 7) ∧
        t.fourWire.state = .deselected ∧ t.selcLow = s.selcLow ∧ t.pending = s.pending ∧
        t.micros = s.micros ∧
        (∀ n : Fin 32, t.lines[n] =
          { mode := .disconnected, level := false, pullUp := false, filter := .none, filtered := false, settling := 0
            safe := { mode := .disconnected, level := false, pullUp := false } }) ∧
        (∀ (h : HostId) (n : Fin 32), (t.watches.get h)[n] = .none) ∧
        (∀ k : Fin 16, t.slots[k] = { gen := 0, body := .free }) ∧
        t.waitQueue = [] ∧ (∀ i : Fin 4, t.patterns[i] = none))

/-- The reset cause is recorded at each release: POWER_ON before PIN before COMMAND; no other command changes it (R112). SUPPLY_LOSS counts
as the rise of the supply that R112 asks for (the model's choice, log 16). -/
def Obligations.ResetCauseRecordedAtRelease : Prop :=
  ∀ (s t : State) (c : Instr), exec c s = .next t →
    (∀ adr sup, c = .resetRelease adr sup → s.inReset = true →
      (s.since.supply = true → t.resetCause = .powerOn) ∧
      (s.since.supply = false → s.since.pin = true → t.resetCause = .pin) ∧
      (s.since.supply = false → s.since.pin = false → s.since.command = true → t.resetCause = .command)) ∧
    ((∀ adr sup, c ≠ .resetRelease adr sup) → t.resetCause = s.resetCause) ∧
    (c = .supplyLoss → t.since.supply = true) ∧ (c = .resetnLow → t.since.pin = true) ∧
    (c = .fullReset → (∃ (h : HostId) (f : Frame), s.Valid .fullReset h f) → t.since.command = true) ∧
    ((∀ adr sup, c ≠ .resetRelease adr sup) →
      (s.since.supply = true → t.since.supply = true) ∧ (s.since.pin = true → t.since.pin = true) ∧
        (s.since.command = true → t.since.command = true))

/-! ### Time events -/

/-- An interval boundary decreases by 1, not below 0, the lease remaining of every HELD leased slot and the wait remaining of every timed
entry, and writes nothing else (R31, R53); an expiry that becomes due there has been overtaken by no request (R102, log 9). -/
def Obligations.IntervalBoundaryCountsDown : Prop :=
  ∀ s : State, s.inReset = false →
    ∃ (S : Vector Slot 16) (Q : List WaitEntry) (O : List Due),
      exec .intervalBoundary s = .next { s with slots := S, waitQueue := Q, overtaken := O } ∧
      (∀ k : Fin 16,
        (∀ (owner : HostId) (lines : LineMask) (tag : Byte) (l : Lease),
          s.slots[k].body = .held owner lines tag (some l) →
          S[k] = { s.slots[k] with
            body := .held owner lines tag (some { period := l.period, remaining := l.remaining - 1 }) }) ∧
        ((∀ (owner : HostId) (lines : LineMask) (tag : Byte) (l : Lease),
          s.slots[k].body ≠ .held owner lines tag (some l)) → S[k] = s.slots[k])) ∧
      Q = s.waitQueue.map (fun e => { e with remaining := e.remaining.map (· - 1) }) ∧
      ∀ d : Due, d ∈ O ↔ d ∈ s.overtaken ∧ d ∈ s.dueNow

/-- A lease expiry taken while the slot is HELD and leased with lease remaining 0 ends the holding with cause LEASE_EXPIRED, and the grant
scan runs; in any other case it does nothing (R32, R27). -/
def Obligations.LeaseExpiryEndsHolding : Prop :=
  ∀ (s : State) (k : Fin 16) (raw : LineMask), s.inReset = false →
    ((∀ (owner : HostId) (lines : LineMask) (tag : Byte) (period : Nat),
        s.slots[k].body ≠ .held owner lines tag (some { period := period, remaining := 0 })) →
      exec (.leaseExpiry k raw) s = .next s) ∧
    (∀ (owner : HostId) (lines : LineMask) (tag : Byte) (period : Nat),
      s.slots[k].body = .held owner lines tag (some { period := period, remaining := 0 }) →
      ∃ (S : Vector Slot 16) (L : Vector LineRecord 32) (P : Vector (Option Pattern) 4),
        exec (.leaseExpiry k raw) s = .next ((({ s with slots := S, lines := L, patterns := P } : State).sendEvents
          (s.abortEvents (fun p => decide (p.handle = handleOf k s.slots[k].gen)) owner .leaseExpired ++
            [(owner, Event.leaseExpired (handleOf k s.slots[k].gen) tag)])).grantScan) ∧
        SlotWritten s.slots S k
          { gen := s.slots[k].gen
            body := .ended owner tag (some { period := period, remaining := 0 }) .leaseExpired } ∧
        LeftHolding s.lines L lines raw ∧
        IdleKept s.patterns P ∧ Aborted s.patterns P (fun p => p.handle = handleOf k s.slots[k].gen))

/-- A due wait expiry removes the entry, sends WAIT_EXPIRED to its host and runs the grant scan; an entry that has left, or whose wait has
not run out, is not touched (R54). -/
def Obligations.WaitExpiryRemovesEntry : Prop :=
  ∀ (s : State) (h : HostId) (tag : Byte), s.inReset = false →
    ((∃ e ∈ s.waitQueue, e.host = h ∧ e.tag = tag ∧ e.remaining = some 0) →
      exec (.waitExpiry h tag) s = .next (((({ s with
          waitQueue := s.waitQueue.filter fun e => !(decide (e.host = h) && decide (e.tag = tag))
        } : State).sendEvent h (.waitExpired tag)).grantScan))) ∧
    ((∀ e ∈ s.waitQueue, e.host = h → e.tag = tag → e.remaining ≠ some 0) →
      exec (.waitExpiry h tag) s = .next s)

/-- A sample of a line: a DISCONNECTED line is not sampled; an equal raw level restarts the count; a differing one is counted until the
filter's number of samples is reached, and then the filtered level follows and a LINE_EDGE goes to each host whose watch matches
(R6, R7, R9, R84). -/
def Obligations.LineSampleFiltersAndReportsEdges : Prop :=
  ∀ (s : State) (n : Fin 32) (raw : Bool), s.inReset = false →
    let l := s.lines[n]
    let needed := match l.filter with
      | .none => 1
      | .f10us => 10
      | .f100us => 100
      | .f1ms => 1000
    (l.mode = .disconnected → exec (.lineSample n raw) s = .next s) ∧
    (l.mode ≠ .disconnected → raw = l.filtered →
      exec (.lineSample n raw) s = .next { s with lines := s.lines.set n { l with settling := 0 } }) ∧
    (l.mode ≠ .disconnected → raw ≠ l.filtered → l.settling + 1 < needed →
      exec (.lineSample n raw) s = .next { s with lines := s.lines.set n { l with settling := l.settling + 1 } }) ∧
    (l.mode ≠ .disconnected → raw ≠ l.filtered → l.settling + 1 = needed →
      exec (.lineSample n raw) s = .next (({ s with lines := s.lines.set n { l with filtered := raw, settling := 0 } } : State).sendEvents
        (([HostId.a, HostId.b, HostId.c].filter fun h =>
            decide ((s.watches.get h)[n] = Edges.both ∨ (s.watches.get h)[n] = (if raw then Edges.rising else Edges.falling))).map
          fun h => (h, .lineEdge n raw s.time.count))))

/-! ### Event queues -/

/-- The arrival of an event at a port that is not RESETTING: appended while there is a place; at a full queue a LINE_EDGE is dropped, and
any other kind displaces the oldest LINE_EDGE that is not in transit, or is dropped when there is none; EVENT_OVERFLOW is set by a drop or a
displacement and by nothing else (R92, R93). At a RESETTING port the event is dropped with no flag (R95). Several events arrive one after the
other (R94). An event is in transit while the selection of a transfer in progress on the port holds it so (R93, R123). -/
def Obligations.EventArrivalFollowsOverflowRule : Prop :=
  (∀ (s : State) (h : HostId) (out : OutSelection), s.selection h = some out ↔
    (∃ (p : TwoWire) (refused : Bool), p.host = h ∧ (s.bus p).state = .sending out refused) ∨
      (h = .c ∧ ∃ (rx : RxRecord) (bits : Fin 8), s.fourWire.state = .exchange rx bits out)) ∧
  (∀ (s : State) (h : HostId), s.eventInTransit h = true ↔
    ∃ out : OutSelection, s.selection h = some out ∧ out.inTransit = true ∧ out.source = .event) ∧
  (∀ s : State, s.sendEvents [] = s) ∧
  (∀ (s : State) (h : HostId) (e : Event) (rest : List (HostId × Event)),
    s.sendEvents ((h, e) :: rest) = (s.sendEvent h e).sendEvents rest) ∧
  ∀ (s : State) (h : HostId) (e : Event),
    (s.resetting h = true → s.sendEvent h e = s) ∧
    (s.resetting h = false → (s.port h).events.length < 16 →
      s.sendEvent h e = s.mapPort h fun p => { p with events := p.events ++ [e] }) ∧
    (s.resetting h = false → 16 ≤ (s.port h).events.length →
      (e.isLineEdge = true →
        s.sendEvent h e = s.mapPort h fun p => { p with flags := { p.flags with eventOverflow := true } }) ∧
      (e.isLineEdge = false → ∀ (ahead behind : List Event) (x : Event), (s.port h).events = ahead ++ x :: behind →
        x.isLineEdge = true → (ahead = [] → s.eventInTransit h = false) →
        (∀ (y : Event) (i : Nat), ahead[i]? = some y → y.isLineEdge = true → i = 0 ∧ s.eventInTransit h = true) →
        s.sendEvent h e = s.mapPort h fun p =>
          { p with events := ahead ++ behind ++ [e], flags := { p.flags with eventOverflow := true } }) ∧
      (e.isLineEdge = false →
        (∀ (y : Event) (i : Nat), (s.port h).events[i]? = some y → y.isLineEdge = true →
          i = 0 ∧ s.eventInTransit h = true) →
        s.sendEvent h e = s.mapPort h fun p => { p with flags := { p.flags with eventOverflow := true } }))

/-- An outbound frame is kind, flags, ref, status, the payload length, the payload and a check byte; its bytes sum to 0 modulo 256, and with
payload length M it is M + 6 bytes long (R121). Fields of several bytes are least significant byte first, both in the frames the part sends and
in those it reads, and bit n of a line mask is line Ln (R120). The codes of the statuses (R127), of the events with their payloads (R128), of
the hosts and of the abort causes (R126) are those of the spec's tables. -/
def Obligations.OutboundFrameSumsToZero : Prop :=
  (∀ (kind flags ref status : Byte) (payload : List Byte),
    (∃ check : Byte, outboundFrame kind flags ref status payload =
      [kind, flags, ref, status, BitVec.ofNat 8 payload.length] ++ payload ++ [check]) ∧
    (outboundFrame kind flags ref status payload).foldl (· + ·) 0 = 0 ∧
    (outboundFrame kind flags ref status payload).length = payload.length + 6) ∧
  (∀ n : Nat, (countByte n).toNat = n % 256) ∧
  (∀ v : Half, ∃ low high : Byte, halfBytes v = [low, high] ∧ v.toNat = low.toNat + 256 * high.toNat) ∧
  (∀ m : LineMask, ∃ b0 b1 b2 b3 : Byte, maskBytes m = [b0, b1, b2, b3] ∧
    ∀ j : Fin 8, b0.getLsbD j = m.getLsbD j ∧ b1.getLsbD j = m.getLsbD (8 + j) ∧ b2.getLsbD j = m.getLsbD (16 + j) ∧
      b3.getLsbD j = m.getLsbD (24 + j)) ∧
  (∀ (f : Frame) (i : Nat),
    (∀ b : Byte, f.payload[i]? = some b → f.byteAt i = b) ∧
    (f.halfAt i).toNat = (f.byteAt i).toNat + 256 * (f.byteAt (i + 1)).toNat ∧
    ∀ n : Fin 32, (f.maskAt i).getLsbD n = (f.byteAt (i + n.val / 8)).getLsbD (n.val % 8)) ∧
  (∀ h : HostId, hostByte h =
    match h with
    | .a => 0x01
    | .b => 0x02
    | .c => 0x03) ∧
  (∀ status : Status, statusByte status =
    match status with
    | .ok => 0x00
    | .queued => 0x01
    | .ended => 0x02
    | .badOpcode => 0x10
    | .badLength => 0x11
    | .badArgument => 0x12
    | .notPermitted => 0x13
    | .staleHandle => 0x14
    | .notOwner => 0x15
    | .linesHeld => 0x20
    | .contended => 0x21
    | .noSlot => 0x22
    | .queueFull => 0x23
    | .hostLimit => 0x24
    | .duplicateTag => 0x25
    | .selfHeld => 0x26
    | .notFound => 0x27
    | .lineBusy => 0x30
    | .modeConflict => 0x31
    | .noPatternSlot => 0x32) ∧
  (∀ event : Event, (eventCode event, eventPayload event) =
    match event with
    | .lineEdge line level stamp =>
      (0x01, [BitVec.ofNat 8 line, if level then 0x01 else 0x00, stamp.setWidth 8, (stamp >>> 8).setWidth 8])
    | .granted tag handle => (0x02, [tag, handle])
    | .waitExpired tag => (0x03, [tag])
    | .leaseExpired handle tag => (0x04, [handle, tag])
    | .revoked handle tag => (0x05, [handle, tag])
    | .patternDone slot handle tag => (0x06, [BitVec.ofNat 8 slot, handle, tag])
    | .patternAborted slot handle tag cause => (0x07, [BitVec.ofNat 8 slot, handle, tag,
        match cause with
        | .released => 0x01
        | .trimmed => 0x02
        | .leaseExpired => 0x03
        | .revoked => 0x04])) ∧
  (∀ event : Event, event.isLineEdge = true ↔ ∃ line level stamp, event = .lineEdge line level stamp)

/-! ### Two-wire ports -/

/-- START_CONDITION and STOP_CONDITION: the transaction in progress ends, a partial frame sets FRAME_ERROR, a read not sent whole is broken
off with its queue untouched; HOLDING and RESETTING see neither (R132, R137, R139). Both lines are high at one instant of either, so the stuck
time returns to 0 (R129, R140; DEDUCED, log 22). -/
def Obligations.StartAndStopEndTransaction : Prop :=
  ∀ (s : State) (p : TwoWire), s.inReset = false →
    let goTo : TwoWireState → State → State := fun st t => t.mapBus p fun b => { b with state := st, stuckTime := 0 }
    let noted := s.mapPort p.host fun q => { q with flags := { q.flags with frameError := true } }
    ((s.bus p).state = .idle →
      exec (.startCondition p) s = .next (goTo .address s) ∧ exec (.stopCondition p) s = .next (goTo .idle s)) ∧
    ((s.bus p).state = .address →
      exec (.startCondition p) s = .next (goTo .address s) ∧ exec (.stopCondition p) s = .next (goTo .idle s)) ∧
    (∀ rx : RxRecord, (s.bus p).state = .receiving rx →
      (rx.mark = .unmarked → rx.bytes ≠ [] →
        exec (.startCondition p) s = .next (goTo .address noted) ∧ exec (.stopCondition p) s = .next (goTo .idle noted)) ∧
      (rx.mark ≠ .unmarked ∨ rx.bytes = [] →
        exec (.startCondition p) s = .next (goTo .address s) ∧ exec (.stopCondition p) s = .next (goTo .idle s))) ∧
    (∀ (out : OutSelection) (refused : Bool), (s.bus p).state = .sending out refused →
      exec (.startCondition p) s = .next (goTo .address s) ∧ exec (.stopCondition p) s = .next (goTo .idle s)) ∧
    ((s.bus p).state = .resetting ∨ (∃ rx t, (s.bus p).state = .holding rx t) →
      exec (.startCondition p) s = .next s ∧ exec (.stopCondition p) s = .next s)

/-- The decision on an address byte. A write to the port's address is acknowledged into RECEIVING while the request queue has room; at a full
queue it is refused under REFUSE, and acknowledged and held under HOLD; no flag is set (R133). Any other address is not acknowledged and sends
the port to IDLE (R130, R132); a RESETTING port acknowledges no address byte and stays (R142). A port holds SCL low in HOLDING and in no
other state (R134). A port in IDLE takes no part: it acknowledges no address byte. The stuck time is 0 in HOLDING (R140), and returns to 0 with
an acknowledge, in which the low SDA is the port's own, with a 1 bit, and with a high SDA on the acknowledge clock (R140; DEDUCED, log 22);
whether SDA is low on that clock after a byte of eight 0 bits is a free value (log 15). -/
def Obligations.WriteAddressDecided : Prop :=
  (∀ (s : State) (p : TwoWire),
    s.sclHeldLow p = true ↔ ∃ (rx : RxRecord) (time : Nat), (s.bus p).state = .holding rx time) ∧
  ∀ (s : State) (p : TwoWire) (byte : Byte), s.inReset = false →
    let own := (match p with
      | .a => 0x34
      | .b => 0x38) + s.adr.toNat
    let fresh : RxRecord := { bytes := [], len := none, sum := 0, mark := .unmarked }
    ((s.bus p).state = .address → byte.getLsbD 0 = false → byte.toNat / 2 = own →
      ((s.port p.host).requests.length < 4 →
        exec (.writeAddress p byte) s = .next (s.mapBus p fun b =>
          { b with state := .receiving fresh, ack := true, stuckTime := 0 })) ∧
      (4 ≤ (s.port p.host).requests.length → (s.bus p).holdMode = .refuse →
        exec (.writeAddress p byte) s = .next (s.mapBus p fun b => { b with state := .idle, ack := false, stuckTime := 0 })) ∧
      (4 ≤ (s.port p.host).requests.length → (s.bus p).holdMode = .hold →
        exec (.writeAddress p byte) s = .next (s.mapBus p fun b =>
          { b with state := .holding fresh 0, ack := true, stuckTime := 0 }))) ∧
    ((s.bus p).state = .address ∧ byte.toNat / 2 ≠ own ∨ (s.bus p).state = .idle →
      exec (.addressNotAcknowledged p byte) s = .next (s.mapBus p fun b =>
        { b with state := .idle, ack := false
                 stuckTime := if byte ≠ 0 ∨ Config.sdaHeld p s.micros = false then 0 else b.stuckTime })) ∧
    ((s.bus p).state = .resetting →
      exec (.addressNotAcknowledged p byte) s = .next (s.mapBus p fun b => { b with ack := false }) ∧
      exec (.writeAddress p byte) s = .next (s.mapBus p fun b => { b with ack := false }) ∧
      exec (.readAddress p byte) s = .next (s.mapBus p fun b => { b with ack := false }))

/-- A read to the port's address is acknowledged, and the port selects the head reply, or else the head event, or else an EMPTY frame, with
its flags byte and check byte as formed then (R138, R122, R123). With the acknowledge the stuck time returns to 0 (R140; DEDUCED, log 22). -/
def Obligations.ReadAddressSelectsFrame : Prop :=
  ∀ (s : State) (p : TwoWire) (byte : Byte), s.inReset = false → (s.bus p).state = .address →
    byte.getLsbD 0 = true → byte.toNat / 2 = (match p with | .a => 0x34 | .b => 0x38) + s.adr.toNat →
    let q := s.port p.host
    ∃ (flags : Byte) (out : OutSelection),
      exec (.readAddress p byte) s = .next (s.mapBus p fun b =>
        { b with state := .sending out false, ack := true, stuckTime := 0 }) ∧
      flags.getLsbD 0 = q.flags.resetSeen ∧ flags.getLsbD 1 = q.flags.frameError ∧
      flags.getLsbD 2 = q.flags.requestOverrun ∧ flags.getLsbD 3 = q.flags.eventOverflow ∧ flags &&& 0x70 = 0 ∧
      flags.getLsbD 7 = decide (2 ≤ q.replies.length + q.events.length) ∧ out.sent = 0 ∧
      (∀ r rest, q.replies = r :: rest → out.source = .reply ∧ out.inTransit = true ∧
        out.bytes = outboundFrame 0x01 flags r.tag (statusByte r.status) r.payload) ∧
      (∀ e rest, q.replies = [] → q.events = e :: rest → out.source = .event ∧ out.inTransit = true ∧
        out.bytes = outboundFrame 0x02 flags (eventCode e) 0x00 (eventPayload e)) ∧
      (q.replies = [] → q.events = [] → out.source = .empty ∧ out.inTransit = false ∧
        out.bytes = outboundFrame 0x00 flags 0x00 0x00 [])

/-- The hold limit, when the hold time has reached 10 ms, releases SCL, sets REQUEST_OVERRUN and refuses the rest of the write (R134); the
stuck time is measured from that end (R140). A port that holds nothing, or has held for less, has no hold limit: the command then changes
nothing (the model's choice, log 2). -/
def Obligations.HoldLimitRefusesRestOfWrite : Prop :=
  ∀ (s : State) (p : TwoWire), s.inReset = false →
    (∀ (rx : RxRecord) (t : Nat), (s.bus p).state = .holding rx t → 10000 ≤ t →
      exec (.holdLimit p) s = .next ((s.mapPort p.host fun q =>
        { q with flags := { q.flags with requestOverrun := true } }).mapBus p fun b =>
          { b with state := .receiving { bytes := [], len := none, sum := 0, mark := .overrun }, stuckTime := 0 })) ∧
    (∀ (rx : RxRecord) (t : Nat), (s.bus p).state = .holding rx t → t < 10000 → exec (.holdLimit p) s = .next s) ∧
    ((∀ (rx : RxRecord) (t : Nat), (s.bus p).state ≠ .holding rx t) → exec (.holdLimit p) s = .next s)

/-- A byte of a write is judged by its place (R135, R136): an opening 0x00 makes a NOP; a length above 32 and a bad check set FRAME_ERROR
and refuse; a good check appends the frame and is acknowledged; other bytes are kept and acknowledged; after a mark every byte is refused, but
those of a NOP. In IDLE the port takes no part and acknowledges nothing (R130), and in RESETTING nothing either (R142). With an acknowledge,
with a 1 bit and with a high SDA on the acknowledge clock the stuck time returns to 0 (R140; DEDUCED, log 22); whether SDA is low on that clock
after a refused byte of eight 0 bits is a free value (log 15). -/
def Obligations.WriteByteJudgedByPlace : Prop :=
  (∀ (s : State) (p : TwoWire) (byte : Byte), s.inReset = false →
    ((s.bus p).state = .idle → exec (.writeByte p byte) s = .next (s.mapBus p fun b =>
      { b with ack := false, stuckTime := if byte ≠ 0 ∨ Config.sdaHeld p s.micros = false then 0 else b.stuckTime })) ∧
    ((s.bus p).state = .resetting → exec (.writeByte p byte) s = .next (s.mapBus p fun b => { b with ack := false }))) ∧
  ∀ (s : State) (p : TwoWire) (rx : RxRecord) (byte : Byte), s.inReset = false → (s.bus p).state = .receiving rx →
    let marked : RxMark → RxRecord := fun m =>
      { bytes := rx.bytes ++ [byte], len := rx.len, sum := rx.sum + byte, mark := m }
    let place := rx.bytes.length
    let isCheck := 3 ≤ place ∧ ∃ n : Byte, rx.len = some n ∧ place = n.toNat + 3
    let goTo : RxRecord → Bool → State → State := fun r ack t =>
      t.mapBus p fun b =>
        { b with state := .receiving r, ack := ack
                 stuckTime := if ack = true ∨ byte ≠ 0 ∨ Config.sdaHeld p s.micros = false then 0 else b.stuckTime }
    let faulty := goTo (marked .error) false
      (s.mapPort p.host fun q => { q with flags := { q.flags with frameError := true } })
    (rx.mark = .unmarked → place = 0 → byte = 0 →
      exec (.writeByte p byte) s = .next (goTo (marked .nop) true s)) ∧
    (rx.mark = .unmarked → place = 2 → 32 < byte.toNat → exec (.writeByte p byte) s = .next faulty) ∧
    (rx.mark = .unmarked → isCheck → rx.sum + byte ≠ 0 → exec (.writeByte p byte) s = .next faulty) ∧
    (rx.mark = .unmarked → isCheck → rx.sum + byte = 0 →
      ∀ (opcode tag length : Byte) (payload : List Byte), rx.bytes = [opcode, tag, length] ++ payload →
        exec (.writeByte p byte) s = .next (goTo (marked .done) true
          (s.mapPort p.host fun q =>
            { q with requests := q.requests ++ [{ opcode := opcode, tag := tag, payload := payload }] }))) ∧
    (rx.mark = .unmarked → (place = 0 → byte ≠ 0) → (place = 2 → byte.toNat ≤ 32) → (3 ≤ place → rx.len ≠ none) →
      ¬ isCheck →
      exec (.writeByte p byte) s = .next (goTo
        { bytes := rx.bytes ++ [byte], len := if place = 2 then some byte else rx.len, sum := rx.sum + byte
          mark := .unmarked } true s)) ∧
    (rx.mark = .nop →
      exec (.writeByte p byte) s = .next (s.mapBus p fun b => { b with ack := true, stuckTime := 0 })) ∧
    (rx.mark = .error ∨ rx.mark = .overrun ∨ rx.mark = .done →
      exec (.writeByte p byte) s = .next (goTo rx false s))

/-- A byte of a read: the next byte of the selected frame is sent, and 0xFF when nothing is left or the host has refused a byte; with the
check byte a reply or event in transit leaves its queue, whatever the host answers (R138, R124). With a byte that has a 0 bit, which the port
itself pulls low, and with a refusal, on whose clock both lines are high, the stuck time returns to 0, as it does with a high SDA on the clock
of a 1 bit (R140; DEDUCED, log 22); whether SDA is low on the clocks of an acknowledged 0xFF is a free value (log 15). In IDLE and RESETTING
the port sends nothing (R130, R142). -/
def Obligations.ReadByteSendsAndRemoves : Prop :=
  (∀ (s : State) (p : TwoWire) (ack : Bool), s.inReset = false →
    ((s.bus p).state = .idle → exec (.readByte p ack) s = .next (s.mapBus p fun b =>
      { b with tx := 0xFF, stuckTime := if ack = false ∨ Config.sdaHeld p s.micros = false then 0 else b.stuckTime })) ∧
    ((s.bus p).state = .resetting → exec (.readByte p ack) s = .next (s.mapBus p fun b => { b with tx := 0xFF }))) ∧
  ∀ (s : State) (p : TwoWire) (out : OutSelection) (ack : Bool), s.inReset = false →
    let sent : OutSelection → Bool → Byte → State → State := fun o refused byte t =>
      t.mapBus p fun b =>
        { b with state := .sending o refused, tx := byte
                 stuckTime := if ack = false ∨ byte ≠ 0xFF ∨ Config.sdaHeld p s.micros = false then 0 else b.stuckTime }
    ((s.bus p).state = .sending out true → exec (.readByte p ack) s = .next (sent out true 0xFF s)) ∧
    ((s.bus p).state = .sending out false →
      (out.bytes.length ≤ out.sent → out.inTransit = false →
        exec (.readByte p ack) s = .next (sent out (!ack) 0xFF s)) ∧
      (∀ byte : Byte, out.bytes[out.sent]? = some byte →
        (out.inTransit = false ∨ out.sent + 1 < out.bytes.length →
          exec (.readByte p ack) s = .next (sent { out with sent := out.sent + 1 } (!ack) byte s)) ∧
        (out.inTransit = true → out.sent + 1 = out.bytes.length →
          exec (.readByte p ack) s = .next (sent { out with sent := out.sent + 1, inTransit := false } (!ack) byte
            (s.mapPort p.host fun q =>
              { q with
                replies := if out.source = .reply then q.replies.drop 1 else q.replies
                events := if out.source = .event then q.events.drop 1 else q.events })))))

/-- A stuck bus releases the bus, empties the port's queues, clears three flags and sets RESET_SEEN, and puts the port into RESETTING with
its configuration kept; the controller's tables are untouched (R141). The bus is stuck when the stuck time has reached 35 ms, and in HOLDING
and RESETTING none is measured (R140); a bus that is not stuck is not found so (the model's choice, log 2). The port-reset notice is then
due, and no request has been taken before it yet (R103, in the model's terms, log 9). -/
def Obligations.StuckBusResetsPort : Prop :=
  ∀ (s : State) (p : TwoWire), s.inReset = false →
    ((s.bus p).state = .resetting ∨ (∃ rx t, (s.bus p).state = .holding rx t) ∨ (s.bus p).stuckTime < 35000 →
      exec (.stuckBus p) s = .next s) ∧
    ((s.bus p).state ≠ .resetting → (∀ rx t, (s.bus p).state ≠ .holding rx t) → 35000 ≤ (s.bus p).stuckTime →
      ∃ t : State, exec (.stuckBus p) s = .next t ∧
        t = { s with ports := t.ports, twoWire := t.twoWire, overtaken := t.overtaken } ∧
        t.port p.host = { s.port p.host with
          requests := [], replies := [], events := []
          flags := { resetSeen := true, frameError := false, requestOverrun := false, eventOverflow := false } } ∧
        (∀ g : HostId, g ≠ p.host → t.port g = s.port g) ∧
        (t.bus p).state = .resetting ∧ (t.bus p).holdMode = (s.bus p).holdMode ∧ (t.bus p).ack = false ∧
        (∀ q : TwoWire, q ≠ p → t.bus q = s.bus q) ∧
        t.attention p.host = false ∧ t.eligible p.host = false ∧
        Due.notice p ∈ t.dueNow ∧ Due.notice p ∉ t.overtaken)

/-- The controller takes a port-reset notice: the host's waits are withdrawn and its watches cleared, its holdings are kept or freed by the
policy, nothing else is written before the grant scan, which runs over the other hosts' waits, and the port returns to IDLE with no frame of
its own (R103, R117, R142, R157). Without a
notice the command changes nothing (the model's choice, log 2). -/
def Obligations.PortResetNoticeReturnsPortToIdle : Prop :=
  ∀ (s : State) (p : TwoWire) (raw : LineMask), s.inReset = false →
    ((s.bus p).state ≠ .resetting → exec (.portResetNotice p raw) s = .next s) ∧
    ((s.bus p).state = .resetting →
      ∃ (t u : State) (S : Vector Slot 16) (L : Vector LineRecord 32) (P : Vector (Option Pattern) 4),
        exec (.portResetNotice p raw) s = .next t ∧
        t = u.grantScan.mapBus p (fun b => { b with state := .idle, stuckTime := 0 }) ∧
        u = { s with
          waitQueue := s.waitQueue.filter (fun e => decide (e.host ≠ p.host))
          watches := s.watches.update p.host fun _ => Vector.replicate 32 Edges.none
          slots := S, lines := L, patterns := P } ∧
        ((s.port p.host).policy = .keep → S = s.slots ∧ L = s.lines ∧ P = s.patterns) ∧
        ((s.port p.host).policy = .release → ∀ k : Fin 16,
          S[k] = if s.slots[k].heldBy p.host = true ∨ s.slots[k].endedOf p.host = true
            then { gen := s.slots[k].gen, body := .free } else s.slots[k]) ∧
        t.bus p = { s.bus p with state := .idle, stuckTime := 0 } ∧ t.port p.host = s.port p.host ∧
        (∀ n : Fin 32, (t.watches.get p.host)[n] = .none) ∧
        (∀ g : HostId, g ≠ p.host → t.watches.get g = s.watches.get g) ∧
        (∀ e ∈ t.waitQueue, e.host ≠ p.host ∧ e ∈ s.waitQueue) ∧
        (∀ (k : Fin 16) (g : HostId), g ≠ p.host → s.slots[k].heldBy g = true ∨ s.slots[k].endedOf g = true →
          t.slots[k] = s.slots[k]) ∧
        ((s.port p.host).policy = .keep →
          (∀ k : Fin 16, s.slots[k].heldBy p.host = true ∨ s.slots[k].endedOf p.host = true →
            t.slots[k] = s.slots[k]) ∧ t.patterns = s.patterns ∧ t.lines = s.lines) ∧
        ((s.port p.host).policy = .release →
          ∀ k : Fin 16, t.slots[k].heldBy p.host = false ∧ t.slots[k].endedOf p.host = false) ∧
        t.rotation = s.rotation ∧ t.supervisor = s.supervisor ∧ t.resetCause = s.resetCause)

/-! ### Port C -/

/-- The fall of SELC starts an exchange with a fresh receive record and the outbound frame selected, and drives the most significant bit of
its first byte onto SDOC; each byte of the exchange counts, sums and judges the inbound byte by its place and shifts out the next outbound
byte, or 0xFF (R144 to R146, R148). While SELC is high SDOC is high impedance. A fall while SELC is low, and a byte outside an exchange,
change nothing (the model's choice, log 2). -/
def Obligations.ExchangeShiftsBothWays : Prop :=
  ∀ (s : State) (byte : Byte), s.inReset = false →
    (s.selcLow = false → ∃ t : State,
      exec .selcFall s = .next t ∧
      t = { s with
        selcLow := true
        fourWire := { s.fourWire with
          state := .exchange { bytes := [], len := none, sum := 0, mark := .unmarked } 0 (s.port .c).select } } ∧
      ∃ first : Byte, (s.port .c).select.bytes[0]? = some first ∧ t.sdoc = some (first.getLsbD 7)) ∧
    (s.selcLow = true → exec .selcFall s = .next s) ∧
    (s.fourWire.state = .deselected → exec (.exchangeByte byte) s = .next s ∧ s.sdoc = none) ∧
    (∀ (rx : RxRecord) (bits : Fin 8) (out : OutSelection), s.fourWire.state = .exchange rx bits out →
      let shifted := match out.bytes[out.sent]? with
        | some x => x
        | none => 0xFF
      let advanced := match out.bytes[out.sent]? with
        | some _ => { out with sent := out.sent + 1 }
        | none => out
      let received : RxRecord → PerHost Port → State := fun r q =>
        { s with ports := q, fourWire := { state := .exchange r 0 advanced, tx := shifted } }
      let counted : Option Byte → RxMark → RxRecord := fun n m =>
        { bytes := rx.bytes ++ [byte], len := n, sum := rx.sum + byte, mark := m }
      let noted := s.ports.update .c fun q => { q with flags := { q.flags with frameError := true } }
      let place := rx.bytes.length
      let isCheck := 3 ≤ place ∧ ∃ n : Byte, rx.len = some n ∧ place = n.toNat + 3
      (rx.mark ≠ .unmarked → exec (.exchangeByte byte) s = .next (received rx s.ports)) ∧
      (rx.mark = .unmarked → place = 0 → byte = 0 →
        exec (.exchangeByte byte) s = .next (received (counted rx.len .nop) s.ports)) ∧
      (rx.mark = .unmarked → place = 2 → 32 < byte.toNat →
        exec (.exchangeByte byte) s = .next (received (counted rx.len .error) noted)) ∧
      (rx.mark = .unmarked → isCheck → rx.sum + byte ≠ 0 →
        exec (.exchangeByte byte) s = .next (received (counted rx.len .error) noted)) ∧
      (rx.mark = .unmarked → isCheck → rx.sum + byte = 0 →
        exec (.exchangeByte byte) s = .next (received (counted rx.len .done) s.ports)) ∧
      (rx.mark = .unmarked → (place = 0 → byte ≠ 0) → (place = 2 → byte.toNat ≤ 32) → (3 ≤ place → rx.len ≠ none) →
        ¬ isCheck →
        exec (.exchangeByte byte) s = .next
          (received (counted (if place = 2 then some byte else rx.len) .unmarked) s.ports)))

/-- The rise of SELC ends an exchange: a reply or event sent whole is removed; a COMPLETE frame is appended, or dropped with
REQUEST_OVERRUN at a full queue; a partial frame sets FRAME_ERROR; the bits of a partial byte change nothing (R147, R149). On a DESELECTED
port the rise is only seen: SELC is high from then on (R145). -/
def Obligations.SelcRiseEndsExchange : Prop :=
  (∀ (s : State) (bits : Fin 8), s.inReset = false → s.fourWire.state = .deselected →
    exec (.selcRise bits) s = .next { s with selcLow := false }) ∧
  ∀ (s : State) (rx : RxRecord) (b bits : Fin 8) (out : OutSelection), s.inReset = false →
    s.fourWire.state = .exchange rx b out →
    ∃ Q : Port,
      exec (.selcRise bits) s = .next { s with
        selcLow := false
        ports := { s.ports with c := Q }
        fourWire := { s.fourWire with state := .deselected } } ∧
      Q.mask = s.ports.c.mask ∧ Q.policy = s.ports.c.policy ∧
      Q.flags.resetSeen = s.ports.c.flags.resetSeen ∧ Q.flags.eventOverflow = s.ports.c.flags.eventOverflow ∧
      Q.replies = (if out.inTransit = true ∧ out.sent = out.bytes.length ∧ out.source = .reply then s.ports.c.replies.drop 1
        else s.ports.c.replies) ∧
      Q.events = (if out.inTransit = true ∧ out.sent = out.bytes.length ∧ out.source = .event then s.ports.c.events.drop 1
        else s.ports.c.events) ∧
      (rx.mark = .unmarked → rx.bytes ≠ [] → Q.flags.frameError = true) ∧
      (¬ (rx.mark = .unmarked ∧ rx.bytes ≠ []) → Q.flags.frameError = s.ports.c.flags.frameError) ∧
      (rx.mark = .done → 4 ≤ s.ports.c.requests.length →
        Q.requests = s.ports.c.requests ∧ Q.flags.requestOverrun = true) ∧
      (¬ (rx.mark = .done ∧ 4 ≤ s.ports.c.requests.length) →
        Q.flags.requestOverrun = s.ports.c.flags.requestOverrun) ∧
      (rx.mark = .done → s.ports.c.requests.length < 4 →
        ∀ (opcode tag length check : Byte) (payload : List Byte), rx.len = some length →
          payload.length = length.toNat → rx.bytes = [opcode, tag, length] ++ payload ++ [check] →
          Q.requests = s.ports.c.requests ++ [{ opcode := opcode, tag := tag, payload := payload }]) ∧
      (rx.mark ≠ .done → Q.requests = s.ports.c.requests)

/-! ### The laws of the device as invariants -/

/-- Every step keeps the limits of the Wait Queue (R51). -/
def Obligations.StepKeepsWaitQueueLaw : Prop :=
  ∀ s t : State, s.WaitQueueLaw → step s = .next t → t.WaitQueueLaw

/-- Every step keeps the limits of the request, reply and event queues (R91), room for a write in progress (R133), and a stuck time of at
most 35 ms, which is 0 in HOLDING (R131, R140). -/
def Obligations.StepKeepsQueueLaw : Prop :=
  ∀ s t : State, s.QueueLaw → step s = .next t → t.QueueLaw

/-- After every step no waiting entry remains that the grant scan would grant (R58). -/
def Obligations.StepKeepsScanLaw : Prop :=
  ∀ s t : State, s.ScanLaw → step s = .next t → t.ScanLaw

/-- Every step keeps the laws of ownership: disjoint holdings, safe states on unowned lines, and lanes that belong to their pattern's
holding, are driven and are not shared (R21, R12, R66). -/
def Obligations.StepKeepsOwnershipLaw : Prop :=
  ∀ s t : State, s.OwnershipLaw → step s = .next t → t.OwnershipLaw

/-- Every step keeps the sampling law: a DISCONNECTED line reads 0, and no settling count reaches its filter's number of samples
(R1, R3, R6). -/
def Obligations.StepKeepsSamplingLaw : Prop :=
  ∀ s t : State, s.SamplingLaw → step s = .next t → t.SamplingLaw

/-- Every step keeps a frame in transit the head of its queue, with the bytes being sent its own (R93, R123, R124). -/
def Obligations.StepKeepsTransitLaw : Prop :=
  ∀ s t : State, s.TransitLaw → step s = .next t → t.TransitLaw

/-- The laws hold at reset. -/
def Obligations.LawsHoldAtReset : Prop :=
  State.reset.WaitQueueLaw ∧ State.reset.QueueLaw ∧ State.reset.ScanLaw ∧ State.reset.OwnershipLaw ∧
    State.reset.SamplingLaw ∧ State.reset.TransitLaw
end

