-- ==== Sys2Proof/Laws/Word.lean ====
section
/-! SUPPORT. The entries of a tabulated vector, and the values of the hosts and the two-wire ports. -/

namespace Sys2Proof

@[simp] theorem getElem_tabulate {α : Type} {n : Nat} (f : Fin n → α) (i : Nat) (h : i < n) :
    (tabulate f)[i] = f ⟨i, h⟩ := by simp [tabulate]

@[simp] theorem getElem_tabulate_fin {α : Type} {n : Nat} (f : Fin n → α) (i : Fin n) :
    (tabulate f)[i] = f i := by simp

/-- Two vectors with equal entries at every `Fin` index are equal. -/
theorem vector_ext_fin {α : Type} {n : Nat} {v w : Vector α n} (h : ∀ i : Fin n, v[i] = w[i]) : v = w := by
  apply Vector.ext
  intro i hi
  simpa using h ⟨i, hi⟩

/-- A table of one value throughout. -/
theorem tabulate_const {α : Type} {n : Nat} (x : α) : (tabulate fun _ : Fin n => x) = Vector.replicate n x :=
  vector_ext_fin fun i => by simp

theorem getElem_set_fin {α : Type} {n : Nat} (v : Vector α n) (k i : Fin n) (x : α) :
    (v.set k x)[i] = if i = k then x else v[i] := by
  by_cases h : i = k
  · subst h; simp
  · have h' : (k : Nat) ≠ i := fun e => h (Fin.ext e.symm)
    simp [h, h']

@[simp] theorem getElem_set_fin_same {α : Type} {n : Nat} (v : Vector α n) (k : Fin n) (x : α) :
    (v.set k x)[k] = x := by simp

theorem getElem_set_fin_ne {α : Type} {n : Nat} (v : Vector α n) {k i : Fin n} (x : α) (h : i ≠ k) :
    (v.set k x)[i] = v[i] := by rw [getElem_set_fin, if_neg h]

end Sys2Proof

namespace Sys2Proof.Machine

@[simp] theorem PerHost.get_update_same {α : Type} (v : PerHost α) (h : HostId) (f : α → α) :
    (v.update h f).get h = f (v.get h) := by cases h <;> rfl

theorem PerHost.get_update_ne {α : Type} (v : PerHost α) {g h : HostId} (f : α → α) (hne : g ≠ h) :
    (v.update h f).get g = v.get g := by cases g <;> cases h <;> first | rfl | exact absurd rfl hne

theorem PerHost.get_update {α : Type} (v : PerHost α) (g h : HostId) (f : α → α) :
    (v.update h f).get g = if g = h then f (v.get g) else v.get g := by
  cases g <;> cases h <;> rfl

@[simp] theorem PerTwoWire.get_update_same {α : Type} (v : PerTwoWire α) (p : TwoWire) (f : α → α) :
    (v.update p f).get p = f (v.get p) := by cases p <;> rfl

theorem PerTwoWire.get_update_ne {α : Type} (v : PerTwoWire α) {q p : TwoWire} (f : α → α) (hne : q ≠ p) :
    (v.update p f).get q = v.get q := by cases q <;> cases p <;> first | rfl | exact absurd rfl hne

theorem PerTwoWire.get_update {α : Type} (v : PerTwoWire α) (q p : TwoWire) (f : α → α) :
    (v.update p f).get q = if q = p then f (v.get q) else v.get q := by
  cases q <;> cases p <;> rfl

/-- The host behind a two-wire port has that port. -/
@[simp] theorem hostTwoWire_host (p : TwoWire) : hostTwoWire p.host = some p := by cases p <;> rfl

theorem hostTwoWire_eq_some {h : HostId} {p : TwoWire} (e : hostTwoWire h = some p) : p.host = h := by
  cases h <;> cases p <;> simp_all [hostTwoWire, TwoWire.host]

end Sys2Proof.Machine
end

