-- ==== Sys2Proof/Laws/State.lean ====
section
/-! SUPPORT. What each shared operation on a state leaves unchanged: one frame lemma for each operation with cases, and one lemma for
each field it does not write, so that no later proof unfolds a record update. -/

namespace Sys2Proof.Machine

variable (s : State)

@[simp] theorem State.mapPort_pending (h : HostId) (f : Port → Port) : (s.mapPort h f).pending = s.pending := rfl
@[simp] theorem State.mapPort_inReset (h : HostId) (f : Port → Port) : (s.mapPort h f).inReset = s.inReset := rfl
@[simp] theorem State.mapPort_since (h : HostId) (f : Port → Port) : (s.mapPort h f).since = s.since := rfl
@[simp] theorem State.mapPort_selcLow (h : HostId) (f : Port → Port) : (s.mapPort h f).selcLow = s.selcLow := rfl
@[simp] theorem State.mapPort_adr (h : HostId) (f : Port → Port) : (s.mapPort h f).adr = s.adr := rfl
@[simp] theorem State.mapPort_supervisor (h : HostId) (f : Port → Port) : (s.mapPort h f).supervisor = s.supervisor := rfl
@[simp] theorem State.mapPort_resetCause (h : HostId) (f : Port → Port) : (s.mapPort h f).resetCause = s.resetCause := rfl
@[simp] theorem State.mapPort_rotation (h : HostId) (f : Port → Port) : (s.mapPort h f).rotation = s.rotation := rfl
@[simp] theorem State.mapPort_overtaken (h : HostId) (f : Port → Port) : (s.mapPort h f).overtaken = s.overtaken := rfl
@[simp] theorem State.mapPort_time (h : HostId) (f : Port → Port) : (s.mapPort h f).time = s.time := rfl
@[simp] theorem State.mapPort_micros (h : HostId) (f : Port → Port) : (s.mapPort h f).micros = s.micros := rfl
@[simp] theorem State.mapPort_lines (h : HostId) (f : Port → Port) : (s.mapPort h f).lines = s.lines := rfl
@[simp] theorem State.mapPort_watches (h : HostId) (f : Port → Port) : (s.mapPort h f).watches = s.watches := rfl
@[simp] theorem State.mapPort_slots (h : HostId) (f : Port → Port) : (s.mapPort h f).slots = s.slots := rfl
@[simp] theorem State.mapPort_waitQueue (h : HostId) (f : Port → Port) : (s.mapPort h f).waitQueue = s.waitQueue := rfl
@[simp] theorem State.mapPort_patterns (h : HostId) (f : Port → Port) : (s.mapPort h f).patterns = s.patterns := rfl
@[simp] theorem State.mapPort_twoWire (h : HostId) (f : Port → Port) : (s.mapPort h f).twoWire = s.twoWire := rfl
@[simp] theorem State.mapPort_fourWire (h : HostId) (f : Port → Port) : (s.mapPort h f).fourWire = s.fourWire := rfl

@[simp] theorem State.mapBus_pending (p : TwoWire) (g : TwoWireBus → TwoWireBus) : (s.mapBus p g).pending = s.pending := rfl
@[simp] theorem State.mapBus_inReset (p : TwoWire) (g : TwoWireBus → TwoWireBus) : (s.mapBus p g).inReset = s.inReset := rfl
@[simp] theorem State.mapBus_since (p : TwoWire) (g : TwoWireBus → TwoWireBus) : (s.mapBus p g).since = s.since := rfl
@[simp] theorem State.mapBus_selcLow (p : TwoWire) (g : TwoWireBus → TwoWireBus) : (s.mapBus p g).selcLow = s.selcLow := rfl
@[simp] theorem State.mapBus_adr (p : TwoWire) (g : TwoWireBus → TwoWireBus) : (s.mapBus p g).adr = s.adr := rfl
@[simp] theorem State.mapBus_supervisor (p : TwoWire) (g : TwoWireBus → TwoWireBus) : (s.mapBus p g).supervisor = s.supervisor := rfl
@[simp] theorem State.mapBus_resetCause (p : TwoWire) (g : TwoWireBus → TwoWireBus) : (s.mapBus p g).resetCause = s.resetCause := rfl
@[simp] theorem State.mapBus_rotation (p : TwoWire) (g : TwoWireBus → TwoWireBus) : (s.mapBus p g).rotation = s.rotation := rfl
@[simp] theorem State.mapBus_overtaken (p : TwoWire) (g : TwoWireBus → TwoWireBus) : (s.mapBus p g).overtaken = s.overtaken := rfl
@[simp] theorem State.mapBus_time (p : TwoWire) (g : TwoWireBus → TwoWireBus) : (s.mapBus p g).time = s.time := rfl
@[simp] theorem State.mapBus_micros (p : TwoWire) (g : TwoWireBus → TwoWireBus) : (s.mapBus p g).micros = s.micros := rfl
@[simp] theorem State.mapBus_lines (p : TwoWire) (g : TwoWireBus → TwoWireBus) : (s.mapBus p g).lines = s.lines := rfl
@[simp] theorem State.mapBus_watches (p : TwoWire) (g : TwoWireBus → TwoWireBus) : (s.mapBus p g).watches = s.watches := rfl
@[simp] theorem State.mapBus_slots (p : TwoWire) (g : TwoWireBus → TwoWireBus) : (s.mapBus p g).slots = s.slots := rfl
@[simp] theorem State.mapBus_waitQueue (p : TwoWire) (g : TwoWireBus → TwoWireBus) : (s.mapBus p g).waitQueue = s.waitQueue := rfl
@[simp] theorem State.mapBus_patterns (p : TwoWire) (g : TwoWireBus → TwoWireBus) : (s.mapBus p g).patterns = s.patterns := rfl
@[simp] theorem State.mapBus_ports (p : TwoWire) (g : TwoWireBus → TwoWireBus) : (s.mapBus p g).ports = s.ports := rfl
@[simp] theorem State.mapBus_fourWire (p : TwoWire) (g : TwoWireBus → TwoWireBus) : (s.mapBus p g).fourWire = s.fourWire := rfl

theorem State.sendEvent_frame (h : HostId) (e : Event) :
    ∃ (ps : PerHost Port),
      s.sendEvent h e = { s with ports := ps } := by
  unfold State.sendEvent
  split
  · exact ⟨s.ports, rfl⟩
  · exact ⟨_, rfl⟩

@[simp] theorem State.sendEvent_pending (h : HostId) (e : Event) : (s.sendEvent h e).pending = s.pending := by
  obtain ⟨_, d⟩ := s.sendEvent_frame h e; rw [d]
@[simp] theorem State.sendEvent_inReset (h : HostId) (e : Event) : (s.sendEvent h e).inReset = s.inReset := by
  obtain ⟨_, d⟩ := s.sendEvent_frame h e; rw [d]
@[simp] theorem State.sendEvent_since (h : HostId) (e : Event) : (s.sendEvent h e).since = s.since := by
  obtain ⟨_, d⟩ := s.sendEvent_frame h e; rw [d]
@[simp] theorem State.sendEvent_selcLow (h : HostId) (e : Event) : (s.sendEvent h e).selcLow = s.selcLow := by
  obtain ⟨_, d⟩ := s.sendEvent_frame h e; rw [d]
@[simp] theorem State.sendEvent_adr (h : HostId) (e : Event) : (s.sendEvent h e).adr = s.adr := by
  obtain ⟨_, d⟩ := s.sendEvent_frame h e; rw [d]
@[simp] theorem State.sendEvent_supervisor (h : HostId) (e : Event) : (s.sendEvent h e).supervisor = s.supervisor := by
  obtain ⟨_, d⟩ := s.sendEvent_frame h e; rw [d]
@[simp] theorem State.sendEvent_resetCause (h : HostId) (e : Event) : (s.sendEvent h e).resetCause = s.resetCause := by
  obtain ⟨_, d⟩ := s.sendEvent_frame h e; rw [d]
@[simp] theorem State.sendEvent_rotation (h : HostId) (e : Event) : (s.sendEvent h e).rotation = s.rotation := by
  obtain ⟨_, d⟩ := s.sendEvent_frame h e; rw [d]
@[simp] theorem State.sendEvent_overtaken (h : HostId) (e : Event) : (s.sendEvent h e).overtaken = s.overtaken := by
  obtain ⟨_, d⟩ := s.sendEvent_frame h e; rw [d]
@[simp] theorem State.sendEvent_time (h : HostId) (e : Event) : (s.sendEvent h e).time = s.time := by
  obtain ⟨_, d⟩ := s.sendEvent_frame h e; rw [d]
@[simp] theorem State.sendEvent_micros (h : HostId) (e : Event) : (s.sendEvent h e).micros = s.micros := by
  obtain ⟨_, d⟩ := s.sendEvent_frame h e; rw [d]
@[simp] theorem State.sendEvent_lines (h : HostId) (e : Event) : (s.sendEvent h e).lines = s.lines := by
  obtain ⟨_, d⟩ := s.sendEvent_frame h e; rw [d]
@[simp] theorem State.sendEvent_watches (h : HostId) (e : Event) : (s.sendEvent h e).watches = s.watches := by
  obtain ⟨_, d⟩ := s.sendEvent_frame h e; rw [d]
@[simp] theorem State.sendEvent_slots (h : HostId) (e : Event) : (s.sendEvent h e).slots = s.slots := by
  obtain ⟨_, d⟩ := s.sendEvent_frame h e; rw [d]
@[simp] theorem State.sendEvent_waitQueue (h : HostId) (e : Event) : (s.sendEvent h e).waitQueue = s.waitQueue := by
  obtain ⟨_, d⟩ := s.sendEvent_frame h e; rw [d]
@[simp] theorem State.sendEvent_patterns (h : HostId) (e : Event) : (s.sendEvent h e).patterns = s.patterns := by
  obtain ⟨_, d⟩ := s.sendEvent_frame h e; rw [d]
@[simp] theorem State.sendEvent_twoWire (h : HostId) (e : Event) : (s.sendEvent h e).twoWire = s.twoWire := by
  obtain ⟨_, d⟩ := s.sendEvent_frame h e; rw [d]
@[simp] theorem State.sendEvent_fourWire (h : HostId) (e : Event) : (s.sendEvent h e).fourWire = s.fourWire := by
  obtain ⟨_, d⟩ := s.sendEvent_frame h e; rw [d]

theorem State.sendEvents_frame (l : List (HostId × Event)) :
    ∃ (ps : PerHost Port),
      s.sendEvents l = { s with ports := ps } := by
  induction l generalizing s with
  | nil => exact ⟨s.ports, rfl⟩
  | cons x xs ih =>
    obtain ⟨w, e⟩ := s.sendEvent_frame x.1 x.2
    obtain ⟨v, d⟩ := ih (s.sendEvent x.1 x.2)
    refine ⟨v, ?_⟩
    rw [State.sendEvents, d, e]

@[simp] theorem State.sendEvents_pending (l : List (HostId × Event)) : (s.sendEvents l).pending = s.pending := by
  obtain ⟨_, e⟩ := s.sendEvents_frame l; rw [e]
@[simp] theorem State.sendEvents_inReset (l : List (HostId × Event)) : (s.sendEvents l).inReset = s.inReset := by
  obtain ⟨_, e⟩ := s.sendEvents_frame l; rw [e]
@[simp] theorem State.sendEvents_since (l : List (HostId × Event)) : (s.sendEvents l).since = s.since := by
  obtain ⟨_, e⟩ := s.sendEvents_frame l; rw [e]
@[simp] theorem State.sendEvents_selcLow (l : List (HostId × Event)) : (s.sendEvents l).selcLow = s.selcLow := by
  obtain ⟨_, e⟩ := s.sendEvents_frame l; rw [e]
@[simp] theorem State.sendEvents_adr (l : List (HostId × Event)) : (s.sendEvents l).adr = s.adr := by
  obtain ⟨_, e⟩ := s.sendEvents_frame l; rw [e]
@[simp] theorem State.sendEvents_supervisor (l : List (HostId × Event)) : (s.sendEvents l).supervisor = s.supervisor := by
  obtain ⟨_, e⟩ := s.sendEvents_frame l; rw [e]
@[simp] theorem State.sendEvents_resetCause (l : List (HostId × Event)) : (s.sendEvents l).resetCause = s.resetCause := by
  obtain ⟨_, e⟩ := s.sendEvents_frame l; rw [e]
@[simp] theorem State.sendEvents_rotation (l : List (HostId × Event)) : (s.sendEvents l).rotation = s.rotation := by
  obtain ⟨_, e⟩ := s.sendEvents_frame l; rw [e]
@[simp] theorem State.sendEvents_overtaken (l : List (HostId × Event)) : (s.sendEvents l).overtaken = s.overtaken := by
  obtain ⟨_, e⟩ := s.sendEvents_frame l; rw [e]
@[simp] theorem State.sendEvents_time (l : List (HostId × Event)) : (s.sendEvents l).time = s.time := by
  obtain ⟨_, e⟩ := s.sendEvents_frame l; rw [e]
@[simp] theorem State.sendEvents_micros (l : List (HostId × Event)) : (s.sendEvents l).micros = s.micros := by
  obtain ⟨_, e⟩ := s.sendEvents_frame l; rw [e]
@[simp] theorem State.sendEvents_lines (l : List (HostId × Event)) : (s.sendEvents l).lines = s.lines := by
  obtain ⟨_, e⟩ := s.sendEvents_frame l; rw [e]
@[simp] theorem State.sendEvents_watches (l : List (HostId × Event)) : (s.sendEvents l).watches = s.watches := by
  obtain ⟨_, e⟩ := s.sendEvents_frame l; rw [e]
@[simp] theorem State.sendEvents_slots (l : List (HostId × Event)) : (s.sendEvents l).slots = s.slots := by
  obtain ⟨_, e⟩ := s.sendEvents_frame l; rw [e]
@[simp] theorem State.sendEvents_waitQueue (l : List (HostId × Event)) : (s.sendEvents l).waitQueue = s.waitQueue := by
  obtain ⟨_, e⟩ := s.sendEvents_frame l; rw [e]
@[simp] theorem State.sendEvents_patterns (l : List (HostId × Event)) : (s.sendEvents l).patterns = s.patterns := by
  obtain ⟨_, e⟩ := s.sendEvents_frame l; rw [e]
@[simp] theorem State.sendEvents_twoWire (l : List (HostId × Event)) : (s.sendEvents l).twoWire = s.twoWire := by
  obtain ⟨_, e⟩ := s.sendEvents_frame l; rw [e]
@[simp] theorem State.sendEvents_fourWire (l : List (HostId × Event)) : (s.sendEvents l).fourWire = s.fourWire := by
  obtain ⟨_, e⟩ := s.sendEvents_frame l; rw [e]

@[simp] theorem State.placeReply_pending (h : HostId) (r : Reply) : (s.placeReply h r).pending = s.pending := rfl
@[simp] theorem State.placeReply_inReset (h : HostId) (r : Reply) : (s.placeReply h r).inReset = s.inReset := rfl
@[simp] theorem State.placeReply_since (h : HostId) (r : Reply) : (s.placeReply h r).since = s.since := rfl
@[simp] theorem State.placeReply_selcLow (h : HostId) (r : Reply) : (s.placeReply h r).selcLow = s.selcLow := rfl
@[simp] theorem State.placeReply_adr (h : HostId) (r : Reply) : (s.placeReply h r).adr = s.adr := rfl
@[simp] theorem State.placeReply_supervisor (h : HostId) (r : Reply) : (s.placeReply h r).supervisor = s.supervisor := rfl
@[simp] theorem State.placeReply_resetCause (h : HostId) (r : Reply) : (s.placeReply h r).resetCause = s.resetCause := rfl
@[simp] theorem State.placeReply_rotation (h : HostId) (r : Reply) : (s.placeReply h r).rotation = s.rotation := rfl
@[simp] theorem State.placeReply_overtaken (h : HostId) (r : Reply) : (s.placeReply h r).overtaken = s.overtaken := rfl
@[simp] theorem State.placeReply_time (h : HostId) (r : Reply) : (s.placeReply h r).time = s.time := rfl
@[simp] theorem State.placeReply_micros (h : HostId) (r : Reply) : (s.placeReply h r).micros = s.micros := rfl
@[simp] theorem State.placeReply_lines (h : HostId) (r : Reply) : (s.placeReply h r).lines = s.lines := rfl
@[simp] theorem State.placeReply_watches (h : HostId) (r : Reply) : (s.placeReply h r).watches = s.watches := rfl
@[simp] theorem State.placeReply_slots (h : HostId) (r : Reply) : (s.placeReply h r).slots = s.slots := rfl
@[simp] theorem State.placeReply_waitQueue (h : HostId) (r : Reply) : (s.placeReply h r).waitQueue = s.waitQueue := rfl
@[simp] theorem State.placeReply_patterns (h : HostId) (r : Reply) : (s.placeReply h r).patterns = s.patterns := rfl
@[simp] theorem State.placeReply_twoWire (h : HostId) (r : Reply) : (s.placeReply h r).twoWire = s.twoWire := rfl
@[simp] theorem State.placeReply_fourWire (h : HostId) (r : Reply) : (s.placeReply h r).fourWire = s.fourWire := rfl

theorem State.endHold_frame (h : HostId) :
    ∃ (tw : PerTwoWire TwoWireBus),
      s.endHold h = { s with twoWire := tw } := by
  cases h
  · exact ⟨_, rfl⟩
  · exact ⟨_, rfl⟩
  · exact ⟨s.twoWire, rfl⟩

@[simp] theorem State.endHold_pending (h : HostId) : (s.endHold h).pending = s.pending := by
  obtain ⟨_, e⟩ := s.endHold_frame h; rw [e]
@[simp] theorem State.endHold_inReset (h : HostId) : (s.endHold h).inReset = s.inReset := by
  obtain ⟨_, e⟩ := s.endHold_frame h; rw [e]
@[simp] theorem State.endHold_since (h : HostId) : (s.endHold h).since = s.since := by
  obtain ⟨_, e⟩ := s.endHold_frame h; rw [e]
@[simp] theorem State.endHold_selcLow (h : HostId) : (s.endHold h).selcLow = s.selcLow := by
  obtain ⟨_, e⟩ := s.endHold_frame h; rw [e]
@[simp] theorem State.endHold_adr (h : HostId) : (s.endHold h).adr = s.adr := by
  obtain ⟨_, e⟩ := s.endHold_frame h; rw [e]
@[simp] theorem State.endHold_supervisor (h : HostId) : (s.endHold h).supervisor = s.supervisor := by
  obtain ⟨_, e⟩ := s.endHold_frame h; rw [e]
@[simp] theorem State.endHold_resetCause (h : HostId) : (s.endHold h).resetCause = s.resetCause := by
  obtain ⟨_, e⟩ := s.endHold_frame h; rw [e]
@[simp] theorem State.endHold_rotation (h : HostId) : (s.endHold h).rotation = s.rotation := by
  obtain ⟨_, e⟩ := s.endHold_frame h; rw [e]
@[simp] theorem State.endHold_overtaken (h : HostId) : (s.endHold h).overtaken = s.overtaken := by
  obtain ⟨_, e⟩ := s.endHold_frame h; rw [e]
@[simp] theorem State.endHold_time (h : HostId) : (s.endHold h).time = s.time := by
  obtain ⟨_, e⟩ := s.endHold_frame h; rw [e]
@[simp] theorem State.endHold_micros (h : HostId) : (s.endHold h).micros = s.micros := by
  obtain ⟨_, e⟩ := s.endHold_frame h; rw [e]
@[simp] theorem State.endHold_lines (h : HostId) : (s.endHold h).lines = s.lines := by
  obtain ⟨_, e⟩ := s.endHold_frame h; rw [e]
@[simp] theorem State.endHold_watches (h : HostId) : (s.endHold h).watches = s.watches := by
  obtain ⟨_, e⟩ := s.endHold_frame h; rw [e]
@[simp] theorem State.endHold_slots (h : HostId) : (s.endHold h).slots = s.slots := by
  obtain ⟨_, e⟩ := s.endHold_frame h; rw [e]
@[simp] theorem State.endHold_waitQueue (h : HostId) : (s.endHold h).waitQueue = s.waitQueue := by
  obtain ⟨_, e⟩ := s.endHold_frame h; rw [e]
@[simp] theorem State.endHold_patterns (h : HostId) : (s.endHold h).patterns = s.patterns := by
  obtain ⟨_, e⟩ := s.endHold_frame h; rw [e]
@[simp] theorem State.endHold_ports (h : HostId) : (s.endHold h).ports = s.ports := by
  obtain ⟨_, e⟩ := s.endHold_frame h; rw [e]
@[simp] theorem State.endHold_fourWire (h : HostId) : (s.endHold h).fourWire = s.fourWire := by
  obtain ⟨_, e⟩ := s.endHold_frame h; rw [e]

theorem State.take_frame (h : HostId) :
    ∃ (ps : PerHost Port) (tw : PerTwoWire TwoWireBus) (r' : HostId) (o' : List Due),
      s.take h = { s with ports := ps, twoWire := tw, rotation := r', overtaken := o' } := by
  obtain ⟨w, e⟩ := (s.mapPort h fun p => { p with requests := p.requests.tail }).endHold_frame h
  unfold State.take
  rw [e]
  exact ⟨_, _, _, _, rfl⟩

@[simp] theorem State.take_pending (h : HostId) : (s.take h).pending = s.pending := by
  obtain ⟨_, _, _, _, e⟩ := s.take_frame h; rw [e]
@[simp] theorem State.take_inReset (h : HostId) : (s.take h).inReset = s.inReset := by
  obtain ⟨_, _, _, _, e⟩ := s.take_frame h; rw [e]
@[simp] theorem State.take_since (h : HostId) : (s.take h).since = s.since := by
  obtain ⟨_, _, _, _, e⟩ := s.take_frame h; rw [e]
@[simp] theorem State.take_selcLow (h : HostId) : (s.take h).selcLow = s.selcLow := by
  obtain ⟨_, _, _, _, e⟩ := s.take_frame h; rw [e]
@[simp] theorem State.take_adr (h : HostId) : (s.take h).adr = s.adr := by
  obtain ⟨_, _, _, _, e⟩ := s.take_frame h; rw [e]
@[simp] theorem State.take_supervisor (h : HostId) : (s.take h).supervisor = s.supervisor := by
  obtain ⟨_, _, _, _, e⟩ := s.take_frame h; rw [e]
@[simp] theorem State.take_resetCause (h : HostId) : (s.take h).resetCause = s.resetCause := by
  obtain ⟨_, _, _, _, e⟩ := s.take_frame h; rw [e]
@[simp] theorem State.take_time (h : HostId) : (s.take h).time = s.time := by
  obtain ⟨_, _, _, _, e⟩ := s.take_frame h; rw [e]
@[simp] theorem State.take_micros (h : HostId) : (s.take h).micros = s.micros := by
  obtain ⟨_, _, _, _, e⟩ := s.take_frame h; rw [e]
@[simp] theorem State.take_lines (h : HostId) : (s.take h).lines = s.lines := by
  obtain ⟨_, _, _, _, e⟩ := s.take_frame h; rw [e]
@[simp] theorem State.take_watches (h : HostId) : (s.take h).watches = s.watches := by
  obtain ⟨_, _, _, _, e⟩ := s.take_frame h; rw [e]
@[simp] theorem State.take_slots (h : HostId) : (s.take h).slots = s.slots := by
  obtain ⟨_, _, _, _, e⟩ := s.take_frame h; rw [e]
@[simp] theorem State.take_waitQueue (h : HostId) : (s.take h).waitQueue = s.waitQueue := by
  obtain ⟨_, _, _, _, e⟩ := s.take_frame h; rw [e]
@[simp] theorem State.take_patterns (h : HostId) : (s.take h).patterns = s.patterns := by
  obtain ⟨_, _, _, _, e⟩ := s.take_frame h; rw [e]
@[simp] theorem State.take_fourWire (h : HostId) : (s.take h).fourWire = s.fourWire := by
  obtain ⟨_, _, _, _, e⟩ := s.take_frame h; rw [e]

@[simp] theorem State.onLines_pending (mask : LineMask) (lf : Fin 32 → LineRecord → LineRecord) : (s.onLines mask lf).pending = s.pending := rfl
@[simp] theorem State.onLines_inReset (mask : LineMask) (lf : Fin 32 → LineRecord → LineRecord) : (s.onLines mask lf).inReset = s.inReset := rfl
@[simp] theorem State.onLines_since (mask : LineMask) (lf : Fin 32 → LineRecord → LineRecord) : (s.onLines mask lf).since = s.since := rfl
@[simp] theorem State.onLines_selcLow (mask : LineMask) (lf : Fin 32 → LineRecord → LineRecord) : (s.onLines mask lf).selcLow = s.selcLow := rfl
@[simp] theorem State.onLines_adr (mask : LineMask) (lf : Fin 32 → LineRecord → LineRecord) : (s.onLines mask lf).adr = s.adr := rfl
@[simp] theorem State.onLines_supervisor (mask : LineMask) (lf : Fin 32 → LineRecord → LineRecord) : (s.onLines mask lf).supervisor = s.supervisor := rfl
@[simp] theorem State.onLines_resetCause (mask : LineMask) (lf : Fin 32 → LineRecord → LineRecord) : (s.onLines mask lf).resetCause = s.resetCause := rfl
@[simp] theorem State.onLines_rotation (mask : LineMask) (lf : Fin 32 → LineRecord → LineRecord) : (s.onLines mask lf).rotation = s.rotation := rfl
@[simp] theorem State.onLines_overtaken (mask : LineMask) (lf : Fin 32 → LineRecord → LineRecord) : (s.onLines mask lf).overtaken = s.overtaken := rfl
@[simp] theorem State.onLines_time (mask : LineMask) (lf : Fin 32 → LineRecord → LineRecord) : (s.onLines mask lf).time = s.time := rfl
@[simp] theorem State.onLines_micros (mask : LineMask) (lf : Fin 32 → LineRecord → LineRecord) : (s.onLines mask lf).micros = s.micros := rfl
@[simp] theorem State.onLines_watches (mask : LineMask) (lf : Fin 32 → LineRecord → LineRecord) : (s.onLines mask lf).watches = s.watches := rfl
@[simp] theorem State.onLines_slots (mask : LineMask) (lf : Fin 32 → LineRecord → LineRecord) : (s.onLines mask lf).slots = s.slots := rfl
@[simp] theorem State.onLines_waitQueue (mask : LineMask) (lf : Fin 32 → LineRecord → LineRecord) : (s.onLines mask lf).waitQueue = s.waitQueue := rfl
@[simp] theorem State.onLines_patterns (mask : LineMask) (lf : Fin 32 → LineRecord → LineRecord) : (s.onLines mask lf).patterns = s.patterns := rfl
@[simp] theorem State.onLines_ports (mask : LineMask) (lf : Fin 32 → LineRecord → LineRecord) : (s.onLines mask lf).ports = s.ports := rfl
@[simp] theorem State.onLines_twoWire (mask : LineMask) (lf : Fin 32 → LineRecord → LineRecord) : (s.onLines mask lf).twoWire = s.twoWire := rfl
@[simp] theorem State.onLines_fourWire (mask : LineMask) (lf : Fin 32 → LineRecord → LineRecord) : (s.onLines mask lf).fourWire = s.fourWire := rfl

@[simp] theorem State.applySafeStates_pending (mask : LineMask) (raw : LineMask) : (s.applySafeStates mask raw).pending = s.pending := rfl
@[simp] theorem State.applySafeStates_inReset (mask : LineMask) (raw : LineMask) : (s.applySafeStates mask raw).inReset = s.inReset := rfl
@[simp] theorem State.applySafeStates_since (mask : LineMask) (raw : LineMask) : (s.applySafeStates mask raw).since = s.since := rfl
@[simp] theorem State.applySafeStates_selcLow (mask : LineMask) (raw : LineMask) : (s.applySafeStates mask raw).selcLow = s.selcLow := rfl
@[simp] theorem State.applySafeStates_adr (mask : LineMask) (raw : LineMask) : (s.applySafeStates mask raw).adr = s.adr := rfl
@[simp] theorem State.applySafeStates_supervisor (mask : LineMask) (raw : LineMask) : (s.applySafeStates mask raw).supervisor = s.supervisor := rfl
@[simp] theorem State.applySafeStates_resetCause (mask : LineMask) (raw : LineMask) : (s.applySafeStates mask raw).resetCause = s.resetCause := rfl
@[simp] theorem State.applySafeStates_rotation (mask : LineMask) (raw : LineMask) : (s.applySafeStates mask raw).rotation = s.rotation := rfl
@[simp] theorem State.applySafeStates_overtaken (mask : LineMask) (raw : LineMask) : (s.applySafeStates mask raw).overtaken = s.overtaken := rfl
@[simp] theorem State.applySafeStates_time (mask : LineMask) (raw : LineMask) : (s.applySafeStates mask raw).time = s.time := rfl
@[simp] theorem State.applySafeStates_micros (mask : LineMask) (raw : LineMask) : (s.applySafeStates mask raw).micros = s.micros := rfl
@[simp] theorem State.applySafeStates_watches (mask : LineMask) (raw : LineMask) : (s.applySafeStates mask raw).watches = s.watches := rfl
@[simp] theorem State.applySafeStates_slots (mask : LineMask) (raw : LineMask) : (s.applySafeStates mask raw).slots = s.slots := rfl
@[simp] theorem State.applySafeStates_waitQueue (mask : LineMask) (raw : LineMask) : (s.applySafeStates mask raw).waitQueue = s.waitQueue := rfl
@[simp] theorem State.applySafeStates_patterns (mask : LineMask) (raw : LineMask) : (s.applySafeStates mask raw).patterns = s.patterns := rfl
@[simp] theorem State.applySafeStates_ports (mask : LineMask) (raw : LineMask) : (s.applySafeStates mask raw).ports = s.ports := rfl
@[simp] theorem State.applySafeStates_twoWire (mask : LineMask) (raw : LineMask) : (s.applySafeStates mask raw).twoWire = s.twoWire := rfl
@[simp] theorem State.applySafeStates_fourWire (mask : LineMask) (raw : LineMask) : (s.applySafeStates mask raw).fourWire = s.fourWire := rfl

@[simp] theorem State.mapWatches_pending (h : HostId) (wf : Vector Edges 32 → Vector Edges 32) : (s.mapWatches h wf).pending = s.pending := rfl
@[simp] theorem State.mapWatches_inReset (h : HostId) (wf : Vector Edges 32 → Vector Edges 32) : (s.mapWatches h wf).inReset = s.inReset := rfl
@[simp] theorem State.mapWatches_since (h : HostId) (wf : Vector Edges 32 → Vector Edges 32) : (s.mapWatches h wf).since = s.since := rfl
@[simp] theorem State.mapWatches_selcLow (h : HostId) (wf : Vector Edges 32 → Vector Edges 32) : (s.mapWatches h wf).selcLow = s.selcLow := rfl
@[simp] theorem State.mapWatches_adr (h : HostId) (wf : Vector Edges 32 → Vector Edges 32) : (s.mapWatches h wf).adr = s.adr := rfl
@[simp] theorem State.mapWatches_supervisor (h : HostId) (wf : Vector Edges 32 → Vector Edges 32) : (s.mapWatches h wf).supervisor = s.supervisor := rfl
@[simp] theorem State.mapWatches_resetCause (h : HostId) (wf : Vector Edges 32 → Vector Edges 32) : (s.mapWatches h wf).resetCause = s.resetCause := rfl
@[simp] theorem State.mapWatches_rotation (h : HostId) (wf : Vector Edges 32 → Vector Edges 32) : (s.mapWatches h wf).rotation = s.rotation := rfl
@[simp] theorem State.mapWatches_overtaken (h : HostId) (wf : Vector Edges 32 → Vector Edges 32) : (s.mapWatches h wf).overtaken = s.overtaken := rfl
@[simp] theorem State.mapWatches_time (h : HostId) (wf : Vector Edges 32 → Vector Edges 32) : (s.mapWatches h wf).time = s.time := rfl
@[simp] theorem State.mapWatches_micros (h : HostId) (wf : Vector Edges 32 → Vector Edges 32) : (s.mapWatches h wf).micros = s.micros := rfl
@[simp] theorem State.mapWatches_lines (h : HostId) (wf : Vector Edges 32 → Vector Edges 32) : (s.mapWatches h wf).lines = s.lines := rfl
@[simp] theorem State.mapWatches_slots (h : HostId) (wf : Vector Edges 32 → Vector Edges 32) : (s.mapWatches h wf).slots = s.slots := rfl
@[simp] theorem State.mapWatches_waitQueue (h : HostId) (wf : Vector Edges 32 → Vector Edges 32) : (s.mapWatches h wf).waitQueue = s.waitQueue := rfl
@[simp] theorem State.mapWatches_patterns (h : HostId) (wf : Vector Edges 32 → Vector Edges 32) : (s.mapWatches h wf).patterns = s.patterns := rfl
@[simp] theorem State.mapWatches_ports (h : HostId) (wf : Vector Edges 32 → Vector Edges 32) : (s.mapWatches h wf).ports = s.ports := rfl
@[simp] theorem State.mapWatches_twoWire (h : HostId) (wf : Vector Edges 32 → Vector Edges 32) : (s.mapWatches h wf).twoWire = s.twoWire := rfl
@[simp] theorem State.mapWatches_fourWire (h : HostId) (wf : Vector Edges 32 → Vector Edges 32) : (s.mapWatches h wf).fourWire = s.fourWire := rfl

@[simp] theorem State.writeWatches_pending (h : HostId) (mask : LineMask) (ed : Edges) : (s.writeWatches h mask ed).pending = s.pending := rfl
@[simp] theorem State.writeWatches_inReset (h : HostId) (mask : LineMask) (ed : Edges) : (s.writeWatches h mask ed).inReset = s.inReset := rfl
@[simp] theorem State.writeWatches_since (h : HostId) (mask : LineMask) (ed : Edges) : (s.writeWatches h mask ed).since = s.since := rfl
@[simp] theorem State.writeWatches_selcLow (h : HostId) (mask : LineMask) (ed : Edges) : (s.writeWatches h mask ed).selcLow = s.selcLow := rfl
@[simp] theorem State.writeWatches_adr (h : HostId) (mask : LineMask) (ed : Edges) : (s.writeWatches h mask ed).adr = s.adr := rfl
@[simp] theorem State.writeWatches_supervisor (h : HostId) (mask : LineMask) (ed : Edges) : (s.writeWatches h mask ed).supervisor = s.supervisor := rfl
@[simp] theorem State.writeWatches_resetCause (h : HostId) (mask : LineMask) (ed : Edges) : (s.writeWatches h mask ed).resetCause = s.resetCause := rfl
@[simp] theorem State.writeWatches_rotation (h : HostId) (mask : LineMask) (ed : Edges) : (s.writeWatches h mask ed).rotation = s.rotation := rfl
@[simp] theorem State.writeWatches_overtaken (h : HostId) (mask : LineMask) (ed : Edges) : (s.writeWatches h mask ed).overtaken = s.overtaken := rfl
@[simp] theorem State.writeWatches_time (h : HostId) (mask : LineMask) (ed : Edges) : (s.writeWatches h mask ed).time = s.time := rfl
@[simp] theorem State.writeWatches_micros (h : HostId) (mask : LineMask) (ed : Edges) : (s.writeWatches h mask ed).micros = s.micros := rfl
@[simp] theorem State.writeWatches_lines (h : HostId) (mask : LineMask) (ed : Edges) : (s.writeWatches h mask ed).lines = s.lines := rfl
@[simp] theorem State.writeWatches_slots (h : HostId) (mask : LineMask) (ed : Edges) : (s.writeWatches h mask ed).slots = s.slots := rfl
@[simp] theorem State.writeWatches_waitQueue (h : HostId) (mask : LineMask) (ed : Edges) : (s.writeWatches h mask ed).waitQueue = s.waitQueue := rfl
@[simp] theorem State.writeWatches_patterns (h : HostId) (mask : LineMask) (ed : Edges) : (s.writeWatches h mask ed).patterns = s.patterns := rfl
@[simp] theorem State.writeWatches_ports (h : HostId) (mask : LineMask) (ed : Edges) : (s.writeWatches h mask ed).ports = s.ports := rfl
@[simp] theorem State.writeWatches_twoWire (h : HostId) (mask : LineMask) (ed : Edges) : (s.writeWatches h mask ed).twoWire = s.twoWire := rfl
@[simp] theorem State.writeWatches_fourWire (h : HostId) (mask : LineMask) (ed : Edges) : (s.writeWatches h mask ed).fourWire = s.fourWire := rfl

@[simp] theorem State.clearWatches_pending (h : HostId) : (s.clearWatches h).pending = s.pending := rfl
@[simp] theorem State.clearWatches_inReset (h : HostId) : (s.clearWatches h).inReset = s.inReset := rfl
@[simp] theorem State.clearWatches_since (h : HostId) : (s.clearWatches h).since = s.since := rfl
@[simp] theorem State.clearWatches_selcLow (h : HostId) : (s.clearWatches h).selcLow = s.selcLow := rfl
@[simp] theorem State.clearWatches_adr (h : HostId) : (s.clearWatches h).adr = s.adr := rfl
@[simp] theorem State.clearWatches_supervisor (h : HostId) : (s.clearWatches h).supervisor = s.supervisor := rfl
@[simp] theorem State.clearWatches_resetCause (h : HostId) : (s.clearWatches h).resetCause = s.resetCause := rfl
@[simp] theorem State.clearWatches_rotation (h : HostId) : (s.clearWatches h).rotation = s.rotation := rfl
@[simp] theorem State.clearWatches_overtaken (h : HostId) : (s.clearWatches h).overtaken = s.overtaken := rfl
@[simp] theorem State.clearWatches_time (h : HostId) : (s.clearWatches h).time = s.time := rfl
@[simp] theorem State.clearWatches_micros (h : HostId) : (s.clearWatches h).micros = s.micros := rfl
@[simp] theorem State.clearWatches_lines (h : HostId) : (s.clearWatches h).lines = s.lines := rfl
@[simp] theorem State.clearWatches_slots (h : HostId) : (s.clearWatches h).slots = s.slots := rfl
@[simp] theorem State.clearWatches_waitQueue (h : HostId) : (s.clearWatches h).waitQueue = s.waitQueue := rfl
@[simp] theorem State.clearWatches_patterns (h : HostId) : (s.clearWatches h).patterns = s.patterns := rfl
@[simp] theorem State.clearWatches_ports (h : HostId) : (s.clearWatches h).ports = s.ports := rfl
@[simp] theorem State.clearWatches_twoWire (h : HostId) : (s.clearWatches h).twoWire = s.twoWire := rfl
@[simp] theorem State.clearWatches_fourWire (h : HostId) : (s.clearWatches h).fourWire = s.fourWire := rfl

theorem State.offerEdge_frame (n : Fin 32) (b : Bool) :
    ∃ (ps : PerHost Port),
      s.offerEdge n b = { s with ports := ps } := (s.sendEvents_frame _)

@[simp] theorem State.offerEdge_pending (n : Fin 32) (b : Bool) : (s.offerEdge n b).pending = s.pending := by
  obtain ⟨_, e⟩ := s.offerEdge_frame n b; rw [e]
@[simp] theorem State.offerEdge_inReset (n : Fin 32) (b : Bool) : (s.offerEdge n b).inReset = s.inReset := by
  obtain ⟨_, e⟩ := s.offerEdge_frame n b; rw [e]
@[simp] theorem State.offerEdge_since (n : Fin 32) (b : Bool) : (s.offerEdge n b).since = s.since := by
  obtain ⟨_, e⟩ := s.offerEdge_frame n b; rw [e]
@[simp] theorem State.offerEdge_selcLow (n : Fin 32) (b : Bool) : (s.offerEdge n b).selcLow = s.selcLow := by
  obtain ⟨_, e⟩ := s.offerEdge_frame n b; rw [e]
@[simp] theorem State.offerEdge_adr (n : Fin 32) (b : Bool) : (s.offerEdge n b).adr = s.adr := by
  obtain ⟨_, e⟩ := s.offerEdge_frame n b; rw [e]
@[simp] theorem State.offerEdge_supervisor (n : Fin 32) (b : Bool) : (s.offerEdge n b).supervisor = s.supervisor := by
  obtain ⟨_, e⟩ := s.offerEdge_frame n b; rw [e]
@[simp] theorem State.offerEdge_resetCause (n : Fin 32) (b : Bool) : (s.offerEdge n b).resetCause = s.resetCause := by
  obtain ⟨_, e⟩ := s.offerEdge_frame n b; rw [e]
@[simp] theorem State.offerEdge_rotation (n : Fin 32) (b : Bool) : (s.offerEdge n b).rotation = s.rotation := by
  obtain ⟨_, e⟩ := s.offerEdge_frame n b; rw [e]
@[simp] theorem State.offerEdge_overtaken (n : Fin 32) (b : Bool) : (s.offerEdge n b).overtaken = s.overtaken := by
  obtain ⟨_, e⟩ := s.offerEdge_frame n b; rw [e]
@[simp] theorem State.offerEdge_time (n : Fin 32) (b : Bool) : (s.offerEdge n b).time = s.time := by
  obtain ⟨_, e⟩ := s.offerEdge_frame n b; rw [e]
@[simp] theorem State.offerEdge_micros (n : Fin 32) (b : Bool) : (s.offerEdge n b).micros = s.micros := by
  obtain ⟨_, e⟩ := s.offerEdge_frame n b; rw [e]
@[simp] theorem State.offerEdge_lines (n : Fin 32) (b : Bool) : (s.offerEdge n b).lines = s.lines := by
  obtain ⟨_, e⟩ := s.offerEdge_frame n b; rw [e]
@[simp] theorem State.offerEdge_watches (n : Fin 32) (b : Bool) : (s.offerEdge n b).watches = s.watches := by
  obtain ⟨_, e⟩ := s.offerEdge_frame n b; rw [e]
@[simp] theorem State.offerEdge_slots (n : Fin 32) (b : Bool) : (s.offerEdge n b).slots = s.slots := by
  obtain ⟨_, e⟩ := s.offerEdge_frame n b; rw [e]
@[simp] theorem State.offerEdge_waitQueue (n : Fin 32) (b : Bool) : (s.offerEdge n b).waitQueue = s.waitQueue := by
  obtain ⟨_, e⟩ := s.offerEdge_frame n b; rw [e]
@[simp] theorem State.offerEdge_patterns (n : Fin 32) (b : Bool) : (s.offerEdge n b).patterns = s.patterns := by
  obtain ⟨_, e⟩ := s.offerEdge_frame n b; rw [e]
@[simp] theorem State.offerEdge_twoWire (n : Fin 32) (b : Bool) : (s.offerEdge n b).twoWire = s.twoWire := by
  obtain ⟨_, e⟩ := s.offerEdge_frame n b; rw [e]
@[simp] theorem State.offerEdge_fourWire (n : Fin 32) (b : Bool) : (s.offerEdge n b).fourWire = s.fourWire := by
  obtain ⟨_, e⟩ := s.offerEdge_frame n b; rw [e]

theorem State.sampleLine_frame (n : Fin 32) (b : Bool) :
    ∃ (ls : Vector LineRecord 32) (ps : PerHost Port),
      s.sampleLine n b = { s with lines := ls, ports := ps } := by
  unfold State.sampleLine
  dsimp only
  split
  · exact ⟨_, s.ports, rfl⟩
  · obtain ⟨w, e⟩ := State.offerEdge_frame { s with lines := s.lines.set n (s.lines[n].sample b) } n (s.lines[n].sample b).filtered
    rw [e]
    exact ⟨_, w, rfl⟩

@[simp] theorem State.sampleLine_pending (n : Fin 32) (b : Bool) : (s.sampleLine n b).pending = s.pending := by
  obtain ⟨_, _, e⟩ := s.sampleLine_frame n b; rw [e]
@[simp] theorem State.sampleLine_inReset (n : Fin 32) (b : Bool) : (s.sampleLine n b).inReset = s.inReset := by
  obtain ⟨_, _, e⟩ := s.sampleLine_frame n b; rw [e]
@[simp] theorem State.sampleLine_since (n : Fin 32) (b : Bool) : (s.sampleLine n b).since = s.since := by
  obtain ⟨_, _, e⟩ := s.sampleLine_frame n b; rw [e]
@[simp] theorem State.sampleLine_selcLow (n : Fin 32) (b : Bool) : (s.sampleLine n b).selcLow = s.selcLow := by
  obtain ⟨_, _, e⟩ := s.sampleLine_frame n b; rw [e]
@[simp] theorem State.sampleLine_adr (n : Fin 32) (b : Bool) : (s.sampleLine n b).adr = s.adr := by
  obtain ⟨_, _, e⟩ := s.sampleLine_frame n b; rw [e]
@[simp] theorem State.sampleLine_supervisor (n : Fin 32) (b : Bool) : (s.sampleLine n b).supervisor = s.supervisor := by
  obtain ⟨_, _, e⟩ := s.sampleLine_frame n b; rw [e]
@[simp] theorem State.sampleLine_resetCause (n : Fin 32) (b : Bool) : (s.sampleLine n b).resetCause = s.resetCause := by
  obtain ⟨_, _, e⟩ := s.sampleLine_frame n b; rw [e]
@[simp] theorem State.sampleLine_rotation (n : Fin 32) (b : Bool) : (s.sampleLine n b).rotation = s.rotation := by
  obtain ⟨_, _, e⟩ := s.sampleLine_frame n b; rw [e]
@[simp] theorem State.sampleLine_overtaken (n : Fin 32) (b : Bool) : (s.sampleLine n b).overtaken = s.overtaken := by
  obtain ⟨_, _, e⟩ := s.sampleLine_frame n b; rw [e]
@[simp] theorem State.sampleLine_time (n : Fin 32) (b : Bool) : (s.sampleLine n b).time = s.time := by
  obtain ⟨_, _, e⟩ := s.sampleLine_frame n b; rw [e]
@[simp] theorem State.sampleLine_micros (n : Fin 32) (b : Bool) : (s.sampleLine n b).micros = s.micros := by
  obtain ⟨_, _, e⟩ := s.sampleLine_frame n b; rw [e]
@[simp] theorem State.sampleLine_watches (n : Fin 32) (b : Bool) : (s.sampleLine n b).watches = s.watches := by
  obtain ⟨_, _, e⟩ := s.sampleLine_frame n b; rw [e]
@[simp] theorem State.sampleLine_slots (n : Fin 32) (b : Bool) : (s.sampleLine n b).slots = s.slots := by
  obtain ⟨_, _, e⟩ := s.sampleLine_frame n b; rw [e]
@[simp] theorem State.sampleLine_waitQueue (n : Fin 32) (b : Bool) : (s.sampleLine n b).waitQueue = s.waitQueue := by
  obtain ⟨_, _, e⟩ := s.sampleLine_frame n b; rw [e]
@[simp] theorem State.sampleLine_patterns (n : Fin 32) (b : Bool) : (s.sampleLine n b).patterns = s.patterns := by
  obtain ⟨_, _, e⟩ := s.sampleLine_frame n b; rw [e]
@[simp] theorem State.sampleLine_twoWire (n : Fin 32) (b : Bool) : (s.sampleLine n b).twoWire = s.twoWire := by
  obtain ⟨_, _, e⟩ := s.sampleLine_frame n b; rw [e]
@[simp] theorem State.sampleLine_fourWire (n : Fin 32) (b : Bool) : (s.sampleLine n b).fourWire = s.fourWire := by
  obtain ⟨_, _, e⟩ := s.sampleLine_frame n b; rw [e]

@[simp] theorem State.writeLanes_pending (bank : Fin 4) (lanes : Byte) (level : Byte) : (s.writeLanes bank lanes level).pending = s.pending := rfl
@[simp] theorem State.writeLanes_inReset (bank : Fin 4) (lanes : Byte) (level : Byte) : (s.writeLanes bank lanes level).inReset = s.inReset := rfl
@[simp] theorem State.writeLanes_since (bank : Fin 4) (lanes : Byte) (level : Byte) : (s.writeLanes bank lanes level).since = s.since := rfl
@[simp] theorem State.writeLanes_selcLow (bank : Fin 4) (lanes : Byte) (level : Byte) : (s.writeLanes bank lanes level).selcLow = s.selcLow := rfl
@[simp] theorem State.writeLanes_adr (bank : Fin 4) (lanes : Byte) (level : Byte) : (s.writeLanes bank lanes level).adr = s.adr := rfl
@[simp] theorem State.writeLanes_supervisor (bank : Fin 4) (lanes : Byte) (level : Byte) : (s.writeLanes bank lanes level).supervisor = s.supervisor := rfl
@[simp] theorem State.writeLanes_resetCause (bank : Fin 4) (lanes : Byte) (level : Byte) : (s.writeLanes bank lanes level).resetCause = s.resetCause := rfl
@[simp] theorem State.writeLanes_rotation (bank : Fin 4) (lanes : Byte) (level : Byte) : (s.writeLanes bank lanes level).rotation = s.rotation := rfl
@[simp] theorem State.writeLanes_overtaken (bank : Fin 4) (lanes : Byte) (level : Byte) : (s.writeLanes bank lanes level).overtaken = s.overtaken := rfl
@[simp] theorem State.writeLanes_time (bank : Fin 4) (lanes : Byte) (level : Byte) : (s.writeLanes bank lanes level).time = s.time := rfl
@[simp] theorem State.writeLanes_micros (bank : Fin 4) (lanes : Byte) (level : Byte) : (s.writeLanes bank lanes level).micros = s.micros := rfl
@[simp] theorem State.writeLanes_watches (bank : Fin 4) (lanes : Byte) (level : Byte) : (s.writeLanes bank lanes level).watches = s.watches := rfl
@[simp] theorem State.writeLanes_slots (bank : Fin 4) (lanes : Byte) (level : Byte) : (s.writeLanes bank lanes level).slots = s.slots := rfl
@[simp] theorem State.writeLanes_waitQueue (bank : Fin 4) (lanes : Byte) (level : Byte) : (s.writeLanes bank lanes level).waitQueue = s.waitQueue := rfl
@[simp] theorem State.writeLanes_patterns (bank : Fin 4) (lanes : Byte) (level : Byte) : (s.writeLanes bank lanes level).patterns = s.patterns := rfl
@[simp] theorem State.writeLanes_ports (bank : Fin 4) (lanes : Byte) (level : Byte) : (s.writeLanes bank lanes level).ports = s.ports := rfl
@[simp] theorem State.writeLanes_twoWire (bank : Fin 4) (lanes : Byte) (level : Byte) : (s.writeLanes bank lanes level).twoWire = s.twoWire := rfl
@[simp] theorem State.writeLanes_fourWire (bank : Fin 4) (lanes : Byte) (level : Byte) : (s.writeLanes bank lanes level).fourWire = s.fourWire := rfl

@[simp] theorem State.beginStep_pending (i : Fin 4) (pat : Pattern) (k : Nat) : (s.beginStep i pat k).pending = s.pending := rfl
@[simp] theorem State.beginStep_inReset (i : Fin 4) (pat : Pattern) (k : Nat) : (s.beginStep i pat k).inReset = s.inReset := rfl
@[simp] theorem State.beginStep_since (i : Fin 4) (pat : Pattern) (k : Nat) : (s.beginStep i pat k).since = s.since := rfl
@[simp] theorem State.beginStep_selcLow (i : Fin 4) (pat : Pattern) (k : Nat) : (s.beginStep i pat k).selcLow = s.selcLow := rfl
@[simp] theorem State.beginStep_adr (i : Fin 4) (pat : Pattern) (k : Nat) : (s.beginStep i pat k).adr = s.adr := rfl
@[simp] theorem State.beginStep_supervisor (i : Fin 4) (pat : Pattern) (k : Nat) : (s.beginStep i pat k).supervisor = s.supervisor := rfl
@[simp] theorem State.beginStep_resetCause (i : Fin 4) (pat : Pattern) (k : Nat) : (s.beginStep i pat k).resetCause = s.resetCause := rfl
@[simp] theorem State.beginStep_rotation (i : Fin 4) (pat : Pattern) (k : Nat) : (s.beginStep i pat k).rotation = s.rotation := rfl
@[simp] theorem State.beginStep_overtaken (i : Fin 4) (pat : Pattern) (k : Nat) : (s.beginStep i pat k).overtaken = s.overtaken := rfl
@[simp] theorem State.beginStep_time (i : Fin 4) (pat : Pattern) (k : Nat) : (s.beginStep i pat k).time = s.time := rfl
@[simp] theorem State.beginStep_micros (i : Fin 4) (pat : Pattern) (k : Nat) : (s.beginStep i pat k).micros = s.micros := rfl
@[simp] theorem State.beginStep_watches (i : Fin 4) (pat : Pattern) (k : Nat) : (s.beginStep i pat k).watches = s.watches := rfl
@[simp] theorem State.beginStep_slots (i : Fin 4) (pat : Pattern) (k : Nat) : (s.beginStep i pat k).slots = s.slots := rfl
@[simp] theorem State.beginStep_waitQueue (i : Fin 4) (pat : Pattern) (k : Nat) : (s.beginStep i pat k).waitQueue = s.waitQueue := rfl
@[simp] theorem State.beginStep_ports (i : Fin 4) (pat : Pattern) (k : Nat) : (s.beginStep i pat k).ports = s.ports := rfl
@[simp] theorem State.beginStep_twoWire (i : Fin 4) (pat : Pattern) (k : Nat) : (s.beginStep i pat k).twoWire = s.twoWire := rfl
@[simp] theorem State.beginStep_fourWire (i : Fin 4) (pat : Pattern) (k : Nat) : (s.beginStep i pat k).fourWire = s.fourWire := rfl

theorem State.completePattern_frame (i : Fin 4) (pat : Pattern) :
    ∃ (pt : Vector (Option Pattern) 4) (ps : PerHost Port),
      s.completePattern i pat = { s with patterns := pt, ports := ps } := by
  unfold State.completePattern
  dsimp only
  split
  · obtain ⟨w, e⟩ := State.sendEvent_frame { s with patterns := s.patterns.set i none } ‹HostId› (.patternDone i pat.handle pat.tag)
    rw [e]
    exact ⟨_, w, rfl⟩
  · exact ⟨_, s.ports, rfl⟩

@[simp] theorem State.completePattern_pending (i : Fin 4) (pat : Pattern) : (s.completePattern i pat).pending = s.pending := by
  obtain ⟨_, _, e⟩ := s.completePattern_frame i pat; rw [e]
@[simp] theorem State.completePattern_inReset (i : Fin 4) (pat : Pattern) : (s.completePattern i pat).inReset = s.inReset := by
  obtain ⟨_, _, e⟩ := s.completePattern_frame i pat; rw [e]
@[simp] theorem State.completePattern_since (i : Fin 4) (pat : Pattern) : (s.completePattern i pat).since = s.since := by
  obtain ⟨_, _, e⟩ := s.completePattern_frame i pat; rw [e]
@[simp] theorem State.completePattern_selcLow (i : Fin 4) (pat : Pattern) : (s.completePattern i pat).selcLow = s.selcLow := by
  obtain ⟨_, _, e⟩ := s.completePattern_frame i pat; rw [e]
@[simp] theorem State.completePattern_adr (i : Fin 4) (pat : Pattern) : (s.completePattern i pat).adr = s.adr := by
  obtain ⟨_, _, e⟩ := s.completePattern_frame i pat; rw [e]
@[simp] theorem State.completePattern_supervisor (i : Fin 4) (pat : Pattern) : (s.completePattern i pat).supervisor = s.supervisor := by
  obtain ⟨_, _, e⟩ := s.completePattern_frame i pat; rw [e]
@[simp] theorem State.completePattern_resetCause (i : Fin 4) (pat : Pattern) : (s.completePattern i pat).resetCause = s.resetCause := by
  obtain ⟨_, _, e⟩ := s.completePattern_frame i pat; rw [e]
@[simp] theorem State.completePattern_rotation (i : Fin 4) (pat : Pattern) : (s.completePattern i pat).rotation = s.rotation := by
  obtain ⟨_, _, e⟩ := s.completePattern_frame i pat; rw [e]
@[simp] theorem State.completePattern_overtaken (i : Fin 4) (pat : Pattern) : (s.completePattern i pat).overtaken = s.overtaken := by
  obtain ⟨_, _, e⟩ := s.completePattern_frame i pat; rw [e]
@[simp] theorem State.completePattern_time (i : Fin 4) (pat : Pattern) : (s.completePattern i pat).time = s.time := by
  obtain ⟨_, _, e⟩ := s.completePattern_frame i pat; rw [e]
@[simp] theorem State.completePattern_micros (i : Fin 4) (pat : Pattern) : (s.completePattern i pat).micros = s.micros := by
  obtain ⟨_, _, e⟩ := s.completePattern_frame i pat; rw [e]
@[simp] theorem State.completePattern_lines (i : Fin 4) (pat : Pattern) : (s.completePattern i pat).lines = s.lines := by
  obtain ⟨_, _, e⟩ := s.completePattern_frame i pat; rw [e]
@[simp] theorem State.completePattern_watches (i : Fin 4) (pat : Pattern) : (s.completePattern i pat).watches = s.watches := by
  obtain ⟨_, _, e⟩ := s.completePattern_frame i pat; rw [e]
@[simp] theorem State.completePattern_slots (i : Fin 4) (pat : Pattern) : (s.completePattern i pat).slots = s.slots := by
  obtain ⟨_, _, e⟩ := s.completePattern_frame i pat; rw [e]
@[simp] theorem State.completePattern_waitQueue (i : Fin 4) (pat : Pattern) : (s.completePattern i pat).waitQueue = s.waitQueue := by
  obtain ⟨_, _, e⟩ := s.completePattern_frame i pat; rw [e]
@[simp] theorem State.completePattern_twoWire (i : Fin 4) (pat : Pattern) : (s.completePattern i pat).twoWire = s.twoWire := by
  obtain ⟨_, _, e⟩ := s.completePattern_frame i pat; rw [e]
@[simp] theorem State.completePattern_fourWire (i : Fin 4) (pat : Pattern) : (s.completePattern i pat).fourWire = s.fourWire := by
  obtain ⟨_, _, e⟩ := s.completePattern_frame i pat; rw [e]

theorem State.stepEnd_frame (i : Fin 4) :
    ∃ (ls : Vector LineRecord 32) (pt : Vector (Option Pattern) 4) (ps : PerHost Port),
      s.stepEnd i = { s with lines := ls, patterns := pt, ports := ps } := by
  unfold State.stepEnd
  split
  · exact ⟨s.lines, s.patterns, s.ports, rfl⟩
  · split
    · exact ⟨_, _, s.ports, rfl⟩
    · split
      · exact ⟨_, _, s.ports, rfl⟩
      · split
        · obtain ⟨w, v, e⟩ := s.completePattern_frame i ‹Pattern›
          rw [e]
          exact ⟨s.lines, w, v, rfl⟩
        · exact ⟨_, _, s.ports, rfl⟩

@[simp] theorem State.stepEnd_pending (i : Fin 4) : (s.stepEnd i).pending = s.pending := by
  obtain ⟨_, _, _, e⟩ := s.stepEnd_frame i; rw [e]
@[simp] theorem State.stepEnd_inReset (i : Fin 4) : (s.stepEnd i).inReset = s.inReset := by
  obtain ⟨_, _, _, e⟩ := s.stepEnd_frame i; rw [e]
@[simp] theorem State.stepEnd_since (i : Fin 4) : (s.stepEnd i).since = s.since := by
  obtain ⟨_, _, _, e⟩ := s.stepEnd_frame i; rw [e]
@[simp] theorem State.stepEnd_selcLow (i : Fin 4) : (s.stepEnd i).selcLow = s.selcLow := by
  obtain ⟨_, _, _, e⟩ := s.stepEnd_frame i; rw [e]
@[simp] theorem State.stepEnd_adr (i : Fin 4) : (s.stepEnd i).adr = s.adr := by
  obtain ⟨_, _, _, e⟩ := s.stepEnd_frame i; rw [e]
@[simp] theorem State.stepEnd_supervisor (i : Fin 4) : (s.stepEnd i).supervisor = s.supervisor := by
  obtain ⟨_, _, _, e⟩ := s.stepEnd_frame i; rw [e]
@[simp] theorem State.stepEnd_resetCause (i : Fin 4) : (s.stepEnd i).resetCause = s.resetCause := by
  obtain ⟨_, _, _, e⟩ := s.stepEnd_frame i; rw [e]
@[simp] theorem State.stepEnd_rotation (i : Fin 4) : (s.stepEnd i).rotation = s.rotation := by
  obtain ⟨_, _, _, e⟩ := s.stepEnd_frame i; rw [e]
@[simp] theorem State.stepEnd_overtaken (i : Fin 4) : (s.stepEnd i).overtaken = s.overtaken := by
  obtain ⟨_, _, _, e⟩ := s.stepEnd_frame i; rw [e]
@[simp] theorem State.stepEnd_time (i : Fin 4) : (s.stepEnd i).time = s.time := by
  obtain ⟨_, _, _, e⟩ := s.stepEnd_frame i; rw [e]
@[simp] theorem State.stepEnd_micros (i : Fin 4) : (s.stepEnd i).micros = s.micros := by
  obtain ⟨_, _, _, e⟩ := s.stepEnd_frame i; rw [e]
@[simp] theorem State.stepEnd_watches (i : Fin 4) : (s.stepEnd i).watches = s.watches := by
  obtain ⟨_, _, _, e⟩ := s.stepEnd_frame i; rw [e]
@[simp] theorem State.stepEnd_slots (i : Fin 4) : (s.stepEnd i).slots = s.slots := by
  obtain ⟨_, _, _, e⟩ := s.stepEnd_frame i; rw [e]
@[simp] theorem State.stepEnd_waitQueue (i : Fin 4) : (s.stepEnd i).waitQueue = s.waitQueue := by
  obtain ⟨_, _, _, e⟩ := s.stepEnd_frame i; rw [e]
@[simp] theorem State.stepEnd_twoWire (i : Fin 4) : (s.stepEnd i).twoWire = s.twoWire := by
  obtain ⟨_, _, _, e⟩ := s.stepEnd_frame i; rw [e]
@[simp] theorem State.stepEnd_fourWire (i : Fin 4) : (s.stepEnd i).fourWire = s.fourWire := by
  obtain ⟨_, _, _, e⟩ := s.stepEnd_frame i; rw [e]

@[simp] theorem State.abortPatterns_pending (hit : Pattern → Bool) : (s.abortPatterns hit).pending = s.pending := rfl
@[simp] theorem State.abortPatterns_inReset (hit : Pattern → Bool) : (s.abortPatterns hit).inReset = s.inReset := rfl
@[simp] theorem State.abortPatterns_since (hit : Pattern → Bool) : (s.abortPatterns hit).since = s.since := rfl
@[simp] theorem State.abortPatterns_selcLow (hit : Pattern → Bool) : (s.abortPatterns hit).selcLow = s.selcLow := rfl
@[simp] theorem State.abortPatterns_adr (hit : Pattern → Bool) : (s.abortPatterns hit).adr = s.adr := rfl
@[simp] theorem State.abortPatterns_supervisor (hit : Pattern → Bool) : (s.abortPatterns hit).supervisor = s.supervisor := rfl
@[simp] theorem State.abortPatterns_resetCause (hit : Pattern → Bool) : (s.abortPatterns hit).resetCause = s.resetCause := rfl
@[simp] theorem State.abortPatterns_rotation (hit : Pattern → Bool) : (s.abortPatterns hit).rotation = s.rotation := rfl
@[simp] theorem State.abortPatterns_overtaken (hit : Pattern → Bool) : (s.abortPatterns hit).overtaken = s.overtaken := rfl
@[simp] theorem State.abortPatterns_time (hit : Pattern → Bool) : (s.abortPatterns hit).time = s.time := rfl
@[simp] theorem State.abortPatterns_micros (hit : Pattern → Bool) : (s.abortPatterns hit).micros = s.micros := rfl
@[simp] theorem State.abortPatterns_lines (hit : Pattern → Bool) : (s.abortPatterns hit).lines = s.lines := rfl
@[simp] theorem State.abortPatterns_watches (hit : Pattern → Bool) : (s.abortPatterns hit).watches = s.watches := rfl
@[simp] theorem State.abortPatterns_slots (hit : Pattern → Bool) : (s.abortPatterns hit).slots = s.slots := rfl
@[simp] theorem State.abortPatterns_waitQueue (hit : Pattern → Bool) : (s.abortPatterns hit).waitQueue = s.waitQueue := rfl
@[simp] theorem State.abortPatterns_ports (hit : Pattern → Bool) : (s.abortPatterns hit).ports = s.ports := rfl
@[simp] theorem State.abortPatterns_twoWire (hit : Pattern → Bool) : (s.abortPatterns hit).twoWire = s.twoWire := rfl
@[simp] theorem State.abortPatterns_fourWire (hit : Pattern → Bool) : (s.abortPatterns hit).fourWire = s.fourWire := rfl

theorem State.grantScan_frame :
    ∃ (sl : Vector Slot 16) (wq : List WaitEntry) (ps : PerHost Port),
      s.grantScan = { s with slots := sl, waitQueue := wq, ports := ps } := by
  obtain ⟨w, e⟩ := State.sendEvents_frame { s with slots := (grantWalk s.waitQueue 0 s.slots).slots, waitQueue := (grantWalk s.waitQueue 0 s.slots).kept } (grantWalk s.waitQueue 0 s.slots).events
  unfold State.grantScan
  dsimp only
  rw [e]
  exact ⟨_, _, w, rfl⟩

@[simp] theorem State.grantScan_pending : (s.grantScan).pending = s.pending := by
  obtain ⟨_, _, _, e⟩ := s.grantScan_frame; rw [e]
@[simp] theorem State.grantScan_inReset : (s.grantScan).inReset = s.inReset := by
  obtain ⟨_, _, _, e⟩ := s.grantScan_frame; rw [e]
@[simp] theorem State.grantScan_since : (s.grantScan).since = s.since := by
  obtain ⟨_, _, _, e⟩ := s.grantScan_frame; rw [e]
@[simp] theorem State.grantScan_selcLow : (s.grantScan).selcLow = s.selcLow := by
  obtain ⟨_, _, _, e⟩ := s.grantScan_frame; rw [e]
@[simp] theorem State.grantScan_adr : (s.grantScan).adr = s.adr := by
  obtain ⟨_, _, _, e⟩ := s.grantScan_frame; rw [e]
@[simp] theorem State.grantScan_supervisor : (s.grantScan).supervisor = s.supervisor := by
  obtain ⟨_, _, _, e⟩ := s.grantScan_frame; rw [e]
@[simp] theorem State.grantScan_resetCause : (s.grantScan).resetCause = s.resetCause := by
  obtain ⟨_, _, _, e⟩ := s.grantScan_frame; rw [e]
@[simp] theorem State.grantScan_rotation : (s.grantScan).rotation = s.rotation := by
  obtain ⟨_, _, _, e⟩ := s.grantScan_frame; rw [e]
@[simp] theorem State.grantScan_overtaken : (s.grantScan).overtaken = s.overtaken := by
  obtain ⟨_, _, _, e⟩ := s.grantScan_frame; rw [e]
@[simp] theorem State.grantScan_time : (s.grantScan).time = s.time := by
  obtain ⟨_, _, _, e⟩ := s.grantScan_frame; rw [e]
@[simp] theorem State.grantScan_micros : (s.grantScan).micros = s.micros := by
  obtain ⟨_, _, _, e⟩ := s.grantScan_frame; rw [e]
@[simp] theorem State.grantScan_lines : (s.grantScan).lines = s.lines := by
  obtain ⟨_, _, _, e⟩ := s.grantScan_frame; rw [e]
@[simp] theorem State.grantScan_watches : (s.grantScan).watches = s.watches := by
  obtain ⟨_, _, _, e⟩ := s.grantScan_frame; rw [e]
@[simp] theorem State.grantScan_patterns : (s.grantScan).patterns = s.patterns := by
  obtain ⟨_, _, _, e⟩ := s.grantScan_frame; rw [e]
@[simp] theorem State.grantScan_twoWire : (s.grantScan).twoWire = s.twoWire := by
  obtain ⟨_, _, _, e⟩ := s.grantScan_frame; rw [e]
@[simp] theorem State.grantScan_fourWire : (s.grantScan).fourWire = s.fourWire := by
  obtain ⟨_, _, _, e⟩ := s.grantScan_frame; rw [e]

@[simp] theorem State.freeSlot_pending (ks : Fin 16) : (s.freeSlot ks).pending = s.pending := rfl
@[simp] theorem State.freeSlot_inReset (ks : Fin 16) : (s.freeSlot ks).inReset = s.inReset := rfl
@[simp] theorem State.freeSlot_since (ks : Fin 16) : (s.freeSlot ks).since = s.since := rfl
@[simp] theorem State.freeSlot_selcLow (ks : Fin 16) : (s.freeSlot ks).selcLow = s.selcLow := rfl
@[simp] theorem State.freeSlot_adr (ks : Fin 16) : (s.freeSlot ks).adr = s.adr := rfl
@[simp] theorem State.freeSlot_supervisor (ks : Fin 16) : (s.freeSlot ks).supervisor = s.supervisor := rfl
@[simp] theorem State.freeSlot_resetCause (ks : Fin 16) : (s.freeSlot ks).resetCause = s.resetCause := rfl
@[simp] theorem State.freeSlot_rotation (ks : Fin 16) : (s.freeSlot ks).rotation = s.rotation := rfl
@[simp] theorem State.freeSlot_overtaken (ks : Fin 16) : (s.freeSlot ks).overtaken = s.overtaken := rfl
@[simp] theorem State.freeSlot_time (ks : Fin 16) : (s.freeSlot ks).time = s.time := rfl
@[simp] theorem State.freeSlot_micros (ks : Fin 16) : (s.freeSlot ks).micros = s.micros := rfl
@[simp] theorem State.freeSlot_lines (ks : Fin 16) : (s.freeSlot ks).lines = s.lines := rfl
@[simp] theorem State.freeSlot_watches (ks : Fin 16) : (s.freeSlot ks).watches = s.watches := rfl
@[simp] theorem State.freeSlot_waitQueue (ks : Fin 16) : (s.freeSlot ks).waitQueue = s.waitQueue := rfl
@[simp] theorem State.freeSlot_patterns (ks : Fin 16) : (s.freeSlot ks).patterns = s.patterns := rfl
@[simp] theorem State.freeSlot_ports (ks : Fin 16) : (s.freeSlot ks).ports = s.ports := rfl
@[simp] theorem State.freeSlot_twoWire (ks : Fin 16) : (s.freeSlot ks).twoWire = s.twoWire := rfl
@[simp] theorem State.freeSlot_fourWire (ks : Fin 16) : (s.freeSlot ks).fourWire = s.fourWire := rfl

theorem State.releaseHolding_frame (ks : Fin 16) (raw : LineMask) (cause : Option AbortCause) :
    ∃ (sl : Vector Slot 16) (ls : Vector LineRecord 32) (pt : Vector (Option Pattern) 4) (ps : PerHost Port),
      s.releaseHolding ks raw cause = { s with slots := sl, lines := ls, patterns := pt, ports := ps } := by
  unfold State.releaseHolding
  split
  · dsimp only
    split
    · obtain ⟨w, e⟩ := State.sendEvents_frame (((s.abortPatterns (Pattern.under (slotHandle s.slots ks))).freeSlot ks).applySafeStates ‹LineMask› raw) (s.abortEvents (Pattern.under (slotHandle s.slots ks)) ‹HostId› ‹AbortCause›)
      rw [e]
      exact ⟨_, _, _, w, rfl⟩
    · exact ⟨_, _, _, s.ports, rfl⟩
  · exact ⟨s.slots, s.lines, s.patterns, s.ports, rfl⟩

@[simp] theorem State.releaseHolding_pending (ks : Fin 16) (raw : LineMask) (cause : Option AbortCause) : (s.releaseHolding ks raw cause).pending = s.pending := by
  obtain ⟨_, _, _, _, e⟩ := s.releaseHolding_frame ks raw cause; rw [e]
@[simp] theorem State.releaseHolding_inReset (ks : Fin 16) (raw : LineMask) (cause : Option AbortCause) : (s.releaseHolding ks raw cause).inReset = s.inReset := by
  obtain ⟨_, _, _, _, e⟩ := s.releaseHolding_frame ks raw cause; rw [e]
@[simp] theorem State.releaseHolding_since (ks : Fin 16) (raw : LineMask) (cause : Option AbortCause) : (s.releaseHolding ks raw cause).since = s.since := by
  obtain ⟨_, _, _, _, e⟩ := s.releaseHolding_frame ks raw cause; rw [e]
@[simp] theorem State.releaseHolding_selcLow (ks : Fin 16) (raw : LineMask) (cause : Option AbortCause) : (s.releaseHolding ks raw cause).selcLow = s.selcLow := by
  obtain ⟨_, _, _, _, e⟩ := s.releaseHolding_frame ks raw cause; rw [e]
@[simp] theorem State.releaseHolding_adr (ks : Fin 16) (raw : LineMask) (cause : Option AbortCause) : (s.releaseHolding ks raw cause).adr = s.adr := by
  obtain ⟨_, _, _, _, e⟩ := s.releaseHolding_frame ks raw cause; rw [e]
@[simp] theorem State.releaseHolding_supervisor (ks : Fin 16) (raw : LineMask) (cause : Option AbortCause) : (s.releaseHolding ks raw cause).supervisor = s.supervisor := by
  obtain ⟨_, _, _, _, e⟩ := s.releaseHolding_frame ks raw cause; rw [e]
@[simp] theorem State.releaseHolding_resetCause (ks : Fin 16) (raw : LineMask) (cause : Option AbortCause) : (s.releaseHolding ks raw cause).resetCause = s.resetCause := by
  obtain ⟨_, _, _, _, e⟩ := s.releaseHolding_frame ks raw cause; rw [e]
@[simp] theorem State.releaseHolding_rotation (ks : Fin 16) (raw : LineMask) (cause : Option AbortCause) : (s.releaseHolding ks raw cause).rotation = s.rotation := by
  obtain ⟨_, _, _, _, e⟩ := s.releaseHolding_frame ks raw cause; rw [e]
@[simp] theorem State.releaseHolding_overtaken (ks : Fin 16) (raw : LineMask) (cause : Option AbortCause) : (s.releaseHolding ks raw cause).overtaken = s.overtaken := by
  obtain ⟨_, _, _, _, e⟩ := s.releaseHolding_frame ks raw cause; rw [e]
@[simp] theorem State.releaseHolding_time (ks : Fin 16) (raw : LineMask) (cause : Option AbortCause) : (s.releaseHolding ks raw cause).time = s.time := by
  obtain ⟨_, _, _, _, e⟩ := s.releaseHolding_frame ks raw cause; rw [e]
@[simp] theorem State.releaseHolding_micros (ks : Fin 16) (raw : LineMask) (cause : Option AbortCause) : (s.releaseHolding ks raw cause).micros = s.micros := by
  obtain ⟨_, _, _, _, e⟩ := s.releaseHolding_frame ks raw cause; rw [e]
@[simp] theorem State.releaseHolding_watches (ks : Fin 16) (raw : LineMask) (cause : Option AbortCause) : (s.releaseHolding ks raw cause).watches = s.watches := by
  obtain ⟨_, _, _, _, e⟩ := s.releaseHolding_frame ks raw cause; rw [e]
@[simp] theorem State.releaseHolding_waitQueue (ks : Fin 16) (raw : LineMask) (cause : Option AbortCause) : (s.releaseHolding ks raw cause).waitQueue = s.waitQueue := by
  obtain ⟨_, _, _, _, e⟩ := s.releaseHolding_frame ks raw cause; rw [e]
@[simp] theorem State.releaseHolding_twoWire (ks : Fin 16) (raw : LineMask) (cause : Option AbortCause) : (s.releaseHolding ks raw cause).twoWire = s.twoWire := by
  obtain ⟨_, _, _, _, e⟩ := s.releaseHolding_frame ks raw cause; rw [e]
@[simp] theorem State.releaseHolding_fourWire (ks : Fin 16) (raw : LineMask) (cause : Option AbortCause) : (s.releaseHolding ks raw cause).fourWire = s.fourWire := by
  obtain ⟨_, _, _, _, e⟩ := s.releaseHolding_frame ks raw cause; rw [e]

theorem State.endHolding_frame (ks : Fin 16) (raw : LineMask) (ec : EndCause) :
    ∃ (sl : Vector Slot 16) (ls : Vector LineRecord 32) (pt : Vector (Option Pattern) 4) (ps : PerHost Port),
      s.endHolding ks raw ec = { s with slots := sl, lines := ls, patterns := pt, ports := ps } := by
  unfold State.endHolding
  split
  · refine ⟨_, _, _, _, (State.sendEvents_frame _ _).choose_spec⟩
  · exact ⟨s.slots, s.lines, s.patterns, s.ports, rfl⟩

@[simp] theorem State.endHolding_pending (ks : Fin 16) (raw : LineMask) (ec : EndCause) : (s.endHolding ks raw ec).pending = s.pending := by
  obtain ⟨_, _, _, _, e⟩ := s.endHolding_frame ks raw ec; rw [e]
@[simp] theorem State.endHolding_inReset (ks : Fin 16) (raw : LineMask) (ec : EndCause) : (s.endHolding ks raw ec).inReset = s.inReset := by
  obtain ⟨_, _, _, _, e⟩ := s.endHolding_frame ks raw ec; rw [e]
@[simp] theorem State.endHolding_since (ks : Fin 16) (raw : LineMask) (ec : EndCause) : (s.endHolding ks raw ec).since = s.since := by
  obtain ⟨_, _, _, _, e⟩ := s.endHolding_frame ks raw ec; rw [e]
@[simp] theorem State.endHolding_selcLow (ks : Fin 16) (raw : LineMask) (ec : EndCause) : (s.endHolding ks raw ec).selcLow = s.selcLow := by
  obtain ⟨_, _, _, _, e⟩ := s.endHolding_frame ks raw ec; rw [e]
@[simp] theorem State.endHolding_adr (ks : Fin 16) (raw : LineMask) (ec : EndCause) : (s.endHolding ks raw ec).adr = s.adr := by
  obtain ⟨_, _, _, _, e⟩ := s.endHolding_frame ks raw ec; rw [e]
@[simp] theorem State.endHolding_supervisor (ks : Fin 16) (raw : LineMask) (ec : EndCause) : (s.endHolding ks raw ec).supervisor = s.supervisor := by
  obtain ⟨_, _, _, _, e⟩ := s.endHolding_frame ks raw ec; rw [e]
@[simp] theorem State.endHolding_resetCause (ks : Fin 16) (raw : LineMask) (ec : EndCause) : (s.endHolding ks raw ec).resetCause = s.resetCause := by
  obtain ⟨_, _, _, _, e⟩ := s.endHolding_frame ks raw ec; rw [e]
@[simp] theorem State.endHolding_rotation (ks : Fin 16) (raw : LineMask) (ec : EndCause) : (s.endHolding ks raw ec).rotation = s.rotation := by
  obtain ⟨_, _, _, _, e⟩ := s.endHolding_frame ks raw ec; rw [e]
@[simp] theorem State.endHolding_overtaken (ks : Fin 16) (raw : LineMask) (ec : EndCause) : (s.endHolding ks raw ec).overtaken = s.overtaken := by
  obtain ⟨_, _, _, _, e⟩ := s.endHolding_frame ks raw ec; rw [e]
@[simp] theorem State.endHolding_time (ks : Fin 16) (raw : LineMask) (ec : EndCause) : (s.endHolding ks raw ec).time = s.time := by
  obtain ⟨_, _, _, _, e⟩ := s.endHolding_frame ks raw ec; rw [e]
@[simp] theorem State.endHolding_micros (ks : Fin 16) (raw : LineMask) (ec : EndCause) : (s.endHolding ks raw ec).micros = s.micros := by
  obtain ⟨_, _, _, _, e⟩ := s.endHolding_frame ks raw ec; rw [e]
@[simp] theorem State.endHolding_watches (ks : Fin 16) (raw : LineMask) (ec : EndCause) : (s.endHolding ks raw ec).watches = s.watches := by
  obtain ⟨_, _, _, _, e⟩ := s.endHolding_frame ks raw ec; rw [e]
@[simp] theorem State.endHolding_waitQueue (ks : Fin 16) (raw : LineMask) (ec : EndCause) : (s.endHolding ks raw ec).waitQueue = s.waitQueue := by
  obtain ⟨_, _, _, _, e⟩ := s.endHolding_frame ks raw ec; rw [e]
@[simp] theorem State.endHolding_twoWire (ks : Fin 16) (raw : LineMask) (ec : EndCause) : (s.endHolding ks raw ec).twoWire = s.twoWire := by
  obtain ⟨_, _, _, _, e⟩ := s.endHolding_frame ks raw ec; rw [e]
@[simp] theorem State.endHolding_fourWire (ks : Fin 16) (raw : LineMask) (ec : EndCause) : (s.endHolding ks raw ec).fourWire = s.fourWire := by
  obtain ⟨_, _, _, _, e⟩ := s.endHolding_frame ks raw ec; rw [e]

theorem State.trimHolding_frame (ks : Fin 16) (named : LineMask) (raw : LineMask) :
    ∃ (sl : Vector Slot 16) (ls : Vector LineRecord 32) (pt : Vector (Option Pattern) 4) (ps : PerHost Port),
      s.trimHolding ks named raw = { s with slots := sl, lines := ls, patterns := pt, ports := ps } := by
  unfold State.trimHolding
  split
  · refine ⟨_, _, _, _, (State.sendEvents_frame _ _).choose_spec⟩
  · exact ⟨s.slots, s.lines, s.patterns, s.ports, rfl⟩

@[simp] theorem State.trimHolding_pending (ks : Fin 16) (named : LineMask) (raw : LineMask) : (s.trimHolding ks named raw).pending = s.pending := by
  obtain ⟨_, _, _, _, e⟩ := s.trimHolding_frame ks named raw; rw [e]
@[simp] theorem State.trimHolding_inReset (ks : Fin 16) (named : LineMask) (raw : LineMask) : (s.trimHolding ks named raw).inReset = s.inReset := by
  obtain ⟨_, _, _, _, e⟩ := s.trimHolding_frame ks named raw; rw [e]
@[simp] theorem State.trimHolding_since (ks : Fin 16) (named : LineMask) (raw : LineMask) : (s.trimHolding ks named raw).since = s.since := by
  obtain ⟨_, _, _, _, e⟩ := s.trimHolding_frame ks named raw; rw [e]
@[simp] theorem State.trimHolding_selcLow (ks : Fin 16) (named : LineMask) (raw : LineMask) : (s.trimHolding ks named raw).selcLow = s.selcLow := by
  obtain ⟨_, _, _, _, e⟩ := s.trimHolding_frame ks named raw; rw [e]
@[simp] theorem State.trimHolding_adr (ks : Fin 16) (named : LineMask) (raw : LineMask) : (s.trimHolding ks named raw).adr = s.adr := by
  obtain ⟨_, _, _, _, e⟩ := s.trimHolding_frame ks named raw; rw [e]
@[simp] theorem State.trimHolding_supervisor (ks : Fin 16) (named : LineMask) (raw : LineMask) : (s.trimHolding ks named raw).supervisor = s.supervisor := by
  obtain ⟨_, _, _, _, e⟩ := s.trimHolding_frame ks named raw; rw [e]
@[simp] theorem State.trimHolding_resetCause (ks : Fin 16) (named : LineMask) (raw : LineMask) : (s.trimHolding ks named raw).resetCause = s.resetCause := by
  obtain ⟨_, _, _, _, e⟩ := s.trimHolding_frame ks named raw; rw [e]
@[simp] theorem State.trimHolding_rotation (ks : Fin 16) (named : LineMask) (raw : LineMask) : (s.trimHolding ks named raw).rotation = s.rotation := by
  obtain ⟨_, _, _, _, e⟩ := s.trimHolding_frame ks named raw; rw [e]
@[simp] theorem State.trimHolding_overtaken (ks : Fin 16) (named : LineMask) (raw : LineMask) : (s.trimHolding ks named raw).overtaken = s.overtaken := by
  obtain ⟨_, _, _, _, e⟩ := s.trimHolding_frame ks named raw; rw [e]
@[simp] theorem State.trimHolding_time (ks : Fin 16) (named : LineMask) (raw : LineMask) : (s.trimHolding ks named raw).time = s.time := by
  obtain ⟨_, _, _, _, e⟩ := s.trimHolding_frame ks named raw; rw [e]
@[simp] theorem State.trimHolding_micros (ks : Fin 16) (named : LineMask) (raw : LineMask) : (s.trimHolding ks named raw).micros = s.micros := by
  obtain ⟨_, _, _, _, e⟩ := s.trimHolding_frame ks named raw; rw [e]
@[simp] theorem State.trimHolding_watches (ks : Fin 16) (named : LineMask) (raw : LineMask) : (s.trimHolding ks named raw).watches = s.watches := by
  obtain ⟨_, _, _, _, e⟩ := s.trimHolding_frame ks named raw; rw [e]
@[simp] theorem State.trimHolding_waitQueue (ks : Fin 16) (named : LineMask) (raw : LineMask) : (s.trimHolding ks named raw).waitQueue = s.waitQueue := by
  obtain ⟨_, _, _, _, e⟩ := s.trimHolding_frame ks named raw; rw [e]
@[simp] theorem State.trimHolding_twoWire (ks : Fin 16) (named : LineMask) (raw : LineMask) : (s.trimHolding ks named raw).twoWire = s.twoWire := by
  obtain ⟨_, _, _, _, e⟩ := s.trimHolding_frame ks named raw; rw [e]
@[simp] theorem State.trimHolding_fourWire (ks : Fin 16) (named : LineMask) (raw : LineMask) : (s.trimHolding ks named raw).fourWire = s.fourWire := by
  obtain ⟨_, _, _, _, e⟩ := s.trimHolding_frame ks named raw; rw [e]

@[simp] theorem State.withdrawWaits_pending (h : HostId) : (s.withdrawWaits h).pending = s.pending := rfl
@[simp] theorem State.withdrawWaits_inReset (h : HostId) : (s.withdrawWaits h).inReset = s.inReset := rfl
@[simp] theorem State.withdrawWaits_since (h : HostId) : (s.withdrawWaits h).since = s.since := rfl
@[simp] theorem State.withdrawWaits_selcLow (h : HostId) : (s.withdrawWaits h).selcLow = s.selcLow := rfl
@[simp] theorem State.withdrawWaits_adr (h : HostId) : (s.withdrawWaits h).adr = s.adr := rfl
@[simp] theorem State.withdrawWaits_supervisor (h : HostId) : (s.withdrawWaits h).supervisor = s.supervisor := rfl
@[simp] theorem State.withdrawWaits_resetCause (h : HostId) : (s.withdrawWaits h).resetCause = s.resetCause := rfl
@[simp] theorem State.withdrawWaits_rotation (h : HostId) : (s.withdrawWaits h).rotation = s.rotation := rfl
@[simp] theorem State.withdrawWaits_overtaken (h : HostId) : (s.withdrawWaits h).overtaken = s.overtaken := rfl
@[simp] theorem State.withdrawWaits_time (h : HostId) : (s.withdrawWaits h).time = s.time := rfl
@[simp] theorem State.withdrawWaits_micros (h : HostId) : (s.withdrawWaits h).micros = s.micros := rfl
@[simp] theorem State.withdrawWaits_lines (h : HostId) : (s.withdrawWaits h).lines = s.lines := rfl
@[simp] theorem State.withdrawWaits_watches (h : HostId) : (s.withdrawWaits h).watches = s.watches := rfl
@[simp] theorem State.withdrawWaits_slots (h : HostId) : (s.withdrawWaits h).slots = s.slots := rfl
@[simp] theorem State.withdrawWaits_patterns (h : HostId) : (s.withdrawWaits h).patterns = s.patterns := rfl
@[simp] theorem State.withdrawWaits_ports (h : HostId) : (s.withdrawWaits h).ports = s.ports := rfl
@[simp] theorem State.withdrawWaits_twoWire (h : HostId) : (s.withdrawWaits h).twoWire = s.twoWire := rfl
@[simp] theorem State.withdrawWaits_fourWire (h : HostId) : (s.withdrawWaits h).fourWire = s.fourWire := rfl

theorem State.abandonTransfer_frame (h : HostId) (bits : Fin 8) :
    ∃ (tw : PerTwoWire TwoWireBus) (fw : FourWireBus),
      s.abandonTransfer h bits = { s with twoWire := tw, fourWire := fw } := by
  cases h
  · exact ⟨_, s.fourWire, rfl⟩
  · exact ⟨_, s.fourWire, rfl⟩
  · unfold State.abandonTransfer
    dsimp only [hostTwoWire]
    split
    · exact ⟨s.twoWire, _, rfl⟩
    · exact ⟨s.twoWire, s.fourWire, rfl⟩

@[simp] theorem State.abandonTransfer_pending (h : HostId) (bits : Fin 8) : (s.abandonTransfer h bits).pending = s.pending := by
  obtain ⟨_, _, e⟩ := s.abandonTransfer_frame h bits; rw [e]
@[simp] theorem State.abandonTransfer_inReset (h : HostId) (bits : Fin 8) : (s.abandonTransfer h bits).inReset = s.inReset := by
  obtain ⟨_, _, e⟩ := s.abandonTransfer_frame h bits; rw [e]
@[simp] theorem State.abandonTransfer_since (h : HostId) (bits : Fin 8) : (s.abandonTransfer h bits).since = s.since := by
  obtain ⟨_, _, e⟩ := s.abandonTransfer_frame h bits; rw [e]
@[simp] theorem State.abandonTransfer_selcLow (h : HostId) (bits : Fin 8) : (s.abandonTransfer h bits).selcLow = s.selcLow := by
  obtain ⟨_, _, e⟩ := s.abandonTransfer_frame h bits; rw [e]
@[simp] theorem State.abandonTransfer_adr (h : HostId) (bits : Fin 8) : (s.abandonTransfer h bits).adr = s.adr := by
  obtain ⟨_, _, e⟩ := s.abandonTransfer_frame h bits; rw [e]
@[simp] theorem State.abandonTransfer_supervisor (h : HostId) (bits : Fin 8) : (s.abandonTransfer h bits).supervisor = s.supervisor := by
  obtain ⟨_, _, e⟩ := s.abandonTransfer_frame h bits; rw [e]
@[simp] theorem State.abandonTransfer_resetCause (h : HostId) (bits : Fin 8) : (s.abandonTransfer h bits).resetCause = s.resetCause := by
  obtain ⟨_, _, e⟩ := s.abandonTransfer_frame h bits; rw [e]
@[simp] theorem State.abandonTransfer_rotation (h : HostId) (bits : Fin 8) : (s.abandonTransfer h bits).rotation = s.rotation := by
  obtain ⟨_, _, e⟩ := s.abandonTransfer_frame h bits; rw [e]
@[simp] theorem State.abandonTransfer_overtaken (h : HostId) (bits : Fin 8) : (s.abandonTransfer h bits).overtaken = s.overtaken := by
  obtain ⟨_, _, e⟩ := s.abandonTransfer_frame h bits; rw [e]
@[simp] theorem State.abandonTransfer_time (h : HostId) (bits : Fin 8) : (s.abandonTransfer h bits).time = s.time := by
  obtain ⟨_, _, e⟩ := s.abandonTransfer_frame h bits; rw [e]
@[simp] theorem State.abandonTransfer_micros (h : HostId) (bits : Fin 8) : (s.abandonTransfer h bits).micros = s.micros := by
  obtain ⟨_, _, e⟩ := s.abandonTransfer_frame h bits; rw [e]
@[simp] theorem State.abandonTransfer_lines (h : HostId) (bits : Fin 8) : (s.abandonTransfer h bits).lines = s.lines := by
  obtain ⟨_, _, e⟩ := s.abandonTransfer_frame h bits; rw [e]
@[simp] theorem State.abandonTransfer_watches (h : HostId) (bits : Fin 8) : (s.abandonTransfer h bits).watches = s.watches := by
  obtain ⟨_, _, e⟩ := s.abandonTransfer_frame h bits; rw [e]
@[simp] theorem State.abandonTransfer_slots (h : HostId) (bits : Fin 8) : (s.abandonTransfer h bits).slots = s.slots := by
  obtain ⟨_, _, e⟩ := s.abandonTransfer_frame h bits; rw [e]
@[simp] theorem State.abandonTransfer_waitQueue (h : HostId) (bits : Fin 8) : (s.abandonTransfer h bits).waitQueue = s.waitQueue := by
  obtain ⟨_, _, e⟩ := s.abandonTransfer_frame h bits; rw [e]
@[simp] theorem State.abandonTransfer_patterns (h : HostId) (bits : Fin 8) : (s.abandonTransfer h bits).patterns = s.patterns := by
  obtain ⟨_, _, e⟩ := s.abandonTransfer_frame h bits; rw [e]
@[simp] theorem State.abandonTransfer_ports (h : HostId) (bits : Fin 8) : (s.abandonTransfer h bits).ports = s.ports := by
  obtain ⟨_, _, e⟩ := s.abandonTransfer_frame h bits; rw [e]

@[simp] theorem State.removeWait_pending (h : HostId) (tag : Byte) : (s.removeWait h tag).pending = s.pending := rfl
@[simp] theorem State.removeWait_inReset (h : HostId) (tag : Byte) : (s.removeWait h tag).inReset = s.inReset := rfl
@[simp] theorem State.removeWait_since (h : HostId) (tag : Byte) : (s.removeWait h tag).since = s.since := rfl
@[simp] theorem State.removeWait_selcLow (h : HostId) (tag : Byte) : (s.removeWait h tag).selcLow = s.selcLow := rfl
@[simp] theorem State.removeWait_adr (h : HostId) (tag : Byte) : (s.removeWait h tag).adr = s.adr := rfl
@[simp] theorem State.removeWait_supervisor (h : HostId) (tag : Byte) : (s.removeWait h tag).supervisor = s.supervisor := rfl
@[simp] theorem State.removeWait_resetCause (h : HostId) (tag : Byte) : (s.removeWait h tag).resetCause = s.resetCause := rfl
@[simp] theorem State.removeWait_rotation (h : HostId) (tag : Byte) : (s.removeWait h tag).rotation = s.rotation := rfl
@[simp] theorem State.removeWait_overtaken (h : HostId) (tag : Byte) : (s.removeWait h tag).overtaken = s.overtaken := rfl
@[simp] theorem State.removeWait_time (h : HostId) (tag : Byte) : (s.removeWait h tag).time = s.time := rfl
@[simp] theorem State.removeWait_micros (h : HostId) (tag : Byte) : (s.removeWait h tag).micros = s.micros := rfl
@[simp] theorem State.removeWait_lines (h : HostId) (tag : Byte) : (s.removeWait h tag).lines = s.lines := rfl
@[simp] theorem State.removeWait_watches (h : HostId) (tag : Byte) : (s.removeWait h tag).watches = s.watches := rfl
@[simp] theorem State.removeWait_slots (h : HostId) (tag : Byte) : (s.removeWait h tag).slots = s.slots := rfl
@[simp] theorem State.removeWait_patterns (h : HostId) (tag : Byte) : (s.removeWait h tag).patterns = s.patterns := rfl
@[simp] theorem State.removeWait_ports (h : HostId) (tag : Byte) : (s.removeWait h tag).ports = s.ports := rfl
@[simp] theorem State.removeWait_twoWire (h : HostId) (tag : Byte) : (s.removeWait h tag).twoWire = s.twoWire := rfl
@[simp] theorem State.removeWait_fourWire (h : HostId) (tag : Byte) : (s.removeWait h tag).fourWire = s.fourWire := rfl

theorem State.writeLease_frame (ks : Fin 16) (lease : Option Lease) :
    ∃ (sl : Vector Slot 16),
      s.writeLease ks lease = { s with slots := sl } := by
  unfold State.writeLease
  split
  · exact ⟨_, rfl⟩
  · exact ⟨s.slots, rfl⟩

@[simp] theorem State.writeLease_pending (ks : Fin 16) (lease : Option Lease) : (s.writeLease ks lease).pending = s.pending := by
  obtain ⟨_, e⟩ := s.writeLease_frame ks lease; rw [e]
@[simp] theorem State.writeLease_inReset (ks : Fin 16) (lease : Option Lease) : (s.writeLease ks lease).inReset = s.inReset := by
  obtain ⟨_, e⟩ := s.writeLease_frame ks lease; rw [e]
@[simp] theorem State.writeLease_since (ks : Fin 16) (lease : Option Lease) : (s.writeLease ks lease).since = s.since := by
  obtain ⟨_, e⟩ := s.writeLease_frame ks lease; rw [e]
@[simp] theorem State.writeLease_selcLow (ks : Fin 16) (lease : Option Lease) : (s.writeLease ks lease).selcLow = s.selcLow := by
  obtain ⟨_, e⟩ := s.writeLease_frame ks lease; rw [e]
@[simp] theorem State.writeLease_adr (ks : Fin 16) (lease : Option Lease) : (s.writeLease ks lease).adr = s.adr := by
  obtain ⟨_, e⟩ := s.writeLease_frame ks lease; rw [e]
@[simp] theorem State.writeLease_supervisor (ks : Fin 16) (lease : Option Lease) : (s.writeLease ks lease).supervisor = s.supervisor := by
  obtain ⟨_, e⟩ := s.writeLease_frame ks lease; rw [e]
@[simp] theorem State.writeLease_resetCause (ks : Fin 16) (lease : Option Lease) : (s.writeLease ks lease).resetCause = s.resetCause := by
  obtain ⟨_, e⟩ := s.writeLease_frame ks lease; rw [e]
@[simp] theorem State.writeLease_rotation (ks : Fin 16) (lease : Option Lease) : (s.writeLease ks lease).rotation = s.rotation := by
  obtain ⟨_, e⟩ := s.writeLease_frame ks lease; rw [e]
@[simp] theorem State.writeLease_overtaken (ks : Fin 16) (lease : Option Lease) : (s.writeLease ks lease).overtaken = s.overtaken := by
  obtain ⟨_, e⟩ := s.writeLease_frame ks lease; rw [e]
@[simp] theorem State.writeLease_time (ks : Fin 16) (lease : Option Lease) : (s.writeLease ks lease).time = s.time := by
  obtain ⟨_, e⟩ := s.writeLease_frame ks lease; rw [e]
@[simp] theorem State.writeLease_micros (ks : Fin 16) (lease : Option Lease) : (s.writeLease ks lease).micros = s.micros := by
  obtain ⟨_, e⟩ := s.writeLease_frame ks lease; rw [e]
@[simp] theorem State.writeLease_lines (ks : Fin 16) (lease : Option Lease) : (s.writeLease ks lease).lines = s.lines := by
  obtain ⟨_, e⟩ := s.writeLease_frame ks lease; rw [e]
@[simp] theorem State.writeLease_watches (ks : Fin 16) (lease : Option Lease) : (s.writeLease ks lease).watches = s.watches := by
  obtain ⟨_, e⟩ := s.writeLease_frame ks lease; rw [e]
@[simp] theorem State.writeLease_waitQueue (ks : Fin 16) (lease : Option Lease) : (s.writeLease ks lease).waitQueue = s.waitQueue := by
  obtain ⟨_, e⟩ := s.writeLease_frame ks lease; rw [e]
@[simp] theorem State.writeLease_patterns (ks : Fin 16) (lease : Option Lease) : (s.writeLease ks lease).patterns = s.patterns := by
  obtain ⟨_, e⟩ := s.writeLease_frame ks lease; rw [e]
@[simp] theorem State.writeLease_ports (ks : Fin 16) (lease : Option Lease) : (s.writeLease ks lease).ports = s.ports := by
  obtain ⟨_, e⟩ := s.writeLease_frame ks lease; rw [e]
@[simp] theorem State.writeLease_twoWire (ks : Fin 16) (lease : Option Lease) : (s.writeLease ks lease).twoWire = s.twoWire := by
  obtain ⟨_, e⟩ := s.writeLease_frame ks lease; rw [e]
@[simp] theorem State.writeLease_fourWire (ks : Fin 16) (lease : Option Lease) : (s.writeLease ks lease).fourWire = s.fourWire := by
  obtain ⟨_, e⟩ := s.writeLease_frame ks lease; rw [e]

theorem State.writeConfig_frame (h : HostId) (am : AttentionMask) (hm : HoldMode) (pol : ResetPolicy) :
    ∃ (ps : PerHost Port) (tw : PerTwoWire TwoWireBus),
      s.writeConfig h am hm pol = { s with ports := ps, twoWire := tw } := by
  cases h
  · exact ⟨_, _, rfl⟩
  · exact ⟨_, _, rfl⟩
  · exact ⟨_, s.twoWire, rfl⟩

@[simp] theorem State.writeConfig_pending (h : HostId) (am : AttentionMask) (hm : HoldMode) (pol : ResetPolicy) : (s.writeConfig h am hm pol).pending = s.pending := by
  obtain ⟨_, _, e⟩ := s.writeConfig_frame h am hm pol; rw [e]
@[simp] theorem State.writeConfig_inReset (h : HostId) (am : AttentionMask) (hm : HoldMode) (pol : ResetPolicy) : (s.writeConfig h am hm pol).inReset = s.inReset := by
  obtain ⟨_, _, e⟩ := s.writeConfig_frame h am hm pol; rw [e]
@[simp] theorem State.writeConfig_since (h : HostId) (am : AttentionMask) (hm : HoldMode) (pol : ResetPolicy) : (s.writeConfig h am hm pol).since = s.since := by
  obtain ⟨_, _, e⟩ := s.writeConfig_frame h am hm pol; rw [e]
@[simp] theorem State.writeConfig_selcLow (h : HostId) (am : AttentionMask) (hm : HoldMode) (pol : ResetPolicy) : (s.writeConfig h am hm pol).selcLow = s.selcLow := by
  obtain ⟨_, _, e⟩ := s.writeConfig_frame h am hm pol; rw [e]
@[simp] theorem State.writeConfig_adr (h : HostId) (am : AttentionMask) (hm : HoldMode) (pol : ResetPolicy) : (s.writeConfig h am hm pol).adr = s.adr := by
  obtain ⟨_, _, e⟩ := s.writeConfig_frame h am hm pol; rw [e]
@[simp] theorem State.writeConfig_supervisor (h : HostId) (am : AttentionMask) (hm : HoldMode) (pol : ResetPolicy) : (s.writeConfig h am hm pol).supervisor = s.supervisor := by
  obtain ⟨_, _, e⟩ := s.writeConfig_frame h am hm pol; rw [e]
@[simp] theorem State.writeConfig_resetCause (h : HostId) (am : AttentionMask) (hm : HoldMode) (pol : ResetPolicy) : (s.writeConfig h am hm pol).resetCause = s.resetCause := by
  obtain ⟨_, _, e⟩ := s.writeConfig_frame h am hm pol; rw [e]
@[simp] theorem State.writeConfig_rotation (h : HostId) (am : AttentionMask) (hm : HoldMode) (pol : ResetPolicy) : (s.writeConfig h am hm pol).rotation = s.rotation := by
  obtain ⟨_, _, e⟩ := s.writeConfig_frame h am hm pol; rw [e]
@[simp] theorem State.writeConfig_overtaken (h : HostId) (am : AttentionMask) (hm : HoldMode) (pol : ResetPolicy) : (s.writeConfig h am hm pol).overtaken = s.overtaken := by
  obtain ⟨_, _, e⟩ := s.writeConfig_frame h am hm pol; rw [e]
@[simp] theorem State.writeConfig_time (h : HostId) (am : AttentionMask) (hm : HoldMode) (pol : ResetPolicy) : (s.writeConfig h am hm pol).time = s.time := by
  obtain ⟨_, _, e⟩ := s.writeConfig_frame h am hm pol; rw [e]
@[simp] theorem State.writeConfig_micros (h : HostId) (am : AttentionMask) (hm : HoldMode) (pol : ResetPolicy) : (s.writeConfig h am hm pol).micros = s.micros := by
  obtain ⟨_, _, e⟩ := s.writeConfig_frame h am hm pol; rw [e]
@[simp] theorem State.writeConfig_lines (h : HostId) (am : AttentionMask) (hm : HoldMode) (pol : ResetPolicy) : (s.writeConfig h am hm pol).lines = s.lines := by
  obtain ⟨_, _, e⟩ := s.writeConfig_frame h am hm pol; rw [e]
@[simp] theorem State.writeConfig_watches (h : HostId) (am : AttentionMask) (hm : HoldMode) (pol : ResetPolicy) : (s.writeConfig h am hm pol).watches = s.watches := by
  obtain ⟨_, _, e⟩ := s.writeConfig_frame h am hm pol; rw [e]
@[simp] theorem State.writeConfig_slots (h : HostId) (am : AttentionMask) (hm : HoldMode) (pol : ResetPolicy) : (s.writeConfig h am hm pol).slots = s.slots := by
  obtain ⟨_, _, e⟩ := s.writeConfig_frame h am hm pol; rw [e]
@[simp] theorem State.writeConfig_waitQueue (h : HostId) (am : AttentionMask) (hm : HoldMode) (pol : ResetPolicy) : (s.writeConfig h am hm pol).waitQueue = s.waitQueue := by
  obtain ⟨_, _, e⟩ := s.writeConfig_frame h am hm pol; rw [e]
@[simp] theorem State.writeConfig_patterns (h : HostId) (am : AttentionMask) (hm : HoldMode) (pol : ResetPolicy) : (s.writeConfig h am hm pol).patterns = s.patterns := by
  obtain ⟨_, _, e⟩ := s.writeConfig_frame h am hm pol; rw [e]
@[simp] theorem State.writeConfig_fourWire (h : HostId) (am : AttentionMask) (hm : HoldMode) (pol : ResetPolicy) : (s.writeConfig h am hm pol).fourWire = s.fourWire := by
  obtain ⟨_, _, e⟩ := s.writeConfig_frame h am hm pol; rw [e]

@[simp] theorem State.writeSafe_pending (mask : LineMask) (ss : SafeState) (raw : LineMask) : (s.writeSafe mask ss raw).pending = s.pending := rfl
@[simp] theorem State.writeSafe_inReset (mask : LineMask) (ss : SafeState) (raw : LineMask) : (s.writeSafe mask ss raw).inReset = s.inReset := rfl
@[simp] theorem State.writeSafe_since (mask : LineMask) (ss : SafeState) (raw : LineMask) : (s.writeSafe mask ss raw).since = s.since := rfl
@[simp] theorem State.writeSafe_selcLow (mask : LineMask) (ss : SafeState) (raw : LineMask) : (s.writeSafe mask ss raw).selcLow = s.selcLow := rfl
@[simp] theorem State.writeSafe_adr (mask : LineMask) (ss : SafeState) (raw : LineMask) : (s.writeSafe mask ss raw).adr = s.adr := rfl
@[simp] theorem State.writeSafe_supervisor (mask : LineMask) (ss : SafeState) (raw : LineMask) : (s.writeSafe mask ss raw).supervisor = s.supervisor := rfl
@[simp] theorem State.writeSafe_resetCause (mask : LineMask) (ss : SafeState) (raw : LineMask) : (s.writeSafe mask ss raw).resetCause = s.resetCause := rfl
@[simp] theorem State.writeSafe_rotation (mask : LineMask) (ss : SafeState) (raw : LineMask) : (s.writeSafe mask ss raw).rotation = s.rotation := rfl
@[simp] theorem State.writeSafe_overtaken (mask : LineMask) (ss : SafeState) (raw : LineMask) : (s.writeSafe mask ss raw).overtaken = s.overtaken := rfl
@[simp] theorem State.writeSafe_time (mask : LineMask) (ss : SafeState) (raw : LineMask) : (s.writeSafe mask ss raw).time = s.time := rfl
@[simp] theorem State.writeSafe_micros (mask : LineMask) (ss : SafeState) (raw : LineMask) : (s.writeSafe mask ss raw).micros = s.micros := rfl
@[simp] theorem State.writeSafe_watches (mask : LineMask) (ss : SafeState) (raw : LineMask) : (s.writeSafe mask ss raw).watches = s.watches := rfl
@[simp] theorem State.writeSafe_slots (mask : LineMask) (ss : SafeState) (raw : LineMask) : (s.writeSafe mask ss raw).slots = s.slots := rfl
@[simp] theorem State.writeSafe_waitQueue (mask : LineMask) (ss : SafeState) (raw : LineMask) : (s.writeSafe mask ss raw).waitQueue = s.waitQueue := rfl
@[simp] theorem State.writeSafe_patterns (mask : LineMask) (ss : SafeState) (raw : LineMask) : (s.writeSafe mask ss raw).patterns = s.patterns := rfl
@[simp] theorem State.writeSafe_ports (mask : LineMask) (ss : SafeState) (raw : LineMask) : (s.writeSafe mask ss raw).ports = s.ports := rfl
@[simp] theorem State.writeSafe_twoWire (mask : LineMask) (ss : SafeState) (raw : LineMask) : (s.writeSafe mask ss raw).twoWire = s.twoWire := rfl
@[simp] theorem State.writeSafe_fourWire (mask : LineMask) (ss : SafeState) (raw : LineMask) : (s.writeSafe mask ss raw).fourWire = s.fourWire := rfl

theorem State.endTransaction_frame (p : TwoWire) :
    ∃ (ps : PerHost Port),
      s.endTransaction p = { s with ports := ps } := by
  unfold State.endTransaction
  split
  · split
    · exact ⟨_, rfl⟩
    · exact ⟨s.ports, rfl⟩
  · exact ⟨s.ports, rfl⟩

@[simp] theorem State.endTransaction_pending (p : TwoWire) : (s.endTransaction p).pending = s.pending := by
  obtain ⟨_, e⟩ := s.endTransaction_frame p; rw [e]
@[simp] theorem State.endTransaction_inReset (p : TwoWire) : (s.endTransaction p).inReset = s.inReset := by
  obtain ⟨_, e⟩ := s.endTransaction_frame p; rw [e]
@[simp] theorem State.endTransaction_since (p : TwoWire) : (s.endTransaction p).since = s.since := by
  obtain ⟨_, e⟩ := s.endTransaction_frame p; rw [e]
@[simp] theorem State.endTransaction_selcLow (p : TwoWire) : (s.endTransaction p).selcLow = s.selcLow := by
  obtain ⟨_, e⟩ := s.endTransaction_frame p; rw [e]
@[simp] theorem State.endTransaction_adr (p : TwoWire) : (s.endTransaction p).adr = s.adr := by
  obtain ⟨_, e⟩ := s.endTransaction_frame p; rw [e]
@[simp] theorem State.endTransaction_supervisor (p : TwoWire) : (s.endTransaction p).supervisor = s.supervisor := by
  obtain ⟨_, e⟩ := s.endTransaction_frame p; rw [e]
@[simp] theorem State.endTransaction_resetCause (p : TwoWire) : (s.endTransaction p).resetCause = s.resetCause := by
  obtain ⟨_, e⟩ := s.endTransaction_frame p; rw [e]
@[simp] theorem State.endTransaction_rotation (p : TwoWire) : (s.endTransaction p).rotation = s.rotation := by
  obtain ⟨_, e⟩ := s.endTransaction_frame p; rw [e]
@[simp] theorem State.endTransaction_overtaken (p : TwoWire) : (s.endTransaction p).overtaken = s.overtaken := by
  obtain ⟨_, e⟩ := s.endTransaction_frame p; rw [e]
@[simp] theorem State.endTransaction_time (p : TwoWire) : (s.endTransaction p).time = s.time := by
  obtain ⟨_, e⟩ := s.endTransaction_frame p; rw [e]
@[simp] theorem State.endTransaction_micros (p : TwoWire) : (s.endTransaction p).micros = s.micros := by
  obtain ⟨_, e⟩ := s.endTransaction_frame p; rw [e]
@[simp] theorem State.endTransaction_lines (p : TwoWire) : (s.endTransaction p).lines = s.lines := by
  obtain ⟨_, e⟩ := s.endTransaction_frame p; rw [e]
@[simp] theorem State.endTransaction_watches (p : TwoWire) : (s.endTransaction p).watches = s.watches := by
  obtain ⟨_, e⟩ := s.endTransaction_frame p; rw [e]
@[simp] theorem State.endTransaction_slots (p : TwoWire) : (s.endTransaction p).slots = s.slots := by
  obtain ⟨_, e⟩ := s.endTransaction_frame p; rw [e]
@[simp] theorem State.endTransaction_waitQueue (p : TwoWire) : (s.endTransaction p).waitQueue = s.waitQueue := by
  obtain ⟨_, e⟩ := s.endTransaction_frame p; rw [e]
@[simp] theorem State.endTransaction_patterns (p : TwoWire) : (s.endTransaction p).patterns = s.patterns := by
  obtain ⟨_, e⟩ := s.endTransaction_frame p; rw [e]
@[simp] theorem State.endTransaction_twoWire (p : TwoWire) : (s.endTransaction p).twoWire = s.twoWire := by
  obtain ⟨_, e⟩ := s.endTransaction_frame p; rw [e]
@[simp] theorem State.endTransaction_fourWire (p : TwoWire) : (s.endTransaction p).fourWire = s.fourWire := by
  obtain ⟨_, e⟩ := s.endTransaction_frame p; rw [e]

@[simp] theorem State.answerByte_pending (p : TwoWire) (st : TwoWireState) (byte : Byte) (ack : Bool) : (s.answerByte p st byte ack).pending = s.pending := rfl
@[simp] theorem State.answerByte_inReset (p : TwoWire) (st : TwoWireState) (byte : Byte) (ack : Bool) : (s.answerByte p st byte ack).inReset = s.inReset := rfl
@[simp] theorem State.answerByte_since (p : TwoWire) (st : TwoWireState) (byte : Byte) (ack : Bool) : (s.answerByte p st byte ack).since = s.since := rfl
@[simp] theorem State.answerByte_selcLow (p : TwoWire) (st : TwoWireState) (byte : Byte) (ack : Bool) : (s.answerByte p st byte ack).selcLow = s.selcLow := rfl
@[simp] theorem State.answerByte_adr (p : TwoWire) (st : TwoWireState) (byte : Byte) (ack : Bool) : (s.answerByte p st byte ack).adr = s.adr := rfl
@[simp] theorem State.answerByte_supervisor (p : TwoWire) (st : TwoWireState) (byte : Byte) (ack : Bool) : (s.answerByte p st byte ack).supervisor = s.supervisor := rfl
@[simp] theorem State.answerByte_resetCause (p : TwoWire) (st : TwoWireState) (byte : Byte) (ack : Bool) : (s.answerByte p st byte ack).resetCause = s.resetCause := rfl
@[simp] theorem State.answerByte_rotation (p : TwoWire) (st : TwoWireState) (byte : Byte) (ack : Bool) : (s.answerByte p st byte ack).rotation = s.rotation := rfl
@[simp] theorem State.answerByte_overtaken (p : TwoWire) (st : TwoWireState) (byte : Byte) (ack : Bool) : (s.answerByte p st byte ack).overtaken = s.overtaken := rfl
@[simp] theorem State.answerByte_time (p : TwoWire) (st : TwoWireState) (byte : Byte) (ack : Bool) : (s.answerByte p st byte ack).time = s.time := rfl
@[simp] theorem State.answerByte_micros (p : TwoWire) (st : TwoWireState) (byte : Byte) (ack : Bool) : (s.answerByte p st byte ack).micros = s.micros := rfl
@[simp] theorem State.answerByte_lines (p : TwoWire) (st : TwoWireState) (byte : Byte) (ack : Bool) : (s.answerByte p st byte ack).lines = s.lines := rfl
@[simp] theorem State.answerByte_watches (p : TwoWire) (st : TwoWireState) (byte : Byte) (ack : Bool) : (s.answerByte p st byte ack).watches = s.watches := rfl
@[simp] theorem State.answerByte_slots (p : TwoWire) (st : TwoWireState) (byte : Byte) (ack : Bool) : (s.answerByte p st byte ack).slots = s.slots := rfl
@[simp] theorem State.answerByte_waitQueue (p : TwoWire) (st : TwoWireState) (byte : Byte) (ack : Bool) : (s.answerByte p st byte ack).waitQueue = s.waitQueue := rfl
@[simp] theorem State.answerByte_patterns (p : TwoWire) (st : TwoWireState) (byte : Byte) (ack : Bool) : (s.answerByte p st byte ack).patterns = s.patterns := rfl
@[simp] theorem State.answerByte_ports (p : TwoWire) (st : TwoWireState) (byte : Byte) (ack : Bool) : (s.answerByte p st byte ack).ports = s.ports := rfl
@[simp] theorem State.answerByte_fourWire (p : TwoWire) (st : TwoWireState) (byte : Byte) (ack : Bool) : (s.answerByte p st byte ack).fourWire = s.fourWire := rfl

@[simp] theorem State.showByte_pending (p : TwoWire) (st : TwoWireState) (byte : Byte) (ack : Bool) : (s.showByte p st byte ack).pending = s.pending := rfl
@[simp] theorem State.showByte_inReset (p : TwoWire) (st : TwoWireState) (byte : Byte) (ack : Bool) : (s.showByte p st byte ack).inReset = s.inReset := rfl
@[simp] theorem State.showByte_since (p : TwoWire) (st : TwoWireState) (byte : Byte) (ack : Bool) : (s.showByte p st byte ack).since = s.since := rfl
@[simp] theorem State.showByte_selcLow (p : TwoWire) (st : TwoWireState) (byte : Byte) (ack : Bool) : (s.showByte p st byte ack).selcLow = s.selcLow := rfl
@[simp] theorem State.showByte_adr (p : TwoWire) (st : TwoWireState) (byte : Byte) (ack : Bool) : (s.showByte p st byte ack).adr = s.adr := rfl
@[simp] theorem State.showByte_supervisor (p : TwoWire) (st : TwoWireState) (byte : Byte) (ack : Bool) : (s.showByte p st byte ack).supervisor = s.supervisor := rfl
@[simp] theorem State.showByte_resetCause (p : TwoWire) (st : TwoWireState) (byte : Byte) (ack : Bool) : (s.showByte p st byte ack).resetCause = s.resetCause := rfl
@[simp] theorem State.showByte_rotation (p : TwoWire) (st : TwoWireState) (byte : Byte) (ack : Bool) : (s.showByte p st byte ack).rotation = s.rotation := rfl
@[simp] theorem State.showByte_overtaken (p : TwoWire) (st : TwoWireState) (byte : Byte) (ack : Bool) : (s.showByte p st byte ack).overtaken = s.overtaken := rfl
@[simp] theorem State.showByte_time (p : TwoWire) (st : TwoWireState) (byte : Byte) (ack : Bool) : (s.showByte p st byte ack).time = s.time := rfl
@[simp] theorem State.showByte_micros (p : TwoWire) (st : TwoWireState) (byte : Byte) (ack : Bool) : (s.showByte p st byte ack).micros = s.micros := rfl
@[simp] theorem State.showByte_lines (p : TwoWire) (st : TwoWireState) (byte : Byte) (ack : Bool) : (s.showByte p st byte ack).lines = s.lines := rfl
@[simp] theorem State.showByte_watches (p : TwoWire) (st : TwoWireState) (byte : Byte) (ack : Bool) : (s.showByte p st byte ack).watches = s.watches := rfl
@[simp] theorem State.showByte_slots (p : TwoWire) (st : TwoWireState) (byte : Byte) (ack : Bool) : (s.showByte p st byte ack).slots = s.slots := rfl
@[simp] theorem State.showByte_waitQueue (p : TwoWire) (st : TwoWireState) (byte : Byte) (ack : Bool) : (s.showByte p st byte ack).waitQueue = s.waitQueue := rfl
@[simp] theorem State.showByte_patterns (p : TwoWire) (st : TwoWireState) (byte : Byte) (ack : Bool) : (s.showByte p st byte ack).patterns = s.patterns := rfl
@[simp] theorem State.showByte_ports (p : TwoWire) (st : TwoWireState) (byte : Byte) (ack : Bool) : (s.showByte p st byte ack).ports = s.ports := rfl
@[simp] theorem State.showByte_fourWire (p : TwoWire) (st : TwoWireState) (byte : Byte) (ack : Bool) : (s.showByte p st byte ack).fourWire = s.fourWire := rfl

@[simp] theorem State.ignoreTransaction_pending (p : TwoWire) (byte : Byte) : (s.ignoreTransaction p byte).pending = s.pending := rfl
@[simp] theorem State.ignoreTransaction_inReset (p : TwoWire) (byte : Byte) : (s.ignoreTransaction p byte).inReset = s.inReset := rfl
@[simp] theorem State.ignoreTransaction_since (p : TwoWire) (byte : Byte) : (s.ignoreTransaction p byte).since = s.since := rfl
@[simp] theorem State.ignoreTransaction_selcLow (p : TwoWire) (byte : Byte) : (s.ignoreTransaction p byte).selcLow = s.selcLow := rfl
@[simp] theorem State.ignoreTransaction_adr (p : TwoWire) (byte : Byte) : (s.ignoreTransaction p byte).adr = s.adr := rfl
@[simp] theorem State.ignoreTransaction_supervisor (p : TwoWire) (byte : Byte) : (s.ignoreTransaction p byte).supervisor = s.supervisor := rfl
@[simp] theorem State.ignoreTransaction_resetCause (p : TwoWire) (byte : Byte) : (s.ignoreTransaction p byte).resetCause = s.resetCause := rfl
@[simp] theorem State.ignoreTransaction_rotation (p : TwoWire) (byte : Byte) : (s.ignoreTransaction p byte).rotation = s.rotation := rfl
@[simp] theorem State.ignoreTransaction_overtaken (p : TwoWire) (byte : Byte) : (s.ignoreTransaction p byte).overtaken = s.overtaken := rfl
@[simp] theorem State.ignoreTransaction_time (p : TwoWire) (byte : Byte) : (s.ignoreTransaction p byte).time = s.time := rfl
@[simp] theorem State.ignoreTransaction_micros (p : TwoWire) (byte : Byte) : (s.ignoreTransaction p byte).micros = s.micros := rfl
@[simp] theorem State.ignoreTransaction_lines (p : TwoWire) (byte : Byte) : (s.ignoreTransaction p byte).lines = s.lines := rfl
@[simp] theorem State.ignoreTransaction_watches (p : TwoWire) (byte : Byte) : (s.ignoreTransaction p byte).watches = s.watches := rfl
@[simp] theorem State.ignoreTransaction_slots (p : TwoWire) (byte : Byte) : (s.ignoreTransaction p byte).slots = s.slots := rfl
@[simp] theorem State.ignoreTransaction_waitQueue (p : TwoWire) (byte : Byte) : (s.ignoreTransaction p byte).waitQueue = s.waitQueue := rfl
@[simp] theorem State.ignoreTransaction_patterns (p : TwoWire) (byte : Byte) : (s.ignoreTransaction p byte).patterns = s.patterns := rfl
@[simp] theorem State.ignoreTransaction_ports (p : TwoWire) (byte : Byte) : (s.ignoreTransaction p byte).ports = s.ports := rfl
@[simp] theorem State.ignoreTransaction_fourWire (p : TwoWire) (byte : Byte) : (s.ignoreTransaction p byte).fourWire = s.fourWire := rfl

theorem State.beginWrite_frame (p : TwoWire) (byte : Byte) :
    ∃ (tw : PerTwoWire TwoWireBus),
      s.beginWrite p byte = { s with twoWire := tw } := by
  unfold State.beginWrite
  split
  · exact ⟨_, rfl⟩
  · split
    · exact ⟨_, rfl⟩
    · exact ⟨_, rfl⟩

@[simp] theorem State.beginWrite_pending (p : TwoWire) (byte : Byte) : (s.beginWrite p byte).pending = s.pending := by
  obtain ⟨_, e⟩ := s.beginWrite_frame p byte; rw [e]
@[simp] theorem State.beginWrite_inReset (p : TwoWire) (byte : Byte) : (s.beginWrite p byte).inReset = s.inReset := by
  obtain ⟨_, e⟩ := s.beginWrite_frame p byte; rw [e]
@[simp] theorem State.beginWrite_since (p : TwoWire) (byte : Byte) : (s.beginWrite p byte).since = s.since := by
  obtain ⟨_, e⟩ := s.beginWrite_frame p byte; rw [e]
@[simp] theorem State.beginWrite_selcLow (p : TwoWire) (byte : Byte) : (s.beginWrite p byte).selcLow = s.selcLow := by
  obtain ⟨_, e⟩ := s.beginWrite_frame p byte; rw [e]
@[simp] theorem State.beginWrite_adr (p : TwoWire) (byte : Byte) : (s.beginWrite p byte).adr = s.adr := by
  obtain ⟨_, e⟩ := s.beginWrite_frame p byte; rw [e]
@[simp] theorem State.beginWrite_supervisor (p : TwoWire) (byte : Byte) : (s.beginWrite p byte).supervisor = s.supervisor := by
  obtain ⟨_, e⟩ := s.beginWrite_frame p byte; rw [e]
@[simp] theorem State.beginWrite_resetCause (p : TwoWire) (byte : Byte) : (s.beginWrite p byte).resetCause = s.resetCause := by
  obtain ⟨_, e⟩ := s.beginWrite_frame p byte; rw [e]
@[simp] theorem State.beginWrite_rotation (p : TwoWire) (byte : Byte) : (s.beginWrite p byte).rotation = s.rotation := by
  obtain ⟨_, e⟩ := s.beginWrite_frame p byte; rw [e]
@[simp] theorem State.beginWrite_overtaken (p : TwoWire) (byte : Byte) : (s.beginWrite p byte).overtaken = s.overtaken := by
  obtain ⟨_, e⟩ := s.beginWrite_frame p byte; rw [e]
@[simp] theorem State.beginWrite_time (p : TwoWire) (byte : Byte) : (s.beginWrite p byte).time = s.time := by
  obtain ⟨_, e⟩ := s.beginWrite_frame p byte; rw [e]
@[simp] theorem State.beginWrite_micros (p : TwoWire) (byte : Byte) : (s.beginWrite p byte).micros = s.micros := by
  obtain ⟨_, e⟩ := s.beginWrite_frame p byte; rw [e]
@[simp] theorem State.beginWrite_lines (p : TwoWire) (byte : Byte) : (s.beginWrite p byte).lines = s.lines := by
  obtain ⟨_, e⟩ := s.beginWrite_frame p byte; rw [e]
@[simp] theorem State.beginWrite_watches (p : TwoWire) (byte : Byte) : (s.beginWrite p byte).watches = s.watches := by
  obtain ⟨_, e⟩ := s.beginWrite_frame p byte; rw [e]
@[simp] theorem State.beginWrite_slots (p : TwoWire) (byte : Byte) : (s.beginWrite p byte).slots = s.slots := by
  obtain ⟨_, e⟩ := s.beginWrite_frame p byte; rw [e]
@[simp] theorem State.beginWrite_waitQueue (p : TwoWire) (byte : Byte) : (s.beginWrite p byte).waitQueue = s.waitQueue := by
  obtain ⟨_, e⟩ := s.beginWrite_frame p byte; rw [e]
@[simp] theorem State.beginWrite_patterns (p : TwoWire) (byte : Byte) : (s.beginWrite p byte).patterns = s.patterns := by
  obtain ⟨_, e⟩ := s.beginWrite_frame p byte; rw [e]
@[simp] theorem State.beginWrite_ports (p : TwoWire) (byte : Byte) : (s.beginWrite p byte).ports = s.ports := by
  obtain ⟨_, e⟩ := s.beginWrite_frame p byte; rw [e]
@[simp] theorem State.beginWrite_fourWire (p : TwoWire) (byte : Byte) : (s.beginWrite p byte).fourWire = s.fourWire := by
  obtain ⟨_, e⟩ := s.beginWrite_frame p byte; rw [e]

@[simp] theorem State.beginRead_pending (p : TwoWire) (byte : Byte) : (s.beginRead p byte).pending = s.pending := rfl
@[simp] theorem State.beginRead_inReset (p : TwoWire) (byte : Byte) : (s.beginRead p byte).inReset = s.inReset := rfl
@[simp] theorem State.beginRead_since (p : TwoWire) (byte : Byte) : (s.beginRead p byte).since = s.since := rfl
@[simp] theorem State.beginRead_selcLow (p : TwoWire) (byte : Byte) : (s.beginRead p byte).selcLow = s.selcLow := rfl
@[simp] theorem State.beginRead_adr (p : TwoWire) (byte : Byte) : (s.beginRead p byte).adr = s.adr := rfl
@[simp] theorem State.beginRead_supervisor (p : TwoWire) (byte : Byte) : (s.beginRead p byte).supervisor = s.supervisor := rfl
@[simp] theorem State.beginRead_resetCause (p : TwoWire) (byte : Byte) : (s.beginRead p byte).resetCause = s.resetCause := rfl
@[simp] theorem State.beginRead_rotation (p : TwoWire) (byte : Byte) : (s.beginRead p byte).rotation = s.rotation := rfl
@[simp] theorem State.beginRead_overtaken (p : TwoWire) (byte : Byte) : (s.beginRead p byte).overtaken = s.overtaken := rfl
@[simp] theorem State.beginRead_time (p : TwoWire) (byte : Byte) : (s.beginRead p byte).time = s.time := rfl
@[simp] theorem State.beginRead_micros (p : TwoWire) (byte : Byte) : (s.beginRead p byte).micros = s.micros := rfl
@[simp] theorem State.beginRead_lines (p : TwoWire) (byte : Byte) : (s.beginRead p byte).lines = s.lines := rfl
@[simp] theorem State.beginRead_watches (p : TwoWire) (byte : Byte) : (s.beginRead p byte).watches = s.watches := rfl
@[simp] theorem State.beginRead_slots (p : TwoWire) (byte : Byte) : (s.beginRead p byte).slots = s.slots := rfl
@[simp] theorem State.beginRead_waitQueue (p : TwoWire) (byte : Byte) : (s.beginRead p byte).waitQueue = s.waitQueue := rfl
@[simp] theorem State.beginRead_patterns (p : TwoWire) (byte : Byte) : (s.beginRead p byte).patterns = s.patterns := rfl
@[simp] theorem State.beginRead_ports (p : TwoWire) (byte : Byte) : (s.beginRead p byte).ports = s.ports := rfl
@[simp] theorem State.beginRead_fourWire (p : TwoWire) (byte : Byte) : (s.beginRead p byte).fourWire = s.fourWire := rfl

theorem State.receiveByte_frame (p : TwoWire) (rx : RxRecord) (byte : Byte) :
    ∃ (ps : PerHost Port) (tw : PerTwoWire TwoWireBus),
      s.receiveByte p rx byte = { s with ports := ps, twoWire := tw } := by
  unfold State.receiveByte
  split
  · exact ⟨s.ports, _, rfl⟩
  · exact ⟨s.ports, _, rfl⟩
  · exact ⟨_, _, rfl⟩
  · exact ⟨_, _, rfl⟩
  · exact ⟨_, _, rfl⟩

@[simp] theorem State.receiveByte_pending (p : TwoWire) (rx : RxRecord) (byte : Byte) : (s.receiveByte p rx byte).pending = s.pending := by
  obtain ⟨_, _, e⟩ := s.receiveByte_frame p rx byte; rw [e]
@[simp] theorem State.receiveByte_inReset (p : TwoWire) (rx : RxRecord) (byte : Byte) : (s.receiveByte p rx byte).inReset = s.inReset := by
  obtain ⟨_, _, e⟩ := s.receiveByte_frame p rx byte; rw [e]
@[simp] theorem State.receiveByte_since (p : TwoWire) (rx : RxRecord) (byte : Byte) : (s.receiveByte p rx byte).since = s.since := by
  obtain ⟨_, _, e⟩ := s.receiveByte_frame p rx byte; rw [e]
@[simp] theorem State.receiveByte_selcLow (p : TwoWire) (rx : RxRecord) (byte : Byte) : (s.receiveByte p rx byte).selcLow = s.selcLow := by
  obtain ⟨_, _, e⟩ := s.receiveByte_frame p rx byte; rw [e]
@[simp] theorem State.receiveByte_adr (p : TwoWire) (rx : RxRecord) (byte : Byte) : (s.receiveByte p rx byte).adr = s.adr := by
  obtain ⟨_, _, e⟩ := s.receiveByte_frame p rx byte; rw [e]
@[simp] theorem State.receiveByte_supervisor (p : TwoWire) (rx : RxRecord) (byte : Byte) : (s.receiveByte p rx byte).supervisor = s.supervisor := by
  obtain ⟨_, _, e⟩ := s.receiveByte_frame p rx byte; rw [e]
@[simp] theorem State.receiveByte_resetCause (p : TwoWire) (rx : RxRecord) (byte : Byte) : (s.receiveByte p rx byte).resetCause = s.resetCause := by
  obtain ⟨_, _, e⟩ := s.receiveByte_frame p rx byte; rw [e]
@[simp] theorem State.receiveByte_rotation (p : TwoWire) (rx : RxRecord) (byte : Byte) : (s.receiveByte p rx byte).rotation = s.rotation := by
  obtain ⟨_, _, e⟩ := s.receiveByte_frame p rx byte; rw [e]
@[simp] theorem State.receiveByte_overtaken (p : TwoWire) (rx : RxRecord) (byte : Byte) : (s.receiveByte p rx byte).overtaken = s.overtaken := by
  obtain ⟨_, _, e⟩ := s.receiveByte_frame p rx byte; rw [e]
@[simp] theorem State.receiveByte_time (p : TwoWire) (rx : RxRecord) (byte : Byte) : (s.receiveByte p rx byte).time = s.time := by
  obtain ⟨_, _, e⟩ := s.receiveByte_frame p rx byte; rw [e]
@[simp] theorem State.receiveByte_micros (p : TwoWire) (rx : RxRecord) (byte : Byte) : (s.receiveByte p rx byte).micros = s.micros := by
  obtain ⟨_, _, e⟩ := s.receiveByte_frame p rx byte; rw [e]
@[simp] theorem State.receiveByte_lines (p : TwoWire) (rx : RxRecord) (byte : Byte) : (s.receiveByte p rx byte).lines = s.lines := by
  obtain ⟨_, _, e⟩ := s.receiveByte_frame p rx byte; rw [e]
@[simp] theorem State.receiveByte_watches (p : TwoWire) (rx : RxRecord) (byte : Byte) : (s.receiveByte p rx byte).watches = s.watches := by
  obtain ⟨_, _, e⟩ := s.receiveByte_frame p rx byte; rw [e]
@[simp] theorem State.receiveByte_slots (p : TwoWire) (rx : RxRecord) (byte : Byte) : (s.receiveByte p rx byte).slots = s.slots := by
  obtain ⟨_, _, e⟩ := s.receiveByte_frame p rx byte; rw [e]
@[simp] theorem State.receiveByte_waitQueue (p : TwoWire) (rx : RxRecord) (byte : Byte) : (s.receiveByte p rx byte).waitQueue = s.waitQueue := by
  obtain ⟨_, _, e⟩ := s.receiveByte_frame p rx byte; rw [e]
@[simp] theorem State.receiveByte_patterns (p : TwoWire) (rx : RxRecord) (byte : Byte) : (s.receiveByte p rx byte).patterns = s.patterns := by
  obtain ⟨_, _, e⟩ := s.receiveByte_frame p rx byte; rw [e]
@[simp] theorem State.receiveByte_fourWire (p : TwoWire) (rx : RxRecord) (byte : Byte) : (s.receiveByte p rx byte).fourWire = s.fourWire := by
  obtain ⟨_, _, e⟩ := s.receiveByte_frame p rx byte; rw [e]

theorem State.sendByte_frame (p : TwoWire) (out : OutSelection) (b : Bool) :
    ∃ (ps : PerHost Port) (tw : PerTwoWire TwoWireBus),
      s.sendByte p out b = { s with ports := ps, twoWire := tw } := by
  unfold State.sendByte
  dsimp only
  split
  · exact ⟨_, _, rfl⟩
  · exact ⟨s.ports, _, rfl⟩

@[simp] theorem State.sendByte_pending (p : TwoWire) (out : OutSelection) (b : Bool) : (s.sendByte p out b).pending = s.pending := by
  obtain ⟨_, _, e⟩ := s.sendByte_frame p out b; rw [e]
@[simp] theorem State.sendByte_inReset (p : TwoWire) (out : OutSelection) (b : Bool) : (s.sendByte p out b).inReset = s.inReset := by
  obtain ⟨_, _, e⟩ := s.sendByte_frame p out b; rw [e]
@[simp] theorem State.sendByte_since (p : TwoWire) (out : OutSelection) (b : Bool) : (s.sendByte p out b).since = s.since := by
  obtain ⟨_, _, e⟩ := s.sendByte_frame p out b; rw [e]
@[simp] theorem State.sendByte_selcLow (p : TwoWire) (out : OutSelection) (b : Bool) : (s.sendByte p out b).selcLow = s.selcLow := by
  obtain ⟨_, _, e⟩ := s.sendByte_frame p out b; rw [e]
@[simp] theorem State.sendByte_adr (p : TwoWire) (out : OutSelection) (b : Bool) : (s.sendByte p out b).adr = s.adr := by
  obtain ⟨_, _, e⟩ := s.sendByte_frame p out b; rw [e]
@[simp] theorem State.sendByte_supervisor (p : TwoWire) (out : OutSelection) (b : Bool) : (s.sendByte p out b).supervisor = s.supervisor := by
  obtain ⟨_, _, e⟩ := s.sendByte_frame p out b; rw [e]
@[simp] theorem State.sendByte_resetCause (p : TwoWire) (out : OutSelection) (b : Bool) : (s.sendByte p out b).resetCause = s.resetCause := by
  obtain ⟨_, _, e⟩ := s.sendByte_frame p out b; rw [e]
@[simp] theorem State.sendByte_rotation (p : TwoWire) (out : OutSelection) (b : Bool) : (s.sendByte p out b).rotation = s.rotation := by
  obtain ⟨_, _, e⟩ := s.sendByte_frame p out b; rw [e]
@[simp] theorem State.sendByte_overtaken (p : TwoWire) (out : OutSelection) (b : Bool) : (s.sendByte p out b).overtaken = s.overtaken := by
  obtain ⟨_, _, e⟩ := s.sendByte_frame p out b; rw [e]
@[simp] theorem State.sendByte_time (p : TwoWire) (out : OutSelection) (b : Bool) : (s.sendByte p out b).time = s.time := by
  obtain ⟨_, _, e⟩ := s.sendByte_frame p out b; rw [e]
@[simp] theorem State.sendByte_micros (p : TwoWire) (out : OutSelection) (b : Bool) : (s.sendByte p out b).micros = s.micros := by
  obtain ⟨_, _, e⟩ := s.sendByte_frame p out b; rw [e]
@[simp] theorem State.sendByte_lines (p : TwoWire) (out : OutSelection) (b : Bool) : (s.sendByte p out b).lines = s.lines := by
  obtain ⟨_, _, e⟩ := s.sendByte_frame p out b; rw [e]
@[simp] theorem State.sendByte_watches (p : TwoWire) (out : OutSelection) (b : Bool) : (s.sendByte p out b).watches = s.watches := by
  obtain ⟨_, _, e⟩ := s.sendByte_frame p out b; rw [e]
@[simp] theorem State.sendByte_slots (p : TwoWire) (out : OutSelection) (b : Bool) : (s.sendByte p out b).slots = s.slots := by
  obtain ⟨_, _, e⟩ := s.sendByte_frame p out b; rw [e]
@[simp] theorem State.sendByte_waitQueue (p : TwoWire) (out : OutSelection) (b : Bool) : (s.sendByte p out b).waitQueue = s.waitQueue := by
  obtain ⟨_, _, e⟩ := s.sendByte_frame p out b; rw [e]
@[simp] theorem State.sendByte_patterns (p : TwoWire) (out : OutSelection) (b : Bool) : (s.sendByte p out b).patterns = s.patterns := by
  obtain ⟨_, _, e⟩ := s.sendByte_frame p out b; rw [e]
@[simp] theorem State.sendByte_fourWire (p : TwoWire) (out : OutSelection) (b : Bool) : (s.sendByte p out b).fourWire = s.fourWire := by
  obtain ⟨_, _, e⟩ := s.sendByte_frame p out b; rw [e]

theorem State.findStuck_frame (p : TwoWire) :
    ∃ (ps : PerHost Port) (tw : PerTwoWire TwoWireBus) (o' : List Due),
      s.findStuck p = { s with ports := ps, twoWire := tw, overtaken := o' } := ⟨_, _, _, rfl⟩

@[simp] theorem State.findStuck_pending (p : TwoWire) : (s.findStuck p).pending = s.pending := by
  obtain ⟨_, _, _, e⟩ := s.findStuck_frame p; rw [e]
@[simp] theorem State.findStuck_inReset (p : TwoWire) : (s.findStuck p).inReset = s.inReset := by
  obtain ⟨_, _, _, e⟩ := s.findStuck_frame p; rw [e]
@[simp] theorem State.findStuck_since (p : TwoWire) : (s.findStuck p).since = s.since := by
  obtain ⟨_, _, _, e⟩ := s.findStuck_frame p; rw [e]
@[simp] theorem State.findStuck_selcLow (p : TwoWire) : (s.findStuck p).selcLow = s.selcLow := by
  obtain ⟨_, _, _, e⟩ := s.findStuck_frame p; rw [e]
@[simp] theorem State.findStuck_adr (p : TwoWire) : (s.findStuck p).adr = s.adr := by
  obtain ⟨_, _, _, e⟩ := s.findStuck_frame p; rw [e]
@[simp] theorem State.findStuck_supervisor (p : TwoWire) : (s.findStuck p).supervisor = s.supervisor := by
  obtain ⟨_, _, _, e⟩ := s.findStuck_frame p; rw [e]
@[simp] theorem State.findStuck_resetCause (p : TwoWire) : (s.findStuck p).resetCause = s.resetCause := by
  obtain ⟨_, _, _, e⟩ := s.findStuck_frame p; rw [e]
@[simp] theorem State.findStuck_rotation (p : TwoWire) : (s.findStuck p).rotation = s.rotation := by
  obtain ⟨_, _, _, e⟩ := s.findStuck_frame p; rw [e]
@[simp] theorem State.findStuck_time (p : TwoWire) : (s.findStuck p).time = s.time := by
  obtain ⟨_, _, _, e⟩ := s.findStuck_frame p; rw [e]
@[simp] theorem State.findStuck_micros (p : TwoWire) : (s.findStuck p).micros = s.micros := by
  obtain ⟨_, _, _, e⟩ := s.findStuck_frame p; rw [e]
@[simp] theorem State.findStuck_lines (p : TwoWire) : (s.findStuck p).lines = s.lines := by
  obtain ⟨_, _, _, e⟩ := s.findStuck_frame p; rw [e]
@[simp] theorem State.findStuck_watches (p : TwoWire) : (s.findStuck p).watches = s.watches := by
  obtain ⟨_, _, _, e⟩ := s.findStuck_frame p; rw [e]
@[simp] theorem State.findStuck_slots (p : TwoWire) : (s.findStuck p).slots = s.slots := by
  obtain ⟨_, _, _, e⟩ := s.findStuck_frame p; rw [e]
@[simp] theorem State.findStuck_waitQueue (p : TwoWire) : (s.findStuck p).waitQueue = s.waitQueue := by
  obtain ⟨_, _, _, e⟩ := s.findStuck_frame p; rw [e]
@[simp] theorem State.findStuck_patterns (p : TwoWire) : (s.findStuck p).patterns = s.patterns := by
  obtain ⟨_, _, _, e⟩ := s.findStuck_frame p; rw [e]
@[simp] theorem State.findStuck_fourWire (p : TwoWire) : (s.findStuck p).fourWire = s.fourWire := by
  obtain ⟨_, _, _, e⟩ := s.findStuck_frame p; rw [e]

theorem State.exchangeIn_frame (rx : RxRecord) (byte : Byte) :
    ∃ (ps : PerHost Port),
      s.exchangeIn rx byte = { s with ports := ps } := by
  unfold State.exchangeIn
  split
  · exact ⟨_, rfl⟩
  · exact ⟨_, rfl⟩
  · exact ⟨s.ports, rfl⟩

@[simp] theorem State.exchangeIn_pending (rx : RxRecord) (byte : Byte) : (s.exchangeIn rx byte).pending = s.pending := by
  obtain ⟨_, e⟩ := s.exchangeIn_frame rx byte; rw [e]
@[simp] theorem State.exchangeIn_inReset (rx : RxRecord) (byte : Byte) : (s.exchangeIn rx byte).inReset = s.inReset := by
  obtain ⟨_, e⟩ := s.exchangeIn_frame rx byte; rw [e]
@[simp] theorem State.exchangeIn_since (rx : RxRecord) (byte : Byte) : (s.exchangeIn rx byte).since = s.since := by
  obtain ⟨_, e⟩ := s.exchangeIn_frame rx byte; rw [e]
@[simp] theorem State.exchangeIn_selcLow (rx : RxRecord) (byte : Byte) : (s.exchangeIn rx byte).selcLow = s.selcLow := by
  obtain ⟨_, e⟩ := s.exchangeIn_frame rx byte; rw [e]
@[simp] theorem State.exchangeIn_adr (rx : RxRecord) (byte : Byte) : (s.exchangeIn rx byte).adr = s.adr := by
  obtain ⟨_, e⟩ := s.exchangeIn_frame rx byte; rw [e]
@[simp] theorem State.exchangeIn_supervisor (rx : RxRecord) (byte : Byte) : (s.exchangeIn rx byte).supervisor = s.supervisor := by
  obtain ⟨_, e⟩ := s.exchangeIn_frame rx byte; rw [e]
@[simp] theorem State.exchangeIn_resetCause (rx : RxRecord) (byte : Byte) : (s.exchangeIn rx byte).resetCause = s.resetCause := by
  obtain ⟨_, e⟩ := s.exchangeIn_frame rx byte; rw [e]
@[simp] theorem State.exchangeIn_rotation (rx : RxRecord) (byte : Byte) : (s.exchangeIn rx byte).rotation = s.rotation := by
  obtain ⟨_, e⟩ := s.exchangeIn_frame rx byte; rw [e]
@[simp] theorem State.exchangeIn_overtaken (rx : RxRecord) (byte : Byte) : (s.exchangeIn rx byte).overtaken = s.overtaken := by
  obtain ⟨_, e⟩ := s.exchangeIn_frame rx byte; rw [e]
@[simp] theorem State.exchangeIn_time (rx : RxRecord) (byte : Byte) : (s.exchangeIn rx byte).time = s.time := by
  obtain ⟨_, e⟩ := s.exchangeIn_frame rx byte; rw [e]
@[simp] theorem State.exchangeIn_micros (rx : RxRecord) (byte : Byte) : (s.exchangeIn rx byte).micros = s.micros := by
  obtain ⟨_, e⟩ := s.exchangeIn_frame rx byte; rw [e]
@[simp] theorem State.exchangeIn_lines (rx : RxRecord) (byte : Byte) : (s.exchangeIn rx byte).lines = s.lines := by
  obtain ⟨_, e⟩ := s.exchangeIn_frame rx byte; rw [e]
@[simp] theorem State.exchangeIn_watches (rx : RxRecord) (byte : Byte) : (s.exchangeIn rx byte).watches = s.watches := by
  obtain ⟨_, e⟩ := s.exchangeIn_frame rx byte; rw [e]
@[simp] theorem State.exchangeIn_slots (rx : RxRecord) (byte : Byte) : (s.exchangeIn rx byte).slots = s.slots := by
  obtain ⟨_, e⟩ := s.exchangeIn_frame rx byte; rw [e]
@[simp] theorem State.exchangeIn_waitQueue (rx : RxRecord) (byte : Byte) : (s.exchangeIn rx byte).waitQueue = s.waitQueue := by
  obtain ⟨_, e⟩ := s.exchangeIn_frame rx byte; rw [e]
@[simp] theorem State.exchangeIn_patterns (rx : RxRecord) (byte : Byte) : (s.exchangeIn rx byte).patterns = s.patterns := by
  obtain ⟨_, e⟩ := s.exchangeIn_frame rx byte; rw [e]
@[simp] theorem State.exchangeIn_twoWire (rx : RxRecord) (byte : Byte) : (s.exchangeIn rx byte).twoWire = s.twoWire := by
  obtain ⟨_, e⟩ := s.exchangeIn_frame rx byte; rw [e]
@[simp] theorem State.exchangeIn_fourWire (rx : RxRecord) (byte : Byte) : (s.exchangeIn rx byte).fourWire = s.fourWire := by
  obtain ⟨_, e⟩ := s.exchangeIn_frame rx byte; rw [e]

end Sys2Proof.Machine
end

