-- ==== Sys2Proof/Laws/Masks.lean ====
section
/-! SUPPORT. Line sets bit by bit: emptiness and inclusion, the sets a table is read into, the lanes of a pattern, and the slot and the
generation a handle names. -/

namespace Sys2Proof.Machine

/-! ### Emptiness and inclusion -/

theorem mask_eq_zero_iff (m : LineMask) : m = 0 ↔ ∀ n : Fin 32, m.getLsbD n = false := by
  constructor
  · rintro rfl n; simp
  · intro h
    apply BitVec.eq_of_getLsbD_eq
    intro i hi
    simpa using h ⟨i, hi⟩

theorem mask_ne_zero_iff (m : LineMask) : m ≠ 0 ↔ ∃ n : Fin 32, m.getLsbD n = true := by
  rw [Ne, mask_eq_zero_iff]; simp

/-- Two line sets are disjoint when no line is in both. -/
theorem and_eq_zero_iff (a b : LineMask) :
    a &&& b = 0 ↔ ∀ n : Fin 32, a.getLsbD n = true → b.getLsbD n = false := by
  rw [mask_eq_zero_iff]
  simp only [BitVec.getLsbD_and, Bool.and_eq_false_iff]
  exact forall_congr' fun n => by cases a.getLsbD n <;> simp

/-- One line set is within another when each of its lines is. -/
theorem and_not_eq_zero_iff (a b : LineMask) :
    a &&& ~~~b = 0 ↔ ∀ n : Fin 32, a.getLsbD n = true → b.getLsbD n = true := by
  rw [and_eq_zero_iff]
  refine forall_congr' fun n => ?_
  simp [n.isLt]

/-! ### Sets read from a table -/

theorem getLsbD_foldr_or {w : Nat} (ms : List (BitVec w)) (i : Nat) :
    (ms.foldr (· ||| ·) 0).getLsbD i = ms.any fun m => m.getLsbD i := by
  induction ms with
  | nil => simp
  | cons m rest ih => rw [List.foldr_cons, BitVec.getLsbD_or, ih, List.any_cons]

theorem getLsbD_unionLines (ms : List LineMask) (i : Nat) :
    (unionLines ms).getLsbD i = ms.any fun m => m.getLsbD i := getLsbD_foldr_or ms i

theorem getLsbD_heldLines (t : Vector Slot 16) (n : Nat) :
    (heldLines t).getLsbD n = true ↔ ∃ k : Fin 16, t[k].lines.getLsbD n = true := by
  simp [heldLines, getLsbD_unionLines, List.any_eq_true]

theorem getLsbD_heldLines_false (t : Vector Slot 16) (n : Nat) :
    (heldLines t).getLsbD n = false ↔ ∀ k : Fin 16, t[k].lines.getLsbD n = false := by
  rw [← Bool.not_eq_true, getLsbD_heldLines]; simp

theorem getLsbD_linesHeldBy (t : Vector Slot 16) (h : HostId) (n : Nat) :
    (linesHeldBy t h).getLsbD n = true ↔ ∃ k : Fin 16, t[k].heldBy h = true ∧ t[k].lines.getLsbD n = true := by
  simp only [linesHeldBy, getLsbD_unionLines, List.any_eq_true, List.mem_map, List.mem_finRange, true_and]
  constructor
  · rintro ⟨_, ⟨k, rfl⟩, hk⟩
    split at hk
    · exact ⟨k, ‹_›, hk⟩
    · simp at hk
  · rintro ⟨k, hb, hk⟩
    exact ⟨_, ⟨k, rfl⟩, by rw [if_pos hb]; exact hk⟩

theorem getLsbD_waitingLines (q : List WaitEntry) (n : Nat) :
    (waitingLines q).getLsbD n = true ↔ ∃ e ∈ q, e.lines.getLsbD n = true := by
  simp [waitingLines, getLsbD_unionLines]

@[simp] theorem waitingLines_nil : waitingLines [] = 0 := rfl

theorem waitingLines_append (q r : List WaitEntry) : waitingLines (q ++ r) = waitingLines q ||| waitingLines r := by
  apply BitVec.eq_of_getLsbD_eq
  intro i _
  simp [waitingLines, getLsbD_unionLines]

/-- A line a host holds is held. -/
theorem linesHeldBy_subset (t : Vector Slot 16) (h : HostId) (n : Nat) (hn : (linesHeldBy t h).getLsbD n = true) :
    (heldLines t).getLsbD n = true := by
  obtain ⟨k, _, hk⟩ := (getLsbD_linesHeldBy t h n).1 hn
  exact (getLsbD_heldLines t n).2 ⟨k, hk⟩

theorem getLsbD_tests {w : Nat} (test : Fin w → Bool) (i : Fin w) :
    (((List.finRange w).map fun k => if test k then BitVec.twoPow w k else 0).foldr (· ||| ·) 0).getLsbD i = test i := by
  rw [getLsbD_foldr_or, Bool.eq_iff_iff, List.any_eq_true]
  simp only [List.mem_map, List.mem_finRange, true_and]
  constructor
  · rintro ⟨_, ⟨k, rfl⟩, hk⟩
    cases ht : test k with
    | false => simp [ht] at hk
    | true =>
      have hk' : (k : Nat) = i := by
        simp only [ht, if_true, BitVec.getLsbD_twoPow, Bool.and_eq_true, decide_eq_true_eq] at hk
        exact hk.2
      rwa [← Fin.ext hk']
  · intro ht
    exact ⟨_, ⟨i, rfl⟩, by simp [ht]⟩

@[simp] theorem getLsbD_linesWhere (test : Fin 32 → Bool) (n : Fin 32) : (linesWhere test).getLsbD n = test n :=
  getLsbD_tests test n

@[simp] theorem getLsbD_slotsWhere (test : Fin 16 → Bool) (k : Fin 16) : (slotsWhere test).getLsbD k = test k :=
  getLsbD_tests test k

/-! ### Lanes -/

theorem getLsbD_laneLines (bank : Fin 4) (lanes : Byte) (n : Fin 32) :
    (laneLines bank lanes).getLsbD n = isLane bank lanes n := by
  have hn := n.isLt
  have hb := bank.isLt
  simp only [laneLines, isLane, lineBank, BitVec.getLsbD_shiftLeft, BitVec.getLsbD_setWidth, Fin.ext_iff]
  by_cases h : n.val / 8 = bank.val
  · have h1 : ¬ n.val < 8 * bank.val := by omega
    have h2 : n.val - 8 * bank.val = n.val % 8 := by omega
    have h3 : n.val % 8 < 32 := by omega
    simp [h, h1, h2, h3]
  · by_cases h1 : n.val < 8 * bank.val
    · simp [h, h1]
    · have h2 : 8 ≤ n.val - 8 * bank.val := by omega
      simp [h, BitVec.getLsbD_of_ge _ _ h2]

theorem isLane_iff (bank : Fin 4) (lanes : Byte) (n : Fin 32) :
    isLane bank lanes n = true ↔ n.val / 8 = bank.val ∧ lanes.getLsbD (n.val % 8) = true := by
  simp [isLane, lineBank, Fin.ext_iff]

theorem getLsbD_patternLines (p : Pattern) (n : Fin 32) : p.lines.getLsbD n = isLane p.bank p.lanes n :=
  getLsbD_laneLines p.bank p.lanes n

theorem getLsbD_laneMask (s : State) (n : Nat) :
    s.laneMask.getLsbD n = true ↔ ∃ (i : Fin 4) (p : Pattern), s.patterns[i] = some p ∧ p.lines.getLsbD n = true := by
  simp only [State.laneMask, getLsbD_foldr_or, List.any_eq_true, List.mem_map, List.mem_finRange, true_and]
  constructor
  · rintro ⟨_, ⟨i, rfl⟩, h⟩
    rcases hp : s.patterns[i] with _ | p
    · rw [hp] at h; simp at h
    · rw [hp] at h; exact ⟨i, p, hp, h⟩
  · rintro ⟨i, p, hp, h⟩
    exact ⟨_, ⟨i, rfl⟩, by rw [hp]; exact h⟩

/-- A line set names no lane when it is disjoint from every running pattern's lanes. -/
theorem and_laneMask_eq_zero_iff (s : State) (m : LineMask) :
    m &&& s.laneMask = 0 ↔ ∀ (i : Fin 4) (p : Pattern), s.patterns[i] = some p → m &&& p.lines = 0 := by
  simp only [and_eq_zero_iff]
  constructor
  · intro h i p hp n hn
    by_contra hc
    have := (getLsbD_laneMask s n).2 ⟨i, p, hp, Bool.not_eq_false _ ▸ hc⟩
    rw [h n hn] at this
    exact Bool.noConfusion this
  · intro h n hn
    by_contra hc
    obtain ⟨i, p, hp, hl⟩ := (getLsbD_laneMask s n).1 (Bool.not_eq_false _ ▸ hc)
    rw [h i p hp n hn] at hl
    exact Bool.noConfusion hl

/-! ### Handles (R23) -/

theorem handleOf_toNat (k : Fin 16) (gen : BitVec 4) : (handleOf k gen).toNat = k * 16 + gen.toNat := by
  have := gen.isLt; have := k.isLt
  simp only [handleOf, BitVec.toNat_ofNat]; omega

@[simp] theorem handleSlot_handleOf (k : Fin 16) (gen : BitVec 4) : handleSlot (handleOf k gen) = k := by
  have := gen.isLt
  apply Fin.ext
  simp only [handleSlot, handleOf_toNat]; omega

@[simp] theorem handleGen_handleOf (k : Fin 16) (gen : BitVec 4) : handleGen (handleOf k gen) = gen := by
  have := gen.isLt
  apply BitVec.eq_of_toNat_eq
  simp only [handleGen, BitVec.toNat_setWidth, handleOf_toNat]; omega

@[simp] theorem handleOf_handleSlot_handleGen (b : Byte) : handleOf (handleSlot b) (handleGen b) = b := by
  have := b.isLt
  apply BitVec.eq_of_toNat_eq
  simp only [handleOf_toNat, handleSlot, handleGen, BitVec.toNat_setWidth]; omega

theorem handleOf_inj {j k : Fin 16} {g g' : BitVec 4} (h : handleOf j g = handleOf k g') : j = k ∧ g = g' :=
  ⟨by simpa using congrArg handleSlot h, by simpa using congrArg handleGen h⟩

/-! ### Fields as sent -/

theorem halfBytes_eq (v : Half) : halfBytes v = [v.setWidth 8, (v >>> 8).setWidth 8] := by
  simp only [halfBytes, List.cons.injEq, and_true]
  exact ⟨BitVec.eq_of_toNat_eq (by simp), BitVec.eq_of_toNat_eq (by simp)⟩

theorem maskBytes_zero : maskBytes 0 = [0, 0, 0, 0] := by decide

@[simp] theorem countByte_toNat_of_lt {n : Nat} (h : n < 256) : (countByte n).toNat = n := by
  simp [countByte]; omega

theorem countByte_inj {m n : Nat} (hm : m < 256) (hn : n < 256) (h : countByte m = countByte n) : m = n := by
  have := congrArg BitVec.toNat h
  rwa [countByte_toNat_of_lt hm, countByte_toNat_of_lt hn] at this

/-! ### The lowest-numbered slot -/

theorem find?_finRange_eq_some {n : Nat} (test : Fin n → Bool) (k : Fin n) :
    (List.finRange n).find? test = some k ↔ test k = true ∧ ∀ j : Fin n, j < k → test j = false := by
  rw [List.find?_eq_some_iff_getElem]
  constructor
  · rintro ⟨hk, i, hi, he, hlt⟩
    refine ⟨hk, fun j hj => ?_⟩
    have hi' : i = k.val := by simpa using congrArg Fin.val he
    have := hlt j.val (by omega)
    simpa using this
  · rintro ⟨hk, hlt⟩
    refine ⟨hk, k.val, by simp, by simp, fun j hj => ?_⟩
    have := hlt ⟨j, by omega⟩ hj
    simpa using this

theorem lowestFree_eq_some (t : Vector Slot 16) (k : Fin 16) : lowestFree t = some k ↔ LowestFree t k :=
  find?_finRange_eq_some (fun k => t[k].isFree) k

theorem lowestFree_eq_none (t : Vector Slot 16) : lowestFree t = none ↔ ∀ k : Fin 16, t[k].isFree = false := by
  simp [lowestFree, List.find?_eq_none]

theorem lowestIdle_eq_some (s : State) (i : Fin 4) :
    s.lowestIdle = some i ↔ s.patterns[i] = none ∧ ∀ j : Fin 4, j < i → s.patterns[j] ≠ none := by
  rw [State.lowestIdle, find?_finRange_eq_some]
  refine and_congr Option.isNone_iff_eq_none (forall_congr' fun j => imp_congr_right fun _ => ?_)
  cases s.patterns[j] <;> simp

theorem lowestIdle_eq_none (s : State) : s.lowestIdle = none ↔ ∀ i : Fin 4, s.patterns[i] ≠ none := by
  simp [State.lowestIdle, List.find?_eq_none]

end Sys2Proof.Machine
end

