-- ==== Sys2Proof/Laws/Intake.lean ====
section
/-! SUPPORT. Intake and answering: which request is taken, what a take and a reply leave, and everything a request command can do. -/

namespace Sys2Proof.Machine

/-! ### Opcodes -/

@[simp] theorem opcodeOf_opcodeByte (o : Opcode) : opcodeOf (opcodeByte o) = some o := by cases o <;> rfl

/-- An opcode byte stands for a defined opcode exactly when it is that opcode's code. -/
theorem opcodeOf_eq_some (b : Byte) (o : Opcode) : opcodeOf b = some o ↔ b = opcodeByte o := by
  constructor
  · intro h
    have := List.find?_some h
    simpa using (eq_of_beq this).symm
  · rintro rfl; simp

theorem mem_allOpcodes (o : Opcode) : o ∈ allOpcodes := by cases o <;> decide

theorem opcodeOf_eq_none (b : Byte) : opcodeOf b = none ↔ ∀ o : Opcode, b ≠ opcodeByte o := by
  simp only [opcodeOf, List.find?_eq_none, beq_iff_eq]
  exact ⟨fun h o e => h o (mem_allOpcodes o) e.symm, fun h o _ e => h o e.symm⟩

/-! ### The rotation -/

theorem mem_searchOrder (h g : HostId) : g ∈ searchOrder h := by cases h <;> cases g <;> decide

theorem eligible_iff (s : State) (h : HostId) :
    s.eligible h = true ↔
      (s.port h).requests ≠ [] ∧ (s.port h).replies.length < 4 ∧ s.resetting h = false := by
  simp only [State.eligible, Bool.and_eq_true, decide_eq_true_eq, Bool.not_eq_true', List.isEmpty_eq_false_iff, and_assoc]
  rfl

/-- The request taken next, by the rules of intake. -/
theorem nextRequest_eq_some (s : State) (h : HostId) (f : Frame) :
    s.nextRequest = some (h, f) ↔
      s.inReset = false ∧ s.intakeHeld = false ∧ (searchOrder s.rotation).find? s.eligible = some h ∧
        (s.port h).requests.head? = some f := by
  unfold State.nextRequest State.nextPort
  cases s.inReset <;> cases s.intakeHeld <;> simp
  rcases hp : (searchOrder s.rotation).find? s.eligible with _ | g
  · simp
  · simp only [Option.map_eq_some_iff, Prod.mk.injEq, Option.some.injEq]
    constructor
    · rintro ⟨x, hx, rfl, rfl⟩; exact ⟨rfl, hx⟩
    · rintro ⟨rfl, hx⟩; exact ⟨f, hx, rfl, rfl⟩

/-- What holds of the port at which a request is taken. -/
theorem nextRequest_port {s : State} {h : HostId} {f : Frame} (e : s.nextRequest = some (h, f)) :
    s.inReset = false ∧ (s.port h).requests.head? = some f ∧ (s.port h).replies.length < 4 ∧ s.resetting h = false := by
  obtain ⟨h1, _, h3, h4⟩ := (nextRequest_eq_some s h f).1 e
  obtain ⟨_, h6, h7⟩ := (eligible_iff s h).1 (List.find?_some h3)
  exact ⟨h1, h4, h6, h7⟩

/-- A lease expiry is due when its slot is HELD, leased and has nothing left (R32). -/
theorem expiryDue_iff (x : Slot) :
    x.expiryDue = true ↔ ∃ (owner : HostId) (lines : LineMask) (tag : Byte) (period : Nat),
      x.body = .held owner lines tag (some { period := period, remaining := 0 }) := by
  unfold Slot.expiryDue
  split
  · rename_i owner lines tag l e
    obtain ⟨period, remaining⟩ := l
    rw [e, beq_iff_eq]
    constructor
    · rintro rfl
      exact ⟨owner, lines, tag, period, rfl⟩
    · rintro ⟨_, _, _, _, h⟩
      cases h
      rfl
  · rename_i other
    exact ⟨fun h => absurd h (by decide), fun ⟨o, l, g, p, e⟩ => absurd e (other o l g _)⟩

/-- The intake is not held back when no due expiry and no sent notice has been overtaken (R102, R103). -/
theorem intakeHeld_eq_false_iff (s : State) :
    s.intakeHeld = false ↔
      (∀ (k : Fin 16) (owner : HostId) (lines : LineMask) (tag : Byte) (period : Nat),
        s.slots[k].body = .held owner lines tag (some { period := period, remaining := 0 }) →
        Due.lease k ∉ s.overtaken) ∧
      (∀ e ∈ s.waitQueue, e.remaining = some 0 → Due.wait e.host e.tag ∉ s.overtaken) ∧
      (∀ p : TwoWire, (s.bus p).state = .resetting → Due.notice p ∉ s.overtaken) := by
  have ports : ∀ p : TwoWire, p ∈ [TwoWire.a, TwoWire.b] := by intro p; cases p <;> decide
  simp only [State.intakeHeld, State.dueNow, List.any_eq_false, List.mem_append, List.mem_map, List.mem_filter,
    List.mem_finRange, true_and, decide_eq_true_eq]
  constructor
  · intro h
    refine ⟨fun k o l g p e => h _ (.inl (.inl ⟨k, (expiryDue_iff _).2 ⟨o, l, g, p, e⟩, rfl⟩)), fun e he hr => ?_,
      fun p hp => h _ (.inr ⟨p, ⟨ports p, hp⟩, rfl⟩)⟩
    exact h _ (.inl (.inr ⟨e, ⟨he, by simp [WaitEntry.expiryDue, hr]⟩, rfl⟩))
  · rintro ⟨h1, h2, h3⟩ d ((⟨k, hk, rfl⟩ | ⟨e, ⟨he, hr⟩, rfl⟩) | ⟨p, ⟨-, hp⟩, rfl⟩)
    · obtain ⟨o, l, g, p, e⟩ := (expiryDue_iff _).1 hk
      exact h1 k o l g p e
    · exact h2 e he (by simpa [WaitEntry.expiryDue] using hr)
    · exact h3 p hp

/-! ### The take -/

@[simp] theorem take_rotation (s : State) (h : HostId) : (s.take h).rotation = nextHost h := rfl

@[simp] theorem take_overtaken (s : State) (h : HostId) : (s.take h).overtaken = s.dueNow := rfl

@[simp] theorem port_mapPort_same (s : State) (h : HostId) (f : Port → Port) : (s.mapPort h f).port h = f (s.port h) := by
  simp [State.mapPort, State.port]

theorem port_mapPort_ne (s : State) {g h : HostId} (f : Port → Port) (hne : g ≠ h) :
    (s.mapPort h f).port g = s.port g := by
  simp [State.mapPort, State.port, PerHost.get_update_ne _ _ hne]

theorem port_mapPort (s : State) (g h : HostId) (f : Port → Port) :
    (s.mapPort h f).port g = if g = h then f (s.port g) else s.port g := by
  simp [State.mapPort, State.port, PerHost.get_update]

@[simp] theorem bus_mapPort (s : State) (h : HostId) (f : Port → Port) (p : TwoWire) :
    (s.mapPort h f).bus p = s.bus p := rfl

@[simp] theorem bus_mapBus_same (s : State) (p : TwoWire) (f : TwoWireBus → TwoWireBus) :
    (s.mapBus p f).bus p = f (s.bus p) := by simp [State.mapBus, State.bus]

theorem bus_mapBus_ne (s : State) {q p : TwoWire} (f : TwoWireBus → TwoWireBus) (hne : q ≠ p) :
    (s.mapBus p f).bus q = s.bus q := by simp [State.mapBus, State.bus, PerTwoWire.get_update_ne _ _ hne]

theorem bus_mapBus (s : State) (q p : TwoWire) (f : TwoWireBus → TwoWireBus) :
    (s.mapBus p f).bus q = if q = p then f (s.bus q) else s.bus q := by
  simp [State.mapBus, State.bus, PerTwoWire.get_update]

@[simp] theorem port_mapBus (s : State) (p : TwoWire) (f : TwoWireBus → TwoWireBus) (h : HostId) :
    (s.mapBus p f).port h = s.port h := rfl

@[simp] theorem port_endHold (s : State) (g h : HostId) : (s.endHold g).port h = s.port h := by
  unfold State.endHold; split <;> rfl

theorem port_take (s : State) (g h : HostId) :
    (s.take h).port g = if g = h then { s.port g with requests := (s.port g).requests.tail } else s.port g := by
  have : (s.take h).port g = (s.mapPort h fun p => { p with requests := p.requests.tail }).port g := port_endHold _ h g
  rw [this, port_mapPort]

@[simp] theorem port_take_same (s : State) (h : HostId) :
    (s.take h).port h = { s.port h with requests := (s.port h).requests.tail } := by simp [port_take]

theorem port_take_ne (s : State) {g h : HostId} (hne : g ≠ h) : (s.take h).port g = s.port g := by
  simp [port_take, hne]

/-- A bus after the hold on its port has ended. -/
def TwoWireBus.released (b : TwoWireBus) : TwoWireBus :=
  match b.state with
  | .holding _ _ => { b with state := .receiving RxRecord.empty, stuckTime := 0 }
  | _ => b

theorem bus_endHold (s : State) (h : HostId) (p : TwoWire) :
    (s.endHold h).bus p = if p.host = h then (s.bus p).released else s.bus p := by
  cases h <;> cases p <;> rfl

theorem bus_take (s : State) (h : HostId) (p : TwoWire) :
    (s.take h).bus p = if p.host = h then (s.bus p).released else s.bus p :=
  bus_endHold (s.mapPort h fun q => { q with requests := q.requests.tail }) h p

theorem released_holding {b : TwoWireBus} {rx : RxRecord} {t : Nat} (e : b.state = .holding rx t) :
    b.released = { b with state := .receiving RxRecord.empty, stuckTime := 0 } := by simp [TwoWireBus.released, e]

theorem released_of_not_holding {b : TwoWireBus} (e : ∀ rx t, b.state ≠ .holding rx t) : b.released = b := by
  unfold TwoWireBus.released
  split
  · exact absurd ‹_› (e _ _)
  · rfl

@[simp] theorem released_holdMode (b : TwoWireBus) : b.released.holdMode = b.holdMode := by
  unfold TwoWireBus.released; split <;> rfl

/-- A take changes no outbound selection. -/
theorem selection_take (s : State) (g h : HostId) : (s.take h).selection g = s.selection g := by
  unfold State.selection
  rcases hp : hostTwoWire g with _ | p
  · simp
  · have : (s.take h).bus p = if p.host = h then (s.bus p).released else s.bus p := bus_take s h p
    by_cases hh : p.host = h
    · rw [if_pos hh] at this
      simp only [this, TwoWireBus.released]
      cases hs : (s.bus p).state <;> simp [hs]
    · rw [if_neg hh] at this
      simp only [this]

/-- A take ends no port reset. -/
theorem resetting_take (s : State) (g h : HostId) : (s.take h).resetting g = s.resetting g := by
  unfold State.resetting
  rcases hp : hostTwoWire g with _ | p
  · simp
  · simp only [bus_take]
    split
    · unfold TwoWireBus.released
      cases hs : (s.bus p).state <;> simp [hs]
    · rfl

/-! ### Validation and answering -/

theorem validate_eq_none (s : State) (o : Opcode) (h : HostId) (f : Frame) :
    s.validate o h f = none ↔
      lengthAccepted o f.payload.length = true ∧ (supervisorOnly o = true → s.supervisor = some h) := by
  unfold State.validate
  cases lengthAccepted o f.payload.length <;> cases supervisorOnly o <;> simp

theorem onRequest_valid {s : State} {o : Opcode} {h : HostId} {f : Frame} (v : s.Valid o h f)
    (k : HostId → Frame → State → State) : s.onRequest o k = k h f (s.take h) := by
  obtain ⟨⟨h1, h2⟩, h3⟩ := v
  have h4 : (s.take h).validate o h f = none := (validate_eq_none _ _ _ _).2 (by simpa using h3)
  simp [State.onRequest, h1, h2, h4]

theorem onRequest_refused {s : State} {o : Opcode} {h : HostId} {f : Frame} {r : Status} (n : s.Next o h f)
    (hr : (s.take h).validate o h f = some r) (k : HostId → Frame → State → State) :
    s.onRequest o k = s.served h f r [] := by
  obtain ⟨h1, h2⟩ := n
  simp only [State.onRequest, h1, h2, hr, if_true]
  rfl

theorem validate_badLength {s : State} {o : Opcode} {h : HostId} {f : Frame}
    (hl : lengthAccepted o f.payload.length = false) : s.validate o h f = some .badLength := by
  simp [State.validate, hl]

theorem validate_notPermitted {s : State} {o : Opcode} {h : HostId} {f : Frame}
    (hl : lengthAccepted o f.payload.length = true) (ho : supervisorOnly o = true) (hs : s.supervisor ≠ some h) :
    s.validate o h f = some .notPermitted := by
  simp [State.validate, hl, ho, hs]

/-- A valid request: it is taken, its body runs, and the reply is placed. -/
theorem request_valid {s : State} {o : Opcode} {h : HostId} {f : Frame} (v : s.Valid o h f)
    (body : HostId → Frame → State → Answer) : s.request o body = (body h f (s.take h)).place h f :=
  onRequest_valid v _

theorem place_refuse (t : State) (h : HostId) (f : Frame) (status : Status) :
    (t.refuse status).place h f = t.placeReply h (replyTo f status []) := rfl

theorem place_done (t : State) (h : HostId) (f : Frame) : t.done.place h f = t.placeReply h (replyTo f .ok []) := rfl

theorem place_answer (t : State) (h : HostId) (f : Frame) (payload : List Byte) :
    (t.answer payload).place h f = t.placeReply h (replyTo f .ok payload) := rfl

/-- Everything a request command can do: nothing, a refusal by validation, or the execution of a valid request. -/
theorem onRequest_cases (s : State) (o : Opcode) (k : HostId → Frame → State → State) :
    (s.onRequest o k = s) ∨
    (∃ h f r, s.Next o h f ∧ s.onRequest o k = s.served h f r []) ∨
    (∃ h f, s.Valid o h f ∧ s.onRequest o k = k h f (s.take h)) := by
  rcases hn : s.nextRequest with _ | ⟨h, f⟩
  · left; simp [State.onRequest, hn]
  · by_cases ho : opcodeOf f.opcode = some o
    · rcases hv : (s.take h).validate o h f with _ | r
      · right; right
        have hv' := (validate_eq_none _ _ _ _).1 hv
        have v : s.Valid o h f := ⟨⟨hn, ho⟩, by simpa using hv'⟩
        exact ⟨h, f, v, onRequest_valid v k⟩
      · right; left
        exact ⟨h, f, r, ⟨hn, ho⟩, onRequest_refused ⟨hn, ho⟩ hv k⟩
    · left; simp [State.onRequest, hn, ho]

end Sys2Proof.Machine
end

