-- ==== Sys2Proof/Laws/Events.lean ====
section
/-! SUPPORT. Event arrival and reply placing: what each leaves of every port, the limits and the head of an event queue, and that the order of
independent writes does not matter. -/

namespace Sys2Proof.Machine

/-! ### Transfers in progress are untouched -/

theorem selection_congr {s t : State} (ht : t.twoWire = s.twoWire) (hf : t.fourWire = s.fourWire) (h : HostId) :
    t.selection h = s.selection h := by
  simp only [State.selection, State.bus, ht, hf]

theorem resetting_congr {s t : State} (ht : t.twoWire = s.twoWire) (h : HostId) : t.resetting h = s.resetting h := by
  have hb : t.bus = s.bus := by funext p; simp only [State.bus, ht]
  simp only [State.resetting, hb]

theorem eventInTransit_congr {s t : State} (h : HostId) (e : t.selection h = s.selection h) :
    t.eventInTransit h = s.eventInTransit h := by
  simp only [State.eventInTransit, e]

@[simp] theorem selection_mapPort (s : State) (h g : HostId) (f : Port → Port) :
    (s.mapPort h f).selection g = s.selection g := rfl

@[simp] theorem resetting_mapPort (s : State) (h g : HostId) (f : Port → Port) :
    (s.mapPort h f).resetting g = s.resetting g := rfl

@[simp] theorem selection_sendEvent (s : State) (h g : HostId) (e : Event) :
    (s.sendEvent h e).selection g = s.selection g := selection_congr (by simp) (by simp) g

@[simp] theorem resetting_sendEvent (s : State) (h g : HostId) (e : Event) :
    (s.sendEvent h e).resetting g = s.resetting g := resetting_congr (by simp) g

@[simp] theorem selection_sendEvents (s : State) (l : List (HostId × Event)) (g : HostId) :
    (s.sendEvents l).selection g = s.selection g := selection_congr (by simp) (by simp) g

@[simp] theorem resetting_sendEvents (s : State) (l : List (HostId × Event)) (g : HostId) :
    (s.sendEvents l).resetting g = s.resetting g := resetting_congr (by simp) g

/-! ### Arrival at a queue -/

theorem removeOldestEdge_length {q r : List Event} (h : removeOldestEdge q = some r) : r.length + 1 = q.length := by
  induction q generalizing r with
  | nil => simp [removeOldestEdge] at h
  | cons e es ih =>
    simp only [removeOldestEdge] at h
    split at h
    · cases h; rfl
    · obtain ⟨x, hx, rfl⟩ := Option.map_eq_some_iff.1 h
      simp [ih hx]

/-- The oldest LINE_EDGE is the first one of the list. -/
theorem removeOldestEdge_append (ahead behind : List Event) (x : Event) (hx : x.isLineEdge = true)
    (ha : ∀ y ∈ ahead, y.isLineEdge = false) :
    removeOldestEdge (ahead ++ x :: behind) = some (ahead ++ behind) := by
  induction ahead with
  | nil => simp [removeOldestEdge, hx]
  | cons y ys ih =>
    have := ih fun z hz => ha z (by simp [hz])
    simp [removeOldestEdge, ha y (by simp), this]

theorem removeOldestEdge_eq_none (q : List Event) (hq : ∀ y ∈ q, y.isLineEdge = false) : removeOldestEdge q = none := by
  induction q with
  | nil => rfl
  | cons y ys ih => simp [removeOldestEdge, hq y (by simp), ih fun z hz => hq z (by simp [hz])]

theorem displaceEdge_length {b : Bool} {q r : List Event} (h : displaceEdge b q = some r) : r.length + 1 = q.length := by
  cases q with
  | nil => simp [displaceEdge] at h
  | cons e es =>
    simp only [displaceEdge] at h
    split at h
    · obtain ⟨x, hx, rfl⟩ := Option.map_eq_some_iff.1 h
      simp [removeOldestEdge_length hx]
    · exact removeOldestEdge_length h

/-- The head of a queue stays at its place while it is in transit (R93). -/
theorem displaceEdge_head {e : Event} {es r : List Event} (h : displaceEdge true (e :: es) = some r) :
    ∃ rest, r = e :: rest := by
  simp only [displaceEdge, if_true] at h
  obtain ⟨x, _, rfl⟩ := Option.map_eq_some_iff.1 h
  exact ⟨x, rfl⟩

theorem arrive_length (b : Bool) (q : List Event) (e : Event) (hq : q.length ≤ 16) : (arrive b q e).1.length ≤ 16 := by
  unfold arrive
  split
  · have : q.length < 16 := ‹_›
    simpa using this
  · split
    · exact hq
    · split
      · have := displaceEdge_length ‹_›
        simpa [this] using hq
      · exact hq

theorem arrive_head (e x : Event) (es : List Event) : ∃ rest, (arrive true (x :: es) e).1 = x :: rest := by
  unfold arrive
  split
  · exact ⟨es ++ [e], rfl⟩
  · split
    · exact ⟨es, rfl⟩
    · split
      · obtain ⟨rest, hr⟩ := displaceEdge_head ‹_›
        exact ⟨rest ++ [e], by rw [hr]; rfl⟩
      · exact ⟨es, rfl⟩

/-! ### Arrival at a port -/

/-- Another port is not reached by an event. -/
theorem port_sendEvent_ne (s : State) {g h : HostId} (e : Event) (hne : g ≠ h) : (s.sendEvent h e).port g = s.port g := by
  unfold State.sendEvent
  split
  · rfl
  · exact port_mapPort_ne s _ hne

/-- What an arrival can change of a port: its event queue and EVENT_OVERFLOW. -/
theorem port_sendEvent (s : State) (g h : HostId) (e : Event) :
    ∃ (es : List Event) (lost : Bool), (s.sendEvent h e).port g =
      { s.port g with events := es, flags := { (s.port g).flags with eventOverflow := lost } } := by
  by_cases hg : g = h
  · subst hg
    unfold State.sendEvent
    split
    · exact ⟨(s.port g).events, (s.port g).flags.eventOverflow, rfl⟩
    · exact ⟨_, _, port_mapPort_same s g _⟩
  · exact ⟨(s.port g).events, (s.port g).flags.eventOverflow, port_sendEvent_ne s e hg⟩

/-- The event queue a port has after an arrival. -/
theorem events_sendEvent (s : State) (h : HostId) (e : Event) :
    ((s.sendEvent h e).port h).events =
      if s.resetting h then (s.port h).events else (arrive (s.eventInTransit h) (s.port h).events e).1 := by
  unfold State.sendEvent
  split <;> simp [Port.noteOverflow]

/-- Events for other hosts do not reach a port. -/
theorem port_sendEvents_ne (s : State) (g : HostId) (l : List (HostId × Event)) (hl : ∀ x ∈ l, x.1 ≠ g) :
    (s.sendEvents l).port g = s.port g := by
  induction l generalizing s with
  | nil => rfl
  | cons x rest ih =>
    obtain ⟨h, e⟩ := x
    have hx : h ≠ g := hl (h, e) (by simp)
    have hr : ∀ y ∈ rest, y.1 ≠ g := fun y hy => hl y (by simp [hy])
    exact (ih (s.sendEvent h e) hr).trans (port_sendEvent_ne s e hx.symm)

/-- What arrivals can change of a port: its event queue and EVENT_OVERFLOW. -/
theorem port_sendEvents (s : State) (g : HostId) (l : List (HostId × Event)) :
    ∃ (es : List Event) (lost : Bool), (s.sendEvents l).port g =
      { s.port g with events := es, flags := { (s.port g).flags with eventOverflow := lost } } := by
  induction l generalizing s with
  | nil => exact ⟨(s.port g).events, (s.port g).flags.eventOverflow, rfl⟩
  | cons x rest ih =>
    obtain ⟨es, lost, h1⟩ := port_sendEvent s g x.1 x.2
    obtain ⟨es', lost', h2⟩ := ih (s.sendEvent x.1 x.2)
    refine ⟨es', lost', ?_⟩
    show ((s.sendEvent x.1 x.2).sendEvents rest).port g = _
    rw [h2, h1]

theorem events_sendEvents_length (s : State) (g : HostId) (l : List (HostId × Event))
    (hs : (s.port g).events.length ≤ 16) : ((s.sendEvents l).port g).events.length ≤ 16 := by
  induction l generalizing s with
  | nil => exact hs
  | cons x rest ih =>
    refine ih (s.sendEvent x.1 x.2) ?_
    by_cases hg : g = x.1
    · subst hg
      rw [events_sendEvent]
      split
      · exact hs
      · exact arrive_length _ _ _ hs
    · rw [port_sendEvent_ne s x.2 hg]; exact hs

/-- While the head of an event queue is in transit, arrivals leave it the head (R93). -/
theorem events_sendEvents_head (s : State) (g : HostId) (l : List (HostId × Event)) {x : Event} {es : List Event}
    (ht : s.eventInTransit g = true) (hs : (s.port g).events = x :: es) :
    ∃ rest, ((s.sendEvents l).port g).events = x :: rest := by
  induction l generalizing s es with
  | nil => exact ⟨es, hs⟩
  | cons y rest ih =>
    obtain ⟨h, e⟩ := y
    have ht' : (s.sendEvent h e).eventInTransit g = true := by
      rw [eventInTransit_congr (s := s) g (selection_sendEvent s h g e)]; exact ht
    have : ∃ r, ((s.sendEvent h e).port g).events = x :: r := by
      by_cases hg : g = h
      · subst hg
        rw [events_sendEvent, ht, hs]
        split
        · exact ⟨es, rfl⟩
        · exact arrive_head e x es
      · rw [port_sendEvent_ne s e hg]; exact ⟨es, hs⟩
    obtain ⟨r, hr⟩ := this
    exact ih (s.sendEvent h e) ht' hr

theorem sendEvents_append (s : State) (l r : List (HostId × Event)) :
    s.sendEvents (l ++ r) = (s.sendEvents l).sendEvents r := by
  induction l generalizing s with
  | nil => rfl
  | cons x rest ih => exact ih (s.sendEvent x.1 x.2)

/-! ### Independent writes -/

/-- The tables and the time of a state, which no arrival reads or writes. -/
theorem sendEvent_tables (s : State) (h : HostId) (e : Event) (L : Vector LineRecord 32) (W : PerHost (Vector Edges 32))
    (S : Vector Slot 16) (Q : List WaitEntry) (P : Vector (Option Pattern) 4) :
    ({ s with lines := L, watches := W, slots := S, waitQueue := Q, patterns := P } : State).sendEvent h e =
      { s.sendEvent h e with lines := L, watches := W, slots := S, waitQueue := Q, patterns := P } := by
  unfold State.sendEvent
  have hr : ({ s with lines := L, watches := W, slots := S, waitQueue := Q, patterns := P } : State).resetting h =
      s.resetting h := rfl
  rw [hr]
  split <;> rfl

theorem sendEvents_tables (s : State) (l : List (HostId × Event)) (L : Vector LineRecord 32)
    (W : PerHost (Vector Edges 32)) (S : Vector Slot 16) (Q : List WaitEntry) (P : Vector (Option Pattern) 4) :
    ({ s with lines := L, watches := W, slots := S, waitQueue := Q, patterns := P } : State).sendEvents l =
      { s.sendEvents l with lines := L, watches := W, slots := S, waitQueue := Q, patterns := P } := by
  induction l generalizing s with
  | nil => rfl
  | cons x rest ih =>
    show (State.sendEvent _ x.1 x.2).sendEvents rest = _
    rw [sendEvent_tables, ih]
    rfl

/-! ### Replies -/

theorem port_placeReply (s : State) (g h : HostId) (r : Reply) :
    (s.placeReply h r).port g = if g = h then { s.port g with replies := (s.port g).replies ++ [r] } else s.port g :=
  port_mapPort s g h _

@[simp] theorem port_placeReply_same (s : State) (h : HostId) (r : Reply) :
    (s.placeReply h r).port h = { s.port h with replies := (s.port h).replies ++ [r] } := by simp [port_placeReply]

theorem port_placeReply_ne (s : State) {g h : HostId} (r : Reply) (hne : g ≠ h) :
    (s.placeReply h r).port g = s.port g := by simp [port_placeReply, hne]

@[simp] theorem bus_placeReply (s : State) (h : HostId) (r : Reply) (p : TwoWire) :
    (s.placeReply h r).bus p = s.bus p := rfl

@[simp] theorem selection_placeReply (s : State) (h g : HostId) (r : Reply) :
    (s.placeReply h r).selection g = s.selection g := rfl

@[simp] theorem resetting_placeReply (s : State) (h g : HostId) (r : Reply) :
    (s.placeReply h r).resetting g = s.resetting g := rfl

end Sys2Proof.Machine
end

