-- ==== Sys2Proof/Laws/Holdings.lean ====
section
/-! SUPPORT. The Holding Table: what the grant scan, the ends of holdings, the reset policy and the handle checks can do. -/

namespace Sys2Proof.Machine

/-! ### Slots -/

theorem lines_eq_zero_of_isFree {x : Slot} (h : x.isFree = true) : x.lines = 0 := by
  unfold Slot.isFree at h
  unfold Slot.lines
  split at h <;> simp_all

theorem isFree_eq_false_of_heldBy {x : Slot} {h : HostId} (e : x.heldBy h = true) : x.isFree = false := by
  unfold Slot.heldBy at e
  unfold Slot.isFree
  split at e <;> simp_all

theorem isFree_eq_false_of_endedOf {x : Slot} {h : HostId} (e : x.endedOf h = true) : x.isFree = false := by
  unfold Slot.endedOf at e
  unfold Slot.isFree
  split at e <;> simp_all

theorem heldBy_iff {x : Slot} {h : HostId} :
    x.heldBy h = true ↔ ∃ (lines : LineMask) (tag : Byte) (lease : Option Lease), x.body = .held h lines tag lease := by
  unfold Slot.heldBy
  split
  · rename_i owner lines tag lease hb
    simp [hb]
  · rename_i hb; simp [hb]
  · rename_i hb; simp [hb]

theorem endedOf_iff {x : Slot} {h : HostId} :
    x.endedOf h = true ↔ ∃ (tag : Byte) (lease : Option Lease) (cause : EndCause), x.body = .ended h tag lease cause := by
  unfold Slot.endedOf
  split
  · rename_i owner tag lease cause hb
    simp [hb]
  · rename_i hb; simp [hb]
  · rename_i hb; simp [hb]

theorem slot_eta (x : Slot) : ({ gen := x.gen, body := x.body } : Slot) = x := rfl

/-- Writing one slot leaves the others. -/
theorem slotWritten_set (t : Vector Slot 16) (k : Fin 16) (x : Slot) : SlotWritten t (t.set k x) k x :=
  ⟨getElem_set_fin_same t k x, fun _ hj => getElem_set_fin_ne t x hj⟩

@[simp] theorem slotHandle_eq (t : Vector Slot 16) (k : Fin 16) : slotHandle t k = handleOf k t[k].gen := rfl

theorem grantInto_written (t : Vector Slot 16) (k : Fin 16) (h : HostId) (lines : LineMask) (tag : Byte) (period : Nat) :
    SlotWritten t (grantInto t k h lines tag period) k
      { gen := t[k].gen + 1
        body := .held h lines tag (if period = 0 then none else some { period := period, remaining := period }) } :=
  slotWritten_set t k _

/-! ### The walk of the grant scan -/

/-- When the walk grants an entry, and into which slot (R58). -/
theorem grantSlot_eq_some (t : Vector Slot 16) (blocked : LineMask) (e : WaitEntry) (k : Fin 16) :
    grantSlot t blocked e = some k ↔
      e.lines &&& heldLines t = 0 ∧ e.lines &&& blocked = 0 ∧ LowestFree t k := by
  unfold grantSlot
  split
  · rename_i h; rw [lowestFree_eq_some]; exact ⟨fun x => ⟨h.1, h.2, x⟩, fun x => x.2.2⟩
  · rename_i h
    exact ⟨fun x => (Option.some_ne_none _ x.symm).elim, fun x => (h ⟨x.1, x.2.1⟩).elim⟩

theorem grantSlot_eq_none (t : Vector Slot 16) (blocked : LineMask) (e : WaitEntry) :
    grantSlot t blocked e = none ↔
      e.lines &&& heldLines t ≠ 0 ∨ e.lines &&& blocked ≠ 0 ∨ ∀ k : Fin 16, t[k].isFree = false := by
  unfold grantSlot
  split
  · rename_i h
    rw [lowestFree_eq_none]
    exact ⟨fun x => .inr (.inr x), fun x => x.elim (fun y => (y h.1).elim) fun y => y.elim (fun z => (z h.2).elim) id⟩
  · rename_i h
    refine ⟨fun _ => ?_, fun _ => rfl⟩
    by_cases h1 : e.lines &&& heldLines t = 0
    · exact .inr (.inl fun h2 => h ⟨h1, h2⟩)
    · exact .inl h1

/-- The entry is granted: the walk goes on with the slot written. -/
theorem grantWalk_cons_some {t : Vector Slot 16} {blocked : LineMask} {e : WaitEntry} {k : Fin 16}
    (h : grantSlot t blocked e = some k) (es : List WaitEntry) :
    grantWalk (e :: es) blocked t =
      { grantWalk es blocked (grantInto t k e.host e.lines e.tag e.period) with
        events := (e.host, .granted e.tag (handleOf k (t[k].gen + 1))) ::
          (grantWalk es blocked (grantInto t k e.host e.lines e.tag e.period)).events } := by
  simp only [grantWalk, h, slotHandle_eq]
  rw [(grantInto_written t k e.host e.lines e.tag e.period).1]

/-- The entry stays: the walk goes on with its lines blocked. -/
theorem grantWalk_cons_none {t : Vector Slot 16} {blocked : LineMask} {e : WaitEntry}
    (h : grantSlot t blocked e = none) (es : List WaitEntry) :
    grantWalk (e :: es) blocked t =
      { grantWalk es (blocked ||| e.lines) t with kept := e :: (grantWalk es (blocked ||| e.lines) t).kept } := by
  simp only [grantWalk, h]

/-- A walk leaves each slot as it was, or grants an entry of the queue into it while it is FREE. -/
theorem grantWalk_slot (q : List WaitEntry) (blocked : LineMask) (t : Vector Slot 16) (k : Fin 16) :
    (grantWalk q blocked t).slots[k] = t[k] ∨
      (t[k].isFree = true ∧ ∃ e ∈ q, (grantWalk q blocked t).slots[k] =
        { gen := t[k].gen + 1, body := .held e.host e.lines e.tag (leaseOf e.period) }) := by
  induction q generalizing blocked t with
  | nil => exact .inl rfl
  | cons e es ih =>
    rcases hg : grantSlot t blocked e with _ | j
    · rw [grantWalk_cons_none hg]
      rcases ih (blocked ||| e.lines) t with h | ⟨h, x, hx, hs⟩
      · exact .inl h
      · exact .inr ⟨h, x, by simp [hx], hs⟩
    · rw [grantWalk_cons_some hg]
      have hj : t[j].isFree = true := ((grantSlot_eq_some _ _ _ _).1 hg).2.2.1
      have hw := grantInto_written t j e.host e.lines e.tag e.period
      by_cases hk : k = j
      · subst hk
        right
        refine ⟨hj, e, by simp, ?_⟩
        rcases ih blocked (grantInto t k e.host e.lines e.tag e.period) with h | ⟨h, _⟩
        · exact h.trans hw.1
        · rw [hw.1] at h; simp [Slot.isFree] at h
      · rcases ih blocked (grantInto t j e.host e.lines e.tag e.period) with h | ⟨h, x, hx, hs⟩
        · left; exact h.trans (hw.2 k hk)
        · right
          rw [hw.2 k hk] at h hs
          exact ⟨h, x, by simp [hx], hs⟩

theorem grantWalk_slot_of_not_free (q : List WaitEntry) (blocked : LineMask) {t : Vector Slot 16} {k : Fin 16}
    (h : t[k].isFree = false) : (grantWalk q blocked t).slots[k] = t[k] := by
  rcases grantWalk_slot q blocked t k with e | ⟨e, _⟩
  · exact e
  · rw [h] at e; exact Bool.noConfusion e

/-- The entries that stay are entries of the queue, in its order. -/
theorem grantWalk_kept_sublist (q : List WaitEntry) (blocked : LineMask) (t : Vector Slot 16) :
    (grantWalk q blocked t).kept.Sublist q := by
  induction q generalizing blocked t with
  | nil => exact List.Sublist.refl _
  | cons e es ih =>
    rcases hg : grantSlot t blocked e with _ | j
    · rw [grantWalk_cons_none hg]; exact (ih _ _).cons_cons e
    · rw [grantWalk_cons_some hg]; exact (ih _ _).cons e

/-- Each GRANTED goes to the host of an entry of the queue. -/
theorem grantWalk_events (q : List WaitEntry) (blocked : LineMask) (t : Vector Slot 16) :
    ∀ x ∈ (grantWalk q blocked t).events, ∃ e ∈ q, x.1 = e.host := by
  induction q generalizing blocked t with
  | nil => intro x hx; simp [grantWalk] at hx
  | cons e es ih =>
    intro x hx
    rcases hg : grantSlot t blocked e with _ | j
    · rw [grantWalk_cons_none hg] at hx
      obtain ⟨y, hy, h⟩ := ih _ _ x hx
      exact ⟨y, by simp [hy], h⟩
    · rw [grantWalk_cons_some hg] at hx
      rcases List.mem_cons.1 hx with rfl | hx
      · exact ⟨e, by simp, rfl⟩
      · obtain ⟨y, hy, h⟩ := ih _ _ x hx
        exact ⟨y, by simp [hy], h⟩

/-- A walk takes no line out of a holding. -/
theorem heldLines_grantWalk (q : List WaitEntry) (blocked : LineMask) (t : Vector Slot 16) (n : Nat)
    (h : (heldLines t).getLsbD n = true) : (heldLines (grantWalk q blocked t).slots).getLsbD n = true := by
  obtain ⟨k, hk⟩ := (getLsbD_heldLines t n).1 h
  refine (getLsbD_heldLines _ n).2 ⟨k, ?_⟩
  rw [grantWalk_slot_of_not_free q blocked ?_]
  · exact hk
  · rw [← Bool.not_eq_true]
    intro hf
    rw [lines_eq_zero_of_isFree hf] at hk
    simp at hk

/-- A walk frees no slot. -/
theorem lowestFree_grantWalk (q : List WaitEntry) (blocked : LineMask) {t : Vector Slot 16} (h : lowestFree t = none) :
    lowestFree (grantWalk q blocked t).slots = none := by
  rw [lowestFree_eq_none] at h ⊢
  intro k
  rw [grantWalk_slot_of_not_free q blocked (h k)]
  exact h k

/-- One walk is enough: an entry that it leaves could be granted by no second walk (R58). -/
theorem grantWalk_once (q : List WaitEntry) (blocked : LineMask) (t : Vector Slot 16)
    (older newer : List WaitEntry) (e : WaitEntry) (hk : (grantWalk q blocked t).kept = older ++ e :: newer)
    (h1 : e.lines &&& heldLines (grantWalk q blocked t).slots = 0)
    (h2 : e.lines &&& blocked = 0) (h3 : e.lines &&& waitingLines older = 0) :
    lowestFree (grantWalk q blocked t).slots = none := by
  induction q generalizing blocked t older with
  | nil => simp [grantWalk] at hk
  | cons x xs ih =>
    rcases hg : grantSlot t blocked x with _ | j
    · rw [grantWalk_cons_none hg] at hk h1 ⊢
      cases older with
      | nil =>
        simp only [List.nil_append, List.cons.injEq] at hk
        obtain ⟨rfl, -⟩ := hk
        rcases (grantSlot_eq_none _ _ _).1 hg with hh | hh | hh
        · exfalso
          obtain ⟨n, hn⟩ := (mask_ne_zero_iff _).1 hh
          rw [BitVec.getLsbD_and, Bool.and_eq_true] at hn
          have := (and_eq_zero_iff _ _).1 h1 n hn.1
          rw [heldLines_grantWalk xs _ t n hn.2] at this
          exact Bool.noConfusion this
        · exact absurd h2 hh
        · exact lowestFree_grantWalk xs _ ((lowestFree_eq_none t).2 hh)
      | cons y older =>
        simp only [List.cons_append, List.cons.injEq] at hk
        obtain ⟨rfl, hk⟩ := hk
        refine ih (blocked ||| x.lines) t older hk h1 ?_ ?_
        · rw [and_eq_zero_iff] at h2 h3 ⊢
          intro n hn
          have := h3 n hn
          rw [← Bool.not_eq_true, getLsbD_waitingLines] at this
          rw [BitVec.getLsbD_or, h2 n hn, Bool.false_or, ← Bool.not_eq_true]
          exact fun hx => this ⟨x, by simp, hx⟩
        · rw [and_eq_zero_iff] at h3 ⊢
          intro n hn
          have := h3 n hn
          rw [← Bool.not_eq_true, getLsbD_waitingLines] at this ⊢
          rintro ⟨z, hz, hx⟩
          exact this ⟨z, by simp [hz], hx⟩
    · rw [grantWalk_cons_some hg] at hk h1 ⊢
      exact ih blocked _ older hk h1 h2 h3

/-! ### The grant scan -/

/-- The scan writes the table and the queue of the walk, and its events. -/
theorem grantScan_eq (s : State) : s.grantScan =
    ({ s with slots := (grantWalk s.waitQueue 0 s.slots).slots
              waitQueue := (grantWalk s.waitQueue 0 s.slots).kept } : State).sendEvents
      (grantWalk s.waitQueue 0 s.slots).events := rfl

@[simp] theorem grantScan_slots (s : State) : s.grantScan.slots = (grantWalk s.waitQueue 0 s.slots).slots := by
  rw [grantScan_eq, State.sendEvents_slots]

@[simp] theorem grantScan_waitQueue (s : State) : s.grantScan.waitQueue = (grantWalk s.waitQueue 0 s.slots).kept := by
  rw [grantScan_eq, State.sendEvents_waitQueue]

@[simp] theorem selection_grantScan (s : State) (g : HostId) : s.grantScan.selection g = s.selection g :=
  selection_congr (by simp) (by simp) g

@[simp] theorem resetting_grantScan (s : State) (g : HostId) : s.grantScan.resetting g = s.resetting g :=
  resetting_congr (by simp) g

theorem port_grantScan (s : State) (g : HostId) :
    ∃ (es : List Event) (lost : Bool), s.grantScan.port g =
      { s.port g with events := es, flags := { (s.port g).flags with eventOverflow := lost } } := by
  rw [grantScan_eq]
  exact port_sendEvents _ g _

theorem port_grantScan_of_no_wait (s : State) (g : HostId) (h : ∀ e ∈ s.waitQueue, e.host ≠ g) :
    s.grantScan.port g = s.port g := by
  rw [grantScan_eq]
  refine port_sendEvents_ne _ g _ fun x hx => ?_
  obtain ⟨e, he, hx⟩ := grantWalk_events _ _ _ x hx
  rw [hx]; exact h e he

/-- After a grant scan no entry remains that the scan would grant (R58). -/
theorem scanLaw_grantScan (s : State) : s.grantScan.ScanLaw := by
  intro older newer e hq h1 h2
  rw [grantScan_waitQueue] at hq
  rw [grantScan_slots] at h1 ⊢
  exact grantWalk_once _ 0 _ older newer e hq h1 (by simp) h2

/-! ### Safe states and aborts -/

theorem applySafe_took (l : LineRecord) (raw : Bool) : TookSafeState l (l.applySafe raw) raw := by
  obtain ⟨m, lev, pu, fl, fi, st, sm, sl, sp⟩ := l
  cases m <;> cases sm <;> simp [TookSafeState, LineRecord.applySafe, LineRecord.enterMode, LineRecord.writeFilter,
    Mode.sensed, filteredAfter]

theorem onLines_line (s : State) (mask : LineMask) (f : Fin 32 → LineRecord → LineRecord) (n : Fin 32) :
    (s.onLines mask f).lines[n] = if mask.getLsbD n then f n s.lines[n] else s.lines[n] := by
  rw [State.onLines, getElem_tabulate_fin]

theorem applySafeStates_left (s : State) (gone raw : LineMask) :
    LeftHolding s.lines (s.applySafeStates gone raw).lines gone raw := by
  intro n
  have := onLines_line s gone (fun n l => l.applySafe (raw.getLsbD n)) n
  constructor
  · intro h; rw [if_pos h] at this; rw [State.applySafeStates, this]; exact applySafe_took _ _
  · intro h; rw [if_neg (by rw [h]; simp)] at this; exact this

theorem abortPatterns_slot (s : State) (hit : Pattern → Bool) (i : Fin 4) :
    (s.abortPatterns hit).patterns[i] = (s.patterns[i]).filter fun p => !hit p := by
  rw [State.abortPatterns, getElem_tabulate_fin]

theorem abortPatterns_aborted (s : State) (hit : Pattern → Bool) :
    Aborted s.patterns (s.abortPatterns hit).patterns fun p => hit p = true := by
  intro i p hp
  rw [abortPatterns_slot, hp]
  exact ⟨fun h => by simp [h], fun h => by simpa using h⟩

theorem abortPatterns_idle (s : State) (hit : Pattern → Bool) : IdleKept s.patterns (s.abortPatterns hit).patterns := by
  intro i hp
  rw [abortPatterns_slot, hp]; rfl

/-- The PATTERN_ABORTED events of an abort are read from the pattern slots alone. -/
theorem abortEvents_congr {s t : State} (e : t.patterns = s.patterns) (hit : Pattern → Bool) (owner : HostId)
    (cause : AbortCause) : t.abortEvents hit owner cause = s.abortEvents hit owner cause := by
  unfold State.abortEvents; rw [e]

@[simp] theorem abortEvents_take (s : State) (h : HostId) (hit : Pattern → Bool) (owner : HostId) (cause : AbortCause) :
    (s.take h).abortEvents hit owner cause = s.abortEvents hit owner cause := abortEvents_congr (by simp) hit owner cause

/-! ### The ends of holdings -/

theorem releaseHolding_eq {s : State} {k : Fin 16} {owner : HostId} {lines : LineMask} {tag : Byte} {lease : Option Lease}
    (hb : s.slots[k].body = .held owner lines tag lease) (raw : LineMask) (cause : Option AbortCause) :
    s.releaseHolding k raw cause =
      ({ s with
          slots := s.slots.set k { gen := s.slots[k].gen, body := .free }
          lines := (s.applySafeStates lines raw).lines
          patterns := (s.abortPatterns (Pattern.under (slotHandle s.slots k))).patterns } : State).sendEvents
        (match cause with
          | some c => s.abortEvents (Pattern.under (slotHandle s.slots k)) owner c
          | none => []) := by
  unfold State.releaseHolding
  rw [hb]
  cases cause <;> rfl

theorem endHolding_eq {s : State} {k : Fin 16} {owner : HostId} {lines : LineMask} {tag : Byte} {lease : Option Lease}
    (hb : s.slots[k].body = .held owner lines tag lease) (raw : LineMask) (cause : EndCause) :
    s.endHolding k raw cause =
      ({ s with
          slots := s.slots.set k { gen := s.slots[k].gen, body := .ended owner tag lease cause }
          lines := (s.applySafeStates lines raw).lines
          patterns := (s.abortPatterns (Pattern.under (slotHandle s.slots k))).patterns } : State).sendEvents
        (s.abortEvents (Pattern.under (slotHandle s.slots k)) owner cause.abort ++
          [(owner, cause.event (slotHandle s.slots k) tag)]) := by
  unfold State.endHolding
  rw [hb]
  rfl

theorem trimHolding_eq {s : State} {k : Fin 16} {owner : HostId} {lines : LineMask} {tag : Byte} {lease : Option Lease}
    (hb : s.slots[k].body = .held owner lines tag lease) (named raw : LineMask) :
    s.trimHolding k named raw =
      ({ s with
          slots := s.slots.set k { gen := s.slots[k].gen, body := .held owner (lines &&& ~~~named) tag lease }
          lines := (s.applySafeStates named raw).lines
          patterns := (s.abortPatterns fun p =>
            p.under (slotHandle s.slots k) && decide (p.lines &&& named ≠ 0)).patterns } : State).sendEvents
        (s.abortEvents (fun p => p.under (slotHandle s.slots k) && decide (p.lines &&& named ≠ 0)) owner .trimmed) := by
  unfold State.trimHolding
  rw [hb]
  rfl

/-- The lease of a HELD slot is written, and nothing else (R34). -/
theorem writeLease_eq {s : State} {k : Fin 16} {owner : HostId} {lines : LineMask} {tag : Byte} {old : Option Lease}
    (hb : s.slots[k].body = .held owner lines tag old) (lease : Option Lease) :
    s.writeLease k lease =
      { s with slots := s.slots.set k { gen := s.slots[k].gen, body := .held owner lines tag lease } } := by
  simp only [State.writeLease, hb]

/-! ### Handle checks -/

theorem validSlot_handleOf (s : State) (k : Fin 16) (gen : BitVec 4) :
    s.validSlot (handleOf k gen) = if s.slots[k].isFree = false ∧ s.slots[k].gen = gen then some k else none := by
  simp only [State.validSlot, handleSlot_handleOf, handleGen_handleOf]
  cases s.slots[k].isFree <;> simp

theorem withHolding_stale {s : State} {h : HostId} {handle : Byte} (e : s.validSlot handle = none)
    (f : Fin 16 → LineMask → Option Lease → Answer) : s.withHolding h handle f = s.refuse .staleHandle := by
  simp only [State.withHolding, e]

theorem withHolding_held {s : State} {h owner : HostId} {handle : Byte} {k : Fin 16} {lines : LineMask} {tag : Byte}
    {lease : Option Lease} (e : s.validSlot handle = some k) (hb : s.slots[k].body = .held owner lines tag lease)
    (f : Fin 16 → LineMask → Option Lease → Answer) :
    s.withHolding h handle f = if owner = h then f k lines lease else s.refuse .notOwner := by
  simp only [State.withHolding, e, hb]

theorem withHolding_ended {s : State} {h owner : HostId} {handle : Byte} {k : Fin 16} {tag : Byte}
    {lease : Option Lease} {cause : EndCause} (e : s.validSlot handle = some k)
    (hb : s.slots[k].body = .ended owner tag lease cause) (f : Fin 16 → LineMask → Option Lease → Answer) :
    s.withHolding h handle f =
      if owner = h then
        { state := (s.freeSlot k).grantScan, status := .ended, payload := [endCauseByte cause] }
      else s.refuse .notOwner := by
  simp only [State.withHolding, e, hb]

/-- A valid handle of the requester's own HELD slot. -/
theorem validSlot_of_slot {s : State} {k : Fin 16} {gen : BitVec 4} {body : SlotBody}
    (e : s.slots[k] = { gen := gen, body := body }) (hb : body ≠ .free) : s.validSlot (handleOf k gen) = some k := by
  rw [validSlot_handleOf, e, if_pos]
  refine ⟨?_, rfl⟩
  cases body
  · exact absurd rfl hb
  · rfl
  · rfl

/-- Everything a handle check can do: a refusal, the end of an ENDED slot, or the request carried out on a HELD slot of the host. -/
theorem withHolding_cases (s : State) (h : HostId) (handle : Byte) (f : Fin 16 → LineMask → Option Lease → Answer) :
    (∃ r, s.withHolding h handle f = s.refuse r) ∨
    (∃ k tag lease cause, s.slots[k].body = .ended h tag lease cause ∧
      s.withHolding h handle f =
        { state := (s.freeSlot k).grantScan, status := .ended, payload := [endCauseByte cause] }) ∨
    (∃ k lines tag lease, s.slots[k].body = .held h lines tag lease ∧ slotHandle s.slots k = handle ∧
      s.withHolding h handle f = f k lines lease) := by
  rcases hv : s.validSlot handle with _ | k
  · exact .inl ⟨_, withHolding_stale hv f⟩
  · have hk : slotHandle s.slots k = handle := by
      rw [← handleOf_handleSlot_handleGen handle, validSlot_handleOf] at hv
      split at hv
      · rename_i hc
        cases hv
        rw [slotHandle_eq, hc.2, handleOf_handleSlot_handleGen]
      · cases hv
    rcases hb : s.slots[k].body with _ | ⟨owner, lines, tag, lease⟩ | ⟨owner, tag, lease, cause⟩
    · left; exact ⟨.staleHandle, by simp only [State.withHolding, hv, hb]⟩
    · rw [withHolding_held hv hb]
      split
      · rename_i ho; subst ho
        exact .inr (.inr ⟨k, lines, tag, lease, hb, hk, rfl⟩)
      · exact .inl ⟨_, rfl⟩
    · rw [withHolding_ended hv hb]
      split
      · rename_i ho; subst ho
        exact .inr (.inl ⟨k, tag, lease, cause, hb, rfl⟩)
      · exact .inl ⟨_, rfl⟩

end Sys2Proof.Machine
end

