-- ==== Sys2Proof/Laws/PortReset.lean ====
section
/-! SUPPORT. The Claim Controller's part of a port reset (R42, R62, R88, R157): what each of its steps does, row by row. -/

namespace Sys2Proof.Machine

/-- A second application of the same safe state at the same pad levels changes nothing. -/
theorem applySafe_applySafe (l : LineRecord) (raw : Bool) : (l.applySafe raw).applySafe raw = l.applySafe raw := by
  obtain ⟨m, lev, pu, fl, fi, st, sm, sl, sp⟩ := l
  cases m <;> cases sm <;> rfl

/-- A slot after the RELEASE policy has acted on it: a HELD or ENDED slot of the host is FREE at its generation. -/
def Slot.dropped (x : Slot) (h : HostId) : Slot :=
  if x.heldBy h || x.endedOf h then { gen := x.gen, body := .free } else x

theorem dropped_heldBy (x : Slot) (h : HostId) : (x.dropped h).heldBy h = false := by
  unfold Slot.dropped
  split
  · rfl
  · simp_all

theorem dropped_endedOf (x : Slot) (h : HostId) : (x.dropped h).endedOf h = false := by
  unfold Slot.dropped
  split
  · rfl
  · simp_all

theorem dropped_dropped (x : Slot) (h : HostId) : (x.dropped h).dropped h = x.dropped h := by
  rw [Slot.dropped, dropped_heldBy, dropped_endedOf]; rfl

/-- The slot of another host is not dropped. -/
theorem dropped_of_other {x : Slot} {g h : HostId} (hne : g ≠ h) (hx : x.heldBy g = true ∨ x.endedOf g = true) :
    x.dropped h = x := by
  have : x.heldBy h = false ∧ x.endedOf h = false := by
    rcases hx with hx | hx
    · obtain ⟨l, t, le, hb⟩ := heldBy_iff.1 hx
      simp [Slot.heldBy, Slot.endedOf, hb, hne]
    · obtain ⟨t, le, c, hb⟩ := endedOf_iff.1 hx
      simp [Slot.heldBy, Slot.endedOf, hb, hne]
  simp [Slot.dropped, this.1, this.2]

/-- What the policy does at one slot, row by row. -/
theorem dropSlot_rows (s : State) (h : HostId) (raw : LineMask) (k : Fin 16) :
    ∃ (S : Vector Slot 16) (L : Vector LineRecord 32) (P : Vector (Option Pattern) 4),
      s.dropSlot h raw k = { s with slots := S, lines := L, patterns := P } ∧
      (∀ j : Fin 16, S[j] = if j = k then s.slots[j].dropped h else s.slots[j]) ∧
      (∀ n : Fin 32, L[n] = if s.slots[k].heldBy h = true ∧ s.slots[k].lines.getLsbD n = true then
        s.lines[n].applySafe (raw.getLsbD n) else s.lines[n]) ∧
      (∀ i : Fin 4, P[i] = (s.patterns[i]).filter fun p =>
        !(s.slots[k].heldBy h && decide (p.handle = slotHandle s.slots k))) := by
  unfold State.dropSlot
  by_cases hh : s.slots[k].heldBy h = true
  · obtain ⟨lines, tag, lease, hb⟩ := heldBy_iff.1 hh
    have hl : s.slots[k].lines = lines := by simp only [Slot.lines, hb]
    rw [if_pos hh, releaseHolding_eq hb]
    refine ⟨_, _, _, rfl, ?_, ?_, ?_⟩
    · intro j
      rw [getElem_set_fin]
      by_cases hj : j = k
      · subst hj
        simp only [if_true, Slot.dropped, hh, Bool.true_or]
      · simp only [if_neg hj]
    · intro n
      rw [State.applySafeStates, onLines_line, hl]
      simp only [hh, true_and]
    · intro i
      rw [abortPatterns_slot]
      simp only [hh, Bool.true_and]
      rfl
  · rw [if_neg hh]
    have hh' : s.slots[k].heldBy h = false := by simpa using hh
    by_cases he : s.slots[k].endedOf h = true
    · rw [if_pos he]
      refine ⟨_, _, _, rfl, ?_, ?_, ?_⟩
      · intro j
        rw [getElem_set_fin]
        by_cases hj : j = k
        · subst hj
          simp only [if_true, Slot.dropped, he, Bool.or_true]
        · simp only [if_neg hj]
      · intro n; simp only [hh', Bool.false_eq_true, false_and, if_false]
      · intro i
        cases hp : s.patterns[i] <;> simp only [hh', Option.filter, Bool.false_and, Bool.not_false, if_true]
    · have he' : s.slots[k].endedOf h = false := by simpa using he
      rw [if_neg he]
      refine ⟨_, _, _, rfl, ?_, ?_, ?_⟩
      · intro j
        by_cases hj : j = k
        · subst hj
          simp only [if_true, Slot.dropped, hh', he', Bool.or_false, Bool.false_eq_true, if_false]
        · simp only [if_neg hj]
      · intro n; simp only [hh', Bool.false_eq_true, false_and, if_false]
      · intro i
        cases hp : s.patterns[i] <;> simp only [hh', Option.filter, Bool.false_and, Bool.not_false, if_true]

/-- What the policy does at a list of slots, row by row. -/
theorem dropSlots_rows (h : HostId) (raw : LineMask) (l : List (Fin 16)) (s : State) :
    ∃ (S : Vector Slot 16) (L : Vector LineRecord 32) (P : Vector (Option Pattern) 4),
      l.foldl (fun t k => t.dropSlot h raw k) s = { s with slots := S, lines := L, patterns := P } ∧
      (∀ j : Fin 16, S[j] = if j ∈ l then s.slots[j].dropped h else s.slots[j]) ∧
      (∀ n : Fin 32, L[n] = if (∃ k ∈ l, s.slots[k].heldBy h = true ∧ s.slots[k].lines.getLsbD n = true) then
        s.lines[n].applySafe (raw.getLsbD n) else s.lines[n]) ∧
      (∀ (i : Fin 4) (p : Pattern), P[i] = some p ↔
        s.patterns[i] = some p ∧ ∀ k ∈ l, s.slots[k].heldBy h = true → p.handle ≠ slotHandle s.slots k) := by
  induction l generalizing s with
  | nil =>
    exact ⟨s.slots, s.lines, s.patterns, rfl, fun j => by simp, fun n => by simp, fun i p => by simp⟩
  | cons k rest ih =>
    obtain ⟨S, L, P, e1, hS, hL, hP⟩ := dropSlot_rows s h raw k
    obtain ⟨S', L', P', e2, hS', hL', hP'⟩ := ih (s.dropSlot h raw k)
    have eS : (s.dropSlot h raw k).slots = S := by rw [e1]
    have eL : (s.dropSlot h raw k).lines = L := by rw [e1]
    have eP : (s.dropSlot h raw k).patterns = P := by rw [e1]
    rw [eS] at hS' hL' hP'
    rw [eL] at hL'
    rw [eP] at hP'
    have held : ∀ j : Fin 16, S[j].heldBy h = true ↔ j ≠ k ∧ s.slots[j].heldBy h = true := by
      intro j
      rw [hS j]
      by_cases hj : j = k
      · subst hj; simp only [if_true, dropped_heldBy]; simp
      · simp only [if_neg hj]; simp [hj]
    have same : ∀ j : Fin 16, j ≠ k → S[j] = s.slots[j] := fun j hj => by rw [hS j, if_neg hj]
    refine ⟨S', L', P', ?_, ?_, ?_, ?_⟩
    · show rest.foldl _ (s.dropSlot h raw k) = _
      rw [e2, e1]
    · intro j
      rw [hS' j, hS j]
      by_cases hj : j = k
      · subst hj
        simp only [if_true, List.mem_cons, true_or]
        split
        · exact dropped_dropped _ h
        · rfl
      · by_cases hr : j ∈ rest <;> simp [hj, hr]
    · intro n
      rw [hL' n, hL n]
      by_cases hk : s.slots[k].heldBy h = true ∧ s.slots[k].lines.getLsbD n = true
      · have hr : ∃ j ∈ k :: rest, s.slots[j].heldBy h = true ∧ s.slots[j].lines.getLsbD n = true := ⟨k, by simp, hk⟩
        rw [if_pos hk, if_pos hr]
        split
        · exact applySafe_applySafe _ _
        · rfl
      · rw [if_neg hk]
        refine if_congr ⟨?_, ?_⟩ rfl rfl
        · rintro ⟨j, hj, h1, h2⟩
          have := (held j).1 h1
          exact ⟨j, by simp [hj], this.2, by rw [← same j this.1]; exact h2⟩
        · rintro ⟨j, hj, h1, h2⟩
          rcases List.mem_cons.1 hj with rfl | hj
          · exact absurd ⟨h1, h2⟩ hk
          · by_cases hjk : j = k
            · subst hjk; exact absurd ⟨h1, h2⟩ hk
            · exact ⟨j, hj, (held j).2 ⟨hjk, h1⟩, by rw [same j hjk]; exact h2⟩
    · intro i p
      rw [hP' i p, hP i, Option.filter_eq_some_iff]
      simp only [Bool.not_eq_true', Bool.and_eq_false_iff, decide_eq_false_iff_not]
      constructor
      · rintro ⟨⟨h1, h2⟩, h3⟩
        refine ⟨h1, fun j hj hh => ?_⟩
        rcases List.mem_cons.1 hj with rfl | hj
        · exact h2.resolve_left (by rw [hh]; simp)
        · by_cases hjk : j = k
          · subst hjk; exact h2.resolve_left (by rw [hh]; simp)
          · have := h3 j hj ((held j).2 ⟨hjk, hh⟩)
            rwa [slotHandle_eq, same j hjk] at this
      · rintro ⟨h1, h2⟩
        refine ⟨⟨h1, ?_⟩, fun j hj hh => ?_⟩
        · cases hk : s.slots[k].heldBy h
          · exact .inl rfl
          · exact .inr (h2 k (by simp) hk)
        · have := (held j).1 hh
          rw [slotHandle_eq, same j this.1]
          exact h2 j (by simp [hj]) this.2

/-- The RELEASE policy, row by row (R42). -/
theorem applyPolicy_release_rows {s : State} {h : HostId} (hp : (s.port h).policy = .release) (raw : LineMask) :
    ∃ (S : Vector Slot 16) (L : Vector LineRecord 32) (P : Vector (Option Pattern) 4),
      s.applyPolicy h raw = { s with slots := S, lines := L, patterns := P } ∧
      (∀ j : Fin 16, S[j] = s.slots[j].dropped h) ∧
      (∀ n : Fin 32, L[n] = if (linesHeldBy s.slots h).getLsbD n = true then
        s.lines[n].applySafe (raw.getLsbD n) else s.lines[n]) ∧
      (∀ (i : Fin 4) (p : Pattern), P[i] = some p ↔
        s.patterns[i] = some p ∧ ∀ k : Fin 16, s.slots[k].heldBy h = true → p.handle ≠ slotHandle s.slots k) := by
  obtain ⟨S, L, P, e, hS, hL, hP⟩ := dropSlots_rows h raw (List.finRange 16) s
  refine ⟨S, L, P, ?_, ?_, ?_, ?_⟩
  · rw [State.applyPolicy, hp]; exact e
  · intro j; rw [hS j, if_pos (List.mem_finRange j)]
  · intro n
    rw [hL n]
    refine if_congr ?_ rfl rfl
    rw [getLsbD_linesHeldBy]
    simp
  · intro i p; rw [hP i p]; simp

theorem applyPolicy_keep {s : State} {h : HostId} (hp : (s.port h).policy = .keep) (raw : LineMask) :
    s.applyPolicy h raw = s := by rw [State.applyPolicy, hp]

/-- The reset policy writes slots, lines and patterns, and nothing else. -/
theorem applyPolicy_frame (s : State) (h : HostId) (raw : LineMask) :
    ∃ (S : Vector Slot 16) (L : Vector LineRecord 32) (P : Vector (Option Pattern) 4),
      s.applyPolicy h raw = { s with slots := S, lines := L, patterns := P } := by
  cases hp : (s.port h).policy with
  | keep => exact ⟨_, _, _, applyPolicy_keep hp raw⟩
  | release =>
    obtain ⟨S, L, P, e, -⟩ := applyPolicy_release_rows hp raw
    exact ⟨S, L, P, e⟩

/-- The state of a port reset before its grant scan. -/
def State.contextCleared (s : State) (h : HostId) (raw : LineMask) : State :=
  ((s.withdrawWaits h).clearWatches h).applyPolicy h raw

theorem resetContext_eq (s : State) (h : HostId) (raw : LineMask) :
    s.resetContext h raw = (s.contextCleared h raw).grantScan := rfl

/-- What a port reset does before its grant scan: waits and watches of the host, and the tables by the policy. -/
theorem contextCleared_eq (s : State) (h : HostId) (raw : LineMask) :
    ∃ (S : Vector Slot 16) (L : Vector LineRecord 32) (P : Vector (Option Pattern) 4),
      s.contextCleared h raw = { s with
        waitQueue := s.waitQueue.filter fun e => decide (e.host ≠ h)
        watches := s.watches.update h fun _ => tabulate fun _ => Edges.none
        slots := S, lines := L, patterns := P } ∧
      ((s.port h).policy = .keep → S = s.slots ∧ L = s.lines ∧ P = s.patterns) ∧
      ((s.port h).policy = .release →
        (∀ j : Fin 16, S[j] = s.slots[j].dropped h) ∧
        (∀ n : Fin 32, L[n] = if (linesHeldBy s.slots h).getLsbD n = true then
          s.lines[n].applySafe (raw.getLsbD n) else s.lines[n]) ∧
        (∀ (i : Fin 4) (p : Pattern), P[i] = some p ↔
          s.patterns[i] = some p ∧ ∀ k : Fin 16, s.slots[k].heldBy h = true → p.handle ≠ slotHandle s.slots k)) := by
  cases hp : (s.port h).policy with
  | keep =>
    refine ⟨s.slots, s.lines, s.patterns, ?_, fun _ => ⟨rfl, rfl, rfl⟩, fun e => ResetPolicy.noConfusion e⟩
    have : (((s.withdrawWaits h).clearWatches h).port h).policy = .keep := hp
    rw [State.contextCleared, applyPolicy_keep this]; rfl
  | release =>
    have : (((s.withdrawWaits h).clearWatches h).port h).policy = .release := hp
    obtain ⟨S, L, P, e, rows⟩ := applyPolicy_release_rows this raw
    refine ⟨S, L, P, ?_, fun e => ResetPolicy.noConfusion e, fun _ => rows⟩
    rw [State.contextCleared, e]; rfl

@[simp] theorem port_contextCleared (s : State) (h g : HostId) (raw : LineMask) :
    (s.contextCleared h raw).port g = s.port g := by
  obtain ⟨_, _, _, e, -⟩ := contextCleared_eq s h raw
  rw [e]; rfl

@[simp] theorem selection_contextCleared (s : State) (h g : HostId) (raw : LineMask) :
    (s.contextCleared h raw).selection g = s.selection g := by
  obtain ⟨_, _, _, e, -⟩ := contextCleared_eq s h raw
  rw [e]; rfl

theorem waitQueue_contextCleared (s : State) (h : HostId) (raw : LineMask) :
    (s.contextCleared h raw).waitQueue = s.waitQueue.filter fun e => decide (e.host ≠ h) := by
  obtain ⟨_, _, _, e, -⟩ := contextCleared_eq s h raw
  rw [e]

/-- The controller's part of a port reset writes the tables and the event queues, and nothing else. -/
theorem resetContext_frame (s : State) (h : HostId) (raw : LineMask) :
    ∃ (L : Vector LineRecord 32) (W : PerHost (Vector Edges 32)) (S : Vector Slot 16) (Q : List WaitEntry)
      (P : Vector (Option Pattern) 4) (ps : PerHost Port),
      s.resetContext h raw =
        { s with lines := L, watches := W, slots := S, waitQueue := Q, patterns := P, ports := ps } := by
  obtain ⟨S, L, P, e, -⟩ := contextCleared_eq s h raw
  obtain ⟨S', Q', ps, e'⟩ := (s.contextCleared h raw).grantScan_frame
  exact ⟨L, _, S', Q', P, ps, by rw [resetContext_eq, e', e]⟩

/-- The entries that remain after a port reset are entries of other hosts. -/
theorem waitQueue_resetContext {s : State} {h : HostId} {raw : LineMask} {e : WaitEntry}
    (he : e ∈ (s.resetContext h raw).waitQueue) : e.host ≠ h ∧ e ∈ s.waitQueue := by
  rw [resetContext_eq, grantScan_waitQueue, waitQueue_contextCleared] at he
  have := (grantWalk_kept_sublist _ _ _).subset he
  simpa [and_comm] using this

/-- The watches of the reset host are NONE, and those of the others are kept (R88). -/
theorem watches_resetContext (s : State) (h : HostId) (raw : LineMask) :
    (s.resetContext h raw).watches = s.watches.update h fun _ => tabulate fun _ => Edges.none := by
  obtain ⟨_, _, _, e, -⟩ := contextCleared_eq s h raw
  rw [resetContext_eq, State.grantScan_watches, e]

/-- The reset host's port receives nothing from the controller's part of a port reset (R157). -/
theorem port_resetContext_same (s : State) (h : HostId) (raw : LineMask) : (s.resetContext h raw).port h = s.port h := by
  rw [resetContext_eq, port_grantScan_of_no_wait, port_contextCleared]
  intro e he
  rw [waitQueue_contextCleared] at he
  simpa using (List.mem_filter.1 he).2

theorem port_resetContext (s : State) (h g : HostId) (raw : LineMask) :
    ∃ (es : List Event) (lost : Bool), (s.resetContext h raw).port g =
      { s.port g with events := es, flags := { (s.port g).flags with eventOverflow := lost } } := by
  obtain ⟨es, lost, e⟩ := port_grantScan (s.contextCleared h raw) g
  exact ⟨es, lost, by rw [resetContext_eq, e, port_contextCleared]⟩

/-- A slot that was HELD or ENDED for another host is kept by a port reset (R42). -/
theorem slots_resetContext_other {s : State} {h g : HostId} (raw : LineMask) (hne : g ≠ h) {k : Fin 16}
    (hk : s.slots[k].heldBy g = true ∨ s.slots[k].endedOf g = true) : (s.resetContext h raw).slots[k] = s.slots[k] := by
  obtain ⟨S, _, _, e, hkeep, hrel⟩ := contextCleared_eq s h raw
  have hf : s.slots[k].isFree = false := hk.elim isFree_eq_false_of_heldBy isFree_eq_false_of_endedOf
  have hS : (s.contextCleared h raw).slots[k] = s.slots[k] := by
    rw [e]
    show S[k] = _
    cases hp : (s.port h).policy with
    | keep => rw [(hkeep hp).1]
    | release => rw [(hrel hp).1 k, dropped_of_other hne hk]
  rw [resetContext_eq, grantScan_slots, grantWalk_slot_of_not_free _ _ (by rw [hS]; exact hf), hS]

/-- Under KEEP the host's own slots are kept, and no pattern and no line is touched (R42). -/
theorem slots_resetContext_keep {s : State} {h : HostId} (raw : LineMask) (hp : (s.port h).policy = .keep) {k : Fin 16}
    (hf : s.slots[k].isFree = false) : (s.resetContext h raw).slots[k] = s.slots[k] := by
  obtain ⟨S, _, _, e, hkeep, -⟩ := contextCleared_eq s h raw
  have hS : (s.contextCleared h raw).slots[k] = s.slots[k] := by
    rw [e]; show S[k] = _; rw [(hkeep hp).1]
  rw [resetContext_eq, grantScan_slots, grantWalk_slot_of_not_free _ _ (by rw [hS]; exact hf), hS]

theorem tables_resetContext_keep {s : State} {h : HostId} (raw : LineMask) (hp : (s.port h).policy = .keep) :
    (s.resetContext h raw).patterns = s.patterns ∧ (s.resetContext h raw).lines = s.lines := by
  obtain ⟨_, L, P, e, hkeep, -⟩ := contextCleared_eq s h raw
  rw [resetContext_eq, State.grantScan_patterns, State.grantScan_lines, e]
  exact ⟨(hkeep hp).2.2, (hkeep hp).2.1⟩

/-- Under RELEASE the host has no HELD and no ENDED slot left (R42). -/
theorem slots_resetContext_release {s : State} {h : HostId} (raw : LineMask) (hp : (s.port h).policy = .release)
    (k : Fin 16) :
    (s.resetContext h raw).slots[k].heldBy h = false ∧ (s.resetContext h raw).slots[k].endedOf h = false := by
  obtain ⟨S, _, _, e, -, hrel⟩ := contextCleared_eq s h raw
  have hS : (s.contextCleared h raw).slots[k] = s.slots[k].dropped h := by rw [e]; exact (hrel hp).1 k
  rw [resetContext_eq, grantScan_slots]
  rcases grantWalk_slot (s.contextCleared h raw).waitQueue 0 (s.contextCleared h raw).slots k with hw | ⟨-, x, hx, hw⟩
  · rw [hw, hS]; exact ⟨dropped_heldBy _ h, dropped_endedOf _ h⟩
  · rw [waitQueue_contextCleared] at hx
    have hx' : x.host ≠ h := by simpa using (List.mem_filter.1 hx).2
    rw [hw]
    exact ⟨by simpa [Slot.heldBy] using hx', rfl⟩

/-- Under RELEASE, the lines and the patterns row by row (R42, R81). -/
theorem tables_resetContext_release {s : State} {h : HostId} (raw : LineMask) (hp : (s.port h).policy = .release) :
    LeftHolding s.lines (s.resetContext h raw).lines (linesHeldBy s.slots h) raw ∧
      ∀ (i : Fin 4) (p : Pattern), (s.resetContext h raw).patterns[i] = some p ↔
        s.patterns[i] = some p ∧ ∀ k : Fin 16, s.slots[k].heldBy h = true → p.handle ≠ slotHandle s.slots k := by
  obtain ⟨_, L, P, e, -, hrel⟩ := contextCleared_eq s h raw
  rw [resetContext_eq, State.grantScan_patterns, State.grantScan_lines, e]
  refine ⟨fun n => ?_, (hrel hp).2.2⟩
  have := (hrel hp).2.1 n
  constructor
  · intro hn; rw [if_pos hn] at this; rw [this]; exact applySafe_took _ _
  · intro hn; rw [if_neg (by rw [hn]; simp)] at this; exact this

@[simp] theorem selection_resetContext (s : State) (h g : HostId) (raw : LineMask) :
    (s.resetContext h raw).selection g = s.selection g := by
  rw [resetContext_eq, selection_grantScan, selection_contextCleared]

end Sys2Proof.Machine
end

