-- ==== Sys2Proof/Laws/Patterns.lean ====
section
/-! SUPPORT. The Pattern Engine: the steps of a payload, the writing of lanes, and what a step end can do. -/

namespace Sys2Proof.Machine

/-! ### The steps of a payload (R67) -/

theorem stepsOf_length (n : Nat) (l : List Byte) (hl : l.length = 3 * n) : (stepsOf l).length = n := by
  induction n generalizing l with
  | zero => cases l <;> simp_all [stepsOf]
  | succ n ih =>
    match l, hl with
    | a :: b :: c :: rest, hl =>
      have : rest.length = 3 * n := by simp only [List.length_cons] at hl; omega
      simp [stepsOf, ih rest this]
    | [], hl => simp at hl
    | [a], hl => simp only [List.length_cons, List.length_nil] at hl; omega
    | [a, b], hl => simp only [List.length_cons, List.length_nil] at hl; omega

/-- Step `i` of a payload of whole steps: its level byte and the two bytes of its duration. -/
theorem stepsOf_getElem? (n : Nat) (l : List Byte) (hl : l.length = 3 * n) (i : Nat) (hi : i < n) :
    (stepsOf l)[i]? = some
      { level := l.getD (3 * i) 0, duration := (l.getD (3 * i + 2) 0 ++ l.getD (3 * i + 1) 0 : Half).toNat } := by
  induction n generalizing l i with
  | zero => omega
  | succ n ih =>
    match l, hl with
    | a :: b :: c :: rest, hl =>
      have hr : rest.length = 3 * n := by simp only [List.length_cons] at hl; omega
      cases i with
      | zero => rfl
      | succ i =>
        have := ih rest hr i (by omega)
        rw [stepsOf, List.getElem?_cons_succ, this]
        have e : 3 * (i + 1) = 3 * i + 3 := by omega
        rw [e]
        rfl
    | [], hl => simp at hl
    | [a], hl => simp only [List.length_cons, List.length_nil] at hl; omega
    | [a, b], hl => simp only [List.length_cons, List.length_nil] at hl; omega

/-! ### Lanes -/

/-- The levels of the lanes are written, and nothing else of any line (R66, R69). -/
theorem writeLanes_written (s : State) (bank : Fin 4) (lanes level : Byte) :
    LanesWritten s.lines (s.writeLanes bank lanes level).lines bank lanes level := by
  intro n
  rw [State.writeLanes, getElem_tabulate_fin]
  exact if_congr (isLane_iff bank lanes n) rfl rfl

theorem beginStep_eq (s : State) (i : Fin 4) (p : Pattern) (k : Nat) :
    s.beginStep i p k =
      { s with
        patterns := s.patterns.set i (some { p with current := k, timeLeft := (p.step k).duration })
        lines := (s.writeLanes p.bank p.lanes (p.step k).level).lines } := rfl

theorem step_of_getElem? {p : Pattern} {k : Nat} {st : PatternStep} (h : p.steps[k]? = some st) : p.step k = st := by
  simp [Pattern.step, List.getD_eq_getElem?_getD, h]

theorem patternWritten_set (t : Vector (Option Pattern) 4) (i : Fin 4) (x : Option Pattern) :
    (t.set i x)[i] = x ∧ ∀ j : Fin 4, j ≠ i → (t.set i x)[j] = t[j] :=
  ⟨getElem_set_fin_same t i x, fun _ hj => getElem_set_fin_ne t x hj⟩

/-! ### Step ends (R71, R72) -/

/-- A step that is not the last of its list: the next step begins. -/
theorem stepEnd_next {s : State} {i : Fin 4} {p : Pattern} (hp : s.patterns[i] = some p)
    (h : p.current + 1 < p.steps.length) : s.stepEnd i = s.beginStep i p (p.current + 1) := by
  simp only [State.stepEnd, hp, if_pos h]

/-- The last step of a pass of an endless pattern: the list begins again. -/
theorem stepEnd_endless {s : State} {i : Fin 4} {p : Pattern} (hp : s.patterns[i] = some p)
    (h : ¬ p.current + 1 < p.steps.length) (hn : p.passes = none) : s.stepEnd i = s.beginStep i p 0 := by
  simp only [State.stepEnd, hp, if_neg h, hn]

/-- The last step of a pass that is not the last: the list begins again with one pass less. -/
theorem stepEnd_repeat {s : State} {i : Fin 4} {p : Pattern} (hp : s.patterns[i] = some p)
    (h : ¬ p.current + 1 < p.steps.length) {n : Nat} (hn : p.passes = some n) (h1 : ¬ n ≤ 1) :
    s.stepEnd i = s.beginStep i { p with passes := some (n - 1) } 0 := by
  simp only [State.stepEnd, hp, if_neg h, hn, if_neg h1]

/-- The last step of the last pass: the pattern is complete. -/
theorem stepEnd_complete {s : State} {i : Fin 4} {p : Pattern} (hp : s.patterns[i] = some p)
    (h : ¬ p.current + 1 < p.steps.length) {n : Nat} (hn : p.passes = some n) (h1 : n ≤ 1) :
    s.stepEnd i = s.completePattern i p := by
  simp only [State.stepEnd, hp, if_neg h, hn, if_pos h1]

/-- Everything a step end can do: nothing, the begin of a step of the same pattern, or its completion. -/
theorem stepEnd_cases (s : State) (i : Fin 4) :
    s.stepEnd i = s ∨
    (∃ p q k, s.patterns[i] = some p ∧ s.stepEnd i = s.beginStep i q k ∧ q.handle = p.handle ∧ q.bank = p.bank ∧
      q.lanes = p.lanes) ∨
    (∃ p, s.patterns[i] = some p ∧ s.stepEnd i = s.completePattern i p) := by
  rcases hp : s.patterns[i] with _ | p
  · exact .inl (by simp only [State.stepEnd, hp])
  · by_cases h : p.current + 1 < p.steps.length
    · exact .inr (.inl ⟨p, p, _, rfl, stepEnd_next hp h, rfl, rfl, rfl⟩)
    · rcases hn : p.passes with _ | n
      · exact .inr (.inl ⟨p, p, _, rfl, stepEnd_endless hp h hn, rfl, rfl, rfl⟩)
      · by_cases h1 : n ≤ 1
        · exact .inr (.inr ⟨p, rfl, stepEnd_complete hp h hn h1⟩)
        · exact .inr (.inl ⟨p, _, _, rfl, stepEnd_repeat hp h hn h1, rfl, rfl, rfl⟩)

/-! ### The checks of a START_PATTERN (R68) -/

/-- The lanes are all driven. -/
theorem and_undriven_eq_zero_iff (s : State) (m : LineMask) :
    m &&& s.undriven = 0 ↔ ∀ n : Fin 32, m.getLsbD n = true → s.lines[n].mode = .pushPull ∨ s.lines[n].mode = .openDrain := by
  rw [and_eq_zero_iff]
  refine forall_congr' fun n => imp_congr_right fun _ => ?_
  rw [State.undriven, getLsbD_linesWhere]
  cases s.lines[n].mode <;> simp [Mode.driven]

/-- A payload of the right form, read. -/
theorem patternRequestOf_eq_some {f : Frame} {bank : Fin 4} (hb : f.byteAt 1 = countByte bank) (h2 : f.byteAt 2 ≠ 0)
    (h1 : 1 ≤ (f.byteAt 4).toNat) (h8 : (f.byteAt 4).toNat ≤ 8) (hl : f.payload.length = 5 + 3 * (f.byteAt 4).toNat)
    (hd : ∀ x ∈ stepsOf (f.payload.drop 5), 1 ≤ x.duration) :
    patternRequestOf f = some { bank := bank, lanes := f.byteAt 2, repeats := (f.byteAt 3).toNat
                                steps := stepsOf (f.payload.drop 5) } := by
  have hbank : (f.byteAt 1).toNat = bank := by rw [hb]; exact countByte_toNat_of_lt (by omega)
  have hlt : (f.byteAt 1).toNat < 4 := by omega
  unfold patternRequestOf
  rw [dif_pos hlt, if_pos ⟨hl, h2, h1, h8, List.all_eq_true.2 fun x hx => by simpa using hd x hx⟩]
  have : (⟨(f.byteAt 1).toNat, hlt⟩ : Fin 4) = bank := Fin.ext hbank
  rw [this]

end Sys2Proof.Machine
end

