-- ==== Sys2Proof/Laws/Lines.lean ====
section
/-! SUPPORT. What the checks of the line requests can do (R13), which field values are defined (R126), and the address of a two-wire
port (R130). -/

namespace Sys2Proof.Machine

/-! ### Defined values of one-byte fields -/

theorem modeOf_none : ∀ b : Byte, modeOf b = none ↔ ¬ b.toNat ≤ 3 := by decide

theorem bitOf_none : ∀ b : Byte, bitOf b = none ↔ ¬ b.toNat ≤ 1 := by decide

theorem filterOf_none : ∀ b : Byte, filterOf b = none ↔ ¬ b.toNat ≤ 3 := by decide

/-! ### The checks of SET_MODE, SET_FILTER and DRIVE (R13) -/

theorem lineRefusal_none {s : State} {h : HostId} {m : LineMask} (h1 : m &&& ~~~(linesHeldBy s.slots h) = 0)
    (h2 : ∀ (i : Fin 4) (p : Pattern), s.patterns[i] = some p → m &&& p.lines = 0) : s.lineRefusal h m = none := by
  rw [State.lineRefusal, if_neg (by simp [h1]), if_neg]
  simp only [Ne, not_not]
  exact (and_laneMask_eq_zero_iff s m).2 h2

/-- Everything a line request can do: a refusal, or the change of lines that belong to the host and are lanes of no pattern. -/
theorem changeLines_cases (s : State) (h : HostId) (m : LineMask) (change : Option (Fin 32 → LineRecord → LineRecord)) :
    (∃ r, s.changeLines h m change = s.refuse r) ∨
    (∃ f, change = some f ∧ m ≠ 0 ∧ m &&& ~~~(linesHeldBy s.slots h) = 0 ∧
      (∀ (i : Fin 4) (p : Pattern), s.patterns[i] = some p → m &&& p.lines = 0) ∧
      s.changeLines h m change = (s.onLines m f).done) := by
  rcases change with _ | f
  · exact .inl ⟨_, rfl⟩
  · by_cases h0 : m = 0
    · exact .inl ⟨.badArgument, by rw [State.changeLines, if_pos h0]⟩
    · by_cases h1 : m &&& ~~~(linesHeldBy s.slots h) = 0
      · by_cases h2 : m &&& s.laneMask = 0
        · have h3 := (and_laneMask_eq_zero_iff s m).1 h2
          refine .inr ⟨f, rfl, h0, h1, h3, ?_⟩
          simp only [State.changeLines]
          rw [if_neg h0, lineRefusal_none h1 h3]
        · refine .inl ⟨.lineBusy, ?_⟩
          simp only [State.changeLines, State.lineRefusal]
          rw [if_neg h0, if_neg (by simp [h1]), if_pos h2]
      · refine .inl ⟨.notOwner, ?_⟩
        simp only [State.changeLines, State.lineRefusal]
        rw [if_neg h0, if_pos h1]

/-! ### Events outside a device reset -/

theorem running_of_not_inReset {s : State} (h : s.inReset = false) (f : State → State) : s.running f = f s := by
  simp [State.running, h]

/-! ### Addresses (R130) -/

/-- An address byte names the port when its upper seven bits, read as a number, are the port's base plus ADR. -/
theorem addressOf_eq_ownAddress (s : State) (p : TwoWire) (byte : Byte) :
    addressOf byte = s.ownAddress p ↔ byte.toNat / 2 = (match p with | .a => 0x34 | .b => 0x38) + s.adr.toNat := by
  have h1 : (addressOf byte).toNat = byte.toNat / 2 := by
    have := byte.isLt
    simp [addressOf, BitVec.extractLsb'_toNat, Nat.shiftRight_eq_div_pow]; omega
  have h2 : (s.ownAddress p).toNat = (match p with | .a => 0x34 | .b => 0x38) + s.adr.toNat := by
    have := s.adr.isLt
    cases p <;> simp [State.ownAddress, BitVec.toNat_add, BitVec.toNat_setWidth] <;> omega
  rw [← h1, ← h2]
  exact ⟨fun e => congrArg BitVec.toNat e, fun e => BitVec.eq_of_toNat_eq e⟩

/-! ### Sums (R121) -/

theorem byteSum_append (a b : List Byte) : byteSum (a ++ b) = byteSum a + byteSum b := by
  induction a with
  | nil => simp [byteSum]
  | cons x xs ih =>
    show x + byteSum (xs ++ b) = x + byteSum xs + byteSum b
    rw [ih, BitVec.add_assoc]

end Sys2Proof.Machine
end

