-- ==== Sys2Proof/Laws/TimeBase.lean ====
section
/-! SUPPORT. The two-wire ports in time: what the operations on a bus leave unchanged, what a microsecond does
to a port's bus, when a step end, a hold limit and a stuck bus are due, and everything a step on an empty queue can do. -/

namespace Sys2Proof.Machine

/-! ### What the operations on a two-wire port's bus, a microsecond and a hold limit leave unchanged -/

@[simp] theorem TwoWireBus.enter_state (b : TwoWireBus) (st : TwoWireState) : (b.enter st).state = st := rfl
@[simp] theorem TwoWireBus.enter_holdMode (b : TwoWireBus) (st : TwoWireState) : (b.enter st).holdMode = b.holdMode := rfl
@[simp] theorem TwoWireBus.enter_stuckTime (b : TwoWireBus) (st : TwoWireState) : (b.enter st).stuckTime = b.stuckTime := rfl
@[simp] theorem TwoWireBus.enter_ack (b : TwoWireBus) (st : TwoWireState) : (b.enter st).ack = b.ack := rfl
@[simp] theorem TwoWireBus.enter_tx (b : TwoWireBus) (st : TwoWireState) : (b.enter st).tx = b.tx := rfl

@[simp] theorem TwoWireBus.answer_state (b : TwoWireBus) (a : Bool) : (b.answer a).state = b.state := rfl
@[simp] theorem TwoWireBus.answer_holdMode (b : TwoWireBus) (a : Bool) : (b.answer a).holdMode = b.holdMode := rfl
@[simp] theorem TwoWireBus.answer_stuckTime (b : TwoWireBus) (a : Bool) : (b.answer a).stuckTime = b.stuckTime := rfl
@[simp] theorem TwoWireBus.answer_ack (b : TwoWireBus) (a : Bool) : (b.answer a).ack = a := rfl
@[simp] theorem TwoWireBus.answer_tx (b : TwoWireBus) (a : Bool) : (b.answer a).tx = b.tx := rfl

@[simp] theorem TwoWireBus.send_state (b : TwoWireBus) (byte : Byte) : (b.send byte).state = b.state := rfl
@[simp] theorem TwoWireBus.send_holdMode (b : TwoWireBus) (byte : Byte) : (b.send byte).holdMode = b.holdMode := rfl
@[simp] theorem TwoWireBus.send_stuckTime (b : TwoWireBus) (byte : Byte) : (b.send byte).stuckTime = b.stuckTime := rfl
@[simp] theorem TwoWireBus.send_ack (b : TwoWireBus) (byte : Byte) : (b.send byte).ack = b.ack := rfl
@[simp] theorem TwoWireBus.send_tx (b : TwoWireBus) (byte : Byte) : (b.send byte).tx = byte := rfl

@[simp] theorem TwoWireBus.linesFree_state (b : TwoWireBus) (free : Bool) : (b.linesFree free).state = b.state := rfl
@[simp] theorem TwoWireBus.linesFree_holdMode (b : TwoWireBus) (free : Bool) : (b.linesFree free).holdMode = b.holdMode := rfl
@[simp] theorem TwoWireBus.linesFree_stuckTime (b : TwoWireBus) (free : Bool) : (b.linesFree free).stuckTime = if free then 0 else b.stuckTime := rfl
@[simp] theorem TwoWireBus.linesFree_ack (b : TwoWireBus) (free : Bool) : (b.linesFree free).ack = b.ack := rfl
@[simp] theorem TwoWireBus.linesFree_tx (b : TwoWireBus) (free : Bool) : (b.linesFree free).tx = b.tx := rfl

@[simp] theorem TwoWireBus.linesHigh_state (b : TwoWireBus) : (b.linesHigh).state = b.state := rfl
@[simp] theorem TwoWireBus.linesHigh_holdMode (b : TwoWireBus) : (b.linesHigh).holdMode = b.holdMode := rfl
@[simp] theorem TwoWireBus.linesHigh_stuckTime (b : TwoWireBus) : (b.linesHigh).stuckTime = 0 := rfl
@[simp] theorem TwoWireBus.linesHigh_ack (b : TwoWireBus) : (b.linesHigh).ack = b.ack := rfl
@[simp] theorem TwoWireBus.linesHigh_tx (b : TwoWireBus) : (b.linesHigh).tx = b.tx := rfl
/-- A byte that the port receives returns the stuck time to 0 when the port acknowledges it, when it has a 1 bit, and when SDA is high on an
acknowledge clock that the port leaves free (R140). -/
theorem freeInReceived_iff {p : TwoWire} {n : Nat} {byte : Byte} {ack : Bool} :
    freeInReceived p n byte ack = true ↔ ack = true ∨ byte ≠ 0 ∨ Config.sdaHeld p n = false := by
  simp [freeInReceived, or_assoc]

/-- A byte that the port sends returns the stuck time to 0 when the host refuses it, when it has a 0 bit, and when SDA is high on the clock of
a 1 bit (R140). -/
theorem freeInSent_iff {p : TwoWire} {n : Nat} {byte : Byte} {ack : Bool} :
    freeInSent p n byte ack = true ↔ ack = false ∨ byte ≠ 0xFF ∨ Config.sdaHeld p n = false := by
  simp [freeInSent, or_assoc]

/-- All that a received byte does to the buses. -/
theorem answerByte_eq (s : State) (p : TwoWire) (st : TwoWireState) (byte : Byte) (ack : Bool) :
    s.answerByte p st byte ack = s.mapBus p fun b =>
      { b with state := st, ack := ack
               stuckTime := if ack = true ∨ byte ≠ 0 ∨ Config.sdaHeld p s.micros = false then 0 else b.stuckTime } := by
  simp only [State.answerByte, TwoWireBus.linesFree, TwoWireBus.enter, TwoWireBus.answer, freeInReceived_iff]

/-- All that a sent byte does to the buses. -/
theorem showByte_eq (s : State) (p : TwoWire) (st : TwoWireState) (byte : Byte) (ack : Bool) :
    s.showByte p st byte ack = s.mapBus p fun b =>
      { b with state := st, tx := byte
               stuckTime := if ack = false ∨ byte ≠ 0xFF ∨ Config.sdaHeld p s.micros = false then 0 else b.stuckTime } := by
  simp only [State.showByte, TwoWireBus.linesFree, TwoWireBus.enter, TwoWireBus.send, freeInSent_iff]

@[simp] theorem freeInReceived_acknowledged (p : TwoWire) (n : Nat) (byte : Byte) : freeInReceived p n byte true = true := rfl
@[simp] theorem freeInSent_refused (p : TwoWire) (n : Nat) (byte : Byte) : freeInSent p n byte false = true := rfl

@[simp] theorem State.tick_pending (s : State) : s.tick.pending = s.pending := rfl
@[simp] theorem State.tick_inReset (s : State) : s.tick.inReset = s.inReset := rfl
@[simp] theorem State.tick_since (s : State) : s.tick.since = s.since := rfl
@[simp] theorem State.tick_selcLow (s : State) : s.tick.selcLow = s.selcLow := rfl
@[simp] theorem State.tick_adr (s : State) : s.tick.adr = s.adr := rfl
@[simp] theorem State.tick_supervisor (s : State) : s.tick.supervisor = s.supervisor := rfl
@[simp] theorem State.tick_resetCause (s : State) : s.tick.resetCause = s.resetCause := rfl
@[simp] theorem State.tick_rotation (s : State) : s.tick.rotation = s.rotation := rfl
@[simp] theorem State.tick_overtaken (s : State) : s.tick.overtaken = s.overtaken := rfl
@[simp] theorem State.tick_lines (s : State) : s.tick.lines = s.lines := rfl
@[simp] theorem State.tick_watches (s : State) : s.tick.watches = s.watches := rfl
@[simp] theorem State.tick_slots (s : State) : s.tick.slots = s.slots := rfl
@[simp] theorem State.tick_waitQueue (s : State) : s.tick.waitQueue = s.waitQueue := rfl
@[simp] theorem State.tick_ports (s : State) : s.tick.ports = s.ports := rfl
@[simp] theorem State.tick_fourWire (s : State) : s.tick.fourWire = s.fourWire := rfl
@[simp] theorem State.tick_micros (s : State) : s.tick.micros = s.micros + 1 := rfl

@[simp] theorem State.passHoldLimit_pending (s : State) (p : TwoWire) : (s.passHoldLimit p).pending = s.pending := rfl
@[simp] theorem State.passHoldLimit_inReset (s : State) (p : TwoWire) : (s.passHoldLimit p).inReset = s.inReset := rfl
@[simp] theorem State.passHoldLimit_since (s : State) (p : TwoWire) : (s.passHoldLimit p).since = s.since := rfl
@[simp] theorem State.passHoldLimit_selcLow (s : State) (p : TwoWire) : (s.passHoldLimit p).selcLow = s.selcLow := rfl
@[simp] theorem State.passHoldLimit_adr (s : State) (p : TwoWire) : (s.passHoldLimit p).adr = s.adr := rfl
@[simp] theorem State.passHoldLimit_supervisor (s : State) (p : TwoWire) : (s.passHoldLimit p).supervisor = s.supervisor := rfl
@[simp] theorem State.passHoldLimit_resetCause (s : State) (p : TwoWire) : (s.passHoldLimit p).resetCause = s.resetCause := rfl
@[simp] theorem State.passHoldLimit_rotation (s : State) (p : TwoWire) : (s.passHoldLimit p).rotation = s.rotation := rfl
@[simp] theorem State.passHoldLimit_overtaken (s : State) (p : TwoWire) : (s.passHoldLimit p).overtaken = s.overtaken := rfl
@[simp] theorem State.passHoldLimit_time (s : State) (p : TwoWire) : (s.passHoldLimit p).time = s.time := rfl
@[simp] theorem State.passHoldLimit_micros (s : State) (p : TwoWire) : (s.passHoldLimit p).micros = s.micros := rfl
@[simp] theorem State.passHoldLimit_lines (s : State) (p : TwoWire) : (s.passHoldLimit p).lines = s.lines := rfl
@[simp] theorem State.passHoldLimit_watches (s : State) (p : TwoWire) : (s.passHoldLimit p).watches = s.watches := rfl
@[simp] theorem State.passHoldLimit_slots (s : State) (p : TwoWire) : (s.passHoldLimit p).slots = s.slots := rfl
@[simp] theorem State.passHoldLimit_waitQueue (s : State) (p : TwoWire) : (s.passHoldLimit p).waitQueue = s.waitQueue := rfl
@[simp] theorem State.passHoldLimit_patterns (s : State) (p : TwoWire) : (s.passHoldLimit p).patterns = s.patterns := rfl
@[simp] theorem State.passHoldLimit_fourWire (s : State) (p : TwoWire) : (s.passHoldLimit p).fourWire = s.fourWire := rfl

/-- A step end is due when the step time of a RUNNING slot has gone to 0 (R70). -/
theorem stepDue_iff {s : State} {i : Fin 4} : s.stepDue i = true ↔ ∃ p, s.patterns[i] = some p ∧ p.timeLeft = 0 := by
  unfold State.stepDue
  rcases s.patterns[i] with _ | p <;> simp

theorem stepDue_none {s : State} {i : Fin 4} (h : s.patterns[i] = none) : s.stepDue i = false := by
  simp [State.stepDue, h]

theorem stepDue_some {s : State} {i : Fin 4} {p : Pattern} (h : s.patterns[i] = some p) :
    s.stepDue i = decide (p.timeLeft = 0) := by
  simp [State.stepDue, h]

/-- A hold limit is due when a hold has lasted 10 ms (R134). -/
theorem holdDue_iff {s : State} {p : TwoWire} :
    s.holdDue p = true ↔ ∃ (rx : RxRecord) (t : Nat), (s.bus p).state = .holding rx t ∧ 10000 ≤ t := by
  unfold State.holdDue
  split
  · rename_i rx t e
    refine decide_eq_true_iff.trans ⟨fun h => ⟨rx, t, e, h⟩, ?_⟩
    rintro ⟨rx', t', e', h⟩
    cases e.symm.trans e'
    exact h
  · rename_i other
    exact ⟨fun h => absurd h (by decide), fun ⟨rx, t, e, _⟩ => absurd e (other rx t)⟩

theorem holdDue_of_not_holding {s : State} {p : TwoWire}
    (h : ∀ (rx : RxRecord) (t : Nat), (s.bus p).state ≠ .holding rx t) : s.holdDue p = false := by
  rw [Bool.eq_false_iff, ne_eq, holdDue_iff]
  rintro ⟨rx, t, e, -⟩
  exact h rx t e

/-- A bus is found stuck when the stuck time of a port that is neither HOLDING nor RESETTING has reached 35 ms (R140). -/
theorem stuckDue_iff {s : State} {p : TwoWire} :
    s.stuckDue p = true ↔ (s.bus p).state ≠ .resetting ∧
      (∀ (rx : RxRecord) (t : Nat), (s.bus p).state ≠ .holding rx t) ∧ 35000 ≤ (s.bus p).stuckTime := by
  unfold State.stuckDue
  split
  · exact ⟨fun h => absurd h (by decide), fun h => absurd ‹_› (h.2.1 _ _)⟩
  · exact ⟨fun h => absurd h (by decide), fun h => absurd ‹_› h.1⟩
  · rename_i nh nr
    exact decide_eq_true_iff.trans ⟨fun h => ⟨nr, nh, h⟩, fun h => h.2.2⟩

/-- A microsecond of a hold: the hold lasts longer, and no stuck time is measured (R131, R140). -/
theorem TwoWireBus.tick_holding {b : TwoWireBus} {rx : RxRecord} {t : Nat} (h : b.state = .holding rx t) (low : Bool) :
    b.tick low = { b with state := .holding rx (t + 1), stuckTime := 0 } := by simp [TwoWireBus.tick, h]

/-- A RESETTING port measures no stuck time (R142). -/
theorem TwoWireBus.tick_resetting {b : TwoWireBus} (h : b.state = .resetting) (low : Bool) : b.tick low = b := by
  simp [TwoWireBus.tick, h]

/-- In every other state the stuck time runs while another party holds a line low, and else returns to 0 (R140). -/
theorem TwoWireBus.tick_measures {b : TwoWireBus} (n : b.state ≠ .resetting)
    (h : ∀ (rx : RxRecord) (t : Nat), b.state ≠ .holding rx t) (low : Bool) :
    b.tick low = { b with stuckTime := if low then b.stuckTime + 1 else 0 } := by
  unfold TwoWireBus.tick
  split
  · exact absurd ‹_› (h _ _)
  · exact absurd ‹_› n
  · rfl

/-- What a microsecond makes of the bus of either port. -/
theorem bus_tick (s : State) (p : TwoWire) : s.tick.bus p = (s.bus p).tick (heldLow p s.micros) := by cases p <;> rfl

/-- The lowest slot whose step end is due. -/
theorem dueStep_eq_some {s : State} {i : Fin 4} (h : s.stepDue i = true) (low : ∀ j : Fin 4, j < i → s.stepDue j = false) :
    s.dueStep = some i := by
  have l0 := low 0
  have l1 := low 1
  have l2 := low 2
  have e : s.dueStep = ([0, 1, 2, 3] : List (Fin 4)).find? s.stepDue := rfl
  rw [e]
  match i, h with
  | 0, h => simp [List.find?, h]
  | 1, h => simp [List.find?, h, l0 (by decide)]
  | 2, h => simp [List.find?, h, l0 (by decide), l1 (by decide)]
  | 3, h => simp [List.find?, h, l0 (by decide), l1 (by decide), l2 (by decide)]

theorem dueStep_eq_none {s : State} (h : ∀ i : Fin 4, s.stepDue i = false) : s.dueStep = none := by
  rw [State.dueStep, List.find?_eq_none]
  intro i _
  rw [h i]
  decide

/-- A step end taken by an empty queue is the one PATTERN_STEP_END takes. -/
theorem idle_of_dueStep {s : State} {i : Fin 4} (h : s.dueStep = some i) : exec (.patternStepEnd i) s = .next s.idle := by
  have due : s.stepDue i = true := List.find?_some h
  simp only [exec, execPatternStepEnd, State.idle, State.running, h, due, if_true]

/-- A hold limit taken by an empty queue is the one HOLD_LIMIT takes. -/
theorem idle_of_dueHold {s : State} {p : TwoWire} (n : s.dueStep = none) (h : s.dueHold = some p) :
    exec (.holdLimit p) s = .next s.idle := by
  have due : s.holdDue p = true := List.find?_some h
  simp only [exec, execHoldLimit, State.idle, State.running, n, h, due, if_true]

/-- A stuck bus found by an empty queue is found as STUCK_BUS finds it. -/
theorem idle_of_dueStuck {s : State} {p : TwoWire} (n : s.dueStep = none) (m : s.dueHold = none) (h : s.dueStuck = some p) :
    exec (.stuckBus p) s = .next s.idle := by
  have due : s.stuckDue p = true := List.find?_some h
  simp only [exec, execStuckBus, State.idle, State.running, n, m, h, due, if_true]

theorem idle_of_none {s : State} (r : s.inReset = false) (n : s.dueStep = none) (m : s.dueHold = none) (k : s.dueStuck = none) :
    s.idle = s.tick := by
  simp only [State.idle, State.running, r, n, m, k]
  rfl

theorem stuckDue_of_dueStuck_none {s : State} (h : s.dueStuck = none) (p : TwoWire) : s.stuckDue p = false := by
  rw [State.dueStuck, List.find?_eq_none] at h
  exact Bool.eq_false_iff.2 (h p (by cases p <;> decide))

/-- Everything a step on an empty queue can do: nothing, a step end, a hold limit, a stuck bus, or a microsecond while no bus is due to be
found stuck. -/
theorem idle_cases (s : State) :
    s.idle = s ∨ (∃ i, exec (.patternStepEnd i) s = .next s.idle) ∨ (∃ p, exec (.holdLimit p) s = .next s.idle) ∨
      (∃ p, exec (.stuckBus p) s = .next s.idle) ∨
      (s.inReset = false ∧ (∀ p, s.stuckDue p = false) ∧ s.idle = s.tick) := by
  rcases hr : s.inReset with _ | _
  · rcases n : s.dueStep with _ | i
    · rcases m : s.dueHold with _ | p
      · rcases k : s.dueStuck with _ | p
        · exact .inr (.inr (.inr (.inr ⟨rfl, stuckDue_of_dueStuck_none k, idle_of_none hr n m k⟩)))
        · exact .inr (.inr (.inr (.inl ⟨p, idle_of_dueStuck n m k⟩)))
      · exact .inr (.inr (.inl ⟨p, idle_of_dueHold n m⟩))
    · exact .inr (.inl ⟨i, idle_of_dueStep n⟩)
  · exact .inl (by simp only [State.idle, State.running, hr]; rfl)

end Sys2Proof.Machine
end

