-- ==== Sys2Proof/Laws/Transfers.lean ====
section
/-! SUPPORT. How an inbound byte is judged by its place, and the receive record it leaves (R135, R148). -/

namespace Sys2Proof.Machine

/-- The byte at this place is the check byte: N + 3 bytes came before it. -/
def RxRecord.AtCheck (rx : RxRecord) : Prop := 3 ≤ rx.bytes.length ∧ ∃ n : Byte, rx.len = some n ∧ rx.bytes.length = n.toNat + 3

/-- The record after a byte that is counted and summed and is no length, with a mark. -/
def RxRecord.counted (rx : RxRecord) (byte : Byte) (m : RxMark) : RxRecord :=
  { bytes := rx.bytes ++ [byte], len := rx.len, sum := rx.sum + byte, mark := m }

theorem keep_of_ne_length {rx : RxRecord} {byte : Byte} (h : ¬ (rx.bytes.length = 2 ∧ byte.toNat ≤ 32)) (m : RxMark) :
    { rx.keep byte with mark := m } = rx.counted byte m := by
  have e : (rx.keep byte).len = rx.len := if_neg h
  simp only [e]
  rfl

/-- A first byte of 0x00 makes a NOP. -/
theorem judge_opening {rx : RxRecord} (h : rx.bytes.length = 0) : rx.judge 0 = .nop ∧ rx.receive 0 = rx.counted 0 .nop := by
  have j : rx.judge 0 = .nop := by simp [RxRecord.judge, h]
  exact ⟨j, by rw [RxRecord.receive, j]; exact keep_of_ne_length (by omega) _⟩

/-- A length above 32 is an error. -/
theorem judge_length {rx : RxRecord} {byte : Byte} (h : rx.bytes.length = 2) (long : 32 < byte.toNat) :
    rx.judge byte = .badLength ∧ rx.receive byte = rx.counted byte .error := by
  have j : rx.judge byte = .badLength := by
    rw [RxRecord.judge, if_neg (by omega), if_pos h, if_neg (by simp only [Config.maxPayload]; omega)]
  exact ⟨j, by rw [RxRecord.receive, j]; exact keep_of_ne_length (by omega) _⟩

theorem judge_at_check {rx : RxRecord} (byte : Byte) (h : rx.AtCheck) :
    rx.judge byte = if rx.sum + byte = 0 then .good else .badCheck := by
  obtain ⟨h3, n, hn, hl⟩ := h
  rw [RxRecord.judge, if_neg (by omega), if_neg (by omega), if_pos (by rw [hn]; exact hl)]

/-- A check byte with which the frame does not sum to 0 is an error. -/
theorem judge_bad_check {rx : RxRecord} {byte : Byte} (h : rx.AtCheck) (bad : rx.sum + byte ≠ 0) :
    rx.judge byte = .badCheck ∧ rx.receive byte = rx.counted byte .error := by
  have j : rx.judge byte = .badCheck := by rw [judge_at_check byte h, if_neg bad]
  exact ⟨j, by rw [RxRecord.receive, j]; exact keep_of_ne_length (by have := h.1; omega) _⟩

/-- A check byte with which the frame sums to 0 completes it. -/
theorem judge_good_check {rx : RxRecord} {byte : Byte} (h : rx.AtCheck) (good : rx.sum + byte = 0) :
    rx.judge byte = .good ∧ rx.receive byte = rx.counted byte .done := by
  have j : rx.judge byte = .good := by rw [judge_at_check byte h, if_pos good]
  exact ⟨j, by rw [RxRecord.receive, j]; exact keep_of_ne_length (by have := h.1; omega) _⟩

/-- Every other byte is kept: opcode, tag, length or payload. -/
theorem judge_accepted {rx : RxRecord} {byte : Byte} (h0 : rx.bytes.length = 0 → byte ≠ 0)
    (h2 : rx.bytes.length = 2 → byte.toNat ≤ 32) (h3 : 3 ≤ rx.bytes.length → rx.len ≠ none) (h : ¬ rx.AtCheck) :
    rx.judge byte = .accepted ∧ rx.receive byte =
      { bytes := rx.bytes ++ [byte], len := if rx.bytes.length = 2 then some byte else rx.len, sum := rx.sum + byte
        mark := .unmarked } := by
  have j : rx.judge byte = .accepted := by
    rw [RxRecord.judge]
    split
    · rename_i e
      rw [if_neg (h0 e)]
    · split
      · rename_i e
        rw [if_pos (show byte.toNat ≤ Config.maxPayload from h2 e)]
      · rw [if_neg]
        intro e
        have le : 3 ≤ rx.bytes.length := by omega
        obtain ⟨n, hn⟩ := Option.ne_none_iff_exists'.1 (h3 le)
        exact h ⟨le, n, hn, by rw [hn] at e; exact e⟩
  refine ⟨j, ?_⟩
  rw [RxRecord.receive, j]
  have e : (rx.bytes.length = 2 ∧ byte.toNat ≤ Config.maxPayload) = (rx.bytes.length = 2) :=
    propext ⟨And.left, fun g => ⟨g, h2 g⟩⟩
  simp only [RxRecord.keep, e]
  rfl

/-- The frame in a complete record: opcode, tag and payload (R118). -/
theorem frame_counted {rx : RxRecord} {byte opcode tag length : Byte} {payload : List Byte} {m : RxMark} (h : rx.AtCheck)
    (e : rx.bytes = [opcode, tag, length] ++ payload) :
    (rx.counted byte m).frame = { opcode := opcode, tag := tag, payload := payload } := by
  obtain ⟨-, n, hn, hl⟩ := h
  have l : payload.length = n.toNat := by
    rw [e] at hl
    simp at hl
    omega
  simp [RxRecord.frame, RxRecord.counted, hn, e, ← l]

end Sys2Proof.Machine
end

