-- ==== Sys2Proof/WellFormed.lean ====
section
/-! DEFINITION. Which commands are well formed. The operand types carry every range but one: the direction bit of
an address byte, bit 0, is 0 for a write and 1 for a read (R130). -/

namespace Sys2Proof

/-- The direction bit of an address byte (R130). -/
def directionBit (byte : Byte) : Bool := byte.getLsbD 0

/-- A command that can name an event of the block. -/
def Instr.wellFormed : Instr → Bool
  | .writeAddress _ byte => !directionBit byte
  | .readAddress _ byte => directionBit byte
  | .identify => true
  | .status => true
  | .configPort => true
  | .resetPort _ _ => true
  | .claimNow => true
  | .claimWait => true
  | .cancelWait => true
  | .release _ => true
  | .trim _ => true
  | .renew => true
  | .queryHolding => true
  | .listHoldings => true
  | .setMode _ => true
  | .setFilter => true
  | .drive => true
  | .setSafe _ => true
  | .sample => true
  | .startPattern => true
  | .stopPattern => true
  | .queryPattern => true
  | .watch => true
  | .unwatch => true
  | .revoke _ => true
  | .fullReset => true
  | .unknownOpcodeRequest => true
  | .intervalBoundary => true
  | .leaseExpiry _ _ => true
  | .waitExpiry _ _ => true
  | .patternStepEnd _ => true
  | .lineSample _ _ => true
  | .startCondition _ => true
  | .holdLimit _ => true
  | .writeByte _ _ => true
  | .stopCondition _ => true
  | .readByte _ _ => true
  | .stuckBus _ => true
  | .portResetNotice _ _ => true
  | .selcFall => true
  | .exchangeByte _ => true
  | .selcRise _ => true
  | .resetnLow => true
  | .supplyLoss => true
  | .resetRelease _ _ => true
  | .addressNotAcknowledged _ _ => true

end Sys2Proof
end

