-- ==== Sys2Proof/Tests/Slice0.lean ====
section
/-! SUPPORT. Tests on small states. Each takes the premises of a statement on concrete operands (its witness) and checks one or
two fields of the step, with values read from the spec: its worked examples, or its tables where it works none. -/

open Sys2Proof Sys2Proof.Machine

namespace Sys2Proof.Tests

/-! ### Helpers -/

/-- The state after one command. -/
def after (c : Instr) (s : State) : State :=
  match exec c s with
  | .next t => t
  | .fault _ => s
  | .refused _ => s

/-- The state after one step. -/
def stepped (s : State) : State :=
  match step s with
  | .next t => t
  | .fault _ => s
  | .refused _ => s

/-- The state after some commands. -/
def run (cs : List Instr) (s : State) : State := cs.foldl (fun t c => after c t) s

/-- A request frame. -/
def frame (opcode : Byte) (payload : List Byte) : Frame := { opcode := opcode, tag := 0x77, payload := payload }

/-- The state with one request queue set to one frame. -/
def asked (h : HostId) (f : Frame) (s : State) : State := s.mapPort h fun p => { p with requests := [f] }

/-- The status and payload of the newest reply of a port, whose tag is that of the frame. -/
def answered (h : HostId) (c : Instr) (s : State) : Option (Status × List Byte) :=
  ((after c s).port h).replies.getLast?.map fun r => (r.status, r.payload)

/-- The record of an owned line in a mode, with a safe record of its own. -/
def lineIn (m : Mode) (level : Bool) : LineRecord :=
  { mode := m, level := level, pullUp := false, filter := .none, filtered := level, settling := 0
    safe := { mode := .openDrain, level := true, pullUp := true } }

/-- Three hosts at work (after 10.6's worked example): A holds L0 to L3 unleased in H0 and drives L0 and L1 by P0, B holds L8 and L9
leased in H1, A has an ENDED slot H2, A waits for L8 until its time runs out, C waits for L8 and L12 without limit. C supervises. -/
def busy : State :=
  { State.reset with
    supervisor := some .c
    lines := tabulate fun n =>
      if n.val < 2 then lineIn .pushPull (decide (n.val = 1))
      else if n.val = 2 then { lineIn .input true with filter := .f10us, settling := 9 }
      else if n.val = 8 then lineIn .openDrain true
      else LineRecord.reset
    slots := tabulate fun k =>
      if k.val = 0 then { gen := 1, body := .held .a 0xF 0x10 none }
      else if k.val = 1 then { gen := 3, body := .held .b 0x300 0x20 (some { period := 50, remaining := 0 }) }
      else if k.val = 2 then { gen := 2, body := .ended .a 0x11 (some { period := 5, remaining := 0 }) .leaseExpired }
      else { gen := 0, body := .free }
    waitQueue :=
      [{ host := .a, tag := 0x30, lines := 0x100, period := 0, remaining := some 0 },
       { host := .c, tag := 0x40, lines := 0x1100, period := 0, remaining := none }]
    patterns := tabulate fun i =>
      if i.val = 0 then
        some { handle := 0x01, tag := 0x60, bank := 0, lanes := 0x03
               steps := [{ level := 0x02, duration := 500 }, { level := 0x01, duration := 1 }]
               repeats := 2, current := 0, passes := some 2, timeLeft := 260 }
      else none }

/-- The lease of a HELD slot. -/
def leaseOf (x : Slot) : Option Lease :=
  match x.body with
  | .held _ _ _ lease => lease
  | .ended _ _ _ _ => none
  | .free => none

/-- Every slot HELD, each of one line. -/
def full : State :=
  { State.reset with
    slots := tabulate fun k => { gen := 1, body := .held .b (1 <<< k.val) 0x20 none } }

/-- A waiting entry for L8, without lease and without limit. -/
def entry (h : HostId) (tag : Byte) : WaitEntry := { host := h, tag := tag, lines := 0x100, period := 0, remaining := none }

/-- The state with the step time of every RUNNING slot at 0. -/
def elapsed (s : State) : State :=
  { s with patterns := tabulate fun i => s.patterns[i].map fun p => { p with timeLeft := 0 } }

/-- `busy` in a device reset. -/
def resetting : State := { busy with inReset := true }

/-! ### Form -/

theorem test_write_address_wants_direction_0 :
    (Instr.writeAddress .a 0x69).wellFormed = false ∧ (Instr.writeAddress .a 0x68).wellFormed = true := by decide

theorem test_read_address_wants_direction_1 :
    (Instr.readAddress .b 0x70).wellFormed = false ∧ (Instr.readAddress .b 0x71).wellFormed = true := by decide

theorem test_no_word_spells_a_command : decodeTableWord 8 0x01 = none ∧ decodeTableWord 16 0xFFFF = none := by decide

theorem test_step_takes_the_front :
    (stepped { State.reset with pending := [.selcFall, .identify] }).pending = [.identify] ∧
      (stepped { State.reset with pending := [.selcFall, .identify] }).selcLow = true := by decide

theorem test_fetch_word_changes_nothing : (busy.withFetchWord 8 1).pending = busy.pending := by decide

/-! ### Steps on an empty queue -/

/-- With nothing due a microsecond passes: the count wraps from 65535 to 0 (R113), and at a 10 µs boundary the step time decreases
by 1 (R70). -/
theorem test_idle_step_ticks :
    let s := { busy with time := { count := 0xFFFF, micro := 99 } }
    s.pending = [] ∧ s.inReset = false ∧ (∀ i : Fin 4, ¬ ∃ p, s.patterns[i] = some p ∧ p.timeLeft = 0) ∧
      (∀ q : TwoWire, ¬ ∃ (rx : RxRecord) (t : Nat), (s.bus q).state = .holding rx t ∧ 10000 ≤ t) ∧
      (∀ q : TwoWire, ¬ ((s.bus q).state ≠ .resetting ∧ (∀ (rx : RxRecord) (t : Nat), (s.bus q).state ≠ .holding rx t) ∧
        35000 ≤ (s.bus q).stuckTime)) ∧
      (stepped s).time = { count := 0, micro := 0 } ∧ (stepped s).micros = 1 ∧
      ((stepped s).patterns[(0 : Fin 4)]).map Pattern.timeLeft = some 259 := by
  simp only [← stepDue_iff, ← holdDue_iff, ← stuckDue_iff]
  refine ⟨rfl, rfl, by decide, ?_, ?_, by decide, by decide, by decide⟩ <;> intro q <;> cases q <;> decide

/-- The boundary at which the step time goes to 0 is followed by the step end before any time passes (R70). -/
theorem test_idle_step_ends_a_step :
    let q : Pattern := { handle := 0x01, tag := 0x61, bank := 0, lanes := 0x01, steps := [{ level := 1, duration := 7 }], repeats := 0
                         current := 0, passes := none, timeLeft := 1 }
    let s := { busy with time := { count := 3, micro := 9 }, patterns := busy.patterns.set 3 (some q) }
    let t := stepped s
    (∃ p, t.patterns[(3 : Fin 4)] = some p ∧ p.timeLeft = 0) ∧
      (∀ j : Fin 4, j < 3 → ¬ ∃ p, t.patterns[j] = some p ∧ p.timeLeft = 0) ∧
      stepped t = after (.patternStepEnd 3) t ∧ (stepped t).time = t.time ∧
      ((stepped t).patterns[(3 : Fin 4)]).map Pattern.timeLeft = some 7 := by
  simp only [← stepDue_iff]
  exact ⟨by decide, by decide, rfl, by decide, by decide⟩

/-- A hold is timed to 10 ms, and then its limit passes, on Port A first (R134). -/
theorem test_idle_step_times_a_hold :
    let s := (State.reset.mapBus .a fun b => { b with state := .holding RxRecord.empty 9999 }).mapBus .b fun b =>
      { b with state := .holding RxRecord.empty 10000 }
    let t := s.tick
    (¬ ∃ (rx : RxRecord) (n : Nat), (s.bus .a).state = .holding rx n ∧ 10000 ≤ n) ∧
      (∃ (rx : RxRecord) (n : Nat), (s.bus .b).state = .holding rx n ∧ 10000 ≤ n) ∧
      ((t.bus .a).state = .holding RxRecord.empty 10000) ∧
      (∃ (rx : RxRecord) (n : Nat), (t.bus .a).state = .holding rx n ∧ 10000 ≤ n) ∧
      stepped s = after (.holdLimit .b) s ∧ stepped t = after (.holdLimit .a) t := by
  simp only [← holdDue_iff]
  decide

/-- A port whose stuck time has reached 35 ms is found stuck, Port A first; at 34.999 ms it is not (R140). -/
theorem test_idle_step_finds_a_stuck_bus :
    let s := (State.reset.mapBus .a fun b => { b with stuckTime := 34999 }).mapBus .b fun b => { b with stuckTime := 35000 }
    let t := s.mapBus .a fun b => { b with state := .address, stuckTime := 35000 }
    (∀ i : Fin 4, s.stepDue i = false) ∧ (∀ q : TwoWire, s.holdDue q = false) ∧
      s.stuckDue .a = false ∧ s.stuckDue .b = true ∧ t.stuckDue .a = true ∧
      stepped s = after (.stuckBus .b) s ∧ stepped t = after (.stuckBus .a) t := by
  refine ⟨by decide, ?_, by decide, by decide, by decide, by decide, by decide⟩
  intro q
  cases q <;> decide

/-- The stuck time runs while another party holds a line low, and not in HOLDING and RESETTING (R140). -/
theorem test_microsecond_measures_the_stuck_time :
    let b := { TwoWireBus.reset with stuckTime := 7 }
    (b.tick true).stuckTime = 8 ∧ (b.tick false).stuckTime = 0 ∧
      ({ b with state := .resetting }.tick true).stuckTime = 7 ∧
      ({ b with state := .holding RxRecord.empty 3 }.tick true).stuckTime = 0 := by decide

theorem test_idle_step_stands_still_in_reset :
    resetting.pending = [] ∧ resetting.inReset = true ∧ stepped resetting = resetting := by decide

/-! ### Intake -/

/-- The rotation example of 6.2 before take 2: the pointer is at B, whose reply queue is full. -/
def rotationState : State :=
  { State.reset with
    rotation := .b
    ports :=
      { a := { Port.reset with requests := [frame 0x01 []], replies := [replyTo (frame 0x01 []) .ok []] }
        b := { Port.reset with requests := [frame 0x01 []], replies := List.replicate 4 (replyTo (frame 0x01 []) .ok []) }
        c := { Port.reset with requests := [frame 0x02 [], frame 0x24 [], frame 0x24 []] } } }

theorem test_full_reply_queue_is_passed_over :
    rotationState.nextRequest = some (.c, frame 0x02 []) ∧ rotationState.inReset = false ∧
      rotationState.intakeHeld = false ∧ (rotationState.take .c).rotation = .a := by decide

/-- Take 4 of the same example: host B has read one reply. -/
theorem test_search_begins_at_the_pointer :
    (rotationState.mapPort .b fun p => { p with replies := p.replies.drop 1 }).nextRequest = some (.b, frame 0x01 []) := by
  decide

/-- A place that frees ends the hold (R134). -/
theorem test_take_ends_a_hold :
    let s := (asked .a (frame 0x01 []) .reset).mapBus .a fun b => { b with state := .holding RxRecord.empty 7 }
    (s.bus .a).state = .holding RxRecord.empty 7 ∧ ((s.take .a).bus .a).state = .receiving RxRecord.empty ∧
      ((s.take .a).bus .a).stuckTime = 0 ∧
      ((s.take .a).port .a).requests = [] := by decide

/-- A due expiry that one request has overtaken holds the intake back (R102). -/
theorem test_one_request_overtakes_an_expiry :
    let s := (busy.mapPort .a fun p => { p with requests := [frame 0x01 [], frame 0x01 []] })
    s.nextRequest = some (.a, frame 0x01 []) ∧ (after .identify s).nextRequest = none := by decide

/-! ### Validation -/

theorem test_unknown_opcode :
    let s := asked .a (frame 0x05 [1, 2, 3]) busy
    s.nextRequest = some (.a, frame 0x05 [1, 2, 3]) ∧
      (0x05 : Byte) ∉ [(0x01 : Byte), 0x02, 0x03, 0x04, 0x10, 0x11, 0x12, 0x13, 0x14, 0x15, 0x16, 0x17, 0x20, 0x21, 0x22,
        0x23, 0x24, 0x30, 0x31, 0x32, 0x40, 0x41, 0x50, 0x51] ∧
      answered .a .unknownOpcodeRequest s = some (.badOpcode, []) := by decide

/-- The length is judged before the supervisor (R104). -/
theorem test_bad_length_first :
    let s := asked .a (frame 0x50 [1, 2]) busy
    s.nextRequest = some (.a, frame 0x50 [1, 2]) ∧ opcodeByte .revoke = 0x50 ∧
      lengthAccepted .revoke (frame 0x50 [1, 2]).payload.length = false ∧
      answered .a (requestCommand .revoke 0 0) s = some (.badLength, []) := by decide

/-- START_PATTERN's lengths are 8 to 29 (R105). -/
theorem test_start_pattern_lengths :
    (List.range 40).filter (lengthAccepted .startPattern) = (List.range' 8 22) := by decide

theorem test_supervisor_only :
    let s := asked .a (frame 0x50 [0x01]) busy
    s.Next .revoke .a (frame 0x50 [0x01]) ∧ lengthAccepted .revoke 1 = true ∧ s.supervisor ≠ some .a ∧
      answered .a (requestCommand .revoke 0 0) s = some (.notPermitted, []) := by decide

/-- With no supervisor no host may send FULL_RESET (R106). -/
theorem test_no_supervisor_no_full_reset :
    let s := asked .c (frame 0x51 []) .reset
    s.Next .fullReset .c (frame 0x51 []) ∧ lengthAccepted .fullReset 0 = true ∧ s.supervisor ≠ some .c ∧
      answered .c (requestCommand .fullReset 0 0) s = some (.notPermitted, []) ∧
      (after .fullReset s).inReset = false := by decide

theorem test_other_opcodes_pass :
    let s := asked .a (frame 0x01 []) busy
    s.Next .identify .a (frame 0x01 []) ∧ lengthAccepted .identify 0 = true ∧
      (s.take .a).validate .identify .a (frame 0x01 []) = none := by decide

/-! ### Device requests -/

/-- The part's identity, supervisor C, port B, cause PIN and a count of 0x1234, least significant byte first (R113, R120, R126). -/
theorem test_identify :
    let s := asked .b (frame 0x01 []) { busy with resetCause := .pin, time := { count := 0x1234, micro := 5 } }
    s.Valid .identify .b (frame 0x01 []) ∧
      answered .b .identify s = some (.ok, [0x03, 0x32, 0x01, 0x03, 0x02, 0x02, 0x34, 0x12]) := by decide

/-- Flags RESET_SEEN and EVENT_OVERFLOW, then none; A's queues, one waiting entry, one HELD and one ENDED slot (R114). -/
theorem test_status :
    let s := (asked .a (frame 0x02 []) busy).mapPort .a fun p =>
      { p with requests := [frame 0x02 [], frame 0x01 []], replies := [replyTo (frame 0x01 []) .ok []]
               events := [.granted 1 2, .granted 3 4], flags := { p.flags with eventOverflow := true } }
    s.Valid .status .a (frame 0x02 []) ∧ answered .a .status s = some (.ok, [0x09, 1, 1, 2, 1, 1, 1]) ∧
      ((after .status s).port .a).flags =
        { resetSeen := false, frameError := false, requestOverrun := false, eventOverflow := false } := by decide

theorem test_config_port_writes :
    let f := frame 0x03 [0x07, 0x01, 0x01]
    let s := asked .a f busy
    s.Valid .configPort .a f ∧ f.byteAt 0 &&& 0xF8 = 0 ∧ (f.byteAt 1).toNat ≤ 1 ∧ (f.byteAt 2).toNat ≤ 1 ∧
      answered .a .configPort s = some (.ok, []) ∧ ((after .configPort s).bus .a).holdMode = .hold ∧
      ((after .configPort s).port .a).policy = .release := by decide

theorem test_config_port_refuses :
    ∀ f ∈ [frame 0x03 [0x08, 0, 0], frame 0x03 [0, 2, 0], frame 0x03 [0, 0, 2]],
      (asked .c f busy).Valid .configPort .c f ∧
      (f.byteAt 0 &&& 0xF8 ≠ 0 ∨ 1 < (f.byteAt 1).toNat ∨ 1 < (f.byteAt 2).toNat) ∧
      answered .c .configPort (asked .c f busy) = some (.badArgument, []) := by decide

/-- A PUSH_PULL line drives its level, an OPEN_DRAIN line at 1 nothing, and no line anything in a device reset (R2 to R4). -/
theorem test_pads :
    busy.padDrive 0 = .low ∧ busy.padDrive 1 = .high ∧ busy.padDrive 8 = .highZ ∧ resetting.padDrive 1 = .highZ ∧
      { busy with lines := busy.lines.set 2 { busy.lines[(2 : Fin 32)] with pullUp := true } }.padPullUp 2 = true := by decide

/-- The reset mask enables replies and events, and not room (R153). -/
theorem test_attention :
    busy.attention .a = false ∧ (busy.mapPort .a fun p => { p with events := [.granted 1 2] }).attention .a = true ∧
      (busy.mapPort .a fun p => { p with mask := { p.mask with requestRoom := true } }).attention .a = true ∧
      (resetting.mapPort .a fun p => { p with events := [.granted 1 2] }).attention .a = false := by decide

/-- RESET_PORT of host A under KEEP (10.6's worked example): the reply is the one entry of its queues. -/
theorem test_reset_port_keep :
    let s := ((asked .a (frame 0x04 []) busy).mapPort .a fun p =>
      { p with requests := p.requests ++ [frame 0x23 []], flags := { p.flags with eventOverflow := true } }).writeWatches
        .a 0x20 .both
    let t := after (.resetPort 0 0) s
    s.Valid .resetPort .a (frame 0x04 []) ∧ (s.port .a).policy = .keep ∧
      (t.port .a).requests = [] ∧ (t.port .a).replies = [replyTo (frame 0x04 []) .ok []] ∧
      (t.port .a).flags = { PortFlags.cleared with resetSeen := true } ∧ t.waitQueue.map WaitEntry.tag = [0x40] ∧
      (t.watches.get .a)[(5 : Fin 32)] = .none ∧ t.slots = s.slots ∧ t.patterns = s.patterns := by decide

/-- Under RELEASE the HELD and the ENDED slot go FREE, P0 is aborted with no event, and the lines take their safe states. -/
theorem test_reset_port_release :
    let s := (asked .a (frame 0x04 []) busy).mapPort .a fun p => { p with policy := .release }
    let t := after (.resetPort 0 0) s
    s.Valid .resetPort .a (frame 0x04 []) ∧ (s.port .a).policy = .release ∧
      t.slots[(0 : Fin 16)] = { gen := 1, body := .free } ∧ t.slots[(2 : Fin 16)] = { gen := 2, body := .free } ∧
      t.patterns[(0 : Fin 4)] = none ∧ t.lines[(0 : Fin 32)].mode = .openDrain ∧ (t.port .a).events = [] := by decide

/-- A read under way is broken off with the byte that is on the bus (R143). -/
theorem test_reset_port_abandons_a_read :
    let out : OutSelection := { source := .event, bytes := [2, 0, 3, 0, 1, 5, 0xF5], sent := 2, inTransit := true }
    let s := (asked .a (frame 0x04 []) busy).mapBus .a fun b => { b with state := .sending out false }
    s.Valid .resetPort .a (frame 0x04 []) ∧ s.selection .a = some out ∧
      (after (.resetPort 0 3) s).selection .a = some { out with bytes := [2, 0, 3], inTransit := false } ∧
      (after (.resetPort 0 0) s).selection .a = some { out with bytes := [2, 0], inTransit := false } := by decide

/-- The bytes of a write under way and the hold mode are kept; a hold ends in an empty record (R143, R151). -/
theorem test_reset_port_keeps_a_write :
    let rx : RxRecord := { bytes := [0x10, 0x10], len := none, sum := 0x20, mark := .unmarked }
    let s := fun st : TwoWireState => (asked .a (frame 0x04 []) busy).mapBus .a fun b => { b with state := st, holdMode := .hold }
    (s (.receiving rx)).Valid .resetPort .a (frame 0x04 []) ∧ (s (.holding RxRecord.empty 7)).Valid .resetPort .a (frame 0x04 []) ∧
      (after (.resetPort 0 0) (s (.receiving rx))).bus .a = (s (.receiving rx)).bus .a ∧
      (after (.resetPort 0 0) (s (.holding RxRecord.empty 7))).bus .a = (s (.receiving RxRecord.empty)).bus .a := by decide

/-- Port C's first byte is under way from the fall of SELC on (R144); a later byte is, once a bit of it is clocked (R150, log 10). -/
theorem test_reset_port_abandons_an_exchange :
    let out : OutSelection := { source := .event, bytes := [2, 0, 3, 0, 1, 5, 0xF5], sent := 0, inTransit := true }
    let s := fun n : Nat => asked .c (frame 0x04 [])
      { busy with selcLow := true, fourWire := { state := .exchange RxRecord.empty 0 { out with sent := n }, tx := 0xFF } }
    (s 0).Valid .resetPort .c (frame 0x04 []) ∧
      (after (.resetPort 0 0) (s 0)).selection .c = some { out with bytes := [2], inTransit := false } ∧
      (after (.resetPort 0 0) (s 1)).selection .c = some { out with bytes := [2], sent := 1, inTransit := false } ∧
      (after (.resetPort 0 5) (s 1)).selection .c = some { out with bytes := [2, 0], sent := 1, inTransit := false } := by decide

/-! ### Claims -/

theorem test_claim_now_refuses_a_period_above_4095 :
    let f := frame 0x10 [0, 0, 0, 1, 0x00, 0x10]
    (asked .a f busy).Valid .claimNow .a f ∧ (f.halfAt 4).toNat = 4096 ∧ f.maskAt 0 = 0x01000000 ∧
      answered .a .claimNow (asked .a f busy) = some (.badArgument, []) := by decide

/-- L2 and L8 are held: both are named in the payload (R44). -/
theorem test_claim_now_lines_held :
    let f := frame 0x10 [0x04, 0x11, 0, 0, 0, 0]
    (asked .b f busy).Valid .claimNow .b f ∧ f.maskAt 0 ≠ 0 ∧ (f.halfAt 4).toNat ≤ 4095 ∧
      f.maskAt 0 &&& heldLines busy.slots ≠ 0 ∧
      answered .b .claimNow (asked .b f busy) = some (.linesHeld, [0x04, 0x01, 0, 0]) := by decide

/-- L12 is unowned but named by C's entry: C itself is refused (R44). -/
theorem test_claim_now_contended :
    let f := frame 0x10 [0, 0x10, 0, 0, 0, 0]
    (asked .c f busy).Valid .claimNow .c f ∧ f.maskAt 0 ≠ 0 ∧ f.maskAt 0 &&& heldLines busy.slots = 0 ∧
      f.maskAt 0 &&& waitingLines busy.waitQueue ≠ 0 ∧
      answered .c .claimNow (asked .c f busy) = some (.contended, [0, 0x10, 0, 0]) := by decide

theorem test_claim_now_no_slot :
    let f := frame 0x10 [0, 0, 0, 0x80, 0xFF, 0x0F]
    (asked .a f full).Valid .claimNow .a f ∧ (f.halfAt 4).toNat = 4095 ∧
      f.maskAt 0 &&& heldLines full.slots = 0 ∧ f.maskAt 0 &&& waitingLines full.waitQueue = 0 ∧
      (∀ k : Fin 16, full.slots[k].isFree = false) ∧
      answered .a .claimNow (asked .a f full) = some (.noSlot, []) := by decide

/-- The lowest FREE slot is H3: handle 0x31, lease 4095 (R25). -/
theorem test_claim_now_granted :
    let f := frame 0x10 [0, 0, 0, 0x80, 0xFF, 0x0F]
    (asked .a f busy).Valid .claimNow .a f ∧ LowestFree busy.slots 3 ∧
      f.maskAt 0 ≠ 0 ∧ (f.halfAt 4).toNat = 4095 ∧ f.maskAt 0 &&& heldLines busy.slots = 0 ∧
      f.maskAt 0 &&& waitingLines busy.waitQueue = 0 ∧
      answered .a .claimNow (asked .a f busy) = some (.ok, [0x31]) ∧
      (after .claimNow (asked .a f busy)).slots[(3 : Fin 16)] =
        { gen := 1, body := .held .a 0x80000000 0x77 (some { period := 4095, remaining := 4095 }) } := by decide

/-- Generations wrap from 15 to 0 (R23). -/
theorem test_generation_wraps :
    let f := frame 0x10 [0, 0, 0, 0x80, 0, 0]
    let s := asked .a f { busy with slots := busy.slots.set 3 { gen := 15, body := .free } }
    answered .a .claimNow s = some (.ok, [0x30]) := by decide

theorem test_claim_wait_bad_argument :
    let f := frame 0x11 [0, 0, 0, 0, 0, 0, 0]
    (asked .a f busy).Valid .claimWait .a f ∧ f.maskAt 0 = 0 ∧
      answered .a .claimWait (asked .a f busy) = some (.badArgument, []) := by decide

theorem test_claim_wait_self_held :
    let f := frame 0x11 [0x08, 0, 0, 0x80, 0, 0, 0]
    (asked .a f busy).Valid .claimWait .a f ∧ f.maskAt 0 ≠ 0 ∧ f.maskAt 0 &&& linesHeldBy busy.slots .a ≠ 0 ∧
      answered .a .claimWait (asked .a f busy) = some (.selfHeld, []) := by decide

theorem test_claim_wait_duplicate_tag :
    let f : Frame := { opcode := 0x11, tag := 0x30, payload := [0, 0, 0, 0x80, 0, 0, 0] }
    (asked .a f busy).Valid .claimWait .a f ∧ f.maskAt 0 &&& linesHeldBy busy.slots .a = 0 ∧
      (∃ e ∈ busy.waitQueue, e.host = .a ∧ e.tag = f.tag) ∧
      answered .a .claimWait (asked .a f busy) = some (.duplicateTag, []) := by decide

/-- The tag of another host's entry is no duplicate; what a CLAIM_NOW would be granted is granted at once (R48). -/
theorem test_claim_wait_granted_at_once :
    let f : Frame := { opcode := 0x11, tag := 0x30, payload := [0, 0, 0, 0x80, 0, 0, 5] }
    (asked .b f busy).Valid .claimWait .b f ∧ (¬ ∃ e ∈ busy.waitQueue, e.host = .b ∧ e.tag = f.tag) ∧
      f.maskAt 0 &&& linesHeldBy busy.slots .b = 0 ∧ f.maskAt 0 &&& heldLines busy.slots = 0 ∧
      f.maskAt 0 &&& waitingLines busy.waitQueue = 0 ∧ LowestFree busy.slots 3 ∧
      answered .b .claimWait (asked .b f busy) = some (.ok, [0x31]) ∧
      (after .claimWait (asked .b f busy)).waitQueue = busy.waitQueue := by decide

/-- Events 3 and 4 of the example of 3.5: queued at the tail, with a wait of 20 units (R49). -/
theorem test_claim_wait_queued :
    let f := frame 0x11 [0x01, 0, 0, 0, 100, 0, 20]
    (asked .b f busy).Valid .claimWait .b f ∧ ¬ (f.maskAt 0 &&& heldLines busy.slots = 0) ∧
      f.maskAt 0 &&& linesHeldBy busy.slots .b = 0 ∧ busy.waitQueue.length < 8 ∧
      (waitsOf busy.waitQueue .b).length < 4 ∧ (¬ ∃ e ∈ busy.waitQueue, e.host = .b ∧ e.tag = f.tag) ∧
      answered .b .claimWait (asked .b f busy) = some (.queued, [3]) ∧
      (after .claimWait (asked .b f busy)).waitQueue.getLast? =
        some { host := .b, tag := 0x77, lines := 1, period := 100, remaining := some 20 } := by decide

/-- Eight entries: QUEUE_FULL before HOST_LIMIT (R47). -/
theorem test_claim_wait_queue_full :
    let f := frame 0x11 [0x01, 0, 0, 0, 0, 0, 0]
    let s := asked .b f { busy with waitQueue := [entry .b 1, entry .b 2, entry .b 3, entry .b 4, entry .c 1, entry .c 2,
      entry .c 3, entry .c 4] }
    s.Valid .claimWait .b f ∧ ¬ (f.maskAt 0 &&& heldLines s.slots = 0) ∧ 8 ≤ s.waitQueue.length ∧
      f.maskAt 0 &&& linesHeldBy s.slots .b = 0 ∧ (¬ ∃ e ∈ s.waitQueue, e.host = .b ∧ e.tag = f.tag) ∧
      answered .b .claimWait s = some (.queueFull, []) := by decide

theorem test_claim_wait_host_limit :
    let f := frame 0x11 [0x01, 0, 0, 0, 0, 0, 0]
    let s := asked .b f { busy with waitQueue := [entry .b 1, entry .b 2, entry .b 3, entry .b 4, entry .c 1, entry .c 2,
      entry .c 3] }
    s.Valid .claimWait .b f ∧ ¬ (f.maskAt 0 &&& heldLines s.slots = 0) ∧ s.waitQueue.length < 8 ∧
      4 ≤ (waitsOf s.waitQueue .b).length ∧ f.maskAt 0 &&& linesHeldBy s.slots .b = 0 ∧
      (¬ ∃ e ∈ s.waitQueue, e.host = .b ∧ e.tag = f.tag) ∧
      answered .b .claimWait s = some (.hostLimit, []) := by decide

theorem test_cancel_wait :
    let f := frame 0x12 [0x40]
    (asked .c f busy).Valid .cancelWait .c f ∧ (∃ e ∈ busy.waitQueue, e.host = .c ∧ e.tag = f.byteAt 0) ∧
      answered .c .cancelWait (asked .c f busy) = some (.ok, []) ∧
      (after .cancelWait (asked .c f busy)).waitQueue.map WaitEntry.tag = [0x30] := by decide

/-- C's entry has the tag, B has none (R56). -/
theorem test_cancel_wait_not_found :
    let f := frame 0x12 [0x40]
    (asked .b f busy).Valid .cancelWait .b f ∧ (∀ e ∈ busy.waitQueue, e.host = .b → e.tag ≠ f.byteAt 0) ∧
      answered .b .cancelWait (asked .b f busy) = some (.notFound, []) := by decide

/-- Event 7 of the example of 3.5: B's and C's older entries stay, C's newest is granted into H1 as handle 0x12. -/
theorem test_grant_scan_example :
    let t : Vector Slot 16 := tabulate fun k =>
      if k.val = 0 then { gen := 1, body := .held .a 0xF 0x10 none }
      else if k.val = 1 then { gen := 1, body := .free }
      else { gen := 0, body := .free }
    let q : List WaitEntry :=
      [{ host := .b, tag := 0x20, lines := 0x3C, period := 100, remaining := none },
       { host := .c, tag := 0x30, lines := 0xF0, period := 0, remaining := some 20 },
       { host := .c, tag := 0x31, lines := 0x300, period := 0, remaining := none }]
    (0x3C : LineMask) &&& heldLines t ≠ 0 ∧ (0xF0 : LineMask) &&& heldLines t = 0 ∧ (0xF0 : LineMask) &&& 0x3C ≠ 0 ∧
      (0x300 : LineMask) &&& heldLines t = 0 ∧ (0x300 : LineMask) &&& 0xFC = 0 ∧ LowestFree t 1 ∧
      (grantWalk q 0 t).kept = q.take 2 ∧ (grantWalk q 0 t).events = [(.c, .granted 0x31 0x12)] := by decide

theorem test_grant_scan_needs_a_slot :
    let e : WaitEntry := { host := .a, tag := 1, lines := 0x80000000, period := 0, remaining := none }
    (∀ k : Fin 16, full.slots[k].isFree = false) ∧ (grantWalk [e] 0 full.slots).kept = [e] := by decide

/-! ### Holdings -/

/-- H0 carries generation 1, so 0x02 names nothing; H3 is FREE, so 0x30 names nothing (R24). -/
theorem test_stale_handles :
    ∀ h ∈ [(0x02 : Byte), 0x30],
      (asked .a (frame 0x13 [h]) busy).Valid .release .a (frame 0x13 [h]) ∧
      answered .a (requestCommand .release 0 0) (asked .a (frame 0x13 [h]) busy) = some (.staleHandle, []) := by decide

theorem test_stale_handle_premises :
    handleOf 0 2 = 0x02 ∧ busy.slots[(0 : Fin 16)].gen ≠ 2 ∧ handleOf 3 0 = 0x30 ∧
      busy.slots[(3 : Fin 16)].isFree = true := by decide

/-- H1 is B's (HELD), H2 is A's (ENDED): C owns neither (R24). -/
theorem test_not_owner :
    handleOf 1 3 = 0x13 ∧ handleOf 2 2 = 0x22 ∧ ∀ h ∈ [(0x13 : Byte), 0x22],
      (asked .c (frame 0x15 [h, 1, 0]) busy).Valid .renew .c (frame 0x15 [h, 1, 0]) ∧
      answered .c (requestCommand .renew 0 0) (asked .c (frame 0x15 [h, 1, 0]) busy) = some (.notOwner, []) := by decide

/-- ENDED with its cause, and the slot goes FREE with its generation kept (R29). -/
theorem test_ended_is_reported_once :
    let f := frame 0x14 [0x22, 1, 0, 0, 0]
    (asked .a f busy).Valid .trim .a f ∧ f.byteAt 0 = handleOf 2 2 ∧
      busy.slots[(2 : Fin 16)].body = .ended .a 0x11 (some { period := 5, remaining := 0 }) .leaseExpired ∧
      answered .a (requestCommand .trim 0 0) (asked .a f busy) = some (.ended, [0x01]) ∧
      (after (.trim 0) (asked .a f busy)).slots[(2 : Fin 16)] = { gen := 2, body := .free } := by decide

/-- STOP_PATTERN carries the handle second (R74, R125). -/
theorem test_stop_pattern_checks_its_handle :
    let f := frame 0x31 [0, 0x02]
    (asked .a f busy).Valid .stopPattern .a f ∧ f.byteAt 1 = handleOf 0 2 ∧
      answered .a (requestCommand .stopPattern 0 0) (asked .a f busy) = some (.staleHandle, []) := by decide

/-- P0 is aborted with an event to A, L0 takes its safe state, and H0 goes FREE at generation 1 (R36). -/
theorem test_release :
    let f := frame 0x13 [0x01]
    let t := after (.release 0) (asked .a f busy)
    (asked .a f busy).Valid .release .a f ∧ f.byteAt 0 = handleOf 0 1 ∧
      busy.slots[(0 : Fin 16)] = { gen := 1, body := .held .a 0xF 0x10 none } ∧
      t.slots[(0 : Fin 16)] = { gen := 1, body := .free } ∧ t.lines[(0 : Fin 32)].mode = .openDrain ∧
      (t.port .a).events = [.patternAborted 0 0x01 0x60 .released] := by decide

theorem test_trim_bad_argument :
    ∀ f ∈ [frame 0x14 [0x01, 0, 0, 0, 0], frame 0x14 [0x01, 0x10, 0, 0, 0]],
      (asked .a f busy).Valid .trim .a f ∧ f.byteAt 0 = handleOf 0 1 ∧ (f.maskAt 1 = 0 ∨ f.maskAt 1 &&& ~~~0xF ≠ 0) ∧
      answered .a (.trim 0) (asked .a f busy) = some (.badArgument, []) := by decide

/-- As in 4.7's example: L1 is trimmed with its pattern aborted; the lane L0 stays in the holding as it is (R38, R79). -/
theorem test_trim :
    let f := frame 0x14 [0x01, 0x02, 0, 0, 0]
    let t := after (.trim 0) (asked .a f busy)
    (asked .a f busy).Valid .trim .a f ∧ f.maskAt 1 ≠ 0 ∧ f.maskAt 1 &&& ~~~0xF = 0 ∧ f.maskAt 1 ≠ 0xF ∧
      answered .a (.trim 0) (asked .a f busy) = some (.ok, [0x0D, 0, 0, 0]) ∧
      (t.port .a).events = [.patternAborted 0 0x01 0x60 .trimmed] ∧ t.lines[(0 : Fin 32)].mode = .pushPull := by decide

/-- TRIM of every line acts as RELEASE, with an empty mask (R38). -/
theorem test_trim_of_all :
    let f := frame 0x14 [0x01, 0x0F, 0, 0, 0]
    let t := after (.trim 0) (asked .a f busy)
    (asked .a f busy).Valid .trim .a f ∧ f.maskAt 1 ≠ 0 ∧ f.maskAt 1 = 0xF ∧
      answered .a (.trim 0) (asked .a f busy) = some (.ok, [0, 0, 0, 0]) ∧
      t.slots[(0 : Fin 16)] = { gen := 1, body := .free } ∧
      (t.port .a).events = [.patternAborted 0 0x01 0x60 .released] := by decide

/-- Periods 4096 and 0xFFFE are refused (R34). -/
theorem test_renew_bad_argument :
    ∀ f ∈ [frame 0x15 [0x01, 0x00, 0x10], frame 0x15 [0x01, 0xFE, 0xFF]],
      (asked .a f busy).Valid .renew .a f ∧ f.byteAt 0 = handleOf 0 1 ∧ 4096 ≤ (f.halfAt 1).toNat ∧
      (f.halfAt 1).toNat ≤ 0xFFFE ∧ answered .a .renew (asked .a f busy) = some (.badArgument, []) := by decide

/-- Each RENEW: period sent, slot, reply and lease after it. H0 is unleased, H1 has period 50 and nothing left (R34). -/
theorem test_renew :
    ∀ x ∈ [(HostId.a, frame 0x15 [0x01, 0xFF, 0x0F], (0 : Fin 16), [(0xFF : Byte), 0x0F], some (Lease.mk 4095 4095)),
        (.a, frame 0x15 [0x01, 0xFF, 0xFF], 0, [0, 0], none),
        (.b, frame 0x15 [0x13, 0xFF, 0xFF], 1, [50, 0], some (Lease.mk 50 50)),
        (.b, frame 0x15 [0x13, 0x01, 0x00], 1, [1, 0], some (Lease.mk 1 1)),
        (.b, frame 0x15 [0x13, 0x00, 0x00], 1, [0, 0], none)],
      (asked x.1 x.2.1 busy).Valid .renew x.1 x.2.1 ∧ x.2.1.byteAt 0 = handleOf x.2.2.1 busy.slots[x.2.2.1].gen ∧
      answered x.1 .renew (asked x.1 x.2.1 busy) = some (.ok, x.2.2.2.1) ∧
      leaseOf (after .renew (asked x.1 x.2.1 busy)).slots[x.2.2.1] = x.2.2.2.2 := by decide

theorem test_query_holding_slot_16 :
    let f := frame 0x16 [16]
    (asked .a f busy).Valid .queryHolding .a f ∧ 16 ≤ (f.byteAt 0).toNat ∧
      answered .a .queryHolding (asked .a f busy) = some (.badArgument, []) := by decide

/-- A FREE slot reports two bytes; another host's slot is NOT_OWNER but to the supervisor C (R39). -/
theorem test_query_holding :
    ∀ x ∈ [(HostId.a, (15 : Byte), Status.ok, [(15 : Byte), 0]),
        (.a, 1, .notOwner, []), (.b, 2, .notOwner, []),
        (.c, 1, .ok, [1, 1, 3, 2, 0x20, 0, 3, 0, 0, 50, 0, 0, 0, 0]),
        (.b, 1, .ok, [1, 1, 3, 2, 0x20, 0, 3, 0, 0, 50, 0, 0, 0, 0]),
        (.a, 0, .ok, [0, 1, 1, 1, 0x10, 0x0F, 0, 0, 0, 0, 0, 0, 0, 0]),
        (.a, 2, .ok, [2, 2, 2, 1, 0x11, 0, 0, 0, 0, 5, 0, 0, 0, 1])],
      (asked x.1 (frame 0x16 [x.2.1]) busy).Valid .queryHolding x.1 (frame 0x16 [x.2.1]) ∧
      answered x.1 .queryHolding (asked x.1 (frame 0x16 [x.2.1]) busy) = some x.2.2 := by decide

/-- H0 HELD, H2 ENDED, one waiting tag (R40). -/
theorem test_list_holdings :
    let f := frame 0x17 []
    (asked .a f busy).Valid .listHoldings .a f ∧
      answered .a .listHoldings (asked .a f busy) = some (.ok, [0x01, 0, 0x04, 0, 1, 0x30]) := by decide

/-! ### Lines and watches -/

/-- Premises on patterns: no running pattern has a lane among the lines of a mask. -/
theorem clear_of_lanes {s : State} {mask : LineMask}
    (h : ∀ i : Fin 4, (match s.patterns[i] with | some p => mask &&& p.lines | none => 0) = 0) :
    ∀ (i : Fin 4) (p : Pattern), s.patterns[i] = some p → mask &&& p.lines = 0 := by
  intro i p e
  have := h i
  rw [e] at this
  exact this

/-- SET_MODE with no line, with mode 4 or pull-up 2, and SET_FILTER with filter 4 (R13 check 1). -/
theorem test_line_requests_bad_argument :
    ∀ x ∈ [(Opcode.setMode, frame 0x20 [0, 0, 0, 0, 1, 0]), (.setMode, frame 0x20 [4, 0, 0, 0, 4, 0]),
        (.setMode, frame 0x20 [4, 0, 0, 0, 3, 2]), (.setFilter, frame 0x21 [4, 0, 0, 0, 4]),
        (.drive, frame 0x23 [0, 0, 0, 0, 1, 0, 0, 0])],
      (asked .a x.2 busy).Valid x.1 .a x.2 ∧
      answered .a (requestCommand x.1 0 0) (asked .a x.2 busy) = some (.badArgument, []) := by decide

/-- L2 is A's, L5 is no one's (R13 check 2). -/
theorem test_line_requests_not_owner :
    ∀ x ∈ [(Opcode.setMode, frame 0x20 [0x24, 0, 0, 0, 3, 1]), (.setFilter, frame 0x21 [0x24, 0, 0, 0, 3]),
        (.drive, frame 0x23 [0x24, 0, 0, 0, 1, 0, 0, 0])],
      (asked .a x.2 busy).Valid x.1 .a x.2 ∧ x.2.maskAt 0 ≠ 0 ∧ x.2.maskAt 0 &&& ~~~(linesHeldBy busy.slots .a) ≠ 0 ∧
      answered .a (requestCommand x.1 0 0) (asked .a x.2 busy) = some (.notOwner, []) := by decide

/-- L0 is a lane of P0 (R13 check 3). -/
theorem test_line_requests_line_busy :
    ∀ x ∈ [(Opcode.setMode, frame 0x20 [5, 0, 0, 0, 1, 0]), (.setFilter, frame 0x21 [5, 0, 0, 0, 0]),
        (.drive, frame 0x23 [5, 0, 0, 0, 1, 0, 0, 0])],
      (asked .a x.2 busy).Valid x.1 .a x.2 ∧ x.2.maskAt 0 &&& ~~~(linesHeldBy busy.slots .a) = 0 ∧
      (∃ p, busy.patterns[(0 : Fin 4)] = some p ∧ x.2.maskAt 0 &&& p.lines ≠ 0) ∧
      answered .a (requestCommand x.1 0 0) (asked .a x.2 busy) = some (.lineBusy, []) := by
  intro x h
  simp only [List.mem_cons, List.not_mem_nil, or_false] at h
  rcases h with rfl | rfl | rfl <;> exact ⟨by decide, by decide, ⟨_, rfl, by decide⟩, by decide⟩

/-- L2 and L3 are A's and no lanes: the premises of the three line requests. -/
theorem test_line_request_premises :
    (0x0C : LineMask) ≠ 0 ∧ 0x0C &&& ~~~(linesHeldBy busy.slots .a) = 0 ∧
      ∀ (i : Fin 4) (p : Pattern), busy.patterns[i] = some p → (0x0C : LineMask) &&& p.lines = 0 :=
  ⟨by decide, by decide, clear_of_lanes (by decide)⟩

/-- L3 leaves DISCONNECTED with the raw level 1, L2 stays in a sensed mode with its count (R5, R14). -/
theorem test_set_mode :
    let f := frame 0x20 [0x0C, 0, 0, 0, 3, 1]
    let t := after (.setMode 0x08) (asked .a f busy)
    (asked .a f busy).Valid .setMode .a f ∧ f.maskAt 0 = 0x0C ∧ f.byteAt 4 = 3 ∧ f.byteAt 5 = 1 ∧
      t.lines[(3 : Fin 32)] = { LineRecord.reset with mode := .openDrain, pullUp := true, filtered := true } ∧
      t.lines[(2 : Fin 32)] = { busy.lines[(2 : Fin 32)] with mode := .openDrain, pullUp := true } := by decide

/-- Entering DISCONNECTED clears the filtered level and the count (R5). -/
theorem test_set_mode_disconnected :
    let f := frame 0x20 [0x04, 0, 0, 0, 0, 0]
    (after (.setMode 0x04) (asked .a f busy)).lines[(2 : Fin 32)] =
      { busy.lines[(2 : Fin 32)] with mode := .disconnected, filtered := false, settling := 0 } := by decide

/-- SET_FILTER restarts the count (R8). -/
theorem test_set_filter :
    let f := frame 0x21 [0x0C, 0, 0, 0, 2]
    (asked .a f busy).Valid .setFilter .a f ∧ f.maskAt 0 = 0x0C ∧ f.byteAt 4 = 2 ∧
      (after .setFilter (asked .a f busy)).lines[(2 : Fin 32)] =
        { busy.lines[(2 : Fin 32)] with filter := .f100us, settling := 0 } := by decide

/-- DRIVE takes each line's level from the level mask and ignores the others' bits (R16). -/
theorem test_drive :
    let f := frame 0x23 [0x0C, 0, 0, 0, 0x0A, 0, 0, 0]
    let t := after .drive (asked .a f busy)
    (asked .a f busy).Valid .drive .a f ∧ f.maskAt 0 = 0x0C ∧
      t.lines[(2 : Fin 32)].level = false ∧ t.lines[(3 : Fin 32)].level = true ∧
      t.lines[(1 : Fin 32)].level = true := by decide

/-- No line; mode 4; safe level 2; safe pull-up 2 (R17). -/
theorem test_set_safe_bad_argument :
    ∀ f ∈ [frame 0x22 [0, 0, 0, 0, 1, 0, 0], frame 0x22 [4, 0, 0, 0, 4, 0, 0], frame 0x22 [4, 0, 0, 0, 3, 2, 0],
        frame 0x22 [4, 0, 0, 0, 3, 0, 2]],
      (asked .c f busy).Valid .setSafe .c f ∧
      (f.maskAt 0 = 0 ∨ ¬ ((f.byteAt 4).toNat ≤ 3 ∧ (f.byteAt 5).toNat ≤ 1 ∧ (f.byteAt 6).toNat ≤ 1)) ∧
      answered .c (.setSafe 0) (asked .c f busy) = some (.badArgument, []) := by decide

theorem test_set_safe_not_owner :
    let f := frame 0x22 [0x24, 0, 0, 0, 3, 1, 1]
    (asked .a f busy).Valid .setSafe .a f ∧ f.maskAt 0 ≠ 0 ∧ busy.supervisor ≠ some .a ∧
      ¬ (f.maskAt 0 &&& ~~~(linesHeldBy busy.slots .a) = 0) ∧
      answered .a (.setSafe 0) (asked .a f busy) = some (.notOwner, []) := by decide

/-- The supervisor names L2, owned, and L5, unowned: L5 takes the new safe state at once (R18). -/
theorem test_set_safe :
    let f := frame 0x22 [0x24, 0, 0, 0, 1, 1, 0]
    let t := after (.setSafe 0x20) (asked .c f busy)
    (asked .c f busy).Valid .setSafe .c f ∧ f.maskAt 0 ≠ 0 ∧ (f.byteAt 4).toNat ≤ 3 ∧ (f.byteAt 5).toNat ≤ 1 ∧
      (f.byteAt 6).toNat ≤ 1 ∧ busy.supervisor = some .c ∧
      t.lines[(2 : Fin 32)] =
        { busy.lines[(2 : Fin 32)] with safe := { mode := .input, level := true, pullUp := false } } ∧
      t.lines[(5 : Fin 32)] =
        { LineRecord.reset with
          mode := .input, level := true, filtered := true
          safe := { mode := .input, level := true, pullUp := false } } := by decide

/-- Filtered L1, L2 and L8; all but L0, L1, L2 and L8 disconnected; A holds L0 to L3 (R19). -/
theorem test_sample :
    let f := frame 0x24 []
    let s := asked .a f { busy with time := { count := 0xABCD, micro := 0 } }
    s.Valid .sample .a f ∧
      answered .a .sample s =
        some (.ok, [0x06, 0x01, 0, 0, 0xF8, 0xFE, 0xFF, 0xFF, 0x0F, 0, 0, 0, 0xCD, 0xAB]) := by decide

theorem test_watch_bad_argument :
    ∀ f ∈ [frame 0x40 [0, 0, 0, 0, 1], frame 0x40 [1, 0, 0, 0, 0], frame 0x40 [1, 0, 0, 0, 4]],
      (asked .b f busy).Valid .watch .b f ∧ (f.maskAt 0 = 0 ∨ f.byteAt 4 = 0 ∨ 3 < (f.byteAt 4).toNat) ∧
      answered .b .watch (asked .b f busy) = some (.badArgument, []) := by decide

/-- A host may watch a line it does not hold; each edges value (R85). -/
theorem test_watch :
    ∀ x ∈ [((1 : Byte), Edges.rising), (2, .falling), (3, .both)],
      let f := frame 0x40 [0, 0, 0, 0x80, x.1]
      (asked .b f busy).Valid .watch .b f ∧ f.maskAt 0 ≠ 0 ∧ f.byteAt 4 = x.1 ∧
        ((after .watch (asked .b f busy)).watches.get .b)[(31 : Fin 32)] = x.2 ∧
        ((after .watch (asked .b f busy)).watches.get .a)[(31 : Fin 32)] = .none := by decide

theorem test_unwatch_bad_argument :
    let f := frame 0x41 [0, 0, 0, 0]
    (asked .b f busy).Valid .unwatch .b f ∧ f.maskAt 0 = 0 ∧
      answered .b .unwatch (asked .b f busy) = some (.badArgument, []) := by decide

theorem test_unwatch :
    let f := frame 0x41 [0x10, 0, 0, 0]
    let s := asked .b f (busy.writeWatches .b 0x30 .both)
    s.Valid .unwatch .b f ∧ f.maskAt 0 ≠ 0 ∧ ((after .unwatch s).watches.get .b)[(4 : Fin 32)] = .none ∧
      ((after .unwatch s).watches.get .b)[(5 : Fin 32)] = .both := by decide

/-! ### Patterns -/

/-- The state of 4.7's example before the START_PATTERN. -/
def pulse : State :=
  { State.reset with
    lines := tabulate fun n =>
      if n.val = 16 then lineIn .pushPull true
      else if n.val = 17 then { LineRecord.reset with mode := .pushPull }
      else if n.val = 18 then { LineRecord.reset with mode := .input }
      else LineRecord.reset
    slots := tabulate fun k =>
      if k.val = 3 then { gen := 2, body := .held .a 0x70000 0x50 (some { period := 200, remaining := 200 }) }
      else { gen := 0, body := .free }
    patterns := tabulate fun i =>
      if i.val = 0 then
        some { handle := 0x15, tag := 0x40, bank := 0, lanes := 3, steps := [{ level := 2, duration := 5 }], repeats := 0
               current := 0, passes := none, timeLeft := 5 }
      else none }

/-- 4.7's START_PATTERN with tag 0x77, on lanes given. -/
def pulseFrame (bank lanes : Byte) : Frame :=
  frame 0x30 [0x32, bank, lanes, 1, 3, 0x00, 100, 0, 0x02, 0xF4, 1, 0x03, 1, 0]

/-- The steps of 4.7's example. -/
def pulseSteps : List PatternStep :=
  [{ level := 0, duration := 100 }, { level := 2, duration := 500 }, { level := 3, duration := 1 }]

/-- The premises on the form of 4.7's START_PATTERN; a duration of 1 is the least. -/
theorem test_start_pattern_form :
    let f := pulseFrame 2 3
    (asked .a f pulse).Valid .startPattern .a f ∧ f.byteAt 0 = handleOf 3 2 ∧
      f.byteAt 1 = countByte (2 : Fin 4) ∧ f.byteAt 2 ≠ 0 ∧ (f.byteAt 4).toNat ≤ 8 ∧
      f.payload.length = 5 + 3 * (f.byteAt 4).toNat ∧ stepsOf (f.payload.drop 5) = pulseSteps ∧
      ∀ x ∈ pulseSteps, 1 ≤ x.duration := by decide

/-- The lowest IDLE slot is P1; L16 is written 0 (4.7, t = 0). -/
theorem test_start_pattern :
    let f := pulseFrame 2 3
    let t := after .startPattern (asked .a f pulse)
    laneLines 2 3 &&& ~~~0x70000 = 0 ∧ (pulse.undriven &&& laneLines 2 3) = 0 ∧
      pulse.patterns[(1 : Fin 4)] = none ∧ (∀ j : Fin 4, j < 1 → pulse.patterns[j] ≠ none) ∧
      answered .a .startPattern (asked .a f pulse) = some (.ok, [1]) ∧ t.lines[(16 : Fin 32)].level = false ∧
      t.patterns[(1 : Fin 4)] =
        some { handle := 0x32, tag := 0x77, bank := 2, lanes := 3, steps := pulseSteps, repeats := 1, current := 0
               passes := some 1, timeLeft := 100 } := by decide

/-- The lanes of 4.7's pattern are those of no running pattern. -/
theorem test_start_pattern_lanes_free :
    ¬ ∃ (i : Fin 4) (p : Pattern), pulse.patterns[i] = some p ∧ laneLines 2 3 &&& p.lines ≠ 0 := by
  have h := clear_of_lanes (s := pulse) (mask := laneLines 2 3) (by decide)
  rintro ⟨i, p, e, g⟩
  exact g (h i p e)

/-- Lane L19 is not in the holding: BAD_ARGUMENT; lane L18 is an INPUT: MODE_CONFLICT (R68). -/
theorem test_start_pattern_lines_refused :
    laneLines 2 8 &&& ~~~0x70000 ≠ 0 ∧ laneLines 2 4 &&& ~~~0x70000 = 0 ∧
      pulse.lines[(18 : Fin 32)].mode = .input ∧ (laneLines 2 4).getLsbD 18 = true ∧
      (asked .a (pulseFrame 2 8) pulse).Valid .startPattern .a (pulseFrame 2 8) ∧
      (asked .a (pulseFrame 2 4) pulse).Valid .startPattern .a (pulseFrame 2 4) ∧
      answered .a .startPattern (asked .a (pulseFrame 2 8) pulse) = some (.badArgument, []) ∧
      answered .a .startPattern (asked .a (pulseFrame 2 4) pulse) = some (.modeConflict, []) := by decide

/-- L16 is already a lane of P3: LINE_BUSY (R68). -/
theorem test_start_pattern_line_busy :
    let f := pulseFrame 2 3
    let p : Pattern := { handle := 0x32, tag := 1, bank := 2, lanes := 1, steps := pulseSteps, repeats := 0, current := 0
                         passes := none, timeLeft := 9 }
    let s := asked .a f { pulse with patterns := pulse.patterns.set 3 (some p) }
    s.Valid .startPattern .a f ∧ s.patterns[(3 : Fin 4)] = some p ∧ laneLines 2 3 &&& p.lines ≠ 0 ∧
      answered .a .startPattern s = some (.lineBusy, []) := by decide

/-- No slot is IDLE: NO_PATTERN_SLOT (R68). -/
theorem test_start_pattern_no_slot :
    let f := pulseFrame 2 3
    let s := asked .a f { pulse with patterns := tabulate fun _ => pulse.patterns[(0 : Fin 4)] }
    s.Valid .startPattern .a f ∧ (∀ i : Fin 4, s.patterns[i] ≠ none) ∧
      answered .a .startPattern s = some (.noPatternSlot, []) := by decide

/-- The length does not fit the step count; bank 4; no lane; 0 steps; 9 steps; a duration of 0 (R68 check 1). -/
theorem test_start_pattern_ill_formed :
    ∀ f ∈ [frame 0x30 [0x32, 2, 3, 1, 2, 0, 100, 0], pulseFrame 4 3, pulseFrame 2 0,
        frame 0x30 [0x32, 2, 3, 1, 0, 0, 100, 0], frame 0x30 [0x32, 2, 3, 1, 9, 0, 100, 0],
        frame 0x30 [0x32, 2, 3, 1, 1, 0, 0, 0]],
      (asked .a f pulse).Valid .startPattern .a f ∧ f.byteAt 0 = handleOf 3 2 ∧
      (f.payload.length ≠ 5 + 3 * (f.byteAt 4).toNat ∨ 4 ≤ (f.byteAt 1).toNat ∨ f.byteAt 2 = 0 ∨ f.byteAt 4 = 0 ∨
        8 < (f.byteAt 4).toNat ∨ f.halfAt 6 = 0) ∧
      answered .a .startPattern (asked .a f pulse) = some (.badArgument, []) := by decide

/-- Slot 4 is refused; P0 runs under A's handle 0x01 and is stopped with its lines as they are; P3 is not found (R74). -/
theorem test_stop_pattern :
    ∀ x ∈ [((4 : Byte), Status.badArgument, true), (0, .ok, false), (3, .notFound, true)],
      let f := frame 0x31 [x.1, 0x01]
      (asked .a f busy).Valid .stopPattern .a f ∧ f.byteAt 1 = handleOf 0 1 ∧
        answered .a .stopPattern (asked .a f busy) = some (x.2.1, []) ∧
        ((after .stopPattern (asked .a f busy)).patterns[(0 : Fin 4)]).isSome = x.2.2 ∧
        (after .stopPattern (asked .a f busy)).lines = busy.lines := by decide

/-- Any host may ask (R76). -/
theorem test_query_pattern :
    ∀ x ∈ [((4 : Byte), Status.badArgument, []), (0, .ok, [(0 : Byte), 1, 0x01, 0, 2]), (3, .ok, [3, 0, 0, 0, 0])],
      let f := frame 0x32 [x.1]
      (asked .b f busy).Valid .queryPattern .b f ∧ answered .b .queryPattern (asked .b f busy) = some x.2 := by decide

/-- The second step begins: L0 is written 1 and L1 0, for 1 unit (R71). -/
theorem test_step_end :
    let s := elapsed busy
    let t := after (.patternStepEnd 0) s
    s.inReset = false ∧ (s.patterns[(0 : Fin 4)]).map Pattern.timeLeft = some 0 ∧
      ((s.patterns[(0 : Fin 4)]).map Pattern.steps).bind (fun l => l[1]?) = some { level := 1, duration := 1 } ∧
      t.lines[(0 : Fin 32)].level = true ∧ t.lines[(1 : Fin 32)].level = false ∧
      (t.patterns[(0 : Fin 4)]).map (fun p => (p.current, p.passes, p.timeLeft)) = some (1, some 2, 1) := by decide

/-- At the end of the list another pass begins, and at the end of the last pass the slot goes IDLE (R72). -/
theorem test_step_end_passes :
    let next := fun s : State => after (.patternStepEnd 0) (elapsed s)
    let t := next (next busy)
    let u := next (next t)
    (t.patterns[(0 : Fin 4)]).map (fun p => (p.current, p.passes, p.timeLeft)) = some (0, some 1, 500) ∧
      (next t).slots[handleSlot 0x01].body = .held .a 0xF 0x10 none ∧
      u.patterns[(0 : Fin 4)] = none ∧ (u.port .a).events = [.patternDone 0 0x01 0x60] ∧
      u.lines[(0 : Fin 32)].level = true := by decide

/-- An IDLE slot has no step end, nor has a step with time left. -/
theorem test_step_end_not_due :
    busy.patterns[(3 : Fin 4)] = none ∧ after (.patternStepEnd 3) busy = busy ∧
      (busy.patterns[(0 : Fin 4)]).map Pattern.timeLeft = some 260 ∧ after (.patternStepEnd 0) busy = busy := by decide

/-! ### The supervisor and device resets -/

theorem test_revoke_stale :
    let f := frame 0x50 [0x14]
    (asked .c f busy).Valid .revoke .c f ∧ f.byteAt 0 = handleOf 1 4 ∧ busy.slots[(1 : Fin 16)].gen ≠ 4 ∧
      answered .c (.revoke 0) (asked .c f busy) = some (.staleHandle, []) := by decide

/-- PATTERN_ABORTED and then REVOKED go to the owner; the slot keeps owner, tag and generation (2.8's example). -/
theorem test_revoke_held :
    let f := frame 0x50 [0x01]
    let t := after (.revoke 0) (asked .c f busy)
    (asked .c f busy).Valid .revoke .c f ∧ f.byteAt 0 = handleOf 0 1 ∧
      busy.slots[(0 : Fin 16)] = { gen := 1, body := .held .a 0xF 0x10 none } ∧
      t.slots[(0 : Fin 16)] = { gen := 1, body := .ended .a 0x10 none .revoked } ∧
      (t.port .a).events = [.patternAborted 0 0x01 0x60 .revoked, .revoked 0x01 0x10] := by decide

theorem test_revoke_ended :
    let f := frame 0x50 [0x22]
    let t := after (.revoke 0) (asked .c f busy)
    (asked .c f busy).Valid .revoke .c f ∧ f.byteAt 0 = handleOf 2 2 ∧
      answered .c (.revoke 0) (asked .c f busy) = some (.ok, []) ∧
      t.slots[(2 : Fin 16)] = { gen := 2, body := .free } := by decide

/-- 6.8's example: no reply is placed, and every table is at its reset values. -/
theorem test_full_reset :
    let f := frame 0x51 []
    let t := after .fullReset (asked .c f busy)
    (asked .c f busy).Valid .fullReset .c f ∧ t.inReset = true ∧ t.since.command = true ∧ (t.port .c).replies = [] ∧
      t.slots = State.reset.slots ∧ t.waitQueue = [] ∧ t.resetCause = .powerOn ∧ t.supervisor = some .c := by decide

theorem test_pin_and_supply :
    (after .resetnLow busy).inReset = true ∧ (after .resetnLow busy).since.pin = true ∧
      (after .supplyLoss busy).lines = State.reset.lines ∧ (after .supplyLoss busy).since.supply = true := by decide

/-- In a device reset an interval boundary and a take change nothing. -/
theorem test_reset_stops_everything :
    let s := asked .a (frame 0x01 []) resetting
    s.inReset = true ∧ after .identify s = s ∧ after .intervalBoundary s = s ∧ after (.startCondition .a) s = s := by decide

/-- SELC low at the release starts no exchange; its next fall does (R145). -/
theorem test_selc_in_a_reset :
    let s := after (.resetRelease 0 0) (after .selcFall resetting)
    let fourWireState := fun t : State => t.fourWire.state
    fourWireState (after .selcFall s) = .deselected ∧ s.selcLow = true ∧ (after (.selcRise 0) s) = { s with selcLow := false } ∧
      fourWireState (run [.selcRise 0, .selcFall] s) ≠ .deselected ∧
      (run [.selcFall, .selcRise 3] resetting) = resetting := by decide

/-- Straps ADR 3 and SUP 3: addresses 0x37 and 0x3B, supervisor C (R108, R130). -/
theorem test_release_from_reset :
    let s := { resetting with since := { supply := false, pin := true, command := true } }
    let t := after (.resetRelease 3 3) s
    s.inReset = true ∧ t.inReset = false ∧ t.supervisor = some .c ∧ t.resetCause = .pin ∧
      t.ownAddress .a = 0x37 ∧ t.ownAddress .b = 0x3B ∧ t.time = { count := 0, micro := 0 } := by decide

/-- POWER_ON goes before PIN, COMMAND is alone (R112); a running part is not released. -/
theorem test_reset_causes :
    (after (.resetRelease 0 0) { resetting with since := { supply := true, pin := true, command := true } }).resetCause =
        .powerOn ∧
      (after (.resetRelease 0 0) { resetting with since := { supply := false, pin := false, command := true } }).resetCause =
        .command ∧
      busy.inReset = false ∧ after (.resetRelease 0 1) busy = busy := by decide

/-! ### Time events -/

/-- A lease of 50 goes to 49, and one at 0 stays; A's wait at 0 stays, C's has no limit (R31, R53). -/
theorem test_interval_boundary :
    let s := { busy with slots := busy.slots.set 4 { gen := 1, body := .held .c 0x10000 9 (some { period := 50, remaining := 50 }) } }
    s.inReset = false ∧
      leaseOf (after .intervalBoundary s).slots[(4 : Fin 16)] = some { period := 50, remaining := 49 } ∧
      leaseOf (after .intervalBoundary s).slots[(1 : Fin 16)] = some { period := 50, remaining := 0 } ∧
      (after .intervalBoundary s).waitQueue = busy.waitQueue := by decide

/-- As in 2.5's order 1: B's holding ends, and A's oldest entry for L8 is granted into H3 (R32). -/
theorem test_lease_expiry :
    let t := after (.leaseExpiry 1 0) busy
    busy.inReset = false ∧
      busy.slots[(1 : Fin 16)].body = .held .b 0x300 0x20 (some { period := 50, remaining := 0 }) ∧
      t.slots[(1 : Fin 16)] = { gen := 3, body := .ended .b 0x20 (some { period := 50, remaining := 0 }) .leaseExpired } ∧
      (t.port .b).events = [.leaseExpired 0x13 0x20] ∧ (t.port .a).events = [.granted 0x30 0x31] := by decide

/-- An unleased slot does not expire. -/
theorem test_lease_expiry_not_due :
    (∀ owner lines tag period,
      busy.slots[(0 : Fin 16)].body ≠ .held owner lines tag (some { period := period, remaining := 0 })) ∧
      after (.leaseExpiry 0 0) busy = busy := by
  refine ⟨?_, by decide⟩
  intro owner lines tag period h
  have : (SlotBody.held .a 0xF 0x10 none : SlotBody) = .held owner lines tag (some { period := period, remaining := 0 }) := h
  cases this

theorem test_wait_expiry :
    let t := after (.waitExpiry .a 0x30) busy
    (∃ e ∈ busy.waitQueue, e.host = .a ∧ e.tag = 0x30 ∧ e.remaining = some 0) ∧
      t.waitQueue.map WaitEntry.tag = [0x40] ∧ (t.port .a).events = [.waitExpired 0x30] := by decide

theorem test_wait_expiry_not_due :
    (∀ e ∈ busy.waitQueue, e.host = .c → e.tag = 0x40 → e.remaining ≠ some 0) ∧
      after (.waitExpiry .c 0x40) busy = busy := by decide

/-- 1.3's example: the tenth differing sample of F10US, with B watching both edges and C the rising ones (R9, R84). -/
theorem test_line_sample_edge :
    let s := (busy.writeWatches .b 0x4 .both).writeWatches .c 0x4 .rising
    let t := after (.lineSample 2 false) s
    s.inReset = false ∧ s.lines[(2 : Fin 32)].mode = .input ∧ s.lines[(2 : Fin 32)].filter = .f10us ∧
      s.lines[(2 : Fin 32)].filtered = true ∧ s.lines[(2 : Fin 32)].settling + 1 = 10 ∧
      t.lines[(2 : Fin 32)].filtered = false ∧ t.lines[(2 : Fin 32)].settling = 0 ∧
      (t.port .b).events = [.lineEdge 2 false 0] ∧ (t.port .c).events = [] := by decide

/-- An equal sample restarts the count; a differing one counts; a DISCONNECTED line is not sampled (R3, R6). -/
theorem test_line_sample_counts :
    let s := { busy with lines := busy.lines.set 2 { busy.lines[(2 : Fin 32)] with settling := 8 } }
    (after (.lineSample 2 true) s).lines[(2 : Fin 32)].settling = 0 ∧
      (after (.lineSample 2 false) s).lines[(2 : Fin 32)].settling = 9 ∧
      busy.lines[(4 : Fin 32)].mode = .disconnected ∧ after (.lineSample 4 true) busy = busy := by decide

/-! ### Event queues -/

/-- A full event queue: a GRANTED event and 15 edges (5.5's example), or any head given. -/
def storm (head : Event) : State :=
  State.reset.mapPort .a fun p =>
    { p with events := head :: (List.range 15).map fun i => .lineEdge 12 (i % 2 == 0) (BitVec.ofNat 16 (i + 1)) }

/-- The oldest edge, at place 2, is displaced; an edge itself is dropped; both set EVENT_OVERFLOW (5.5). -/
theorem test_event_at_a_full_queue :
    let s := storm (.granted 0x20 0x02)
    s.resetting .a = false ∧ 16 ≤ (s.port .a).events.length ∧
      ((s.sendEvent .a (.leaseExpired 0x02 0x20)).port .a).events[1]? = some (.lineEdge 12 false 2) ∧
      ((s.sendEvent .a (.leaseExpired 0x02 0x20)).port .a).events.getLast? = some (.leaseExpired 0x02 0x20) ∧
      ((s.sendEvent .a (.lineEdge 12 false 16)).port .a).events = (s.port .a).events ∧
      ((s.sendEvent .a (.lineEdge 12 false 16)).port .a).flags.eventOverflow = true := by decide

/-- An edge in transit at the head is passed over: the second edge is displaced (5.5, last paragraph). -/
theorem test_event_in_transit_is_kept :
    let out : OutSelection := { source := .event, bytes := [], sent := 0, inTransit := true }
    let s := (storm (.lineEdge 12 false 0)).mapBus .a fun b => { b with state := .sending out false }
    s.eventInTransit .a = true ∧
      ((s.sendEvent .a (.waitExpired 5)).port .a).events[0]? = some (.lineEdge 12 false 0) ∧
      ((s.sendEvent .a (.waitExpired 5)).port .a).events[1]? = some (.lineEdge 12 false 2) := by decide

/-- With no edge in the queue an ownership event is dropped (R92); with one place free it is appended. -/
theorem test_event_with_no_edge :
    let s := State.reset.mapPort .a fun p => { p with events := List.replicate 16 (.granted 1 2) }
    let t := State.reset.mapPort .a fun p => { p with events := List.replicate 15 (.granted 1 2) }
    (∀ y ∈ (s.port .a).events, y.isLineEdge = false) ∧
      ((s.sendEvent .a (.waitExpired 5)).port .a).events = (s.port .a).events ∧
      ((s.sendEvent .a (.waitExpired 5)).port .a).flags.eventOverflow = true ∧
      ((t.sendEvent .a (.waitExpired 5)).port .a).events.length = 16 ∧
      ((t.sendEvent .a (.waitExpired 5)).port .a).flags.eventOverflow = false := by decide

theorem test_event_at_a_resetting_port :
    let s := State.reset.mapBus .a fun b => { b with state := .resetting }
    s.resetting .a = true ∧ s.sendEvent .a (.waitExpired 5) = s := by decide

/-- 8.5's reply, with flags 0x80, has check byte 0x29. -/
theorem test_outbound_frame :
    outboundFrame 0x01 0x80 0x22 0x00 [0x32, 0x00] = [0x01, 0x80, 0x22, 0x00, 0x02, 0x32, 0x00, 0x29] := by decide

/-! ### Two-wire ports -/

/-- A two-wire port A in a state. -/
def portA (st : TwoWireState) (s : State) : State := s.mapBus .a fun b => { b with state := st }

/-- A receive record with no mark. -/
def heard (bytes : List Byte) (len : Option Byte) : RxRecord := { bytes := bytes, len := len, sum := byteSum bytes, mark := .unmarked }

/-- A receive record of no byte with a mark. -/
def under (m : RxMark) : RxRecord := { RxRecord.empty with mark := m }

/-- A reply of 8.5 being sent. -/
def sending (sent : Nat) : OutSelection :=
  { source := .reply, bytes := outboundFrame 0x01 0x80 0x22 0x00 [0x32, 0x00], sent := sent, inTransit := true }

theorem test_start_and_stop :
    (State.reset.bus .a).state = .idle ∧ ((after (.startCondition .a) .reset).bus .a).state = .address ∧
      ((after (.stopCondition .a) (portA .address .reset)).bus .a).state = .idle ∧
      ((after (.startCondition .a) (portA (.sending (sending 3) false) .reset)).bus .a).state = .address ∧
      ((after (.stopCondition .a) (portA .resetting .reset)).bus .a).state = .resetting := by decide

/-- A partial frame sets FRAME_ERROR, a write of no byte does not (R137). -/
theorem test_stop_in_a_write :
    let s := portA (.receiving (heard [0x10] none)) .reset
    let t := portA (.receiving (heard [] none)) .reset
    ((after (.stopCondition .a) s).port .a).flags.frameError = true ∧
      ((after (.startCondition .a) s).port .a).flags.frameError = true ∧
      ((after (.stopCondition .a) t).port .a).flags.frameError = false ∧
      ((after (.stopCondition .a) t).bus .a).state = .idle := by decide

/-- Address 0x34 for a write: 0x68 (R130). -/
theorem test_write_address :
    let s := portA .address .reset
    s.inReset = false ∧ (0x68 : Byte).getLsbD 0 = false ∧ (0x68 : Byte).toNat / 2 = 0x34 + s.adr.toNat ∧
      (s.port .a).requests.length < 4 ∧ ((after (.writeAddress .a 0x68) s).bus .a).state = .receiving RxRecord.empty ∧
      ((after (.writeAddress .a 0x68) s).bus .a).ack = true := by decide

/-- A full request queue: refused, or held (R133). -/
theorem test_write_address_at_a_full_queue :
    let s := (portA .address .reset).mapPort .a fun p => { p with requests := List.replicate 4 (frame 0x01 []) }
    let t := s.mapBus .a fun b => { b with holdMode := .hold }
    4 ≤ (s.port .a).requests.length ∧ (s.bus .a).holdMode = .refuse ∧
      ((after (.writeAddress .a 0x68) s).bus .a).state = .idle ∧
      ((after (.writeAddress .a 0x68) t).bus .a).state = .holding RxRecord.empty 0 ∧
      (after (.writeAddress .a 0x68) t).sclHeldLow .a = true := by decide

theorem test_other_address :
    let s := portA .address .reset
    (0x70 : Byte).toNat / 2 ≠ 0x34 + s.adr.toNat ∧
      ((after (.addressNotAcknowledged .a 0x70) s).bus .a).state = .idle ∧
      ((after (.addressNotAcknowledged .a 0x70) s).bus .a).ack = false ∧
      ((after (.readAddress .a 0x69) (portA .resetting s)).bus .a).ack = false := by decide

/-- 8.5's read: the reply goes first, with MORE (R123). -/
theorem test_read_address :
    let s := (portA .address .reset).mapPort .a fun p =>
      { p with replies := [{ tag := 0x22, status := .ok, payload := [0x32, 0x00] }], events := [.lineEdge 9 true 0x1234]
               flags := PortFlags.cleared }
    (0x69 : Byte).getLsbD 0 = true ∧ (0x69 : Byte).toNat / 2 = 0x34 + s.adr.toNat ∧
      ((after (.readAddress .a 0x69) s).bus .a).state = .sending (sending 0) false := by decide

/-- An event alone, and an EMPTY frame with flags 0x01 just after a reset. -/
theorem test_read_address_event_or_empty :
    let s := (portA .address .reset).mapPort .a fun p => { p with events := [.lineEdge 9 true 0x1234], flags := PortFlags.cleared }
    (after (.readAddress .a 0x69) s).selection .a =
        some { source := .event, bytes := [0x02, 0x00, 0x01, 0x00, 0x04, 0x09, 0x01, 0x34, 0x12, 0xA9], sent := 0, inTransit := true } ∧
      (after (.readAddress .a 0x69) (portA .address .reset)).selection .a =
        some { source := .empty, bytes := [0x00, 0x01, 0x00, 0x00, 0x00, 0xFF], sent := 0, inTransit := false } := by decide

theorem test_hold_limit :
    let s := portA (.holding RxRecord.empty 10000) .reset
    (s.bus .a).state = .holding RxRecord.empty 10000 ∧
      ((after (.holdLimit .a) s).port .a).flags.requestOverrun = true ∧
      ((after (.holdLimit .a) s).bus .a).state = .receiving (under .overrun) ∧
      after (.holdLimit .a) (portA (.holding RxRecord.empty 9999) .reset) = portA (.holding RxRecord.empty 9999) .reset ∧
      after (.holdLimit .a) State.reset = .reset := by decide

/-- 7.6's frame, with the check byte that R118 gives (log 21): the check byte appends it. -/
theorem test_write_byte_good_check :
    let rx := heard [0x10, 0x10, 0x06, 0x0F, 0, 0, 0, 0, 0] (some 6)
    let s := portA (.receiving rx) .reset
    rx.bytes.length = 9 ∧ rx.sum + 0xCB = 0 ∧
      ((after (.writeByte .a 0xCB) s).port .a).requests = [{ opcode := 0x10, tag := 0x10, payload := [0x0F, 0, 0, 0, 0, 0] }] ∧
      (after (.writeByte .a 0xCB) s).bus .a =
        { TwoWireBus.reset with
          state := .receiving { heard (rx.bytes ++ [0xCB]) (some 6) with mark := .done }, ack := true } ∧
      rx.sum + 0xD2 ≠ 0 ∧ ((after (.writeByte .a 0xD2) s).port .a).flags.frameError = true := by decide

/-- An opening 0x00, lengths 32 and 33, the first payload byte, and a byte after a mark (R135, R136). -/
theorem test_write_byte_places :
    ((after (.writeByte .a 0x00) (portA (.receiving RxRecord.empty) .reset)).bus .a).state =
        .receiving { heard [0] none with mark := .nop } ∧
      ((after (.writeByte .a 32) (portA (.receiving (heard [1, 2] none)) .reset)).bus .a).state =
        .receiving (heard [1, 2, 32] (some 32)) ∧
      ((after (.writeByte .a 33) (portA (.receiving (heard [1, 2] none)) .reset)).bus .a).state =
        .receiving { heard [1, 2, 33] none with mark := .error } ∧
      ((after (.writeByte .a 7) (portA (.receiving (heard [1, 2, 32] (some 32))) .reset)).bus .a).ack = true ∧
      ((after (.writeByte .a 7) (portA (.receiving (under .nop)) .reset)).bus .a).ack = true ∧
      ((after (.writeByte .a 7) (portA (.receiving (under .done)) .reset)).bus .a).ack = false := by decide

/-- The check byte removes the reply even when the host refuses it; then 0xFF is sent (R138). -/
theorem test_read_byte_last :
    let s := (portA (.sending (sending 7) false) .reset).mapPort .a fun p =>
      { p with replies := [{ tag := 0x22, status := .ok, payload := [0x32, 0x00] }] }
    let t := after (.readByte .a false) s
    (sending 7).bytes[7]? = some 0x29 ∧ (sending 7).sent + 1 = (sending 7).bytes.length ∧ (t.bus .a).tx = 0x29 ∧
      (t.port .a).replies = [] ∧ ((after (.readByte .a true) t).bus .a).tx = 0xFF := by decide

/-- A byte before the check byte leaves the queue as it is; after the check byte of a frame, 0xFF (R138). -/
theorem test_read_byte_before_and_after :
    let s := (portA (.sending (sending 2) false) .reset).mapPort .a fun p =>
      { p with replies := [{ tag := 0x22, status := .ok, payload := [0x32, 0x00] }] }
    let sent := { sending 8 with inTransit := false }
    (after (.readByte .a true) s).selection .a = some (sending 3) ∧ ((after (.readByte .a true) s).bus .a).tx = 0x22 ∧
      (after (.readByte .a true) s).ports = s.ports ∧
      sent.bytes.length ≤ sent.sent ∧ ((after (.readByte .a true) (portA (.sending sent false) s)).bus .a).tx = 0xFF := by decide

theorem test_stuck_bus :
    let s := ((portA .address .reset).mapPort .a fun p =>
      { p with requests := [frame 0x01 []], flags := { p.flags with eventOverflow := true } }).mapBus .a fun b =>
      { b with stuckTime := 35000 }
    let t := after (.stuckBus .a) s
    (s.bus .a).state ≠ .resetting ∧ 35000 ≤ (s.bus .a).stuckTime ∧ (t.bus .a).state = .resetting ∧ (t.port .a).requests = [] ∧
      (t.port .a).flags.eventOverflow = false ∧ t.attention .a = false ∧
      after (.stuckBus .a) (portA (.holding RxRecord.empty 3) s) = portA (.holding RxRecord.empty 3) s ∧
      after (.stuckBus .a) busy = busy := by decide

/-- A start returns the stuck time to 0, and so do an acknowledge, a 1 bit of a refused byte and a byte that the host refuses; a command
that is no event of the bus does not (R140). -/
theorem test_stuck_time_returns_to_0 :
    let s := (portA .address .reset).mapBus .a fun b => { b with stuckTime := 34999 }
    ((after (.startCondition .a) s).bus .a).stuckTime = 0 ∧ ((after (.writeAddress .a 0x68) s).bus .a).stuckTime = 0 ∧
      ((after (.addressNotAcknowledged .a 0x70) s).bus .a).stuckTime = 0 ∧
      ((after (.writeByte .a 7) (portA (.receiving (under .done)) s)).bus .a).stuckTime = 0 ∧
      ((after (.readByte .a false) (portA (.sending (sending 8) true) s)).bus .a).stuckTime = 0 ∧
      after (.stuckBus .a) s = s := by decide

/-- With the eight 0 bits of a refused byte, and an acknowledged 0xFF, it is the board's levels that decide (R140, log 15). -/
theorem test_stuck_time_and_a_held_line :
    let s := (portA .idle .reset).mapBus .a fun b => { b with stuckTime := 34999 }
    let left := if !Config.sdaHeld .a 0 then 0 else 34999
    ((after (.addressNotAcknowledged .a 0x00) s).bus .a).stuckTime = left ∧ ((after (.readByte .a true) s).bus .a).stuckTime = left :=
  ⟨rfl, rfl⟩

theorem test_stuck_bus_premises : ∀ rx t, ((portA .address State.reset).bus .a).state ≠ .holding rx t := by
  intro rx t h
  cases h

/-- KEEP, then RELEASE; a port that is not RESETTING has no notice (R142, R157). -/
theorem test_port_reset_notice :
    let s := portA .resetting busy
    let r := s.mapPort .a fun p => { p with policy := .release }
    (s.bus .a).state = .resetting ∧ (s.port .a).policy = .keep ∧ (r.port .a).policy = .release ∧
      ((after (.portResetNotice .a 0) s).bus .a).state = .idle ∧
      (after (.portResetNotice .a 0) s).waitQueue.map WaitEntry.tag = [0x40] ∧
      (after (.portResetNotice .a 0) s).slots = s.slots ∧
      (after (.portResetNotice .a 0) r).slots[(2 : Fin 16)] = { gen := 2, body := .free } ∧
      after (.portResetNotice .a 0) busy = busy := by decide

/-! ### Port C -/

/-- Port C in an exchange. -/
def exchanging (rx : RxRecord) (out : OutSelection) (s : State) : State :=
  { s with selcLow := true, fourWire := { s.fourWire with state := .exchange rx 0 out } }

/-- The EMPTY frame selected at 9.5's exchange 1, all flags clear. -/
def emptyFrame (sent : Nat) : OutSelection := { source := .empty, bytes := [0, 0, 0, 0, 0, 0], sent := sent, inTransit := false }

theorem test_selc_fall :
    let s := State.reset.mapPort .c fun p => { p with flags := PortFlags.cleared }
    s.selcLow = false ∧ s.inReset = false ∧
      (after .selcFall s).fourWire.state = .exchange RxRecord.empty 0 (emptyFrame 0) ∧
      after .selcFall (after .selcFall s) = after .selcFall s := by decide

/-- SDOC is high impedance while SELC is high; the fall drives the first bit of a reply's kind 0x01, which is 0; its last bit is 1 (R144). -/
theorem test_sdoc :
    let s := State.reset.mapPort .c fun p => { p with replies := [{ tag := 0x40, status := .ok, payload := [] }] }
    s.sdoc = none ∧ (after .selcFall s).sdoc = some false ∧ (run [.selcFall, .exchangeByte 0] s).sdoc = some true ∧
      (after (.exchangeByte 7) s) = s := by decide

/-- 9.5's exchange 1: the check byte 0x9A completes the frame; exchange 4: check 0x00 sets FRAME_ERROR. -/
theorem test_exchange_byte_check :
    let s := exchanging (heard [0x13, 0x40, 0x01, 0x12] (some 1)) (emptyFrame 4) .reset
    let bad := exchanging (heard [0x02, 0x41, 0x00] (some 0)) (emptyFrame 3) .reset
    (after (.exchangeByte 0x9A) s).fourWire.state =
        .exchange { bytes := [0x13, 0x40, 0x01, 0x12, 0x9A], len := some 1, sum := 0, mark := .done } 0 (emptyFrame 5) ∧
      ((after (.exchangeByte 0x9A) s).port .c).requests = [] ∧
      ((after (.exchangeByte 0x00) bad).port .c).flags.frameError = true ∧
      (heard [0x02, 0x41, 0x00] (some 0)).sum + 0x00 = 0x43 := by decide

/-- An opening 0x00 is a NOP; a length of 33 is an ERROR; after the frame 0xFF is shifted out (R148). -/
theorem test_exchange_byte_places :
    let mark := fun (b : Byte) (s : State) => match (after (.exchangeByte b) s).fourWire.state with
      | .exchange rx _ _ => rx.mark
      | .deselected => .unmarked
    mark 0 (exchanging RxRecord.empty (emptyFrame 0) .reset) = .nop ∧
      mark 33 (exchanging (heard [1, 2] none) (emptyFrame 2) .reset) = .error ∧
      mark 7 (exchanging (under .error) (emptyFrame 3) .reset) = .error ∧
      (after (.exchangeByte 7) (exchanging RxRecord.empty (emptyFrame 6) .reset)).fourWire =
        { state := .exchange (heard [7] none) 0 (emptyFrame 6), tx := 0xFF } ∧
      (after (.exchangeByte 32) (exchanging (heard [1, 2] none) (emptyFrame 2) .reset)).fourWire =
        { state := .exchange (heard [1, 2, 32] (some 32)) 0 (emptyFrame 3), tx := 0 } := by decide

/-- 9.5's exchanges 1 to 3: the COMPLETE frame is appended; five bytes leave the reply, six remove it. -/
theorem test_selc_rise :
    let rx : RxRecord := { bytes := [0x13, 0x40, 0x01, 0x12, 0x9A], len := some 1, sum := 0, mark := .done }
    let reply : Reply := { tag := 0x40, status := .ok, payload := [] }
    let out := fun (n : Nat) => ({ source := .reply, bytes := [0x01, 0x00, 0x40, 0x00, 0x00, 0xBF], sent := n, inTransit := true } :
      OutSelection)
    let s := State.reset.mapPort .c fun p => { p with replies := [reply] }
    ((after (.selcRise 3) (exchanging rx (emptyFrame 6) .reset)).port .c).requests =
        [{ opcode := 0x13, tag := 0x40, payload := [0x12] }] ∧
      ((after (.selcRise 0) (exchanging (under .nop) (out 5) s)).port .c).replies = [reply] ∧
      ((after (.selcRise 0) (exchanging (under .nop) (out 6) s)).port .c).replies = [] := by decide

/-- A partial frame sets FRAME_ERROR, a partial byte alone does not; a full queue sets REQUEST_OVERRUN (R149). -/
theorem test_selc_rise_flags :
    let rx : RxRecord := { bytes := [0x13, 0x40, 0x01, 0x12, 0x9A], len := some 1, sum := 0, mark := .done }
    let s := State.reset.mapPort .c fun p => { p with requests := List.replicate 4 (frame 0x01 []) }
    ((after (.selcRise 0) (exchanging (heard [0x13] none) (emptyFrame 1) .reset)).port .c).flags.frameError = true ∧
      ((after (.selcRise 7) (exchanging RxRecord.empty (emptyFrame 0) .reset)).port .c).flags.frameError = false ∧
      ((after (.selcRise 0) (exchanging rx (emptyFrame 6) s)).port .c).flags.requestOverrun = true ∧
      ((after (.selcRise 0) (exchanging rx (emptyFrame 6) s)).port .c).requests = (s.port .c).requests := by decide

/-! ### The laws hold of a state at work -/

theorem busy_waits : busy.WaitQueueLaw := by
  refine ⟨by decide, ?_, by decide⟩
  intro h
  cases h <;> decide

theorem busy_queues : busy.QueueLaw := by
  refine ⟨?_, ?_, ?_⟩
  · intro h
    cases h <;> decide
  · intro p rx h
    cases p <;> cases h
  · intro p
    refine ⟨by cases p <;> decide, fun rx t h => ?_⟩
    cases p <;> cases h

theorem busy_scan : busy.ScanLaw := by
  intro older newer e h free _
  have mem : e ∈ busy.waitQueue := by rw [h]; simp
  have held : ∀ x ∈ busy.waitQueue, x.lines &&& heldLines busy.slots ≠ 0 := by decide
  exact absurd free (held e mem)

theorem busy_lane : busy.LaneLaw
    { handle := 0x01, tag := 0x60, bank := 0, lanes := 0x03
      steps := [{ level := 0x02, duration := 500 }, { level := 0x01, duration := 1 }]
      repeats := 2, current := 0, passes := some 2, timeLeft := 260 } :=
  ⟨.a, 0xF, 0x10, none, by decide, by decide, by decide⟩

theorem busy_ownership : busy.OwnershipLaw := by
  have one : ∀ (i : Fin 4) (p : Pattern), busy.patterns[i] = some p → i = 0 := by
    intro i p h
    by_contra g
    have idle : ∀ j : Fin 4, j ≠ 0 → busy.patterns[j] = none := by decide
    rw [idle i g] at h
    cases h
  refine ⟨by decide, ?_, by decide, by decide, ?_, ?_⟩
  · intro k h
    revert k
    cases h <;> decide
  · intro i p h
    have e := one i p h
    subst e
    cases h
    exact busy_lane
  · intro i j p q ne hp hq
    exact absurd ((one i p hp).trans (one j q hq).symm) ne

theorem busy_sampling : busy.SamplingLaw := by
  unfold State.SamplingLaw
  decide

/-- A reply in transit stands at the head of its queue (8.5's read). -/
theorem sending_transit :
    (portA (.sending (sending 2) false) (State.reset.mapPort .a fun p =>
      { p with replies := [{ tag := 0x22, status := .ok, payload := [0x32, 0x00] }] })).TransitLaw := by
  intro h out e _
  cases h
  · cases e
    exact .inl ⟨rfl, { tag := 0x22, status := .ok, payload := [0x32, 0x00] }, [], 0x80, rfl, rfl⟩
  · cases e
  · cases e

/-- A state at work that meets the laws has a next state. -/
theorem test_busy_steps : ∃ t, step { busy with pending := [.leaseExpiry 1 0] } = .next t := ⟨_, rfl⟩

/-- The premises of the RELEASE statement together, for the request and for the notice; the lines of H0 and P0 are given up. -/
theorem test_release_policy_premises :
    let s := (asked .a (frame 0x04 []) busy).mapPort .a fun p => { p with policy := .release }
    s.Valid .resetPort .a (frame 0x04 []) ∧ s.OwnershipLaw ∧ (s.port .a).policy = .release :=
  ⟨by decide, busy_ownership, by decide⟩

theorem test_release_policy_notice :
    let s := (portA .resetting busy).mapPort .a fun p => { p with policy := .release }
    s.inReset = false ∧ (s.bus .a).state = .resetting ∧ s.OwnershipLaw ∧ (s.port .a).policy = .release ∧
      (after (.portResetNotice .a 0) s).patterns[(0 : Fin 4)] = none ∧
      (after (.portResetNotice .a 0) s).lines[(0 : Fin 32)].mode = .openDrain :=
  ⟨by decide, by decide, busy_ownership, by decide, by decide, by decide⟩

end Sys2Proof.Tests
end

section
/-! ## The tables: line records, slots, waiting entries and patterns

Which commands leave the four tables as they are, and how a law that is read from the tables alone is carried over a step. -/

namespace Sys2Proof.Machine

/-- Two states with the same Line Table, Holding Table, Wait Queue and Pattern Slots. -/
structure State.SameTables (s t : State) : Prop where
  lines     : t.lines = s.lines
  slots     : t.slots = s.slots
  waitQueue : t.waitQueue = s.waitQueue
  patterns  : t.patterns = s.patterns

theorem State.SameTables.refl (s : State) : s.SameTables s := ⟨rfl, rfl, rfl, rfl⟩

theorem State.SameTables.trans {s t u : State} (h : s.SameTables t) (g : t.SameTables u) : s.SameTables u :=
  ⟨g.lines.trans h.lines, g.slots.trans h.slots, g.waitQueue.trans h.waitQueue, g.patterns.trans h.patterns⟩

theorem sameTables_take (s : State) (h : HostId) : s.SameTables (s.take h) := by constructor <;> simp

theorem sameTables_placeReply (s : State) (h : HostId) (r : Reply) : s.SameTables (s.placeReply h r) := ⟨rfl, rfl, rfl, rfl⟩

theorem sameTables_mapPort (s : State) (h : HostId) (f : Port → Port) : s.SameTables (s.mapPort h f) := ⟨rfl, rfl, rfl, rfl⟩

theorem sameTables_mapBus (s : State) (p : TwoWire) (f : TwoWireBus → TwoWireBus) : s.SameTables (s.mapBus p f) :=
  ⟨rfl, rfl, rfl, rfl⟩

theorem sameTables_sendEvents (s : State) (l : List (HostId × Event)) : s.SameTables (s.sendEvents l) := by
  constructor <;> simp

theorem sameTables_sendEvent (s : State) (h : HostId) (e : Event) : s.SameTables (s.sendEvent h e) := by
  constructor <;> simp

theorem sameTables_served (s : State) (h : HostId) (f : Frame) (r : Status) (payload : List Byte) :
    s.SameTables (s.served h f r payload) := (sameTables_take s h).trans (sameTables_placeReply _ h _)

theorem sameTables_running {s : State} {f : State → State} (hf : s.SameTables (f s)) : s.SameTables (s.running f) := by
  unfold State.running
  split
  · exact .refl s
  · exact hf

/-! ### The tables at reset -/

theorem reset_line (n : Fin 32) : State.reset.lines[n] = LineRecord.reset := getElem_tabulate_fin _ n

theorem reset_slot (k : Fin 16) : State.reset.slots[k] = { gen := 0, body := .free } := getElem_tabulate_fin _ k

theorem reset_pattern (i : Fin 4) : State.reset.patterns[i] = none := getElem_tabulate_fin _ i

/-! ### The requests that write no table -/

/-- A request whose body writes no table writes none. -/
theorem sameTables_request (s : State) (o : Opcode) {body : HostId → Frame → State → Answer}
    (hb : ∀ h f (t : State), t.SameTables (body h f t).state) : s.SameTables (s.request o body) := by
  rcases onRequest_cases s o fun h f t => (body h f t).place h f with e | ⟨h, f, r, -, e⟩ | ⟨h, f, -, e⟩ <;>
    rw [State.request, e]
  · exact .refl s
  · exact sameTables_served s h f r []
  · exact ((sameTables_take s h).trans (hb h f _)).trans (sameTables_placeReply _ h _)

theorem sameTables_writeConfig (s : State) (h : HostId) (m : AttentionMask) (mode : HoldMode) (policy : ResetPolicy) :
    s.SameTables (s.writeConfig h m mode policy) := by constructor <;> simp

theorem sameTables_writeWatches (s : State) (h : HostId) (m : LineMask) (e : Edges) : s.SameTables (s.writeWatches h m e) :=
  ⟨rfl, rfl, rfl, rfl⟩

theorem sameTables_queryAnswer (s : State) (h : HostId) (k : Fin 16) : s.SameTables (s.queryAnswer h k).state := by
  unfold State.queryAnswer
  dsimp only
  split
  · exact .refl s
  · split <;> exact .refl s
  · split <;> exact .refl s

/-! ### The ports and their buses write no table -/

theorem sameTables_answerByte (s : State) (p : TwoWire) (st : TwoWireState) (byte : Byte) (ack : Bool) :
    s.SameTables (s.answerByte p st byte ack) := ⟨rfl, rfl, rfl, rfl⟩

theorem sameTables_showByte (s : State) (p : TwoWire) (st : TwoWireState) (byte : Byte) (ack : Bool) :
    s.SameTables (s.showByte p st byte ack) := ⟨rfl, rfl, rfl, rfl⟩

theorem sameTables_endTransaction (s : State) (p : TwoWire) : s.SameTables (s.endTransaction p) := by
  constructor <;> simp

theorem sameTables_beginWrite (s : State) (p : TwoWire) (byte : Byte) : s.SameTables (s.beginWrite p byte) := by
  constructor <;> simp

theorem sameTables_receiveByte (s : State) (p : TwoWire) (rx : RxRecord) (byte : Byte) :
    s.SameTables (s.receiveByte p rx byte) := by constructor <;> simp

theorem sameTables_sendByte (s : State) (p : TwoWire) (out : OutSelection) (ack : Bool) :
    s.SameTables (s.sendByte p out ack) := by constructor <;> simp

theorem sameTables_passHoldLimit (s : State) (p : TwoWire) : s.SameTables (s.passHoldLimit p) := ⟨rfl, rfl, rfl, rfl⟩

theorem sameTables_findStuck (s : State) (p : TwoWire) : s.SameTables (s.findStuck p) := ⟨rfl, rfl, rfl, rfl⟩

theorem sameTables_exchangeIn (s : State) (rx : RxRecord) (byte : Byte) : s.SameTables (s.exchangeIn rx byte) := by
  constructor <;> simp

theorem sameTables_abandonTransfer (s : State) (h : HostId) (bits : Fin 8) : s.SameTables (s.abandonTransfer h bits) := by
  constructor <;> simp

/-! ### The commands that write no table -/

/-- The requests that only read, or write a port's record or watches. -/
def sparingRequest : Instr → Bool
  | .identify | .status | .configPort | .queryHolding | .listHoldings | .sample | .queryPattern | .watch | .unwatch
  | .unknownOpcodeRequest => true
  | _ => false

/-- The events of the buses, but for the notice that the Claim Controller takes. -/
def busEvent : Instr → Bool
  | .startCondition _ | .writeAddress _ _ | .holdLimit _ | .writeByte _ _ | .stopCondition _ | .readAddress _ _
  | .readByte _ _ | .stuckBus _ | .selcFall | .exchangeByte _ | .selcRise _ | .addressNotAcknowledged _ _ => true
  | _ => false

theorem exec_sparingRequest {c : Instr} (hc : sparingRequest c = true) {s t : State} (e : exec c s = .next t) :
    s.SameTables t := by
  cases c <;> cases hc <;> cases e
  case identify => exact sameTables_request s _ fun _ _ t => .refl t
  case status => exact sameTables_request s _ fun h _ t => sameTables_mapPort t h _
  case configPort =>
    refine sameTables_request s _ fun h f t => ?_
    split
    · exact sameTables_writeConfig t h _ _ _
    · exact .refl t
  case queryHolding =>
    refine sameTables_request s _ fun h f t => ?_
    split
    · exact sameTables_queryAnswer t h _
    · exact .refl t
  case listHoldings => exact sameTables_request s _ fun _ _ t => .refl t
  case sample => exact sameTables_request s _ fun _ _ t => .refl t
  case queryPattern =>
    refine sameTables_request s _ fun h f t => ?_
    split <;> exact .refl t
  case watch =>
    refine sameTables_request s _ fun h f t => ?_
    split
    · exact .refl t
    · split
      · exact .refl t
      · exact sameTables_writeWatches t h _ _
  case unwatch =>
    refine sameTables_request s _ fun h f t => ?_
    split
    · exact .refl t
    · exact sameTables_writeWatches t h _ _
  case unknownOpcodeRequest =>
    split
    · split
      · exact sameTables_served s _ _ _ []
      · exact .refl s
    · exact .refl s

theorem exec_busEvent {c : Instr} (hc : busEvent c = true) {s t : State} (e : exec c s = .next t) : s.SameTables t := by
  cases c <;> cases hc <;> cases e
  case startCondition p | stopCondition p =>
    refine sameTables_running ?_
    split
    · exact sameTables_mapBus s p _
    · exact sameTables_mapBus s p _
    · exact (sameTables_endTransaction s p).trans (sameTables_mapBus _ p _)
    · exact (sameTables_endTransaction s p).trans (sameTables_mapBus _ p _)
    · exact .refl s
    · exact .refl s
  case writeAddress p byte =>
    refine sameTables_running ?_
    split
    · split
      · exact .refl s
      · split
        · exact sameTables_beginWrite s p byte
        · exact sameTables_answerByte s p _ byte _
    · exact sameTables_mapBus s p _
    · exact .refl s
  case readAddress p byte =>
    refine sameTables_running ?_
    split
    · split
      · exact .refl s
      · split
        · exact sameTables_answerByte s p _ byte _
        · exact sameTables_answerByte s p _ byte _
    · exact sameTables_mapBus s p _
    · exact .refl s
  case addressNotAcknowledged p byte =>
    refine sameTables_running ?_
    split
    · split
      · exact .refl s
      · exact sameTables_answerByte s p _ byte _
    · exact sameTables_answerByte s p _ byte _
    · exact sameTables_mapBus s p _
    · exact .refl s
  case holdLimit p =>
    refine sameTables_running ?_
    split
    · exact sameTables_passHoldLimit s p
    · exact .refl s
  case stuckBus p =>
    refine sameTables_running ?_
    split
    · exact sameTables_findStuck s p
    · exact .refl s
  case writeByte p byte =>
    refine sameTables_running ?_
    split
    · split
      · exact sameTables_receiveByte s p _ byte
      all_goals exact sameTables_answerByte s p _ byte _
    · exact sameTables_answerByte s p _ byte _
    · exact sameTables_mapBus s p _
    · exact .refl s
  case readByte p ack =>
    refine sameTables_running ?_
    split
    · split
      · exact sameTables_showByte s p _ _ ack
      · exact sameTables_sendByte s p _ ack
    · exact sameTables_showByte s p _ _ ack
    · exact sameTables_mapBus s p _
    · exact .refl s
  case selcFall =>
    split
    · exact .refl s
    · split <;> exact ⟨rfl, rfl, rfl, rfl⟩
  case exchangeByte byte =>
    refine sameTables_running ?_
    split
    · exact (sameTables_exchangeIn s _ byte).trans ⟨rfl, rfl, rfl, rfl⟩
    · exact .refl s
  case selcRise bits =>
    split
    · exact ⟨rfl, rfl, rfl, rfl⟩
    · split <;> exact ⟨rfl, rfl, rfl, rfl⟩

end Sys2Proof.Machine
end

section
/-! ## What a step can do to the tables -/

namespace Sys2Proof.Machine

open Relation (ReflTransGen)

/-- One operation on the tables, under the checks that every command makes before it. -/
inductive TableStep (s : State) : State → Prop
  | same {t : State} (h : s.SameTables t) : TableStep s t
  | reset : TableStep s State.reset
  | grant (k : Fin 16) (h : HostId) (lines : LineMask) (tag : Byte) (period : Nat) (free : s.slots[k].isFree = true)
      (named : lines ≠ 0) (unowned : lines &&& heldLines s.slots = 0) :
      TableStep s { s with slots := grantInto s.slots k h lines tag period }
  | enqueue (e : WaitEntry) (named : e.lines ≠ 0) : TableStep s { s with waitQueue := s.waitQueue ++ [e] }
  | withdraw (q : List WaitEntry) (sub : q ⊆ s.waitQueue) : TableStep s { s with waitQueue := q }
  | grantScan : TableStep s s.grantScan
  | freeEnded (k : Fin 16) (h : HostId) (ended : s.slots[k].endedOf h = true) : TableStep s (s.freeSlot k)
  | releaseHolding (k : Fin 16) (raw : LineMask) (cause : Option AbortCause) : TableStep s (s.releaseHolding k raw cause)
  | endHolding (k : Fin 16) (raw : LineMask) (cause : EndCause) : TableStep s (s.endHolding k raw cause)
  | trimHolding (k : Fin 16) (named raw : LineMask) (within : named &&& ~~~s.slots[k].lines = 0)
      (proper : named ≠ s.slots[k].lines) : TableStep s (s.trimHolding k named raw)
  | writeLease (k : Fin 16) (lease : Option Lease) : TableStep s (s.writeLease k lease)
  | setMode (h : HostId) (mask : LineMask) (m : Mode) (pullUp : Bool) (raw : LineMask)
      (own : mask &&& ~~~(linesHeldBy s.slots h) = 0)
      (idle : ∀ (i : Fin 4) (p : Pattern), s.patterns[i] = some p → mask &&& p.lines = 0) :
      TableStep s (s.onLines mask fun n l => l.setMode m pullUp (raw.getLsbD n))
  | setFilter (h : HostId) (mask : LineMask) (x : Filter) (own : mask &&& ~~~(linesHeldBy s.slots h) = 0)
      (idle : ∀ (i : Fin 4) (p : Pattern), s.patterns[i] = some p → mask &&& p.lines = 0) :
      TableStep s (s.onLines mask fun _ l => l.writeFilter x)
  | drive (h : HostId) (mask level : LineMask) (own : mask &&& ~~~(linesHeldBy s.slots h) = 0)
      (idle : ∀ (i : Fin 4) (p : Pattern), s.patterns[i] = some p → mask &&& p.lines = 0) :
      TableStep s (s.onLines mask fun n l => { l with level := level.getLsbD n })
  | writeSafe (mask : LineMask) (x : SafeState) (raw : LineMask) : TableStep s (s.writeSafe mask x raw)
  | startPattern (i : Fin 4) (p : Pattern) (k : Fin 16) (h : HostId) (handle : slotHandle s.slots k = p.handle)
      (held : s.slots[k].heldBy h = true) (own : p.lines &&& ~~~s.slots[k].lines = 0)
      (driven : p.lines &&& s.undriven = 0) (apart : p.lines &&& s.laneMask = 0) : TableStep s (s.beginStep i p 0)
  | stopPattern (i : Fin 4) : TableStep s { s with patterns := s.patterns.set i none }
  | stepEnd (i : Fin 4) : TableStep s (s.stepEnd i)
  | boundary : TableStep s s.boundary
  | sampleLine (n : Fin 32) (raw : Bool) : TableStep s (s.sampleLine n raw)
  | tick : TableStep s s.tick

/-- The tables of one state come from those of another by operations on the tables. -/
abbrev TableSteps : State → State → Prop := ReflTransGen TableStep

theorem State.SameTables.steps {s t : State} (h : s.SameTables t) : TableSteps s t := .single (.same h)

theorem TableStep.steps {s t : State} (h : TableStep s t) : TableSteps s t := .single h

/-! ### Requests -/

/-- A request does to the tables what its body does. -/
theorem request_tableSteps (s : State) (o : Opcode) {body : HostId → Frame → State → Answer}
    (hb : ∀ h f (t : State), TableSteps t (body h f t).state) : TableSteps s (s.request o body) := by
  rcases onRequest_cases s o fun h f t => (body h f t).place h f with e | ⟨h, f, r, -, e⟩ | ⟨h, f, -, e⟩
  · rw [State.request, e]
  · rw [State.request, e]
    exact (sameTables_served s h f r []).steps
  · rw [State.request, e]
    exact ((sameTables_take s h).steps.trans (hb h f _)).trans (sameTables_placeReply _ h _).steps

theorem running_tableSteps {s : State} {f : State → State} (hf : TableSteps s (f s)) : TableSteps s (s.running f) := by
  unfold State.running
  split
  · exact .refl
  · exact hf

/-- A request on a handle: a refusal, the end of an ENDED slot, or what it does on a HELD slot of the host. -/
theorem withHolding_tableSteps (s : State) (h : HostId) (handle : Byte) {f : Fin 16 → LineMask → Option Lease → Answer}
    (hf : ∀ k lines lease, s.slots[k].heldBy h = true → s.slots[k].lines = lines → slotHandle s.slots k = handle →
      TableSteps s (f k lines lease).state) : TableSteps s (s.withHolding h handle f).state := by
  rcases withHolding_cases s h handle f with ⟨r, e⟩ | ⟨k, tag, lease, cause, hb, e⟩ | ⟨k, lines, tag, lease, hb, hk, e⟩
  · rw [e]; exact .refl
  · rw [e]
    exact (TableStep.freeEnded k h (endedOf_iff.2 ⟨_, _, _, hb⟩)).steps.tail .grantScan
  · rw [e]
    exact hf k lines lease (heldBy_iff.2 ⟨_, _, _, hb⟩) (by simp only [Slot.lines, hb]) hk

/-- A claim that finds its lines unowned takes a FREE slot (R44). -/
theorem claimVerdict_granted {s : State} {lines : LineMask} {period : Nat} {k : Fin 16}
    (h : s.claimVerdict lines period = .granted k) :
    lines ≠ 0 ∧ lines &&& heldLines s.slots = 0 ∧ s.slots[k].isFree = true := by
  unfold State.claimVerdict at h
  split at h
  · cases h
  · split at h
    · cases h
    · split at h
      · cases h
      · split at h
        · cases h
        · rename_i arg held _ _ _ hk
          cases h
          exact ⟨fun e => arg (.inl e), not_not.1 held, ((lowestFree_eq_some _ _).1 hk).1⟩

theorem grantClaim_tableSteps {s : State} {lines : LineMask} {period : Nat} {k : Fin 16}
    (v : s.claimVerdict lines period = .granted k) (h : HostId) (tag : Byte) :
    TableSteps s (s.grantClaim k h lines tag period).state := by
  obtain ⟨named, unowned, free⟩ := claimVerdict_granted v
  exact (TableStep.grant k h lines tag period free named unowned).steps

theorem queueClaim_tableSteps (s : State) (h : HostId) {f : Frame} (named : f.maskAt 0 ≠ 0) :
    TableSteps s (s.queueClaim h f).state := by
  unfold State.queueClaim
  split
  · exact .refl
  · split
    · exact .refl
    · exact (TableStep.enqueue (waitEntryOf h f) named).steps

/-- A START_PATTERN on a HELD slot of the requester: a refusal, or the start of its pattern. -/
theorem startOn_tableSteps {s : State} {f : Frame} {k : Fin 16} {h : HostId} (held : s.slots[k].heldBy h = true)
    (handle : slotHandle s.slots k = f.byteAt 0) : TableSteps s (s.startOn f s.slots[k].lines).state := by
  unfold State.startOn
  split
  · exact .refl
  · rename_i r _
    dsimp only
    split
    · exact .refl
    · split
      · exact .refl
      · split
        · exact .refl
        · split
          · exact .refl
          · rename_i own driven apart _ i _
            exact (TableStep.startPattern i (patternOf f r) k h handle held (not_not.1 own) (not_not.1 driven)
              (not_not.1 apart)).steps

theorem stopSlot_tableSteps (s : State) (f : Frame) : TableSteps s (s.stopSlot f).state := by
  unfold State.stopSlot
  split
  · rename_i hi
    split
    · split
      · exact (TableStep.stopPattern ⟨_, hi⟩).steps
      · exact .refl
    · exact .refl
  · exact .refl

/-- The RELEASE policy releases HELD slots and frees ENDED slots, one after the other (R42). -/
theorem applyPolicy_tableSteps (s : State) (h : HostId) (raw : LineMask) : TableSteps s (s.applyPolicy h raw) := by
  have drop (t : State) (k : Fin 16) : TableSteps t (t.dropSlot h raw k) := by
    unfold State.dropSlot
    split
    · exact (TableStep.releaseHolding k raw none).steps
    · split
      · exact (TableStep.freeEnded k h ‹_›).steps
      · exact .refl
  have drops (l : List (Fin 16)) (t : State) : TableSteps t (l.foldl (fun t k => t.dropSlot h raw k) t) := by
    induction l generalizing t with
    | nil => exact .refl
    | cons k rest ih => exact (drop t k).trans (ih _)
  unfold State.applyPolicy
  split
  · exact .refl
  · exact drops _ s

theorem resetContext_tableSteps (s : State) (h : HostId) (raw : LineMask) : TableSteps s (s.resetContext h raw) := by
  have waits : TableSteps s (s.withdrawWaits h) := (TableStep.withdraw _ (List.filter_subset_self ..)).steps
  have watches : (s.withdrawWaits h).SameTables ((s.withdrawWaits h).clearWatches h) := ⟨rfl, rfl, rfl, rfl⟩
  exact ((waits.trans watches.steps).trans (applyPolicy_tableSteps _ h raw)).tail .grantScan

/-! ### Commands -/

theorem deviceReset_tableSteps (s u : State) (since : ResetHistory) :
    TableSteps s { u.deviceReset with since := since } :=
  (TableStep.reset.steps).tail (.same ⟨rfl, rfl, rfl, rfl⟩)

/-- The commands of the lines, the holdings, the patterns, the time and the device reset. -/
theorem exec_writingCommand {c : Instr} (hr : sparingRequest c = false) (hb : busEvent c = false) {s t : State}
    (e : exec c s = .next t) : TableSteps s t := by
  cases c <;> cases hr <;> cases hb <;> cases e
  case resetPort raw bits =>
    refine request_tableSteps s _ fun h f t => ?_
    exact ((sameTables_mapPort t h _).trans (sameTables_abandonTransfer _ h bits)).steps.trans
      (resetContext_tableSteps _ h raw)
  case claimNow =>
    refine request_tableSteps s _ fun h f t => ?_
    split
    · exact .refl
    · exact grantClaim_tableSteps ‹_› h f.tag
  case claimWait =>
    refine request_tableSteps s _ fun h f t => ?_
    split
    · exact .refl
    · rename_i arg
      split
      · exact .refl
      · split
        · exact .refl
        · split
          · exact grantClaim_tableSteps ‹_› h f.tag
          · exact queueClaim_tableSteps t h fun z => arg (.inl z)
  case cancelWait =>
    refine request_tableSteps s _ fun h f t => ?_
    split
    · exact (TableStep.withdraw _ (List.filter_subset_self ..)).steps.tail .grantScan
    · exact .refl
  case release raw =>
    refine request_tableSteps s _ fun h f t => withHolding_tableSteps t h _ fun k _ _ _ _ _ => ?_
    exact (TableStep.releaseHolding k raw _).steps.tail .grantScan
  case trim raw =>
    refine request_tableSteps s _ fun h f t => withHolding_tableSteps t h _ fun k lines _ _ hl _ => ?_
    subst hl
    dsimp only
    split
    · exact .refl
    · rename_i arg
      split
      · exact (TableStep.releaseHolding k raw _).steps.tail .grantScan
      · exact (TableStep.trimHolding k _ raw (not_not.1 fun x => arg (.inr x)) ‹_›).steps.tail .grantScan
  case renew =>
    refine request_tableSteps s _ fun h f t => withHolding_tableSteps t h _ fun k _ lease _ _ _ => ?_
    dsimp only
    split
    · exact .refl
    · exact (TableStep.writeLease k _).steps
  case setMode raw =>
    refine request_tableSteps s _ fun h f t => ?_
    rcases changeLines_cases t h (f.maskAt 0) _ with ⟨r, e⟩ | ⟨g, hg, -, own, idle, e⟩ <;> rw [e]
    · exact .refl
    · split at hg
      · cases hg
        exact (TableStep.setMode h _ _ _ raw own idle).steps
      · cases hg
  case setFilter =>
    refine request_tableSteps s _ fun h f t => ?_
    rcases changeLines_cases t h (f.maskAt 0) _ with ⟨r, e⟩ | ⟨g, hg, -, own, idle, e⟩ <;> rw [e]
    · exact .refl
    · obtain ⟨x, -, rfl⟩ := Option.map_eq_some_iff.1 hg
      exact (TableStep.setFilter h _ x own idle).steps
  case drive =>
    refine request_tableSteps s _ fun h f t => ?_
    rcases changeLines_cases t h (f.maskAt 0) _ with ⟨r, e⟩ | ⟨g, hg, -, own, idle, e⟩ <;> rw [e]
    · exact .refl
    · cases hg
      exact (TableStep.drive h _ _ own idle).steps
  case setSafe raw =>
    refine request_tableSteps s _ fun h f t => ?_
    split
    · exact .refl
    · split
      · exact .refl
      · split
        · exact .refl
        · exact (TableStep.writeSafe _ _ raw).steps
  case startPattern =>
    refine request_tableSteps s _ fun h f t => withHolding_tableSteps t h _ fun k lines _ held hl handle => ?_
    subst hl
    exact startOn_tableSteps held handle
  case stopPattern =>
    refine request_tableSteps s _ fun h f t => withHolding_tableSteps t h _ fun _ _ _ _ _ _ => ?_
    exact stopSlot_tableSteps t f
  case revoke raw =>
    refine request_tableSteps s _ fun h f t => ?_
    split
    · exact .refl
    · split
      · exact .refl
      · exact (TableStep.endHolding _ raw _).steps.tail .grantScan
      · rename_i owner _ _ _ hb
        exact (TableStep.freeEnded _ owner (endedOf_iff.2 ⟨_, _, _, hb⟩)).steps.tail .grantScan
  case fullReset =>
    rcases onRequest_cases s .fullReset fun _ _ t => { t.deviceReset with since := { t.since with command := true } }
      with e | ⟨h, f, r, -, e⟩ | ⟨h, f, -, e⟩
    · rw [e]
    · rw [e]
      exact (sameTables_served s h f r []).steps
    · rw [e]
      exact deviceReset_tableSteps s _ _
  case intervalBoundary => exact running_tableSteps (TableStep.boundary).steps
  case leaseExpiry k raw =>
    refine running_tableSteps ?_
    split
    · exact (TableStep.endHolding k raw _).steps.tail .grantScan
    · exact .refl
  case waitExpiry h tag =>
    refine running_tableSteps ?_
    split
    · have waits : TableSteps s (s.removeWait h tag) := (TableStep.withdraw _ (List.filter_subset_self ..)).steps
      exact (waits.tail (.same (sameTables_sendEvent _ h _))).tail .grantScan
    · exact .refl
  case patternStepEnd i =>
    refine running_tableSteps ?_
    split
    · exact (TableStep.stepEnd i).steps
    · exact .refl
  case lineSample n raw => exact running_tableSteps (TableStep.sampleLine n raw).steps
  case portResetNotice p raw =>
    refine running_tableSteps ?_
    split
    · exact (resetContext_tableSteps s _ raw).tail (.same (sameTables_mapBus _ p _))
    · exact .refl
  case resetnLow => exact deviceReset_tableSteps s s _
  case supplyLoss => exact deviceReset_tableSteps s s _
  case resetRelease adr sup =>
    split
    · exact (TableStep.reset.steps).tail (.same ⟨rfl, rfl, rfl, rfl⟩)
    · exact .refl

/-- Everything a command can do to the tables. -/
theorem exec_tableSteps {c : Instr} {s t : State} (e : exec c s = .next t) : TableSteps s t := by
  by_cases hr : sparingRequest c = true
  · exact (exec_sparingRequest hr e).steps
  · by_cases hb : busEvent c = true
    · exact (exec_busEvent hb e).steps
    · exact exec_writingCommand (Bool.eq_false_iff.2 hr) (Bool.eq_false_iff.2 hb) e

/-- Everything a step can do to the tables. -/
theorem step_tableSteps {s t : State} (e : step s = .next t) : TableSteps s t := by
  unfold step at e
  split at e
  · cases e
    rcases idle_cases s with h | ⟨i, h⟩ | ⟨p, h⟩ | ⟨p, h⟩ | ⟨-, -, h⟩
    · rw [h]
    · exact exec_tableSteps h
    · exact exec_tableSteps h
    · exact exec_tableSteps h
    · rw [h]
      exact (TableStep.tick).steps
  · rename_i c rest _
    have popped : s.SameTables { s with pending := rest } := ⟨rfl, rfl, rfl, rfl⟩
    exact popped.steps.trans (exec_tableSteps e)

/-- A law that every operation on the tables keeps is kept by every step. -/
theorem step_keeps {P : State → Prop} (hP : ∀ {s t : State}, TableStep s t → P s → P t) {s t : State} (hs : P s)
    (e : step s = .next t) : P t := by
  have steps := step_tableSteps e
  clear e
  induction steps with
  | refl => exact hs
  | tail _ last ih => exact hP last ih

end Sys2Proof.Machine
end

section
/-! ## The sampling law (R1, R3, R6) -/

namespace Sys2Proof.Machine

/-- A DISCONNECTED line reads 0 with no count, and the count has not reached the filter's number of samples. -/
def LineRecord.Sampled (l : LineRecord) : Prop :=
  (l.mode = .disconnected → l.filtered = false ∧ l.settling = 0) ∧ l.settling < l.filter.samples

theorem Filter.samples_pos (f : Filter) : 0 < f.samples := by cases f <;> decide

/-- What the law says depends on the mode, the filter and the sampled fields alone. -/
theorem LineRecord.Sampled.congr {l l' : LineRecord} (h : l.Sampled) (mode : l'.mode = l.mode)
    (filter : l'.filter = l.filter) (filtered : l'.filtered = l.filtered) (settling : l'.settling = l.settling) :
    l'.Sampled := by
  unfold LineRecord.Sampled
  rw [mode, filter, filtered, settling]
  exact h

/-- DISCONNECTED is the one mode in which the raw level is not sensed (R3). -/
theorem sensed_eq_false_iff (m : Mode) : m.sensed = false ↔ m = .disconnected := by cases m <;> decide

theorem sampled_reset : LineRecord.reset.Sampled := ⟨fun _ => ⟨rfl, rfl⟩, by decide⟩

/-- A line that becomes or stays DISCONNECTED reads 0 with no count (R5). -/
theorem sampled_enterMode {l : LineRecord} (h : l.Sampled) (m : Mode) (raw : Bool) : (l.enterMode m raw).Sampled := by
  have pos := l.filter.samples_pos
  unfold LineRecord.enterMode
  split
  · rename_i sensed
    exact ⟨fun d => absurd ((sensed_eq_false_iff m).2 d) (by rw [sensed]; decide), pos⟩
  · exact ⟨fun _ => ⟨rfl, rfl⟩, pos⟩
  · rename_i _ stays
    refine ⟨fun d => h.1 ((sensed_eq_false_iff _).1 (Bool.eq_false_iff.2 fun sensed => ?_)), h.2⟩
    exact stays sensed ((sensed_eq_false_iff m).2 d)

theorem sampled_writeFilter {l : LineRecord} (h : l.Sampled) (f : Filter) : (l.writeFilter f).Sampled :=
  ⟨fun d => ⟨(h.1 d).1, rfl⟩, f.samples_pos⟩

theorem sampled_setMode {l : LineRecord} (h : l.Sampled) (m : Mode) (pullUp raw : Bool) : (l.setMode m pullUp raw).Sampled :=
  (sampled_enterMode h m raw).congr rfl rfl rfl rfl

theorem sampled_applySafe {l : LineRecord} (h : l.Sampled) (raw : Bool) : (l.applySafe raw).Sampled :=
  (sampled_writeFilter (sampled_enterMode h _ raw) .none).congr rfl rfl rfl rfl

/-- The filter accepts a level before its count can reach the number of samples (R6). -/
theorem sampled_sample {l : LineRecord} (h : l.Sampled) (raw : Bool) : (l.sample raw).Sampled := by
  obtain ⟨hd, hs⟩ := h
  have pos := l.filter.samples_pos
  unfold LineRecord.sample
  by_cases sensed : l.mode.sensed = true
  · have conn : l.mode ≠ .disconnected := fun d => by rw [d] at sensed; cases sensed
    rw [if_neg (by simp [sensed])]
    split
    · exact ⟨fun d => absurd d conn, pos⟩
    · split
      · exact ⟨fun d => absurd d conn, pos⟩
      · exact ⟨fun d => absurd d conn, not_le.1 ‹_›⟩
  · rw [if_pos (by simpa using sensed)]
    exact ⟨hd, hs⟩

/-- A sample writes the record of its line; the edges it reports go to event queues. -/
theorem sampleLine_lines (s : State) (n : Fin 32) (raw : Bool) :
    (s.sampleLine n raw).lines = s.lines.set n (s.lines[n].sample raw) := by
  unfold State.sampleLine
  dsimp only
  split
  · rfl
  · rw [State.offerEdge_lines]

/-! ### The lines after the ends of holdings -/

theorem releaseHolding_lines (s : State) (k : Fin 16) (raw : LineMask) (cause : Option AbortCause) :
    s.releaseHolding k raw cause = s ∨
      ∃ gone raw' : LineMask, (s.releaseHolding k raw cause).lines = (s.applySafeStates gone raw').lines := by
  rcases hb : s.slots[k].body with _ | ⟨owner, lines, tag, lease⟩ | ⟨owner, tag, lease, c⟩
  case held => exact .inr ⟨lines, raw, by rw [releaseHolding_eq hb, State.sendEvents_lines]⟩
  all_goals exact .inl (by simp only [State.releaseHolding, hb])

theorem endHolding_lines (s : State) (k : Fin 16) (raw : LineMask) (cause : EndCause) :
    s.endHolding k raw cause = s ∨
      ∃ gone raw' : LineMask, (s.endHolding k raw cause).lines = (s.applySafeStates gone raw').lines := by
  rcases hb : s.slots[k].body with _ | ⟨owner, lines, tag, lease⟩ | ⟨owner, tag, lease, c⟩
  case held => exact .inr ⟨lines, raw, by rw [endHolding_eq hb, State.sendEvents_lines]⟩
  all_goals exact .inl (by simp only [State.endHolding, hb])

theorem trimHolding_lines (s : State) (k : Fin 16) (named raw : LineMask) :
    s.trimHolding k named raw = s ∨
      ∃ gone raw' : LineMask, (s.trimHolding k named raw).lines = (s.applySafeStates gone raw').lines := by
  rcases hb : s.slots[k].body with _ | ⟨owner, lines, tag, lease⟩ | ⟨owner, tag, lease, c⟩
  case held => exact .inr ⟨named, raw, by rw [trimHolding_eq hb, State.sendEvents_lines]⟩
  all_goals exact .inl (by simp only [State.trimHolding, hb])

theorem samplingLaw_reset : State.reset.SamplingLaw := by
  intro n
  rw [reset_line]
  exact sampled_reset

theorem samplingLaw_of_lines {s t : State} (e : t.lines = s.lines) (law : s.SamplingLaw) : t.SamplingLaw := by
  unfold State.SamplingLaw
  rw [e]
  exact law

theorem samplingLaw_onLines {s : State} (law : s.SamplingLaw) (mask : LineMask) {f : Fin 32 → LineRecord → LineRecord}
    (hf : ∀ n l, l.Sampled → (f n l).Sampled) : (s.onLines mask f).SamplingLaw := by
  intro n
  rw [onLines_line]
  split
  · exact hf n _ (law n)
  · exact law n

theorem samplingLaw_applySafeStates {s : State} (law : s.SamplingLaw) (mask raw : LineMask) :
    (s.applySafeStates mask raw).SamplingLaw :=
  samplingLaw_onLines law mask fun n _ hl => sampled_applySafe hl (raw.getLsbD n)

theorem samplingLaw_writeSafe {s : State} (law : s.SamplingLaw) (mask : LineMask) (x : SafeState) (raw : LineMask) :
    (s.writeSafe mask x raw).SamplingLaw := by
  have records : (s.onLines mask fun _ l => { l with safe := x }).SamplingLaw :=
    samplingLaw_onLines law mask fun _ _ hl => hl.congr rfl rfl rfl rfl
  exact samplingLaw_applySafeStates records _ raw

theorem samplingLaw_beginStep {s : State} (law : s.SamplingLaw) (i : Fin 4) (p : Pattern) (k : Nat) :
    (s.beginStep i p k).SamplingLaw := by
  intro n
  have written : (s.beginStep i p k).lines[n] = _ := writeLanes_written s p.bank p.lanes (p.step k).level n
  rw [written]
  split
  · exact LineRecord.Sampled.congr (law n) rfl rfl rfl rfl
  · exact law n

theorem samplingLaw_stepEnd {s : State} (law : s.SamplingLaw) (i : Fin 4) : (s.stepEnd i).SamplingLaw := by
  rcases stepEnd_cases s i with e | ⟨p, q, k, -, e, -⟩ | ⟨p, -, e⟩ <;> rw [e]
  · exact law
  · exact samplingLaw_beginStep law i q k
  · exact samplingLaw_of_lines (by simp) law

theorem samplingLaw_sampleLine {s : State} (law : s.SamplingLaw) (n : Fin 32) (raw : Bool) :
    (s.sampleLine n raw).SamplingLaw := by
  intro m
  rw [sampleLine_lines, getElem_set_fin]
  split
  · exact sampled_sample (law n) raw
  · exact law m

/-- The lines after a holding has ended in any of the three ways are as before, or some have taken their safe states. -/
theorem samplingLaw_givenUp {s t : State} (law : s.SamplingLaw)
    (h : t = s ∨ ∃ gone raw : LineMask, t.lines = (s.applySafeStates gone raw).lines) : t.SamplingLaw := by
  rcases h with rfl | ⟨gone, raw, e⟩
  · exact law
  · exact samplingLaw_of_lines e (samplingLaw_applySafeStates law gone raw)

/-- Every operation on the tables keeps the sampling law. -/
theorem tableStep_samplingLaw {s t : State} (op : TableStep s t) (law : s.SamplingLaw) : t.SamplingLaw := by
  cases op with
  | same h => exact samplingLaw_of_lines h.lines law
  | reset => exact samplingLaw_reset
  | grant | enqueue | withdraw | freeEnded | stopPattern | boundary | tick => exact law
  | grantScan => exact samplingLaw_of_lines (by simp) law
  | writeLease => exact samplingLaw_of_lines (by simp) law
  | releaseHolding k raw cause => exact samplingLaw_givenUp law (releaseHolding_lines s k raw cause)
  | endHolding k raw cause => exact samplingLaw_givenUp law (endHolding_lines s k raw cause)
  | trimHolding k named raw => exact samplingLaw_givenUp law (trimHolding_lines s k named raw)
  | setMode h mask m pullUp raw => exact samplingLaw_onLines law mask fun n l hl => sampled_setMode hl m pullUp _
  | setFilter h mask x => exact samplingLaw_onLines law mask fun n l hl => sampled_writeFilter hl x
  | drive h mask level => exact samplingLaw_onLines law mask fun n l hl => hl.congr rfl rfl rfl rfl
  | writeSafe mask x raw => exact samplingLaw_writeSafe law mask x raw
  | startPattern i p => exact samplingLaw_beginStep law i p 0
  | stepEnd i => exact samplingLaw_stepEnd law i
  | sampleLine n raw => exact samplingLaw_sampleLine law n raw

/-- Settles O58: each operation on the tables keeps the law of each line record. -/
theorem stepKeepsSamplingLaw : Obligations.StepKeepsSamplingLaw :=
  fun _ _ law e => step_keeps tableStep_samplingLaw law e

end Sys2Proof.Machine
end

section
/-! ## The laws of ownership (R12, R21, R51, R66) -/

namespace Sys2Proof.Machine

/-! ### What the laws read of a slot -/

/-- A holding at a generation with at least the given lanes. -/
def Slot.Carries (x : Slot) (p : Pattern) : Prop :=
  x.gen = handleGen p.handle ∧ (∃ h : HostId, x.heldBy h = true) ∧
    ∀ n : Fin 32, p.lines.getLsbD n = true → x.lines.getLsbD n = true

theorem laneLaw_iff (s : State) (p : Pattern) :
    s.LaneLaw p ↔ s.slots[handleSlot p.handle].Carries p ∧
      ∀ n : Fin 32, p.lines.getLsbD n = true → s.lines[n].mode = .pushPull ∨ s.lines[n].mode = .openDrain := by
  unfold State.LaneLaw Slot.Carries
  generalize s.slots[handleSlot p.handle] = x
  constructor
  · rintro ⟨owner, lines, tag, lease, rfl, within, driven⟩
    exact ⟨⟨rfl, ⟨owner, heldBy_iff.2 ⟨_, _, _, rfl⟩⟩, (and_not_eq_zero_iff _ _).1 within⟩, driven⟩
  · rintro ⟨⟨gen, ⟨owner, held⟩, within⟩, driven⟩
    obtain ⟨lines, tag, lease, hb⟩ := heldBy_iff.1 held
    refine ⟨owner, lines, tag, lease, ?_, (and_not_eq_zero_iff _ _).2 ?_, driven⟩
    · rw [← gen, ← hb]
    · simpa only [Slot.lines, hb] using within

theorem Slot.Carries.congr {x : Slot} {p q : Pattern} (c : x.Carries q) (handle : p.handle = q.handle)
    (lines : p.lines = q.lines) : x.Carries p := by
  unfold Slot.Carries
  rw [handle, lines]
  exact c

/-- What the laws read of a slot is unchanged. -/
structure Slot.SameHolding (x y : Slot) : Prop where
  gen    : y.gen = x.gen
  heldBy : ∀ h : HostId, y.heldBy h = x.heldBy h
  lines  : y.lines = x.lines

theorem Slot.SameHolding.refl (x : Slot) : x.SameHolding x := ⟨rfl, fun _ => rfl, rfl⟩

theorem Slot.SameHolding.carries {x y : Slot} (h : x.SameHolding y) {p : Pattern} (c : x.Carries p) : y.Carries p := by
  unfold Slot.Carries
  simp only [h.gen, h.heldBy, h.lines]
  exact c

theorem sameHolding_countDown (x : Slot) : x.SameHolding x.countDown := by
  obtain ⟨gen, _ | ⟨owner, lines, tag, _ | lease⟩ | _⟩ := x <;> exact ⟨rfl, fun _ => rfl, rfl⟩

theorem sameHolding_of_ended {x : Slot} {h : HostId} (e : x.endedOf h = true) :
    x.SameHolding { x with body := .free } := by
  obtain ⟨tag, lease, cause, hb⟩ := endedOf_iff.1 e
  exact ⟨rfl, fun _ => by simp only [Slot.heldBy, hb], by simp only [Slot.lines, hb]⟩

theorem heldLines_congr {t u : Vector Slot 16} (h : ∀ k : Fin 16, u[k].lines = t[k].lines) : heldLines u = heldLines t := by
  unfold heldLines
  simp only [h]

/-! ### The laws with their parts named -/

/-- The laws of ownership, line by line. -/
structure State.Owned (s : State) : Prop where
  disjoint : ∀ (i j : Fin 16) (n : Fin 32), i ≠ j → s.slots[i].lines.getLsbD n = true → s.slots[j].lines.getLsbD n = false
  named    : ∀ (k : Fin 16) (h : HostId), s.slots[k].heldBy h = true → s.slots[k].lines ≠ 0
  waits    : ∀ e ∈ s.waitQueue, e.lines ≠ 0
  safe     : ∀ n : Fin 32, (heldLines s.slots).getLsbD n = false → InSafeState s.lines[n]
  carried  : ∀ (i : Fin 4) (p : Pattern), s.patterns[i] = some p → s.slots[handleSlot p.handle].Carries p
  driven   : ∀ (i : Fin 4) (p : Pattern) (n : Fin 32), s.patterns[i] = some p → p.lines.getLsbD n = true →
    s.lines[n].mode = .pushPull ∨ s.lines[n].mode = .openDrain
  apart    : ∀ (i j : Fin 4) (p q : Pattern), i ≠ j → s.patterns[i] = some p → s.patterns[j] = some q →
    p.lines &&& q.lines = 0

theorem ownershipLaw_iff (s : State) : s.OwnershipLaw ↔ s.Owned := by
  constructor
  · rintro ⟨disjoint, named, waits, safe, lanes, apart⟩
    exact
      { disjoint := fun i j n ne => (and_eq_zero_iff _ _).1 (disjoint i j ne) n
        named := named
        waits := waits
        safe := fun n h => safe n ((getLsbD_heldLines_false _ _).1 h)
        carried := fun i p hp => ((laneLaw_iff s p).1 (lanes i p hp)).1
        driven := fun i p n hp => ((laneLaw_iff s p).1 (lanes i p hp)).2 n
        apart := apart }
  · intro o
    exact ⟨fun i j ne => (and_eq_zero_iff _ _).2 fun n => o.disjoint i j n ne, o.named, o.waits,
      fun n h => o.safe n ((getLsbD_heldLines_false _ _).2 h),
      fun i p hp => (laneLaw_iff s p).2 ⟨o.carried i p hp, fun n => o.driven i p n hp⟩, o.apart⟩

namespace State.Owned

variable {s : State}

theorem congr {t : State} (o : s.Owned) (h : s.SameTables t) : t.Owned := by
  obtain ⟨lines, slots, waitQueue, patterns⟩ := h
  constructor
  case disjoint => rw [slots]; exact o.disjoint
  case named => rw [slots]; exact o.named
  case waits => rw [waitQueue]; exact o.waits
  case safe => rw [slots, lines]; exact o.safe
  case carried => rw [slots, patterns]; exact o.carried
  case driven => rw [lines, patterns]; exact o.driven
  case apart => rw [patterns]; exact o.apart

/-- The lanes of a running pattern are held. -/
theorem lane_held (o : s.Owned) {i : Fin 4} {p : Pattern} (hp : s.patterns[i] = some p) {n : Fin 32}
    (hn : p.lines.getLsbD n = true) : (heldLines s.slots).getLsbD n = true := by
  obtain ⟨-, -, within⟩ := o.carried i p hp
  exact (getLsbD_heldLines _ _).2 ⟨_, within n hn⟩

/-! ### One table at a time -/

/-- Unowned lines keep their safe states, and lanes their modes. -/
theorem withLines (o : s.Owned) {L : Vector LineRecord 32}
    (safe : ∀ n : Fin 32, (heldLines s.slots).getLsbD n = false → InSafeState L[n])
    (mode : ∀ (i : Fin 4) (p : Pattern) (n : Fin 32), s.patterns[i] = some p → p.lines.getLsbD n = true →
      L[n].mode = s.lines[n].mode) : ({ s with lines := L } : State).Owned :=
  { o with
    safe := safe
    driven := fun i p n hp hn => by
      show L[n].mode = _ ∨ L[n].mode = _
      rw [mode i p n hp hn]
      exact o.driven i p n hp hn }

/-- Every pattern that runs ran before, under the same handle and on the same lanes. -/
theorem withPatterns (o : s.Owned) {P : Vector (Option Pattern) 4}
    (ran : ∀ (i : Fin 4) (p : Pattern), P[i] = some p →
      ∃ q, s.patterns[i] = some q ∧ p.handle = q.handle ∧ p.lines = q.lines) :
    ({ s with patterns := P } : State).Owned :=
  { o with
    carried := fun i p hp => by
      obtain ⟨q, hq, handle, lines⟩ := ran i p hp
      show s.slots[handleSlot p.handle].Carries p
      simp only [handle]
      exact (o.carried i q hq).congr handle lines
    driven := fun i p n hp hn => by
      obtain ⟨q, hq, -, lines⟩ := ran i p hp
      exact o.driven i q n hq (lines ▸ hn)
    apart := fun i j p p' ne hp hp' => by
      obtain ⟨q, hq, -, lines⟩ := ran i p hp
      obtain ⟨q', hq', -, lines'⟩ := ran j p' hp'
      rw [lines, lines']
      exact o.apart i j q q' ne hq hq' }

theorem withWaits (o : s.Owned) {q : List WaitEntry} (waits : ∀ e ∈ q, e.lines ≠ 0) :
    ({ s with waitQueue := q } : State).Owned := { o with waits := waits }

/-- What the laws read of every slot is unchanged. -/
theorem withSlots (o : s.Owned) {S : Vector Slot 16} (same : ∀ k : Fin 16, s.slots[k].SameHolding S[k]) :
    ({ s with slots := S } : State).Owned := by
  have lines (k : Fin 16) : S[k].lines = s.slots[k].lines := (same k).lines
  exact
  { o with
    disjoint := fun i j n ne => by
      show S[i].lines.getLsbD n = true → S[j].lines.getLsbD n = false
      rw [lines, lines]
      exact o.disjoint i j n ne
    named := fun k h hh => by
      show S[k].lines ≠ 0
      rw [lines]
      exact o.named k h ((same k).heldBy h ▸ hh)
    safe := fun n h => o.safe n (heldLines_congr lines ▸ h)
    carried := fun i p hp => (same _).carries (o.carried i p hp) }

/-- One slot is written: its lines are held by no other slot, the lines it loses carry their safe states, and it carries the
patterns that run under it. -/
theorem setSlot (o : s.Owned) (k : Fin 16) (x : Slot)
    (disjoint : ∀ (j : Fin 16) (n : Fin 32), j ≠ k → x.lines.getLsbD n = true → s.slots[j].lines.getLsbD n = false)
    (named : ∀ h : HostId, x.heldBy h = true → x.lines ≠ 0)
    (safe : ∀ n : Fin 32, s.slots[k].lines.getLsbD n = true → x.lines.getLsbD n = false → InSafeState s.lines[n])
    (carried : ∀ (i : Fin 4) (p : Pattern), s.patterns[i] = some p → handleSlot p.handle = k → x.Carries p) :
    ({ s with slots := s.slots.set k x } : State).Owned := by
  obtain ⟨same, other⟩ := slotWritten_set s.slots k x
  exact
  { o with
    disjoint := fun i j n ne hi => by
      show (s.slots.set k x)[j].lines.getLsbD n = false
      change (s.slots.set k x)[i].lines.getLsbD n = true at hi
      by_cases ik : i = k
      · subst ik
        rw [same] at hi
        rw [other j ne.symm]
        exact disjoint j n ne.symm hi
      · rw [other i ik] at hi
        by_cases jk : j = k
        · subst jk
          rw [same, ← Bool.not_eq_true]
          intro hx
          rw [disjoint i n ik hx] at hi
          cases hi
        · rw [other j jk]
          exact o.disjoint i j n ne hi
    named := fun j h hh => by
      show (s.slots.set k x)[j].lines ≠ 0
      change (s.slots.set k x)[j].heldBy h = true at hh
      by_cases jk : j = k
      · subst jk
        rw [same] at hh ⊢
        exact named h hh
      · rw [other j jk] at hh ⊢
        exact o.named j h hh
    safe := fun n hn => by
      have free := (getLsbD_heldLines_false _ _).1 hn
      have freeX : x.lines.getLsbD n = false := same ▸ free k
      rcases hk : s.slots[k].lines.getLsbD n with _ | _
      · refine o.safe n ((getLsbD_heldLines_false _ _).2 fun j => ?_)
        by_cases jk : j = k
        · rw [jk]; exact hk
        · exact other j jk ▸ free j
      · exact safe n hk freeX
    carried := fun i p hp => by
      show (s.slots.set k x)[handleSlot p.handle].Carries p
      by_cases hk : handleSlot p.handle = k
      · subst hk
        rw [same]
        exact carried i p hp rfl
      · rw [other _ hk]
        exact o.carried i p hp }

end State.Owned

end Sys2Proof.Machine
end

section
/-! ## Every operation on the tables keeps the laws of ownership -/

namespace Sys2Proof.Machine

/-! ### What operations leave of a line record -/

@[simp] theorem enterMode_mode (l : LineRecord) (m : Mode) (raw : Bool) : (l.enterMode m raw).mode = m := by
  unfold LineRecord.enterMode; split <;> rfl

@[simp] theorem sample_mode (l : LineRecord) (raw : Bool) : (l.sample raw).mode = l.mode := by
  unfold LineRecord.sample; split_ifs <;> rfl

theorem inSafeState_of_took {l l' : LineRecord} {raw : Bool} (h : TookSafeState l l' raw) : InSafeState l' := by
  obtain ⟨mode, level, pullUp, filter, -, safe, -⟩ := h
  exact ⟨by rw [mode, safe], by rw [level, safe], by rw [pullUp, safe], filter⟩

theorem inSafeState_sample {l : LineRecord} (h : InSafeState l) (raw : Bool) : InSafeState (l.sample raw) := by
  unfold LineRecord.sample; split_ifs <;> exact h

/-- A SET_SAFE, line by line: the record is written, and an unowned line takes the new safe state at once (R18). -/
theorem writeSafe_line (s : State) (mask : LineMask) (x : SafeState) (raw : LineMask) (n : Fin 32) :
    (s.writeSafe mask x raw).lines[n] =
      if mask.getLsbD n = true then
        if (heldLines s.slots).getLsbD n = true then { s.lines[n] with safe := x }
        else LineRecord.applySafe { s.lines[n] with safe := x } (raw.getLsbD n)
      else s.lines[n] := by
  unfold State.writeSafe State.applySafeStates
  have unowned : (mask &&& ~~~(heldLines s.slots)).getLsbD n = (mask.getLsbD n && !(heldLines s.slots).getLsbD n) := by
    rw [BitVec.getLsbD_and, BitVec.getLsbD_not, decide_eq_true n.isLt, Bool.true_and]
  rw [onLines_line, onLines_line, unowned]
  cases mask.getLsbD n <;> cases (heldLines s.slots).getLsbD n <;> rfl

/-- The levels of the lanes are written, and nothing else (R66). -/
theorem writeLanes_line (s : State) (bank : Fin 4) (lanes level : Byte) (n : Fin 32) :
    (s.writeLanes bank lanes level).lines[n] =
      if isLane bank lanes n = true then { s.lines[n] with level := level.getLsbD (n % 8) } else s.lines[n] := by
  rw [State.writeLanes, getElem_tabulate_fin]

theorem eq_false_of_imp {a b : Bool} (h : a = true → b = true) (hb : b = false) : a = false :=
  Bool.eq_false_iff.2 fun ha => Bool.eq_false_iff.1 hb (h ha)

namespace State.Owned

variable {s : State}

/-! ### Lines -/

/-- Lines that a host holds, and that are no lanes, are changed. -/
theorem onLines (o : s.Owned) {h : HostId} {mask : LineMask} (own : mask &&& ~~~(linesHeldBy s.slots h) = 0)
    (idle : ∀ (i : Fin 4) (p : Pattern), s.patterns[i] = some p → mask &&& p.lines = 0)
    (f : Fin 32 → LineRecord → LineRecord) : (s.onLines mask f).Owned := by
  have kept (n : Fin 32) (hn : mask.getLsbD n = false) : (s.onLines mask f).lines[n] = s.lines[n] := by
    rw [onLines_line, hn, if_neg Bool.false_ne_true]
  refine o.withLines (fun n hn => ?_) fun i p n hp hn => ?_
  · have out : mask.getLsbD n = false :=
      eq_false_of_imp (fun hm => linesHeldBy_subset s.slots h n ((and_not_eq_zero_iff _ _).1 own n hm)) hn
    exact kept n out ▸ o.safe n hn
  · have apart := idle i p hp
    rw [BitVec.and_comm, and_eq_zero_iff] at apart
    have out : mask.getLsbD n = false := apart n hn
    exact congrArg LineRecord.mode (kept n out)

theorem writeSafe (o : s.Owned) (mask : LineMask) (x : SafeState) (raw : LineMask) : (s.writeSafe mask x raw).Owned := by
  refine o.withLines (L := (s.writeSafe mask x raw).lines) (fun n hn => ?_) fun i p n hp hn => ?_
  · rw [writeSafe_line]
    split
    · rw [hn, if_neg Bool.false_ne_true]
      exact inSafeState_of_took (applySafe_took _ _)
    · exact o.safe n hn
  · rw [writeSafe_line, o.lane_held hp hn, if_pos rfl]
    split <;> rfl

theorem sampleLine (o : s.Owned) (n : Fin 32) (raw : Bool) : (s.sampleLine n raw).Owned := by
  have sampled : ({ s with lines := s.lines.set n (s.lines[n].sample raw) } : State).Owned := by
    refine o.withLines (fun m hm => ?_) fun i p m _ _ => ?_
    · rw [getElem_set_fin]
      split
      · subst m; exact inSafeState_sample (o.safe n hm) raw
      · exact o.safe m hm
    · rw [getElem_set_fin]
      split
      · subst m; exact sample_mode _ raw
      · rfl
  exact sampled.congr ⟨sampleLine_lines s n raw, by simp, by simp, by simp⟩

/-- Levels are written to held lines. -/
theorem writeLanes (o : s.Owned) {bank : Fin 4} {lanes : Byte} (level : Byte)
    (held : ∀ n : Fin 32, isLane bank lanes n = true → (heldLines s.slots).getLsbD n = true) :
    (s.writeLanes bank lanes level).Owned := by
  refine o.withLines (L := (s.writeLanes bank lanes level).lines) (fun n hn => ?_) fun i p n _ _ => ?_
  · have out : isLane bank lanes n = false := eq_false_of_imp (held n) hn
    rw [writeLanes_line, out, if_neg Bool.false_ne_true]
    exact o.safe n hn
  · rw [writeLanes_line]
    split <;> rfl

/-! ### Patterns -/

theorem setNone (o : s.Owned) (i : Fin 4) : ({ s with patterns := s.patterns.set i none } : State).Owned := by
  refine o.withPatterns fun j p hp => ⟨p, ?_, rfl, rfl⟩
  rw [getElem_set_fin] at hp
  split at hp
  · cases hp
  · exact hp

theorem abort (o : s.Owned) (hit : Pattern → Bool) : (s.abortPatterns hit).Owned := by
  refine o.withPatterns fun i p hp => ⟨p, ?_, rfl, rfl⟩
  have e := (abortPatterns_slot s hit i).symm.trans hp
  exact (Option.filter_eq_some_iff.1 e).1

/-- A running pattern goes on with another step. -/
theorem beginStep (o : s.Owned) {i : Fin 4} {p q : Pattern} (k : Nat) (hp : s.patterns[i] = some p)
    (handle : q.handle = p.handle) (bank : q.bank = p.bank) (lanes : q.lanes = p.lanes) : (s.beginStep i q k).Owned := by
  have lines : q.lines = p.lines := by rw [Pattern.lines, Pattern.lines, bank, lanes]
  refine writeLanes (o.withPatterns fun j r hr => ?_) _ fun n hn => ?_
  · rw [getElem_set_fin] at hr
    split at hr
    · subst j
      cases hr
      exact ⟨p, hp, handle, lines⟩
    · exact ⟨r, hr, rfl, rfl⟩
  · rw [← getLsbD_patternLines, lines] at hn
    exact o.lane_held hp hn

theorem stepEnd (o : s.Owned) (i : Fin 4) : (s.stepEnd i).Owned := by
  rcases stepEnd_cases s i with e | ⟨p, q, k, hp, e, handle, bank, lanes⟩ | ⟨p, -, e⟩ <;> rw [e]
  · exact o
  · exact o.beginStep k hp handle bank lanes
  · unfold State.completePattern
    split
    · exact (o.setNone i).congr (sameTables_sendEvent _ _ _)
    · exact o.setNone i

/-- A pattern starts on driven lines of its holding that are lanes of no other. -/
theorem startPattern (o : s.Owned) (i : Fin 4) {p : Pattern} {k : Fin 16} {h : HostId}
    (handle : slotHandle s.slots k = p.handle) (held : s.slots[k].heldBy h = true)
    (own : p.lines &&& ~~~s.slots[k].lines = 0) (driven : p.lines &&& s.undriven = 0)
    (apart : p.lines &&& s.laneMask = 0) : (s.beginStep i p 0).Owned := by
  have slot : handleSlot p.handle = k := by rw [← handle, slotHandle_eq, handleSlot_handleOf]
  subst slot
  have carries : s.slots[handleSlot p.handle].Carries p :=
    ⟨by rw [← handleGen_handleOf (handleSlot p.handle) s.slots[handleSlot p.handle].gen]; exact congrArg handleGen handle,
      ⟨h, held⟩, (and_not_eq_zero_iff _ _).1 own⟩
  have others := (and_laneMask_eq_zero_iff s p.lines).1 apart
  have started : ∀ (j : Fin 4) (q : Pattern),
      (s.patterns.set i (some { p with current := 0, timeLeft := (p.step 0).duration }))[j] = some q →
        (j = i ∧ q.handle = p.handle ∧ q.lines = p.lines) ∨ (j ≠ i ∧ s.patterns[j] = some q) := by
    intro j q hq
    rw [getElem_set_fin] at hq
    split at hq
    · cases hq
      exact .inl ⟨‹_›, rfl, rfl⟩
    · exact .inr ⟨‹_›, hq⟩
  refine writeLanes (s := { s with patterns := _ }) ?_ _ fun n hn => ?_
  · exact
    { o with
      carried := fun j q hq => by
        rcases started j q hq with ⟨-, handle, lines⟩ | ⟨-, hq⟩
        · show s.slots[handleSlot q.handle].Carries q
          simp only [handle]
          exact carries.congr handle lines
        · exact o.carried j q hq
      driven := fun j q n hq hn => by
        rcases started j q hq with ⟨-, -, lines⟩ | ⟨-, hq⟩
        · exact (and_undriven_eq_zero_iff s p.lines).1 driven n (lines ▸ hn)
        · exact o.driven j q n hq hn
      apart := fun a b q r ne hq hr => by
        rcases started a q hq with ⟨ha, -, lines⟩ | ⟨ha, hq⟩
        · rcases started b r hr with ⟨hb, -⟩ | ⟨-, hr⟩
          · exact absurd (ha.trans hb.symm) ne
          · rw [lines]; exact others b r hr
        · rcases started b r hr with ⟨-, -, lines⟩ | ⟨-, hr⟩
          · rw [lines, BitVec.and_comm]; exact others a q hq
          · exact o.apart a b q r ne hq hr }
  · rw [← getLsbD_patternLines] at hn
    exact (getLsbD_heldLines _ _).2 ⟨handleSlot p.handle, (and_not_eq_zero_iff _ _).1 own n hn⟩

theorem tick (o : s.Owned) : s.tick.Owned := by
  have counted : ({ s with patterns := s.tick.patterns } : State).Owned := by
    refine o.withPatterns fun i p hp => ?_
    unfold State.tick at hp
    dsimp only at hp
    split at hp
    · rw [getElem_tabulate_fin] at hp
      obtain ⟨q, hq, rfl⟩ := Option.map_eq_some_iff.1 hp
      exact ⟨q, hq, rfl, rfl⟩
    · exact ⟨p, hp, rfl, rfl⟩
  exact counted.congr ⟨rfl, rfl, rfl, rfl⟩

/-! ### Grants -/

/-- A FREE slot takes lines of no holding. -/
theorem grant (o : s.Owned) {k : Fin 16} {lines : LineMask} (h : HostId) (tag : Byte) (period : Nat)
    (free : s.slots[k].isFree = true) (named : lines ≠ 0) (unowned : lines &&& heldLines s.slots = 0) :
    ({ s with slots := grantInto s.slots k h lines tag period } : State).Owned := by
  refine o.setSlot k _ (fun j n _ hn => ?_) (fun _ _ => named) (fun n hk => ?_) fun i p hp hk => ?_
  · exact (getLsbD_heldLines_false _ _).1 ((and_eq_zero_iff _ _).1 unowned n hn) j
  · rw [lines_eq_zero_of_isFree free] at hk
    simp at hk
  · subst hk
    obtain ⟨-, ⟨g, held⟩, -⟩ := o.carried i p hp
    rw [isFree_eq_false_of_heldBy held] at free
    cases free

theorem grantWalk (q : List WaitEntry) (blocked : LineMask) (o : s.Owned) (named : ∀ e ∈ q, e.lines ≠ 0) :
    ({ s with slots := (grantWalk q blocked s.slots).slots } : State).Owned := by
  induction q generalizing blocked s with
  | nil => exact o
  | cons e es ih =>
    have rest : ∀ x ∈ es, x.lines ≠ 0 := fun x hx => named x (List.mem_cons_of_mem e hx)
    rcases hg : grantSlot s.slots blocked e with _ | k
    · rw [grantWalk_cons_none hg]
      exact ih _ o rest
    · rw [grantWalk_cons_some hg]
      obtain ⟨unowned, -, free, -⟩ := (grantSlot_eq_some _ _ _ _).1 hg
      exact ih _ (o.grant e.host e.tag e.period free (named e List.mem_cons_self) unowned) rest

theorem grantScan (o : s.Owned) : s.grantScan.Owned := by
  have walked := grantWalk s.waitQueue 0 o o.waits
  have kept := walked.withWaits (q := (Machine.grantWalk s.waitQueue 0 s.slots).kept) fun e he =>
    o.waits e ((grantWalk_kept_sublist _ _ _).subset he)
  exact kept.congr (sameTables_sendEvents _ _)

/-! ### The ends of holdings -/

/-- Lines leave slot `k`: they take their safe states, and no pattern goes on that has a lane among them. -/
theorem giveUp (o : s.Owned) {k : Fin 16} {x : Slot} {gone : LineMask} (raw : LineMask) {hit : Pattern → Bool}
    (within : ∀ n : Fin 32, gone.getLsbD n = true → s.slots[k].lines.getLsbD n = true)
    (kept : ∀ n : Fin 32, x.lines.getLsbD n = (s.slots[k].lines.getLsbD n && !gone.getLsbD n))
    (named : ∀ h : HostId, x.heldBy h = true → x.lines ≠ 0)
    (carried : ∀ (i : Fin 4) (p : Pattern), s.patterns[i] = some p → hit p = false → handleSlot p.handle = k →
      x.Carries p) :
    ({ s with
        slots := s.slots.set k x
        lines := (s.applySafeStates gone raw).lines
        patterns := (s.abortPatterns hit).patterns } : State).Owned := by
  have left := applySafeStates_left s gone raw
  have aborted := o.abort hit
  have spared {i : Fin 4} {p : Pattern} (hp : (s.abortPatterns hit).patterns[i] = some p) :
      s.patterns[i] = some p ∧ hit p = false := by
    rw [abortPatterns_slot] at hp
    simpa using Option.filter_eq_some_iff.1 hp
  have lane_kept {i : Fin 4} {p : Pattern} {n : Fin 32} (hp : (s.abortPatterns hit).patterns[i] = some p)
      (hn : p.lines.getLsbD n = true) : gone.getLsbD n = false := by
    obtain ⟨run, spare⟩ := spared hp
    by_cases hk : handleSlot p.handle = k
    · obtain ⟨-, -, lanes⟩ := carried i p run spare hk
      have stays := lanes n hn
      rw [kept n] at stays
      simpa using (Bool.and_eq_true_iff.1 stays).2
    · obtain ⟨-, -, lanes⟩ := o.carried i p run
      exact eq_false_of_imp (within n) (o.disjoint _ k n hk (lanes n hn))
  have safe : ({ s.abortPatterns hit with lines := (s.applySafeStates gone raw).lines } : State).Owned := by
    refine aborted.withLines (fun n hn => ?_) fun i p n hp hn => ?_
    · have out : gone.getLsbD n = false := eq_false_of_imp (within n) ((getLsbD_heldLines_false _ _).1 hn k)
      rw [(left n).2 out]
      exact o.safe n hn
    · rw [(left n).2 (lane_kept hp hn)]
      rfl
  refine safe.setSlot k x (fun j n hj hn => ?_) named (fun n hk hn => ?_) fun i p hp hk => ?_
  · rw [kept n] at hn
    exact o.disjoint k j n hj.symm (Bool.and_eq_true_iff.1 hn).1
  · have out : gone.getLsbD n = true := by
      have := (kept n).symm.trans hn
      rw [show s.slots[k].lines.getLsbD n = true from hk] at this
      simpa using this
    exact inSafeState_of_took ((left n).1 out)
  · obtain ⟨run, spare⟩ := spared hp
    exact carried i p run spare hk

/-- A pattern that runs under a slot's holding runs under the slot's handle. -/
theorem under_slotHandle (o : s.Owned) {i : Fin 4} {p : Pattern} (hp : s.patterns[i] = some p) :
    p.handle = slotHandle s.slots (handleSlot p.handle) := by
  obtain ⟨gen, -⟩ := o.carried i p hp
  rw [slotHandle_eq, gen, handleOf_handleSlot_handleGen]

/-- A holding goes to a slot without lines: all its patterns are aborted, and all its lines take their safe states. -/
theorem giveUpAll (o : s.Owned) {k : Fin 16} {owner : HostId} {lines : LineMask} {tag : Byte} {lease : Option Lease}
    (hb : s.slots[k].body = .held owner lines tag lease) (raw : LineMask) {x : Slot} (none : x.lines = 0)
    (unheld : ∀ h : HostId, x.heldBy h = false) :
    ({ s with
        slots := s.slots.set k x
        lines := (s.applySafeStates lines raw).lines
        patterns := (s.abortPatterns (Pattern.under (slotHandle s.slots k))).patterns } : State).Owned := by
  have hl : s.slots[k].lines = lines := by simp only [Slot.lines, hb]
  refine o.giveUp raw (fun n hn => hl ▸ hn) (fun n => ?_) (fun h held => ?_) fun i p hp spare slot => ?_
  · rw [none, hl, Bool.and_not_self]
    exact BitVec.getLsbD_zero
  · rw [unheld h] at held
    cases held
  · subst slot
    have under := o.under_slotHandle hp
    rw [Pattern.under, decide_eq_false_iff_not] at spare
    exact absurd under spare

theorem releaseHolding (o : s.Owned) (k : Fin 16) (raw : LineMask) (cause : Option AbortCause) :
    (s.releaseHolding k raw cause).Owned := by
  rcases hb : s.slots[k].body with _ | ⟨owner, lines, tag, lease⟩ | ⟨owner, tag, lease, c⟩
  case held =>
    rw [releaseHolding_eq hb]
    exact (o.giveUpAll hb raw rfl fun _ => rfl).congr (sameTables_sendEvents _ _)
  all_goals
    simp only [State.releaseHolding, hb]
    exact o

theorem endHolding (o : s.Owned) (k : Fin 16) (raw : LineMask) (cause : EndCause) : (s.endHolding k raw cause).Owned := by
  rcases hb : s.slots[k].body with _ | ⟨owner, lines, tag, lease⟩ | ⟨owner, tag, lease, c⟩
  case held =>
    rw [endHolding_eq hb]
    exact (o.giveUpAll hb raw rfl fun _ => rfl).congr (sameTables_sendEvents _ _)
  all_goals
    simp only [State.endHolding, hb]
    exact o

/-- Some lines leave a holding and some stay: its patterns go on unless they have a lane among those that leave. -/
theorem trimHolding (o : s.Owned) (k : Fin 16) {named : LineMask} (raw : LineMask)
    (within : named &&& ~~~s.slots[k].lines = 0) (proper : named ≠ s.slots[k].lines) :
    (s.trimHolding k named raw).Owned := by
  rcases hb : s.slots[k].body with _ | ⟨owner, lines, tag, lease⟩ | ⟨owner, tag, lease, c⟩
  case held =>
    have hl : s.slots[k].lines = lines := by simp only [Slot.lines, hb]
    rw [hl] at proper
    rw [and_not_eq_zero_iff, hl] at within
    rw [trimHolding_eq hb]
    have stays (n : Fin 32) : (lines &&& ~~~named).getLsbD n = (lines.getLsbD n && !named.getLsbD n) := by
      rw [BitVec.getLsbD_and, BitVec.getLsbD_not, decide_eq_true n.isLt, Bool.true_and]
    have trimmed := o.giveUp (k := k) (gone := named) (hit := fun p =>
        p.under (slotHandle s.slots k) && decide (p.lines &&& named ≠ 0))
      (x := { gen := s.slots[k].gen, body := .held owner (lines &&& ~~~named) tag lease }) raw
      (fun n hn => hl ▸ within n hn) (fun n => by rw [hl]; exact stays n) (fun _ _ empty => ?_) fun i p hp spare slot => ?_
    · exact trimmed.congr (sameTables_sendEvents _ _)
    · refine proper (BitVec.eq_of_getLsbD_eq fun n lt => Bool.eq_iff_iff.2 ⟨within ⟨n, lt⟩, ?_⟩)
      exact (and_not_eq_zero_iff lines named).1 empty ⟨n, lt⟩
    · subst slot
      obtain ⟨gen, -, lanes⟩ := o.carried i p hp
      have under : p.under (slotHandle s.slots (handleSlot p.handle)) = true := decide_eq_true (o.under_slotHandle hp)
      have apart : p.lines &&& named = 0 := by
        simpa only [under, Bool.true_and, decide_eq_false_iff_not, ne_eq, not_not] using spare
      refine ⟨gen, ⟨owner, heldBy_iff.2 ⟨_, _, _, rfl⟩⟩, fun n hn => ?_⟩
      show (lines &&& ~~~named).getLsbD n = true
      rw [stays, ← hl, lanes n hn, (and_eq_zero_iff _ _).1 apart n hn]
      rfl
  all_goals
    simp only [State.trimHolding, hb]
    exact o

/-! ### Slots that stay HELD, and slots that hold nothing -/

theorem freeEnded (o : s.Owned) {k : Fin 16} {h : HostId} (ended : s.slots[k].endedOf h = true) :
    (s.freeSlot k).Owned := by
  refine o.withSlots fun j => ?_
  rw [getElem_set_fin]
  split
  · subst j; exact sameHolding_of_ended ended
  · exact .refl _

theorem writeLease (o : s.Owned) (k : Fin 16) (lease : Option Lease) : (s.writeLease k lease).Owned := by
  rcases hb : s.slots[k].body with _ | ⟨owner, lines, tag, old⟩ | ⟨owner, tag, old, c⟩
  case held =>
    rw [writeLease_eq hb]
    refine o.withSlots fun j => ?_
    rw [getElem_set_fin]
    split
    · subst j
      exact ⟨rfl, fun _ => by simp only [Slot.heldBy, hb], by simp only [Slot.lines, hb]⟩
    · exact .refl _
  all_goals
    simp only [State.writeLease, hb]
    exact o

theorem boundary (o : s.Owned) : s.boundary.Owned := by
  have slots : ({ s with slots := tabulate fun k => s.slots[k].countDown } : State).Owned :=
    o.withSlots fun k => by rw [getElem_tabulate_fin]; exact sameHolding_countDown _
  have waits := slots.withWaits (q := s.waitQueue.map WaitEntry.countDown) fun e he => by
    obtain ⟨x, hx, rfl⟩ := List.mem_map.1 he
    exact o.waits x hx
  exact waits.congr ⟨rfl, rfl, rfl, rfl⟩

theorem reset : State.reset.Owned where
  disjoint i j n _ _ := by rw [reset_slot]; exact BitVec.getLsbD_zero
  named k h held := by rw [reset_slot] at held; cases held
  waits e he := by cases he
  safe n _ := by rw [reset_line]; exact ⟨rfl, rfl, rfl, rfl⟩
  carried i p hp := by rw [reset_pattern] at hp; cases hp
  driven i p n hp := by rw [reset_pattern] at hp; cases hp
  apart i j p q _ hp := by rw [reset_pattern] at hp; cases hp

end State.Owned

/-- Every operation on the tables keeps the laws of ownership. -/
theorem tableStep_owned {s t : State} (op : TableStep s t) (o : s.Owned) : t.Owned := by
  cases op with
  | same h => exact o.congr h
  | reset => exact State.Owned.reset
  | grant k h lines tag period free named unowned => exact o.grant h tag period free named unowned
  | enqueue e named =>
    refine o.withWaits fun x hx => ?_
    rcases List.mem_append.1 hx with hx | hx
    · exact o.waits x hx
    · rw [List.mem_singleton.1 hx]; exact named
  | withdraw q sub => exact o.withWaits fun e he => o.waits e (sub he)
  | grantScan => exact o.grantScan
  | freeEnded k h ended => exact o.freeEnded ended
  | releaseHolding k raw cause => exact o.releaseHolding k raw cause
  | endHolding k raw cause => exact o.endHolding k raw cause
  | trimHolding k named raw within proper => exact o.trimHolding k raw within proper
  | writeLease k lease => exact o.writeLease k lease
  | setMode h mask m pullUp raw own idle => exact o.onLines own idle _
  | setFilter h mask x own idle => exact o.onLines own idle _
  | drive h mask level own idle => exact o.onLines own idle _
  | writeSafe mask x raw => exact o.writeSafe mask x raw
  | startPattern i p k h handle held own driven apart => exact o.startPattern i handle held own driven apart
  | stopPattern i => exact o.setNone i
  | stepEnd i => exact o.stepEnd i
  | boundary => exact o.boundary
  | sampleLine n raw => exact o.sampleLine n raw
  | tick => exact o.tick

/-- Settles O57: each operation on the tables keeps the laws, taken line by line. -/
theorem stepKeepsOwnershipLaw : Obligations.StepKeepsOwnershipLaw :=
  fun s t law e => (ownershipLaw_iff t).2 (step_keeps tableStep_owned ((ownershipLaw_iff s).1 law) e)

end Sys2Proof.Machine
end

section
/-! ## The line requests and the line samples (chapter 1) -/

namespace Sys2Proof.Machine

/-! ### Field values (R126) -/

/-- The code of a mode (R126). -/
def modeByte : Mode → Byte
  | .disconnected => 0
  | .input => 1
  | .pushPull => 2
  | .openDrain => 3

/-- The code of a filter (R126). -/
def filterByte : Filter → Byte
  | .none => 0
  | .f10us => 1
  | .f100us => 2
  | .f1ms => 3

theorem modeOf_modeByte (m : Mode) : modeOf (modeByte m) = some m := by cases m <;> rfl

theorem filterOf_filterByte (x : Filter) : filterOf (filterByte x) = some x := by cases x <;> rfl

theorem bitOf_bit (b : Bool) : bitOf (if b then 1 else 0) = some b := by cases b <;> rfl

theorem modeByte_of_modeOf {b : Byte} {m : Mode} (h : modeOf b = some m) : b = modeByte m := by
  unfold modeOf at h
  split_ifs at h <;> cases h <;> assumption

theorem bitOf_eq_some {b : Byte} {x : Bool} (h : bitOf b = some x) : x = decide (b = 1) := by
  unfold bitOf at h
  split_ifs at h with h0 h1 <;> cases h
  · subst h0; rfl
  · subst h1; rfl

/-! ### SET_MODE, SET_FILTER and DRIVE: the checks (R13) -/

theorem changeLines_undefined (s : State) (h : HostId) (m : LineMask) :
    s.changeLines h m none = s.refuse .badArgument := rfl

theorem changeLines_unnamed (s : State) (h : HostId) (change : Option (Fin 32 → LineRecord → LineRecord)) :
    s.changeLines h 0 change = s.refuse .badArgument := by cases change <;> rfl

theorem changeLines_notOwner {s : State} {h : HostId} {m : LineMask} (named : m ≠ 0)
    (other : m &&& ~~~(linesHeldBy s.slots h) ≠ 0) (g : Fin 32 → LineRecord → LineRecord) :
    s.changeLines h m (some g) = s.refuse .notOwner := by
  simp only [State.changeLines, State.lineRefusal, if_neg named, if_pos other]

theorem changeLines_lineBusy {s : State} {h : HostId} {m : LineMask} (named : m ≠ 0)
    (own : m &&& ~~~(linesHeldBy s.slots h) = 0) (busy : m &&& s.laneMask ≠ 0) (g : Fin 32 → LineRecord → LineRecord) :
    s.changeLines h m (some g) = s.refuse .lineBusy := by
  simp only [State.changeLines, State.lineRefusal, if_neg named, if_neg (not_not.2 own), if_pos busy]

theorem changeLines_done {s : State} {h : HostId} {m : LineMask} (named : m ≠ 0)
    (own : m &&& ~~~(linesHeldBy s.slots h) = 0)
    (idle : ∀ (i : Fin 4) (p : Pattern), s.patterns[i] = some p → m &&& p.lines = 0)
    (g : Fin 32 → LineRecord → LineRecord) : s.changeLines h m (some g) = (s.onLines m g).done := by
  simp only [State.changeLines, if_neg named, lineRefusal_none own idle]

theorem laneMask_take (s : State) (h : HostId) : (s.take h).laneMask = s.laneMask := by
  simp only [State.laneMask, State.take_patterns]

/-- The fields beside the line mask hold defined values. -/
def LineFieldsDefined (o : Opcode) (f : Frame) : Prop :=
  (o = .setMode → (f.byteAt 4).toNat ≤ 3 ∧ (f.byteAt 5).toNat ≤ 1) ∧ (o = .setFilter → (f.byteAt 4).toNat ≤ 3)

/-- A line request makes one change of lines, which is absent exactly where a field holds no defined value. -/
theorem exec_lineRequest {s : State} {o : Opcode} {h : HostId} {f : Frame} (raw : LineMask) (bits : Fin 8)
    (v : s.Valid o h f) (ho : o = .setMode ∨ o = .setFilter ∨ o = .drive) :
    ∃ change : Option (Fin 32 → LineRecord → LineRecord),
      exec (requestCommand o raw bits) s = .next (((s.take h).changeLines h (f.maskAt 0) change).place h f) ∧
      (change = none ↔ ¬ LineFieldsDefined o f) := by
  rcases ho with rfl | rfl | rfl
  · refine ⟨_, congrArg Host.Outcome.next (request_valid v _), ?_⟩
    have hm := modeOf_none (f.byteAt 4)
    have hb := bitOf_none (f.byteAt 5)
    simp only [LineFieldsDefined, forall_const, reduceCtorEq, false_implies, and_true, not_and_or, ← hm, ← hb]
    rcases modeOf (f.byteAt 4) with _ | m <;> rcases bitOf (f.byteAt 5) with _ | b <;> simp
  · refine ⟨_, congrArg Host.Outcome.next (request_valid v _), ?_⟩
    simp only [LineFieldsDefined, forall_const, reduceCtorEq, false_implies, true_and, ← filterOf_none, Option.map_eq_none_iff]
  · refine ⟨_, congrArg Host.Outcome.next (request_valid v _), ?_⟩
    simp [LineFieldsDefined]

theorem slot_reads (x : Slot) (h : HostId) :
    (x.isFree, x.heldBy h, x.endedOf h, x.lines) =
      match x.body with
      | .free => (true, false, false, 0)
      | .held owner lines _ _ => (false, decide (owner = h), false, lines)
      | .ended owner _ _ _ => (false, false, decide (owner = h), 0) := by
  obtain ⟨gen, _ | _ | _⟩ := x <;> rfl

/-- Settles O22: each refusal is the first failing check of R13, on the state that the take leaves. -/
theorem lineRequestsRefusedInOrder : Obligations.LineRequestsRefusedInOrder := by
  refine ⟨slot_reads, fun t h n => getLsbD_linesHeldBy t h n, fun s o h f raw bits v ho => ?_⟩
  obtain ⟨change, e, absent⟩ := exec_lineRequest raw bits v ho
  rw [e]
  have some_of (defined : LineFieldsDefined o f) : ∃ g, change = some g :=
    Option.ne_none_iff_exists'.1 fun none => absent.1 none defined
  refine ⟨fun bad => ?_, fun named defined other => ?_, fun named defined own ⟨i, p, hp, lane⟩ => ?_⟩
  · rcases bad with unnamed | undefined
    · rw [unnamed, changeLines_unnamed]; rfl
    · rw [absent.2 undefined, changeLines_undefined]; rfl
  · obtain ⟨g, rfl⟩ := some_of defined
    rw [changeLines_notOwner named (by rwa [State.take_slots])]; rfl
  · obtain ⟨g, rfl⟩ := some_of defined
    have busy : f.maskAt 0 &&& s.laneMask ≠ 0 := fun none => lane ((and_laneMask_eq_zero_iff s _).1 none i p hp)
    rw [changeLines_lineBusy named (by rwa [State.take_slots]) (by rwa [laneMask_take])]; rfl

/-! ### SET_MODE, SET_FILTER and DRIVE: the changes (R14 to R16) -/

/-- A line request that passes its checks changes the named lines, and nothing else. -/
theorem request_changesLines {s : State} {o : Opcode} {h : HostId} {f : Frame} (v : s.Valid o h f)
    (named : f.maskAt 0 ≠ 0) (own : f.maskAt 0 &&& ~~~(linesHeldBy s.slots h) = 0)
    (idle : ∀ (i : Fin 4) (p : Pattern), s.patterns[i] = some p → f.maskAt 0 &&& p.lines = 0)
    {body : HostId → Frame → State → Answer} (g : Fin 32 → LineRecord → LineRecord)
    (hg : body h f (s.take h) = (s.take h).changeLines h (f.maskAt 0) (some g)) :
    s.request o body =
      ({ s.take h with lines := (s.onLines (f.maskAt 0) g).lines } : State).placeReply h (replyTo f .ok []) := by
  rw [request_valid v, hg, changeLines_done named (by rwa [State.take_slots]) (by rwa [State.take_patterns]), place_done]
  simp only [State.onLines, State.take_lines]

/-- A SET_MODE of a line, with the filter effects of the change (R5, R14). -/
theorem setMode_eq (l : LineRecord) (m : Mode) (pullUp raw : Bool) :
    l.setMode m pullUp raw = { l with
      mode := m
      pullUp := pullUp
      filtered := filteredAfter l m raw
      settling := if (l.mode = .disconnected ↔ m = .disconnected) then l.settling else 0 } := by
  obtain ⟨mode, level, pull, filter, filtered, settling, safe⟩ := l
  cases mode <;> cases m <;> rfl

/-- The pad of a line that is not in reset, mode by mode (R3, R4). -/
theorem pad_running {s : State} (run : s.inReset = false) (n : Fin 32) :
    s.padDrive n = (match s.lines[n].mode with
      | .disconnected => .highZ
      | .input => .highZ
      | .pushPull => if s.lines[n].level then .high else .low
      | .openDrain => if s.lines[n].level then .highZ else .low) ∧
    s.padPullUp n = (match s.lines[n].mode with
      | .disconnected => false
      | .input => s.lines[n].pullUp
      | .pushPull => false
      | .openDrain => s.lines[n].pullUp) := by
  unfold State.padDrive State.padPullUp
  rw [run]
  cases s.lines[n].mode <;> cases s.lines[n].level <;> exact ⟨rfl, rfl⟩

theorem pad_reset {s : State} (reset : s.inReset = true) (n : Fin 32) :
    s.padDrive n = .highZ ∧ s.padPullUp n = false := by
  unfold State.padDrive State.padPullUp
  rw [reset]
  exact ⟨rfl, rfl⟩

/-- Settles O23: the changed record of each named line, mode by mode. -/
theorem setModeWritesNamedLines : Obligations.SetModeWritesNamedLines := by
  refine ⟨fun s n => ⟨fun r => pad_reset r n, fun r => pad_running r n⟩,
    fun s h f raw m pullUp v named hm hp own idle => ?_⟩
  have mode : modeOf (f.byteAt 4) = some m := hm ▸ modeOf_modeByte m
  have pull : bitOf (f.byteAt 5) = some pullUp := hp ▸ bitOf_bit pullUp
  refine ⟨_, congrArg Host.Outcome.next (request_changesLines v named own idle
    (fun n l => l.setMode m pullUp (raw.getLsbD n)) ?_), fun n => ?_⟩
  · simp only [mode, pull]
  · rw [onLines_line, setMode_eq]

/-- Settles O24: each request is one change of the named lines. -/
theorem setFilterAndDriveWriteNamedLines : Obligations.SetFilterAndDriveWriteNamedLines := by
  refine fun s h f named own idle => ⟨fun x v hx => ?_, fun v => ?_⟩
  · have filter : filterOf (f.byteAt 4) = some x := hx ▸ filterOf_filterByte x
    refine ⟨_, congrArg Host.Outcome.next (request_changesLines v named own idle (fun _ l => l.writeFilter x) ?_),
      fun n => onLines_line s _ _ n⟩
    simp only [filter, Option.map_some]
  · exact ⟨_, congrArg Host.Outcome.next (request_changesLines v named own idle
      (fun n l => { l with level := (f.maskAt 4).getLsbD n }) rfl), fun n => onLines_line s _ _ n⟩

/-! ### SET_SAFE (R17, R18) -/

theorem safeStateOf_none (f : Frame) :
    safeStateOf f = none ↔ ¬ ((f.byteAt 4).toNat ≤ 3 ∧ (f.byteAt 5).toNat ≤ 1 ∧ (f.byteAt 6).toNat ≤ 1) := by
  simp only [not_and_or, ← modeOf_none, ← bitOf_none]
  unfold safeStateOf
  rcases modeOf (f.byteAt 4) with _ | m <;> rcases bitOf (f.byteAt 5) with _ | b <;>
    rcases bitOf (f.byteAt 6) with _ | c <;> simp

theorem safeStateOf_some {f : Frame} {x : SafeState} (h : safeStateOf f = some x) :
    f.byteAt 4 = modeByte x.mode ∧ x.level = decide (f.byteAt 5 = 1) ∧ x.pullUp = decide (f.byteAt 6 = 1) := by
  unfold safeStateOf at h
  split at h
  · rename_i hm hl hp
    cases h
    exact ⟨modeByte_of_modeOf hm, bitOf_eq_some hl, bitOf_eq_some hp⟩
  · cases h

/-- What a SET_SAFE writes is read from the lines and the slots alone. -/
theorem writeSafe_lines_take (s : State) (h : HostId) (mask : LineMask) (x : SafeState) (raw : LineMask) :
    ((s.take h).writeSafe mask x raw).lines = (s.writeSafe mask x raw).lines :=
  vector_ext_fin fun n => by simp only [writeSafe_line, State.take_lines, State.take_slots]

/-- Settles O25: the checks in their order, then the records line by line. -/
theorem setSafeWritesSafeRecords : Obligations.SetSafeWritesSafeRecords := by
  intro s h f raw v
  have e : exec (.setSafe raw) s = .next _ := congrArg Host.Outcome.next (request_valid v _)
  rw [e]
  refine ⟨fun bad => ?_, fun named defined stranger other => ?_, fun named defined allowed => ?_⟩
  · rcases hx : safeStateOf f with _ | x
    · rfl
    · have unnamed : f.maskAt 0 = 0 := bad.resolve_right fun undefined => by
        rw [(safeStateOf_none f).2 undefined] at hx
        cases hx
      simp only [if_pos unnamed]
      rfl
  · rcases hx : safeStateOf f with _ | x
    · exact absurd defined ((safeStateOf_none f).1 hx)
    · have refused : (s.take h).supervisor ≠ some h ∧ f.maskAt 0 &&& ~~~(linesHeldBy (s.take h).slots h) ≠ 0 := by
        rw [State.take_supervisor, State.take_slots]
        exact ⟨stranger, other⟩
      simp only [if_neg named, if_pos refused]
      rfl
  · rcases hx : safeStateOf f with _ | x
    · exact absurd defined ((safeStateOf_none f).1 hx)
    · have accepted : ¬ ((s.take h).supervisor ≠ some h ∧ f.maskAt 0 &&& ~~~(linesHeldBy (s.take h).slots h) ≠ 0) := by
        rw [State.take_supervisor, State.take_slots]
        rintro ⟨stranger, other⟩
        exact allowed.elim stranger other
      obtain ⟨mode, level, pullUp⟩ := safeStateOf_some hx
      refine ⟨(s.writeSafe (f.maskAt 0) x raw).lines, x.mode, mode, ?_, fun n => ?_⟩
      · simp only [if_neg named, if_neg accepted, place_done]
        rw [← writeSafe_lines_take s h]
        rfl
      · rw [writeSafe_line, ← level, ← pullUp]
        refine ⟨fun out => by rw [out, if_neg Bool.false_ne_true], fun inside => ?_⟩
        rw [inside, if_pos rfl]
        refine ⟨fun held => by rw [held, if_pos rfl], fun unheld => ?_⟩
        rw [unheld, if_neg Bool.false_ne_true]
        exact applySafe_took _ _

/-! ### SAMPLE (R19) -/

/-- Settles O26: each mask of the reply is read bit by bit. -/
theorem sampleReportsLines : Obligations.SampleReportsLines := by
  intro s h f v
  refine ⟨linesWhere fun n => s.lines[n].filtered, linesWhere fun n => decide (s.lines[n].mode = .disconnected),
    linesHeldBy s.slots h, ?_, fun n => getLsbD_linesWhere _ n, fun n => getLsbD_linesWhere _ n,
    fun n => getLsbD_linesHeldBy s.slots h n⟩
  have payload : (s.take h).samplePayload h = s.samplePayload h := by
    simp only [State.samplePayload, State.take_lines, State.take_slots, State.take_time]
  have e : exec .sample s = .next _ := congrArg Host.Outcome.next (request_valid v _)
  rw [e, place_answer, payload, State.samplePayload, halfBytes_eq]
  rfl

/-! ### Line samples and edges (R6, R7, R9, R84) -/

theorem sensed_of_connected {m : Mode} (h : m ≠ .disconnected) : m.sensed = true :=
  Bool.eq_true_of_not_eq_false fun e => h ((sensed_eq_false_iff m).1 e)

theorem sample_disconnected {l : LineRecord} (h : l.mode = .disconnected) (raw : Bool) : l.sample raw = l := by
  simp only [LineRecord.sample, h, Mode.sensed, Bool.not_false, if_true]

theorem sample_equal {l : LineRecord} (h : l.mode ≠ .disconnected) : l.sample l.filtered = { l with settling := 0 } := by
  simp [LineRecord.sample, sensed_of_connected h]

theorem sample_counted {l : LineRecord} {raw : Bool} (h : l.mode ≠ .disconnected) (ne : raw ≠ l.filtered)
    (few : l.settling + 1 < l.filter.samples) : l.sample raw = { l with settling := l.settling + 1 } := by
  simp [LineRecord.sample, sensed_of_connected h, ne, few]

theorem sample_accepted {l : LineRecord} {raw : Bool} (h : l.mode ≠ .disconnected) (ne : raw ≠ l.filtered)
    (enough : l.filter.samples ≤ l.settling + 1) : l.sample raw = { l with filtered := raw, settling := 0 } := by
  simp [LineRecord.sample, sensed_of_connected h, ne, enough]

/-- A sample that leaves the filtered level writes the record, and nothing else. -/
theorem sampleLine_quiet {s : State} {n : Fin 32} {raw : Bool}
    (same : (s.lines[n].sample raw).filtered = s.lines[n].filtered) :
    s.sampleLine n raw = { s with lines := s.lines.set n (s.lines[n].sample raw) } := by
  simp only [State.sampleLine, if_pos same]

/-- A sample that moves the filtered level writes the record and offers the edge. -/
theorem sampleLine_edge {s : State} {n : Fin 32} {raw : Bool}
    (moved : (s.lines[n].sample raw).filtered ≠ s.lines[n].filtered) :
    s.sampleLine n raw = ({ s with lines := s.lines.set n (s.lines[n].sample raw) } : State).offerEdge n
      (s.lines[n].sample raw).filtered := by
  simp only [State.sampleLine, if_neg moved]

/-- A watch matches an edge when it is for both, or for the edge's direction (R84). -/
theorem matches_eq (w : Edges) (level : Bool) :
    w.matches level = decide (w = .both ∨ w = if level then .rising else .falling) := by
  cases w <;> cases level <;> rfl

theorem exec_lineSample_running {s : State} (run : s.inReset = false) (n : Fin 32) (raw : Bool) :
    exec (.lineSample n raw) s = .next (s.sampleLine n raw) :=
  congrArg Host.Outcome.next (running_of_not_inReset run _)

/-- Settles O41: the four outcomes of a sample. -/
theorem lineSampleFiltersAndReportsEdges : Obligations.LineSampleFiltersAndReportsEdges := by
  intro s n raw run l needed
  have count : needed = l.filter.samples := by
    unfold needed
    cases l.filter <;> rfl
  rw [exec_lineSample_running run]
  refine ⟨fun disc => ?_, fun conn eq => ?_, fun conn ne few => ?_, fun conn ne enough => ?_⟩
  · have e := sample_disconnected disc raw
    have back : s.lines.set n l = s.lines := Vector.set_getElem_self ..
    rw [sampleLine_quiet (by rw [e]), e, back]
  · subst eq
    have e := sample_equal conn
    rw [sampleLine_quiet (by rw [e]), e]
  · have e := sample_counted conn ne (few.trans_eq count)
    rw [sampleLine_quiet (by rw [e]), e]
  · have e := sample_accepted conn ne (enough.trans count).ge
    rw [sampleLine_edge (by rw [e]; exact ne), e]
    simp only [State.offerEdge, matches_eq]

end Sys2Proof.Machine
end

section
/-! ## The device reset and its release (R2, R108, R112, R158), and the laws at reset -/

namespace Sys2Proof.Machine

/-! ### In a device reset -/

theorem nextRequest_inReset {s : State} (r : s.inReset = true) : s.nextRequest = none := by
  simp only [State.nextRequest, State.nextPort, r, Bool.true_or, if_true]

theorem onRequest_inReset {s : State} (r : s.inReset = true) (o : Opcode) (k : HostId → Frame → State → State) :
    s.onRequest o k = s := by
  simp only [State.onRequest, nextRequest_inReset r]

theorem running_inReset {s : State} (r : s.inReset = true) (f : State → State) : s.running f = s := by
  simp only [State.running, r, if_true]

theorem selcLow_self {s : State} (low : s.selcLow = true) : { s with selcLow := true } = s := by rw [← low]

/-- Settles O35: no request is taken, and no other event of the logic runs. -/
theorem deviceResetStopsEverything : Obligations.DeviceResetStopsEverything := by
  intro s r
  have request (o : Opcode) (body : HostId → Frame → State → Answer) : s.request o body = s := onRequest_inReset r o _
  refine ⟨fun c low loss release fall rise => ?_, ?_, fun bits => ?_⟩
  · cases c
    case resetnLow => exact absurd rfl low
    case supplyLoss => exact absurd rfl loss
    case resetRelease adr sup => exact absurd rfl (release adr sup)
    case selcFall => exact absurd rfl fall
    case selcRise bits => exact absurd rfl (rise bits)
    case fullReset => exact congrArg Host.Outcome.next (onRequest_inReset r _ _)
    case unknownOpcodeRequest => simp only [exec, execUnknownOpcodeRequest, nextRequest_inReset r]
    case intervalBoundary | leaseExpiry | waitExpiry | patternStepEnd | lineSample | startCondition | writeAddress
        | holdLimit | writeByte | stopCondition | readAddress | readByte | stuckBus | portResetNotice | exchangeByte
        | addressNotAcknowledged =>
      exact congrArg Host.Outcome.next (running_inReset r _)
    all_goals exact congrArg Host.Outcome.next (request _ _)
  · refine congrArg Host.Outcome.next ?_
    by_cases low : s.selcLow = true
    · exact (if_pos low).trans (selcLow_self low).symm
    · exact (if_neg low).trans (if_pos r)
  · simp only [exec, execSelcRise, r, if_true]

/-! ### The reset values -/

theorem reset_watch (h : HostId) (n : Fin 32) : (State.reset.watches.get h)[n] = .none := by
  cases h <;> exact getElem_tabulate_fin _ n

theorem reset_port (h : HostId) : State.reset.port h = Port.reset := by cases h <;> rfl

theorem reset_bus (p : TwoWire) : State.reset.bus p = TwoWireBus.reset := by cases p <;> rfl

/-- No port asserts its attention output while the part is in reset (R153). -/
theorem attention_inReset {s : State} (r : s.inReset = true) (h : HostId) : s.attention h = false := by
  simp only [State.attention, r, Bool.not_true, Bool.false_and]

/-- The start of a device reset, however it comes about: the reset values, and the cause noted. -/
theorem exec_deviceReset {s : State} {c : Instr}
    (hc : c = .resetnLow ∨ c = .supplyLoss ∨ (c = .fullReset ∧ ∃ (h : HostId) (f : Frame), s.Valid .fullReset h f)) :
    exec c s = .next { s.deviceReset with
      since := { supply := decide (c = .supplyLoss) || s.since.supply
                 pin := decide (c = .resetnLow) || s.since.pin
                 command := decide (c = .fullReset) || s.since.command } } := by
  rcases hc with rfl | rfl | ⟨rfl, h, f, v⟩
  · rfl
  · rfl
  · have e : exec .fullReset s = .next _ := congrArg Host.Outcome.next (onRequest_valid v _)
    rw [e]
    simp only [State.deviceReset, State.take_pending, State.take_since, State.take_micros, State.take_selcLow,
      State.take_adr, State.take_supervisor, State.take_resetCause]
    rfl

/-- Settles O34: the reset values, block by block. -/
theorem deviceResetClearsEveryBlock : Obligations.DeviceResetClearsEveryBlock :=
  fun _ _ hc => ⟨_, exec_deviceReset hc, rfl, reset_line, reset_watch, reset_slot, rfl, reset_pattern, reset_port,
    reset_bus, rfl, rfl, rfl, attention_inReset rfl, rfl, rfl, rfl, rfl, rfl, rfl, rfl⟩

/-! ### The release -/

theorem supervisorOf_eq : ∀ sup : BitVec 2, supervisorOf sup = (match sup.toNat with
    | 0 => none
    | 1 => some .a
    | 2 => some .b
    | _ => some .c) := by decide

/-- A port comes up with its attention output not asserted: its queues are empty, and it does not ask for room (R151, R153). -/
theorem attention_released (s : State) (adr sup : BitVec 2) (h : HostId) : (s.releaseReset adr sup).attention h = false := by
  cases h <;> rfl

theorem ownAddress_eq (s : State) (p : TwoWire) :
    s.ownAddress p = (match p with
      | .a => 0x34
      | .b => 0x38) + s.adr.setWidth 7 := by cases p <;> rfl

/-- Settles O36: the release, field by field. -/
theorem releaseSamplesStraps : Obligations.ReleaseSamplesStraps := by
  refine fun s adr sup => ⟨fun run => ?_, fun r => ⟨s.releaseReset adr sup, ?_, rfl, rfl, supervisorOf_eq sup, rfl, rfl, rfl,
    fun h => ⟨reset_port h, attention_released s adr sup h⟩, fun p => ?_, rfl, rfl, rfl, rfl, reset_line, reset_watch,
    reset_slot, rfl, reset_pattern⟩⟩
  · simp only [exec, execResetRelease, run, Bool.false_eq_true, if_false]
  · simp only [exec, execResetRelease, r, if_true]
  · have bus : (s.releaseReset adr sup).bus p = TwoWireBus.reset := reset_bus p
    rw [bus]
    exact ⟨rfl, rfl, rfl, ownAddress_eq _ p⟩

/-! ### The laws at reset -/

theorem waitQueueLaw_reset : State.reset.WaitQueueLaw :=
  ⟨Nat.zero_le _, fun _ => Nat.zero_le _, List.Pairwise.nil⟩

theorem queueLaw_reset : State.reset.QueueLaw := by
  refine ⟨fun h => ?_, fun p rx receiving => ?_, fun p => ?_⟩
  · rw [reset_port]
    exact ⟨Nat.zero_le _, Nat.zero_le _, Nat.zero_le _⟩
  · rw [reset_bus] at receiving
    cases receiving
  · rw [reset_bus]
    exact ⟨Nat.zero_le _, fun _ _ _ => rfl⟩

theorem scanLaw_reset : State.reset.ScanLaw := by
  intro older newer e queue
  exact absurd queue (by simp [State.reset])

theorem transitLaw_reset : State.reset.TransitLaw := by
  intro h out sel
  cases h <;> cases sel

/-- Settles O60. -/
theorem lawsHoldAtReset : Obligations.LawsHoldAtReset :=
  ⟨waitQueueLaw_reset, queueLaw_reset, scanLaw_reset, (ownershipLaw_iff _).2 State.Owned.reset, samplingLaw_reset,
    transitLaw_reset⟩

end Sys2Proof.Machine
end

section
/-! ## A step on an empty queue (log 5) -/

namespace Sys2Proof.Machine

theorem step_of_empty {s : State} (h : s.pending = []) : step s = .next s.idle := by
  unfold step
  rw [h]

/-! ### What is due -/

theorem stepDue_eq_false {s : State} {i : Fin 4} (h : ¬ ∃ p, s.patterns[i] = some p ∧ p.timeLeft = 0) :
    s.stepDue i = false := Bool.eq_false_iff.2 fun due => h (stepDue_iff.1 due)

/-- The first port for which a test holds. -/
theorem find?_ports (test : TwoWire → Bool) :
    [TwoWire.a, TwoWire.b].find? test = if test .a then some .a else if test .b then some .b else none := by
  simp only [List.find?_cons, List.find?_nil]
  cases test .a <;> cases test .b <;> rfl

theorem dueHold_a {s : State} (h : s.holdDue .a = true) : s.dueHold = some .a :=
  (find?_ports _).trans (if_pos h)

theorem dueHold_b {s : State} (na : s.holdDue .a ≠ true) (h : s.holdDue .b = true) : s.dueHold = some .b :=
  (find?_ports _).trans ((if_neg na).trans (if_pos h))

theorem dueHold_none {s : State} (h : ∀ p, s.holdDue p ≠ true) : s.dueHold = none :=
  (find?_ports _).trans ((if_neg (h .a)).trans (if_neg (h .b)))

theorem dueStuck_a {s : State} (h : s.stuckDue .a = true) : s.dueStuck = some .a :=
  (find?_ports _).trans (if_pos h)

theorem dueStuck_b {s : State} (na : s.stuckDue .a ≠ true) (h : s.stuckDue .b = true) : s.dueStuck = some .b :=
  (find?_ports _).trans ((if_neg na).trans (if_pos h))

theorem dueStuck_none {s : State} (h : ∀ p, s.stuckDue p ≠ true) : s.dueStuck = none :=
  (find?_ports _).trans ((if_neg (h .a)).trans (if_neg (h .b)))

/-! ### One microsecond -/

theorem TimeBase.tick_micro (t : TimeBase) : t.tick.micro.val = (t.micro.val + 1) % 100 := by
  unfold TimeBase.tick
  split
  · rename_i last
    rw [last]
    rfl
  · exact Fin.val_add t.micro 1

/-- The Time Base counts microseconds, and wraps after 65536 units of 100 (R113). -/
theorem TimeBase.tick_total (t : TimeBase) :
    t.tick.count.toNat * 100 + t.tick.micro.val = (t.count.toNat * 100 + t.micro.val + 1) % 6553600 := by
  have count := t.count.isLt
  have micro := t.micro.isLt
  rw [TimeBase.tick_micro]
  unfold TimeBase.tick
  split
  · rename_i last
    have full : t.micro.val = 99 := congrArg Fin.val last
    have unit : (t.count + 1).toNat = (t.count.toNat + 1) % 65536 := BitVec.toNat_add _ _
    show (t.count + 1).toNat * 100 + _ = _
    omega
  · rename_i more
    have room : t.micro.val ≠ 99 := fun e => more (Fin.ext e)
    show t.count.toNat * 100 + _ = _
    omega

theorem tick_pattern (s : State) (i : Fin 4) : s.tick.patterns[i] =
    if (s.time.micro.val + 1) % 10 = 0 then (s.patterns[i]).map Pattern.countDown else s.patterns[i] := by
  have boundary : s.time.tick.micro.val % 10 = (s.time.micro.val + 1) % 10 := by
    rw [TimeBase.tick_micro]
    omega
  unfold State.tick
  rw [boundary]
  dsimp only
  split
  · exact getElem_tabulate_fin _ i
  · rfl

/-- Settles O2: what is due is taken in the order of `State.idle`; else one microsecond passes. -/
theorem idleStepIsOneMicrosecond : Obligations.IdleStepIsOneMicrosecond := by
  intro s empty ended limit stuck
  have step_idle : step s = .next s.idle := step_of_empty empty
  have noStep (h : ∀ i : Fin 4, ¬ ended i) : s.dueStep = none := dueStep_eq_none fun i => stepDue_eq_false (h i)
  have unheld {p : TwoWire} (h : ¬ limit p) : s.holdDue p ≠ true := fun due => h (holdDue_iff.1 due)
  have noHold (h : ∀ p, ¬ limit p) : s.dueHold = none := dueHold_none fun p => unheld (h p)
  have unstuck {p : TwoWire} (h : ¬ stuck p) : s.stuckDue p ≠ true := fun due => h (stuckDue_iff.1 due)
  rw [step_idle]
  refine ⟨fun r => ?_, fun _ i due low => ?_, fun _ steps due => ?_, fun _ steps na due => ?_,
    fun _ steps holds due => ?_, fun _ steps holds na due => ?_, fun run steps holds buses => ?_⟩
  · exact congrArg Host.Outcome.next (running_inReset r _)
  · exact (idle_of_dueStep (dueStep_eq_some (stepDue_iff.2 due) fun j lt => stepDue_eq_false (low j lt))).symm
  · exact (idle_of_dueHold (noStep steps) (dueHold_a (holdDue_iff.2 due))).symm
  · exact (idle_of_dueHold (noStep steps) (dueHold_b (unheld na) (holdDue_iff.2 due))).symm
  · exact (idle_of_dueStuck (noStep steps) (noHold holds) (dueStuck_a (stuckDue_iff.2 due))).symm
  · exact (idle_of_dueStuck (noStep steps) (noHold holds) (dueStuck_b (unstuck na) (stuckDue_iff.2 due))).symm
  · rw [idle_of_none run (noStep steps) (noHold holds) (dueStuck_none fun p => unstuck (buses p))]
    refine ⟨s.time.tick, s.tick.patterns, s.tick.twoWire, rfl, s.time.tick_total, tick_pattern s,
      fun p rx t holding => ?_, fun p resetting => ?_, fun p active unheld => ?_⟩
    · exact (bus_tick s p).trans (TwoWireBus.tick_holding holding _)
    · exact (bus_tick s p).trans (TwoWireBus.tick_resetting resetting _)
    · have measured := (bus_tick s p).trans (TwoWireBus.tick_measures active unheld _)
      simp only [heldLow, Bool.or_eq_true] at measured
      exact measured

end Sys2Proof.Machine
end

section
/-! ## The take, and what is due (R32, R54, R100 to R103, R134) -/

namespace Sys2Proof.Machine

/-- An expiry or a notice is due exactly when its slot, its entry or its port says so. -/
theorem mem_dueNow_iff (s : State) (d : Due) : d ∈ s.dueNow ↔
    match d with
    | .lease k => s.slots[k].expiryDue = true
    | .wait host tag => ∃ e ∈ s.waitQueue, e.host = host ∧ e.tag = tag ∧ e.remaining = some 0
    | .notice p => (s.bus p).state = .resetting := by
  cases d with
  | lease k => simp [State.dueNow]
  | wait host tag =>
    simp only [State.dueNow, WaitEntry.expiryDue, List.mem_append, List.mem_map, List.mem_filter, beq_iff_eq,
      Due.wait.injEq, reduceCtorEq, and_false, exists_false, false_or, or_false]
    exact exists_congr fun e => by rw [and_assoc, and_comm (b := e.host = host ∧ e.tag = tag), and_assoc]
  | notice p => cases p <;> simp [State.dueNow]

/-- A take writes the ports, the buses, the rotation pointer and what has been overtaken. -/
theorem take_eq (s : State) (h : HostId) :
    s.take h = { s with
      ports := s.ports.update h fun p => { p with requests := p.requests.tail }
      twoWire := (s.take h).twoWire
      rotation := nextHost h
      overtaken := s.dueNow } := by
  cases h <;> rfl

/-- Settles O5: what is due kind by kind, and the fields that a take writes. -/
theorem takeMovesHeadRequestAndPointer : Obligations.TakeMovesHeadRequestAndPointer := by
  refine ⟨fun s d => (mem_dueNow_iff s d).trans ?_, fun s h => ⟨(s.take h).twoWire, ?_, fun p rx t own holding => ?_,
    fun p other => ?_⟩⟩
  · cases d with
    | lease k => exact expiryDue_iff _
    | wait host tag => exact Iff.rfl
    | notice p => exact Iff.rfl
  · simp only [List.drop_one]
    exact take_eq s h
  · exact (bus_take s h p).trans ((if_pos own).trans (released_holding holding))
  · refine (bus_take s h p).trans ?_
    split
    · exact released_of_not_holding (other.resolve_left (not_not.2 ‹_›))
    · rfl

end Sys2Proof.Machine
end

section
/-! ## The grant scan and the handle checks (R23, R24, R29, R58, R59) -/

namespace Sys2Proof.Machine

/-- Settles O16: the two outcomes of `grantSlot`, and the end of the walk. -/
theorem grantScanDecidesEachEntry : Obligations.GrantScanDecidesEachEntry := by
  refine ⟨fun e rest blocked t k unowned unblocked low => ?_, fun e rest blocked t stays => ?_,
    fun _ _ => ⟨rfl, rfl, rfl⟩, grantScan_eq⟩
  · have granted := (grantSlot_eq_some t blocked e k).2 ⟨unowned, unblocked, low⟩
    rw [grantWalk_cons_some granted]
    exact ⟨_, grantInto_written t k e.host e.lines e.tag e.period, rfl, rfl, rfl⟩
  · rw [grantWalk_cons_none ((grantSlot_eq_none t blocked e).2 stays)]
    exact ⟨rfl, rfl, rfl⟩

/-- A handle is valid before a take exactly when it is after it. -/
theorem validSlot_take (s : State) (h : HostId) (handle : Byte) : (s.take h).validSlot handle = s.validSlot handle := by
  simp only [State.validSlot, State.take_slots]

theorem validSlot_stale {s : State} {k : Fin 16} {gen : BitVec 4}
    (stale : s.slots[k].isFree = true ∨ s.slots[k].gen ≠ gen) : s.validSlot (handleOf k gen) = none := by
  rw [validSlot_handleOf, if_neg]
  rintro ⟨used, now⟩
  rcases stale with free | old
  · rw [free] at used
    cases used
  · exact old now

theorem freeSlot_take (s : State) (h : HostId) (k : Fin 16) :
    (s.take h).freeSlot k = { s.take h with slots := (s.freeSlot k).slots } := by
  simp only [State.freeSlot, State.take_slots]

theorem freeSlot_written (s : State) (k : Fin 16) :
    SlotWritten s.slots (s.freeSlot k).slots k { gen := s.slots[k].gen, body := .free } :=
  slotWritten_set _ _ _

theorem endCauseByte_eq (cause : EndCause) : endCauseByte cause = if cause = .leaseExpired then 0x01 else 0x02 := by
  cases cause <;> rfl

/-- The requests that name a handle, but for REVOKE, make the handle checks first. -/
theorem exec_handleRequest {s : State} {o : Opcode} {h : HostId} {f : Frame} (raw : LineMask) (bits : Fin 8)
    (v : s.Valid o h f) (ho : o = .renew ∨ o = .release ∨ o = .trim ∨ o = .startPattern ∨ o = .stopPattern) :
    ∃ body : Fin 16 → LineMask → Option Lease → Answer,
      exec (requestCommand o raw bits) s =
        .next (((s.take h).withHolding h (f.byteAt (if o = .stopPattern then 1 else 0)) body).place h f) := by
  rcases ho with rfl | rfl | rfl | rfl | rfl <;> exact ⟨_, congrArg Host.Outcome.next (request_valid v _)⟩

/-- Settles O17: the five requests make the same checks, whose outcome depends on the slot alone. -/
theorem handleChecksComeFirst : Obligations.HandleChecksComeFirst := by
  refine ⟨fun k gen => ⟨handleOf_toNat k gen, handleSlot_handleOf k gen⟩,
    fun s o h f raw bits k gen ho v handle => ?_⟩
  obtain ⟨body, e⟩ := exec_handleRequest raw bits v ho
  rw [e, handle]
  have valid := (validSlot_take s h _).trans (validSlot_handleOf s k gen)
  refine ⟨fun stale => ?_, fun current => ⟨fun owner lines tag lease held other => ?_,
    fun owner tag lease cause ended => ⟨fun other => ?_, fun own => ⟨(s.freeSlot k).slots, ?_, ?_⟩⟩⟩⟩
  · rw [withHolding_stale ((validSlot_take s h _).trans (validSlot_stale stale)), place_refuse]
    rfl
  · have used : s.slots[k].isFree = false := by simp only [Slot.isFree, held]
    rw [withHolding_held (valid.trans (if_pos ⟨used, current⟩)) (by rw [State.take_slots]; exact held), if_neg other]
    rfl
  · have used : s.slots[k].isFree = false := by simp only [Slot.isFree, ended]
    rw [withHolding_ended (valid.trans (if_pos ⟨used, current⟩)) (by rw [State.take_slots]; exact ended), if_neg other]
    rfl
  · have used : s.slots[k].isFree = false := by simp only [Slot.isFree, ended]
    rw [withHolding_ended (valid.trans (if_pos ⟨used, current⟩)) (by rw [State.take_slots]; exact ended), if_pos own,
      freeSlot_take, endCauseByte_eq]
    rfl
  · exact current ▸ freeSlot_written s k

end Sys2Proof.Machine
end

section
/-! ## The holding requests and the ends of holdings (R26, R27, R32, R34, R36 to R41) -/

namespace Sys2Proof.Machine

/-! ### Lines leave a holding -/

/-- A slot is written, lines take their safe states and patterns are aborted: what the ends of
holdings have in common (R26, R27, R38). -/
def State.leave (s : State) (k : Fin 16) (x : Slot) (gone raw : LineMask) (hit : Pattern → Bool) : State :=
  { s with
    slots := s.slots.set k x
    lines := (s.applySafeStates gone raw).lines
    patterns := (s.abortPatterns hit).patterns }

theorem leave_tables (s : State) (k : Fin 16) (x : Slot) (gone raw : LineMask) {hit : Pattern → Bool}
    {chosen : Pattern → Prop} (same : ∀ p, hit p = true ↔ chosen p) :
    SlotWritten s.slots (s.leave k x gone raw hit).slots k x ∧
      LeftHolding s.lines (s.leave k x gone raw hit).lines gone raw ∧
      IdleKept s.patterns (s.leave k x gone raw hit).patterns ∧
      Aborted s.patterns (s.leave k x gone raw hit).patterns chosen := by
  refine ⟨slotWritten_set _ _ _, applySafeStates_left s gone raw, abortPatterns_idle s hit, fun i p run => ?_⟩
  rw [← same p]
  exact abortPatterns_aborted s hit i p run

/-- After a take the same is left, since a take writes no table. -/
theorem leave_take (s : State) (h : HostId) (k : Fin 16) (x : Slot) (gone raw : LineMask) {hit : Pattern → Bool}
    {chosen : Pattern → Prop} (same : ∀ p, hit p = true ↔ chosen p) :
    ∃ (S : Vector Slot 16) (L : Vector LineRecord 32) (P : Vector (Option Pattern) 4),
      (s.take h).leave k x gone raw hit = { s.take h with slots := S, lines := L, patterns := P } ∧
      SlotWritten s.slots S k x ∧ LeftHolding s.lines L gone raw ∧ IdleKept s.patterns P ∧
      Aborted s.patterns P chosen := by
  refine ⟨_, _, _, ?_, leave_tables s k x gone raw same⟩
  simp only [State.leave, State.applySafeStates, State.onLines, State.abortPatterns, State.take_slots, State.take_lines,
    State.take_patterns]

section
variable {s : State} {k : Fin 16} {gen : BitVec 4} {owner : HostId} {lines : LineMask} {tag : Byte} {lease : Option Lease}

theorem releaseHolding_held (hk : s.slots[k] = { gen := gen, body := .held owner lines tag lease }) (raw : LineMask)
    (cause : AbortCause) :
    s.releaseHolding k raw (some cause) =
      (s.leave k { gen := gen, body := .free } lines raw (Pattern.under (handleOf k gen))).sendEvents
        (s.abortEvents (Pattern.under (handleOf k gen)) owner cause) := by
  rw [releaseHolding_eq (congrArg Slot.body hk), slotHandle_eq, hk]
  rfl

theorem endHolding_held (hk : s.slots[k] = { gen := gen, body := .held owner lines tag lease }) (raw : LineMask)
    (cause : EndCause) :
    s.endHolding k raw cause =
      (s.leave k { gen := gen, body := .ended owner tag lease cause } lines raw
          (Pattern.under (handleOf k gen))).sendEvents
        (s.abortEvents (Pattern.under (handleOf k gen)) owner cause.abort ++
          [(owner, cause.event (handleOf k gen) tag)]) := by
  rw [endHolding_eq (congrArg Slot.body hk), slotHandle_eq, hk]
  rfl

theorem trimHolding_held (hk : s.slots[k] = { gen := gen, body := .held owner lines tag lease }) (named raw : LineMask) :
    s.trimHolding k named raw =
      (s.leave k { gen := gen, body := .held owner (lines &&& ~~~named) tag lease } named raw
          fun p => p.under (handleOf k gen) && decide (p.lines &&& named ≠ 0)).sendEvents
        (s.abortEvents (fun p => p.under (handleOf k gen) && decide (p.lines &&& named ≠ 0)) owner .trimmed) := by
  rw [trimHolding_eq (congrArg Slot.body hk), slotHandle_eq, hk]
  rfl

end

theorem under_iff (handle : Byte) (p : Pattern) : p.under handle = true ↔ p.handle = handle := decide_eq_true_iff

/-! ### RELEASE (R26, R36, R77, R78) -/

/-- The event of one pattern slot in an abort (R77). -/
def State.abortEventsAt (s : State) (hit : Pattern → Bool) (owner : HostId) (cause : AbortCause) (i : Fin 4) :
    List (HostId × Event) :=
  match s.patterns[i] with
  | some p => if hit p then [(owner, Event.patternAborted i p.handle p.tag cause)] else []
  | none => []

theorem abortEvents_eq (s : State) (hit : Pattern → Bool) (owner : HostId) (cause : AbortCause) :
    s.abortEvents hit owner cause = (List.finRange 4).flatMap (s.abortEventsAt hit owner cause) := by
  unfold State.abortEvents State.abortEventsAt
  rw [List.filterMap_eq_flatMap_toList]
  congr 1
  funext i
  rcases s.patterns[i] with _ | p
  · rfl
  · dsimp only
    split <;> rfl

theorem slot_take {s : State} {k : Fin 16} {x : Slot} (hk : s.slots[k] = x) (h : HostId) : (s.take h).slots[k] = x := by
  rw [State.take_slots, hk]

/-- A request with a handle of the requester's own HELD slot is carried out. -/
theorem withHolding_own {s : State} {h : HostId} {k : Fin 16} {gen : BitVec 4} {lines : LineMask} {tag : Byte}
    {lease : Option Lease} (hk : s.slots[k] = { gen := gen, body := .held h lines tag lease })
    (body : Fin 16 → LineMask → Option Lease → Answer) :
    (s.take h).withHolding h (handleOf k gen) body = body k lines lease := by
  have valid := (validSlot_take s h _).trans (validSlot_of_slot hk SlotBody.noConfusion)
  rw [withHolding_held valid (congrArg Slot.body (slot_take hk h)), if_pos rfl]

/-- Settles O18: the holding is left in one stroke, and the events are those of the pattern slots in turn. -/
theorem releaseFreesHolding : Obligations.ReleaseFreesHolding := by
  refine ⟨fun s hit owner cause => ⟨s.abortEventsAt hit owner cause, ?_, fun i => ⟨fun idle => ?_, fun p run => ?_⟩⟩,
    fun s h f raw k gen lines tag lease v handle hk => ?_⟩
  · rw [abortEvents_eq]
    simp [List.finRange_succ, List.flatMap]
  · simp only [State.abortEventsAt, idle]
  · simp only [State.abortEventsAt, run]
  · have e : exec (.release raw) s = .next _ := congrArg Host.Outcome.next (request_valid v _)
    obtain ⟨S, L, P, left, tables⟩ :=
      leave_take s h k { gen := gen, body := .free } lines raw (under_iff (handleOf k gen))
    rw [e, handle, withHolding_own hk, releaseHolding_held (slot_take hk h) raw, left, abortEvents_take]
    exact ⟨S, L, P, rfl, tables⟩

/-! ### TRIM (R37, R38, R79) -/

/-- Settles O19: the line set is refused, is some of the lines, or is all of them. -/
theorem trimGivesUpNamedLines : Obligations.TrimGivesUpNamedLines := by
  intro s h f raw k gen lines tag lease v handle hk named
  have e : exec (.trim raw) s = .next _ := congrArg Host.Outcome.next (request_valid v _)
  rw [e, handle, withHolding_own hk]
  refine ⟨fun bad => ?_, fun nonempty within proper => ?_, fun nonempty all => ?_⟩
  · rw [if_pos bad]
    rfl
  · have hit (p : Pattern) : (p.under (handleOf k gen) && decide (p.lines &&& named ≠ 0)) = true ↔
        p.handle = handleOf k gen ∧ p.lines &&& named ≠ 0 := by
      rw [Bool.and_eq_true, under_iff, decide_eq_true_iff]
    obtain ⟨S, L, P, left, tables⟩ :=
      leave_take s h k { gen := gen, body := .held h (lines &&& ~~~named) tag lease } named raw hit
    rw [if_neg (not_or.2 ⟨nonempty, not_not.2 within⟩), if_neg proper, trimHolding_held (slot_take hk h) _ raw, left,
      abortEvents_take]
    exact ⟨S, L, P, rfl, tables⟩
  · have within : named &&& ~~~lines = 0 := by rw [all, BitVec.and_not_self]
    obtain ⟨S, L, P, left, tables⟩ :=
      leave_take s h k { gen := gen, body := .free } lines raw (under_iff (handleOf k gen))
    rw [if_neg (not_or.2 ⟨nonempty, not_not.2 within⟩), if_pos all, releaseHolding_held (slot_take hk h) raw, left,
      abortEvents_take]
    exact ⟨S, L, P, rfl, tables⟩

/-! ### RENEW (R34) -/

theorem renewedLease_keep (lease : Option Lease) {period : Half} (h : period.toNat = 0xFFFF) :
    renewedLease lease period = lease.map fun l => { l with remaining := l.period } := by
  have same : period = 0xFFFF := BitVec.eq_of_toNat_eq h
  rw [renewedLease, if_pos same]

theorem renewedLease_set (lease : Option Lease) {period : Half} (h : period.toNat ≤ 4095) :
    renewedLease lease period = leaseOf period.toNat := by
  have other : period ≠ 0xFFFF := by
    rintro rfl
    exact absurd h (by decide)
  rw [renewedLease, if_neg other]

/-- A RENEW with a period in range writes the new lease and reports its period. -/
theorem exec_renew {s : State} {h : HostId} {f : Frame} {k : Fin 16} {gen : BitVec 4} {lines : LineMask} {tag : Byte}
    {lease : Option Lease} (v : s.Valid .renew h f) (handle : f.byteAt 0 = handleOf k gen)
    (hk : s.slots[k] = { gen := gen, body := .held h lines tag lease })
    (range : (f.halfAt 1).toNat ≤ 4095 ∨ (f.halfAt 1).toNat = 0xFFFF) :
    ∃ S : Vector Slot 16,
      exec .renew s = .next (({ s.take h with slots := S } : State).placeReply h (replyTo f .ok
        (halfBytes (BitVec.ofNat 16 (periodOf (renewedLease lease (f.halfAt 1))))))) ∧
      SlotWritten s.slots S k { gen := gen, body := .held h lines tag (renewedLease lease (f.halfAt 1)) } := by
  have accepted : ¬ (Config.maxLease < (f.halfAt 1).toNat ∧ f.halfAt 1 ≠ 0xFFFF) := by
    rintro ⟨long, other⟩
    rcases range with short | keep
    · exact absurd long (not_lt.2 short)
    · exact other (BitVec.eq_of_toNat_eq keep)
  refine ⟨_, ?_, slotWritten_set s.slots k _⟩
  have e : exec .renew s = .next _ := congrArg Host.Outcome.next (request_valid v _)
  rw [e, handle, withHolding_own hk]
  simp only [if_neg accepted, writeLease_eq (congrArg Slot.body (slot_take hk h)), place_answer, State.take_slots, hk]

/-- Settles O20: the period is refused, or the lease that `renewedLease` gives is written and its period is reported. -/
theorem renewWritesLease : Obligations.RenewWritesLease := by
  intro s h f k gen lines tag lease v handle hk period
  refine ⟨fun low high => ?_, fun range => ?_⟩
  · have refused : Config.maxLease < (f.halfAt 1).toNat ∧ f.halfAt 1 ≠ 0xFFFF := by
      refine ⟨low, fun keep => ?_⟩
      have : period = 0xFFFF := congrArg BitVec.toNat keep
      omega
    have e : exec .renew s = .next _ := congrArg Host.Outcome.next (request_valid v _)
    rw [e, handle, withHolding_own hk]
    simp only [if_pos refused]
    rfl
  · obtain ⟨S, e, written⟩ := exec_renew v handle hk range
    refine ⟨S, _, halfBytes_eq _ ▸ e, fun keep l leased => ?_, fun keep unleased => ?_, fun low short => ?_,
      fun zero => ?_⟩
    · rw [renewedLease_keep lease keep, leased] at written ⊢
      exact ⟨written, rfl⟩
    · rw [renewedLease_keep lease keep, unleased] at written ⊢
      exact ⟨written, rfl⟩
    · rw [renewedLease_set lease short, leaseOf, if_neg (Nat.one_le_iff_ne_zero.1 low)] at written ⊢
      exact ⟨written, rfl⟩
    · rw [renewedLease_set lease (zero.trans_le (Nat.zero_le _)), leaseOf, if_pos zero] at written ⊢
      exact ⟨written, rfl⟩

/-! ### QUERY_HOLDING and LIST_HOLDINGS (R39, R40) -/

theorem queryAnswer_free {s : State} {k : Fin 16} (hb : s.slots[k].body = .free) (h : HostId) :
    s.queryAnswer h k = s.answer [countByte k, 0x00] := by
  simp only [State.queryAnswer, hb]
  rfl

theorem queryAnswer_held {s : State} {k : Fin 16} {owner : HostId} {lines : LineMask} {tag : Byte} {lease : Option Lease}
    (hb : s.slots[k].body = .held owner lines tag lease) (h : HostId) :
    s.queryAnswer h k = if owner = h ∨ s.supervisor = some h then
      s.answer ([countByte k, 0x01, s.slots[k].gen.setWidth 8, hostByte owner] ++ recordTail tag lines lease 0x00)
    else s.refuse .notOwner := by
  simp only [State.queryAnswer, hb]
  rfl

theorem queryAnswer_ended {s : State} {k : Fin 16} {owner : HostId} {tag : Byte} {lease : Option Lease} {cause : EndCause}
    (hb : s.slots[k].body = .ended owner tag lease cause) (h : HostId) :
    s.queryAnswer h k = if owner = h ∨ s.supervisor = some h then
      s.answer ([countByte k, 0x02, s.slots[k].gen.setWidth 8, hostByte owner] ++
        recordTail tag 0 lease (endCauseByte cause))
    else s.refuse .notOwner := by
  simp only [State.queryAnswer, hb]
  rfl

theorem periodOf_eq (lease : Option Lease) : periodOf lease = (match lease with | some l => l.period | none => 0) := by
  cases lease <;> rfl

theorem remainingOf_eq (lease : Option Lease) :
    remainingOf lease = (match lease with | some l => l.remaining | none => 0) := by cases lease <;> rfl

theorem exec_queryHolding {s : State} {h : HostId} {f : Frame} (v : s.Valid .queryHolding h f) {k : Fin 16}
    (hk : f.byteAt 0 = countByte k) : exec .queryHolding s = .next (((s.take h).queryAnswer h k).place h f) := by
  have e : exec .queryHolding s = .next _ := congrArg Host.Outcome.next (request_valid v _)
  have value : (f.byteAt 0).toNat = k := by rw [hk, countByte_toNat_of_lt (by omega)]
  have inside : (f.byteAt 0).toNat < 16 := value ▸ k.isLt
  have slot : (⟨(f.byteAt 0).toNat, inside⟩ : Fin 16) = k := Fin.ext value
  rw [e, dif_pos inside, slot]

/-- A read of the Holding Table sees it as it was before the take. -/
theorem listPayload_take (s : State) (h g : HostId) : (s.take h).listPayload g = s.listPayload g := by
  simp only [State.listPayload, State.take_slots, State.take_waitQueue]

/-- Settles O21: the answer of each slot state, and the two slot masks bit by bit. -/
theorem queriesReportHoldings : Obligations.QueriesReportHoldings := by
  refine ⟨fun s h f v => ⟨fun outside => ?_, fun k hk => ?_⟩, fun s h f v => ?_⟩
  · have e : exec .queryHolding s = .next _ := congrArg Host.Outcome.next (request_valid v _)
    rw [e, dif_neg (not_lt.2 outside)]
    rfl
  · have slots : (s.take h).slots = s.slots := State.take_slots s h
    have supervisor : (s.take h).supervisor = s.supervisor := State.take_supervisor s h
    rw [exec_queryHolding v hk]
    refine ⟨fun free => ?_, fun owner lines tag lease held => ?_, fun owner tag lease cause ended => ?_⟩
    · rw [queryAnswer_free (slots ▸ free)]
      rfl
    · rw [queryAnswer_held (slots ▸ held), supervisor, slots]
      refine ⟨fun other unprivileged => ?_, fun allowed => ?_⟩
      · rw [if_neg (not_or.2 ⟨other, unprivileged⟩)]
        rfl
      · rw [if_pos allowed, place_answer, recordTail, periodOf_eq, remainingOf_eq]
        rfl
    · rw [queryAnswer_ended (slots ▸ ended), supervisor, slots]
      refine ⟨fun other unprivileged => ?_, fun allowed => ?_⟩
      · rw [if_neg (not_or.2 ⟨other, unprivileged⟩)]
        rfl
      · rw [if_pos allowed, place_answer, recordTail, periodOf_eq, remainingOf_eq, endCauseByte_eq, maskBytes_zero]
        rfl
  · have e : exec .listHoldings s = .next _ := congrArg Host.Outcome.next (request_valid v _)
    rw [e, place_answer, listPayload_take, State.listPayload, halfBytes_eq, halfBytes_eq]
    exact ⟨_, _, rfl, fun k => ⟨getLsbD_slotsWhere _ k, getLsbD_slotsWhere _ k⟩⟩

/-! ### REVOKE (R27, R41, R110) -/

/-- Settles O33: an invalid handle, a HELD slot and an ENDED slot. -/
theorem revokeEndsOrFreesSlot : Obligations.RevokeEndsOrFreesSlot := by
  intro s h f raw k gen v handle
  have e : exec (.revoke raw) s = .next _ := congrArg Host.Outcome.next (request_valid v _)
  rw [e, handle, validSlot_take]
  refine ⟨fun stale => ?_, fun owner lines tag lease hk => ?_,
    fun owner tag lease cause hk => ⟨(s.freeSlot k).slots, ?_, ?_⟩⟩
  · rw [validSlot_stale stale]
    rfl
  · have valid := validSlot_of_slot hk SlotBody.noConfusion
    obtain ⟨S, L, P, left, tables⟩ :=
      leave_take s h k { gen := gen, body := .ended owner tag lease .revoked } lines raw (under_iff (handleOf k gen))
    simp only [valid, slot_take hk h]
    rw [endHolding_held (slot_take hk h) raw, left, abortEvents_take]
    exact ⟨S, L, P, rfl, tables⟩
  · have valid := validSlot_of_slot hk SlotBody.noConfusion
    simp only [valid, slot_take hk h, freeSlot_take]
    rfl
  · have written := freeSlot_written s k
    rw [hk] at written
    exact written

/-! ### Interval boundaries and lease expiries (R27, R31, R32, R53) -/

theorem countDown_leased {x : Slot} {owner : HostId} {lines : LineMask} {tag : Byte} {l : Lease}
    (hb : x.body = .held owner lines tag (some l)) :
    x.countDown = { x with body := .held owner lines tag (some { l with remaining := l.remaining - 1 }) } := by
  simp only [Slot.countDown, hb]

theorem countDown_other {x : Slot}
    (hb : ∀ (owner : HostId) (lines : LineMask) (tag : Byte) (l : Lease), x.body ≠ .held owner lines tag (some l)) :
    x.countDown = x := by
  unfold Slot.countDown
  split
  · exact absurd ‹_› (hb _ _ _ _)
  · rfl

/-- Settles O38: the slots row by row, the entries, and what stays overtaken. -/
theorem intervalBoundaryCountsDown : Obligations.IntervalBoundaryCountsDown := by
  intro s run
  refine ⟨s.boundary.slots, s.boundary.waitQueue, s.boundary.overtaken,
    congrArg Host.Outcome.next (running_of_not_inReset run _), fun k => ?_, rfl, fun d => ?_⟩
  · have row : s.boundary.slots[k] = s.slots[k].countDown := getElem_tabulate_fin _ k
    rw [row]
    exact ⟨fun owner lines tag l held => countDown_leased held, countDown_other⟩
  · exact List.mem_filter.trans (and_congr_right fun _ => decide_eq_true_iff)

/-- Settles O39: the expiry is due, or it is not. -/
theorem leaseExpiryEndsHolding : Obligations.LeaseExpiryEndsHolding := by
  intro s k raw run
  have e : exec (.leaseExpiry k raw) s = .next _ := congrArg Host.Outcome.next (running_of_not_inReset run _)
  rw [e]
  refine ⟨fun other => ?_, fun owner lines tag period held => ?_⟩
  · have idle : s.slots[k].expiryDue ≠ true := fun due => by
      obtain ⟨owner, lines, tag, period, held⟩ := (expiryDue_iff _).1 due
      exact other owner lines tag period held
    rw [if_neg idle]
  · have due : s.slots[k].expiryDue = true := (expiryDue_iff _).2 ⟨owner, lines, tag, period, held⟩
    have hk : s.slots[k] = { gen := s.slots[k].gen, body := _ } := congrArg (Slot.mk _) held
    rw [if_pos due, endHolding_held hk raw]
    exact ⟨_, _, _, rfl, leave_tables s k _ lines raw (under_iff _)⟩

end Sys2Proof.Machine
end

section
/-! ## RESET_PORT (R116, R117, R143, R150, R151, R157) -/

namespace Sys2Proof.Machine

/-! ### The transfer in progress (R143, R144, R150) -/

theorem abandon_underWay (out : OutSelection) (h : HostId) (bits : Fin 8) :
    out.abandon (out.underWay h bits) =
      if out.inTransit = true then
        { out with
          bytes := out.bytes.take (if bits ≠ 0 ∨ (h = .c ∧ out.sent = 0) then out.sent + 1 else out.sent)
          inTransit := false }
      else out := by
  simp only [OutSelection.abandon, OutSelection.underWay, Bool.or_eq_true, Bool.and_eq_true, decide_eq_true_eq]

/-- A two-wire port's bus after its transfer has been abandoned. -/
def TwoWireBus.abandoned (b : TwoWireBus) (h : HostId) (bits : Fin 8) : TwoWireBus :=
  match b.state with
  | .sending out refused => { b with state := .sending (out.abandon (out.underWay h bits)) refused }
  | _ => b

/-- Port C's bus after its transfer has been abandoned. -/
def FourWireBus.abandoned (b : FourWireBus) (bits : Fin 8) : FourWireBus :=
  match b.state with
  | .exchange rx _ out => { b with state := .exchange rx bits (out.abandon (out.underWay .c bits)) }
  | .deselected => b

theorem bus_abandonTransfer (s : State) (h : HostId) (bits : Fin 8) (p : TwoWire) :
    (s.abandonTransfer h bits).bus p = if p.host = h then (s.bus p).abandoned h bits else s.bus p := by
  cases h
  case c =>
    have out : p.host ≠ .c := by cases p <;> decide
    rw [if_neg out]
    unfold State.abandonTransfer
    dsimp only [hostTwoWire]
    split <;> rfl
  all_goals cases p <;> rfl

theorem fourWire_abandonTransfer (s : State) (h : HostId) (bits : Fin 8) :
    (s.abandonTransfer h bits).fourWire = if h = .c then s.fourWire.abandoned bits else s.fourWire := by
  cases h
  case c =>
    rcases hs : s.fourWire.state with _ | _ <;>
      simp only [State.abandonTransfer, hostTwoWire, FourWireBus.abandoned, hs, if_true]
  all_goals rfl

/-- The outbound selection of the reset port is abandoned, and no other. -/
theorem selection_abandonTransfer (s : State) (h g : HostId) (bits : Fin 8) :
    (s.abandonTransfer h bits).selection g =
      if g = h then (s.selection g).map fun out => out.abandon (out.underWay h bits) else s.selection g := by
  unfold State.selection
  rcases hg : hostTwoWire g with _ | p
  · have port : g = .c := by
      cases g
      case c => rfl
      all_goals cases hg
    subst port
    dsimp only
    rw [fourWire_abandonTransfer]
    by_cases own : HostId.c = h
    · subst own
      rcases hs : s.fourWire.state with _ | _ <;> simp only [FourWireBus.abandoned, hs, if_true] <;> rfl
    · rw [if_neg own, if_neg (Ne.symm own)]
  · dsimp only
    rw [bus_abandonTransfer, hostTwoWire_eq_some hg]
    by_cases own : g = h
    · rw [if_pos own, if_pos own, TwoWireBus.abandoned]
      rcases hs : (s.bus p).state with _ | _ | _ | _ | _ | _ <;> simp only [hs] <;> rfl
    · rw [if_neg own, if_neg own]

/-! ### The port's side of a RESET_PORT -/

/-- A RESET_PORT taken, with the port's side of the reset carried out: the state from which the controller's side starts. -/
def State.portSideReset (s : State) (h : HostId) (bits : Fin 8) : State :=
  ((s.take h).mapPort h Port.portReset).abandonTransfer h bits

theorem exec_resetPort {s : State} {h : HostId} {f : Frame} (raw : LineMask) (bits : Fin 8) (v : s.Valid .resetPort h f) :
    exec (.resetPort raw bits) s =
      .next (((s.portSideReset h bits).resetContext h raw).placeReply h (replyTo f .ok [])) :=
  congrArg Host.Outcome.next (request_valid v _)

theorem portSideReset_eq (s : State) (h : HostId) (bits : Fin 8) :
    s.portSideReset h bits = { s.take h with
      ports := s.ports.update h Port.portReset
      twoWire := (s.portSideReset h bits).twoWire
      fourWire := (s.portSideReset h bits).fourWire } := by
  have ports : s.ports.update h Port.portReset = ((s.take h).mapPort h Port.portReset).ports := by cases h <;> rfl
  obtain ⟨W, F, e⟩ := ((s.take h).mapPort h Port.portReset).abandonTransfer_frame h bits
  rw [State.portSideReset, e, ports]
  rfl

theorem sameTables_portSideReset (s : State) (h : HostId) (bits : Fin 8) : s.SameTables (s.portSideReset h bits) :=
  ((sameTables_take s h).trans (sameTables_mapPort _ h _)).trans (sameTables_abandonTransfer _ h bits)

theorem port_portSideReset (s : State) (h g : HostId) (bits : Fin 8) :
    (s.portSideReset h bits).port g = if g = h then (s.port g).portReset else s.port g := by
  rw [portSideReset_eq]
  exact PerHost.get_update s.ports g h _

theorem bus_portSideReset (s : State) (h : HostId) (bits : Fin 8) (p : TwoWire) :
    (s.portSideReset h bits).bus p = if p.host = h then (s.bus p).released.abandoned h bits else s.bus p := by
  rw [State.portSideReset, bus_abandonTransfer, bus_mapPort, bus_take]
  split <;> rfl

theorem fourWire_portSideReset (s : State) (h : HostId) (bits : Fin 8) :
    (s.portSideReset h bits).fourWire = if h = .c then s.fourWire.abandoned bits else s.fourWire := by
  rw [State.portSideReset, fourWire_abandonTransfer, State.mapPort_fourWire, State.take_fourWire]

theorem selection_portSideReset (s : State) (h g : HostId) (bits : Fin 8) :
    (s.portSideReset h bits).selection g =
      if g = h then (s.selection g).map fun out => out.abandon (out.underWay h bits) else s.selection g := by
  rw [State.portSideReset, selection_abandonTransfer, selection_mapPort, selection_take]

/-! ### The controller's side -/

/-- The tables of a RESET_PORT before its grant scan, and all that the scan starts from. -/
theorem contextCleared_portSideReset (s : State) (h : HostId) (raw : LineMask) (bits : Fin 8) :
    ∃ (S : Vector Slot 16) (L : Vector LineRecord 32) (P : Vector (Option Pattern) 4),
      (s.portSideReset h bits).contextCleared h raw = { s.take h with
        ports := s.ports.update h Port.portReset
        waitQueue := s.waitQueue.filter fun e => decide (e.host ≠ h)
        watches := s.watches.update h fun _ => Vector.replicate 32 Edges.none
        slots := S, lines := L, patterns := P
        twoWire := (s.portSideReset h bits).twoWire
        fourWire := (s.portSideReset h bits).fourWire } ∧
      ((s.port h).policy = .keep → S = s.slots ∧ L = s.lines ∧ P = s.patterns) ∧
      ((s.port h).policy = .release → ∀ k : Fin 16, S[k] = s.slots[k].dropped h) := by
  obtain ⟨S, L, P, e, keep, release⟩ := contextCleared_eq (s.portSideReset h bits) h raw
  obtain ⟨lines, slots, waitQueue, patterns⟩ := sameTables_portSideReset s h bits
  rw [port_portSideReset, if_pos rfl] at keep release
  rw [lines, slots, patterns] at keep
  rw [slots] at release
  refine ⟨S, L, P, ?_, keep, fun policy => (release policy).1⟩
  rw [e, waitQueue, tabulate_const, portSideReset_eq, ← State.take_watches s h]

/-- A RESET_PORT leaves another host's port as it was, but for its event queue and EVENT_OVERFLOW. -/
theorem port_resetPort_ne (s : State) {g h : HostId} (ne : g ≠ h) (raw : LineMask) (bits : Fin 8) :
    ∃ (es : List Event) (lost : Bool), ((s.portSideReset h bits).resetContext h raw).port g =
      { s.port g with events := es, flags := { (s.port g).flags with eventOverflow := lost } } := by
  have kept : (s.portSideReset h bits).port g = s.port g := by rw [port_portSideReset, if_neg ne]
  rw [← kept]
  exact port_resetContext _ h g raw

theorem watches_resetPort (s : State) (h : HostId) (raw : LineMask) (bits : Fin 8) :
    ((s.portSideReset h bits).resetContext h raw).watches =
      s.watches.update h fun _ => tabulate fun _ => Edges.none := by
  rw [watches_resetContext, portSideReset_eq]
  exact congrArg (PerHost.update · h _) (State.take_watches s h)

/-- The fields that no step of a port reset writes are as the take left them. -/
theorem scalars_resetPort (s : State) (h : HostId) (raw : LineMask) (bits : Fin 8) :
    let t := (s.portSideReset h bits).resetContext h raw
    t.rotation = nextHost h ∧ t.supervisor = s.supervisor ∧ t.resetCause = s.resetCause ∧ t.adr = s.adr ∧
      t.time = s.time ∧ t.inReset = s.inReset := by
  obtain ⟨_, _, _, _, _, _, e⟩ := resetContext_frame (s.portSideReset h bits) h raw
  intro t
  rw [show t = _ from e, portSideReset_eq]
  exact ⟨take_rotation s h, State.take_supervisor s h, State.take_resetCause s h, State.take_adr s h,
    State.take_time s h, State.take_inReset s h⟩

/-- Settles O11: the port's side and the controller's side of the reset, field by field. -/
theorem resetPortStartsHostAfresh : Obligations.ResetPortStartsHostAfresh := by
  intro s h f raw bits v afresh abandoned
  obtain ⟨S, L, P, before, keep, release⟩ := contextCleared_portSideReset s h raw bits
  obtain ⟨lines, slots, waitQueue, patterns⟩ := sameTables_portSideReset s h bits
  have policy : ((s.portSideReset h bits).port h).policy = (s.port h).policy := by
    rw [port_portSideReset, if_pos rfl]
    rfl
  have selection (g : HostId) : ((s.portSideReset h bits).resetContext h raw).selection g = _ :=
    (selection_resetContext _ h g raw).trans (selection_portSideReset s h g bits)
  refine ⟨_, _, S, L, P, (s.portSideReset h bits).twoWire, (s.portSideReset h bits).fourWire,
    exec_resetPort raw bits v, rfl, before, keep, fun p k => ?_, fun q => ?_, ?_, ?_, fun g ne => ?_, fun n => ?_,
    fun e he => ?_, fun out sel => ?_, fun k g ne own => ?_, fun p => ⟨fun k own => ?_, ?_⟩, fun p k => ?_,
    scalars_resetPort s h raw bits⟩
  · rw [release p k, Slot.dropped]
    simp only [Bool.or_eq_true]
  · refine (bus_portSideReset s h bits q).trans ?_
    generalize s.bus q = b
    obtain ⟨state, holdMode, stuckTime, ack, tx⟩ := b
    split
    · cases state
      case sending out refused => simp only [TwoWireBus.released, TwoWireBus.abandoned, abandon_underWay]; rfl
      all_goals rfl
    · rfl
  · rw [fourWire_portSideReset]
    by_cases c : h = .c
    · subst c
      simp only [if_true]
      rcases s.fourWire with ⟨_ | ⟨rx, _, out⟩, tx⟩
      · rfl
      · dsimp only [FourWireBus.abandoned]
        rw [abandon_underWay]
    · rw [if_neg c, if_neg c]
  · rw [port_placeReply_same, port_resetContext_same, port_portSideReset, if_pos rfl]
    rfl
  · obtain ⟨es, lost, port⟩ := port_resetPort_ne s ne raw bits
    rw [port_placeReply_ne _ _ ne, port, State.placeReply_watches, watches_resetPort, PerHost.get_update_ne _ _ ne,
      selection_placeReply, selection, if_neg ne]
    exact ⟨rfl, rfl, rfl, rfl, rfl, rfl⟩
  · rw [State.placeReply_watches, watches_resetPort, PerHost.get_update_same, getElem_tabulate_fin]
  · obtain ⟨other, mem⟩ := waitQueue_resetContext he
    exact ⟨other, waitQueue ▸ mem⟩
  · rw [selection_placeReply, selection, if_pos rfl, sel, Option.map_some, abandon_underWay]
  · rw [← slots] at own ⊢
    exact slots_resetContext_other raw ne own
  · rw [← slots] at own ⊢
    exact slots_resetContext_keep raw (policy.trans p) (own.elim isFree_eq_false_of_heldBy isFree_eq_false_of_endedOf)
  · rw [← patterns, ← lines]
    exact tables_resetContext_keep raw (policy.trans p)
  · exact slots_resetContext_release raw (policy.trans p) k

/-! ### The RELEASE policy (R42, R81) -/

/-- A pattern runs under a HELD slot of a host exactly when the slot that its handle names is one. -/
theorem under_held_iff {s : State} (o : s.Owned) (h : HostId) {i : Fin 4} {p : Pattern} (run : s.patterns[i] = some p) :
    s.slots[handleSlot p.handle].heldBy h = true ↔
      ∃ k : Fin 16, s.slots[k].heldBy h = true ∧ p.handle = slotHandle s.slots k := by
  constructor
  · exact fun held => ⟨_, held, o.under_slotHandle run⟩
  · rintro ⟨k, held, under⟩
    simp only [under, slotHandle_eq, handleSlot_handleOf]
    exact held

/-- What the RELEASE policy leaves of the lines and the patterns after a port reset whose port's side writes no table. -/
theorem tables_releasePolicy {s t : State} (same : s.SameTables t) (o : s.Owned) {h : HostId}
    (policy : (t.port h).policy = .release) (raw : LineMask) :
    LeftHolding s.lines (t.resetContext h raw).lines (linesHeldBy s.slots h) raw ∧
      IdleKept s.patterns (t.resetContext h raw).patterns ∧
      Aborted s.patterns (t.resetContext h raw).patterns fun p => s.slots[handleSlot p.handle].heldBy h = true := by
  obtain ⟨left, rows⟩ := tables_resetContext_release raw policy
  rw [same.lines, same.slots] at left
  rw [same.slots, same.patterns] at rows
  refine ⟨left, fun i idle => ?_, fun i p run => ⟨fun held => ?_, fun unheld => ?_⟩⟩
  · refine Option.eq_none_iff_forall_ne_some.2 fun p now => ?_
    rw [((rows i p).1 now).1] at idle
    cases idle
  · obtain ⟨k, hk, under⟩ := (under_held_iff o h run).1 held
    refine Option.eq_none_iff_forall_ne_some.2 fun q now => ?_
    obtain ⟨ran, spared⟩ := (rows i q).1 now
    cases run.symm.trans ran
    exact spared k hk under
  · exact (rows i p).2 ⟨run, fun k hk under => unheld ((under_held_iff o h run).2 ⟨k, hk, under⟩)⟩

/-- Settles O12: a RESET_PORT and a notice differ in the port's side alone, which writes no table. -/
theorem releasePolicyFreesLinesAndPatterns : Obligations.ReleasePolicyFreesLinesAndPatterns := by
  refine ⟨fun s h f raw bits v law policy => ⟨_, exec_resetPort raw bits v, ?_⟩,
    fun s p raw run resetting law policy => ?_⟩
  · refine tables_releasePolicy (sameTables_portSideReset s h bits) ((ownershipLaw_iff s).1 law) ?_ raw
    rw [port_portSideReset, if_pos rfl]
    exact policy
  · have e : exec (.portResetNotice p raw) s = .next _ := congrArg Host.Outcome.next (running_of_not_inReset run _)
    rw [e]
    simp only [resetting]
    exact ⟨_, rfl, tables_releasePolicy (.refl s) ((ownershipLaw_iff s).1 law) policy raw⟩

end Sys2Proof.Machine
end

section
/-! ## Claims and the Wait Queue (R25, R44, R47 to R49, R54, R56) -/

namespace Sys2Proof.Machine

/-! ### How a claim is decided (R44) -/

section
variable {s : State} {lines : LineMask} {period : Nat}

theorem claim_wellFormed_iff : ¬ (lines = 0 ∨ Config.maxLease < period) ↔ lines ≠ 0 ∧ period ≤ 4095 := by
  rw [not_or, not_lt]
  rfl

theorem claimVerdict_badArgument (bad : lines = 0 ∨ 4095 < period) :
    s.claimVerdict lines period = .refused .badArgument [] := if_pos bad

theorem claimVerdict_linesHeld (named : lines ≠ 0) (short : period ≤ 4095) (held : lines &&& heldLines s.slots ≠ 0) :
    s.claimVerdict lines period = .refused .linesHeld (maskBytes (lines &&& heldLines s.slots)) := by
  rw [State.claimVerdict, if_neg (claim_wellFormed_iff.2 ⟨named, short⟩), if_pos held]

theorem claimVerdict_contended (named : lines ≠ 0) (short : period ≤ 4095) (unowned : lines &&& heldLines s.slots = 0)
    (waited : lines &&& waitingLines s.waitQueue ≠ 0) :
    s.claimVerdict lines period = .refused .contended (maskBytes (lines &&& waitingLines s.waitQueue)) := by
  rw [State.claimVerdict, if_neg (claim_wellFormed_iff.2 ⟨named, short⟩), if_neg (not_not.2 unowned), if_pos waited]

/-- With its lines unowned and named by no waiting entry, a claim is left to the lowest FREE slot. -/
theorem claimVerdict_unobstructed (named : lines ≠ 0) (short : period ≤ 4095)
    (unowned : lines &&& heldLines s.slots = 0) (unwaited : lines &&& waitingLines s.waitQueue = 0) :
    s.claimVerdict lines period = (lowestFree s.slots).elim (.refused .noSlot []) .granted := by
  rw [State.claimVerdict, if_neg (claim_wellFormed_iff.2 ⟨named, short⟩), if_neg (not_not.2 unowned),
    if_neg (not_not.2 unwaited)]
  rcases lowestFree s.slots with _ | k <;> rfl

theorem claimVerdict_noSlot (named : lines ≠ 0) (short : period ≤ 4095) (unowned : lines &&& heldLines s.slots = 0)
    (unwaited : lines &&& waitingLines s.waitQueue = 0) (full : ∀ k : Fin 16, s.slots[k].isFree = false) :
    s.claimVerdict lines period = .refused .noSlot [] := by
  rw [claimVerdict_unobstructed named short unowned unwaited, (lowestFree_eq_none s.slots).2 full]
  rfl

theorem claimVerdict_lowestFree (named : lines ≠ 0) (short : period ≤ 4095) (unowned : lines &&& heldLines s.slots = 0)
    (unwaited : lines &&& waitingLines s.waitQueue = 0) {k : Fin 16} (low : LowestFree s.slots k) :
    s.claimVerdict lines period = .granted k := by
  rw [claimVerdict_unobstructed named short unowned unwaited, (lowestFree_eq_some s.slots k).2 low]
  rfl

/-- A well-formed claim is refused only where its lines are owned or waited for, or every slot is in use. -/
theorem claimVerdict_refused {status : Status} {payload : List Byte} (named : lines ≠ 0) (short : period ≤ 4095)
    (refused : s.claimVerdict lines period = .refused status payload) (unowned : lines &&& heldLines s.slots = 0)
    (unwaited : lines &&& waitingLines s.waitQueue = 0) : lowestFree s.slots = none := by
  rw [claimVerdict_unobstructed named short unowned unwaited] at refused
  rcases low : lowestFree s.slots with _ | k
  · rfl
  · rw [low] at refused
    cases refused

/-- A claim that could not be granted to any slot is refused. -/
theorem claimVerdict_not_grantable
    (blocked : ¬ ((lines &&& heldLines s.slots = 0 ∧ lines &&& waitingLines s.waitQueue = 0) ∧
      ∃ k : Fin 16, s.slots[k].isFree = true)) :
    ∃ status payload, s.claimVerdict lines period = .refused status payload := by
  rcases verdict : s.claimVerdict lines period with ⟨status, payload⟩ | k
  · exact ⟨status, payload, rfl⟩
  · obtain ⟨-, unowned, free⟩ := claimVerdict_granted verdict
    by_cases unwaited : lines &&& waitingLines s.waitQueue = 0
    · exact absurd ⟨⟨unowned, unwaited⟩, k, free⟩ blocked
    · rw [State.claimVerdict] at verdict
      split_ifs at verdict

end

/-- A take changes neither the table nor the Wait Queue, so the claim is decided as before it. -/
theorem claimVerdict_take (s : State) (h : HostId) (lines : LineMask) (period : Nat) :
    (s.take h).claimVerdict lines period = s.claimVerdict lines period := by
  simp only [State.claimVerdict, State.take_slots, State.take_waitQueue]

/-- A claim granted at once: the slot is written, and the reply carries the handle of its new generation (R25). -/
theorem grantClaim_place (s : State) (h : HostId) (f : Frame) (k : Fin 16) (lines : LineMask) (period : Nat) :
    ((s.take h).grantClaim k h lines f.tag period).place h f =
      ({ s.take h with slots := grantInto s.slots k h lines f.tag period } : State).placeReply h
        (replyTo f .ok [handleOf k (s.slots[k].gen + 1)]) := by
  have written := (grantInto_written s.slots k h lines f.tag period).1
  simp only [State.grantClaim, place_answer, slotHandle_eq, State.take_slots, written]

/-! ### CLAIM_NOW (R44) -/

section
variable {s : State} {h : HostId} {f : Frame}

theorem exec_claimNow_refused (v : s.Valid .claimNow h f) {status : Status} {payload : List Byte}
    (refused : s.claimVerdict (f.maskAt 0) (f.halfAt 4).toNat = .refused status payload) :
    exec .claimNow s = .next (s.served h f status payload) := by
  have e : exec .claimNow s = .next _ := congrArg Host.Outcome.next (request_valid v _)
  rw [e, claimVerdict_take, refused]
  rfl

theorem exec_claimNow_granted (v : s.Valid .claimNow h f) {k : Fin 16}
    (granted : s.claimVerdict (f.maskAt 0) (f.halfAt 4).toNat = .granted k) :
    exec .claimNow s = .next (({ s.take h with
        slots := grantInto s.slots k h (f.maskAt 0) f.tag (f.halfAt 4).toNat } : State).placeReply h
      (replyTo f .ok [handleOf k (s.slots[k].gen + 1)])) := by
  have e : exec .claimNow s = .next _ := congrArg Host.Outcome.next (request_valid v _)
  rw [e, claimVerdict_take, granted]
  exact congrArg _ (grantClaim_place s h f k _ _)

end

/-- Settles O13: one outcome of the verdict for each condition of R44. -/
theorem claimNowDecidedInOrder : Obligations.ClaimNowDecidedInOrder := by
  intro s h f v lines period
  refine ⟨fun bad => ?_, fun named short held => ?_, fun named short unowned waited => ?_,
    fun named short unowned unwaited full => ?_, fun named short unowned unwaited k low => ?_,
    fun n => getLsbD_heldLines s.slots n, fun n => getLsbD_waitingLines s.waitQueue n⟩
  · exact exec_claimNow_refused v (claimVerdict_badArgument bad)
  · exact exec_claimNow_refused v (claimVerdict_linesHeld named short held)
  · exact exec_claimNow_refused v (claimVerdict_contended named short unowned waited)
  · exact exec_claimNow_refused v (claimVerdict_noSlot named short unowned unwaited full)
  · exact ⟨_, exec_claimNow_granted v (claimVerdict_lowestFree named short unowned unwaited low),
      grantInto_written s.slots k h lines f.tag period⟩

/-! ### CLAIM_WAIT (R47 to R49) -/

/-- A host waits under a tag (R47, R56). -/
theorem waitsOf_any_tag (q : List WaitEntry) (h : HostId) (tag : Byte) :
    ((waitsOf q h).any fun e => e.tag == tag) = true ↔ ∃ e ∈ q, e.host = h ∧ e.tag = tag := by
  simp [waitsOf]

/-- Orders 4 to 7 of R47: a claim is granted where a CLAIM_NOW would be, and else goes to the Wait Queue. -/
def State.claimOrQueue (s : State) (h : HostId) (f : Frame) : Answer :=
  match s.claimVerdict (f.maskAt 0) (f.halfAt 4).toNat with
  | .granted k => s.grantClaim k h (f.maskAt 0) f.tag (f.halfAt 4).toNat
  | .refused _ _ => s.queueClaim h f

section
variable {s : State} {h : HostId} {f : Frame}

theorem claimOrQueue_granted {k : Fin 16}
    (granted : s.claimVerdict (f.maskAt 0) (f.halfAt 4).toNat = .granted k) :
    s.claimOrQueue h f = s.grantClaim k h (f.maskAt 0) f.tag (f.halfAt 4).toNat := by
  rw [State.claimOrQueue, granted]

theorem claimOrQueue_refused {status : Status} {payload : List Byte}
    (refused : s.claimVerdict (f.maskAt 0) (f.halfAt 4).toNat = .refused status payload) :
    s.claimOrQueue h f = s.queueClaim h f := by
  rw [State.claimOrQueue, refused]

/-- Orders 1 to 3 of R47 come before the claim. -/
theorem exec_claimWait (v : s.Valid .claimWait h f) :
    exec .claimWait s = .next (Answer.place
      (if f.maskAt 0 = 0 ∨ Config.maxLease < (f.halfAt 4).toNat then (s.take h).refuse .badArgument
      else if f.maskAt 0 &&& linesHeldBy s.slots h ≠ 0 then (s.take h).refuse .selfHeld
      else if ∃ e ∈ s.waitQueue, e.host = h ∧ e.tag = f.tag then (s.take h).refuse .duplicateTag
      else (s.take h).claimOrQueue h f) h f) := by
  have e : exec .claimWait s = .next _ := congrArg Host.Outcome.next (request_valid v _)
  simp only [e, State.take_slots, State.take_waitQueue, waitsOf_any_tag]
  rfl

/-- A CLAIM_WAIT that passes orders 1 to 3 of R47 and is not granted goes to the Wait Queue. -/
theorem exec_claimWait_queues (v : s.Valid .claimWait h f)
    (allowed : (f.maskAt 0 ≠ 0 ∧ (f.halfAt 4).toNat ≤ 4095) ∧ f.maskAt 0 &&& linesHeldBy s.slots h = 0 ∧
      ¬ ∃ e ∈ s.waitQueue, e.host = h ∧ e.tag = f.tag)
    (blocked : ¬ ((f.maskAt 0 &&& heldLines s.slots = 0 ∧ f.maskAt 0 &&& waitingLines s.waitQueue = 0) ∧
      ∃ k : Fin 16, s.slots[k].isFree = true)) :
    exec .claimWait s = .next (((s.take h).queueClaim h f).place h f) := by
  obtain ⟨⟨named, short⟩, notSelf, fresh⟩ := allowed
  obtain ⟨status, payload, refused⟩ := claimVerdict_not_grantable (period := (f.halfAt 4).toNat) blocked
  rw [exec_claimWait v, if_neg (claim_wellFormed_iff.2 ⟨named, short⟩), if_neg (not_not.2 notSelf), if_neg fresh,
    claimOrQueue_refused ((claimVerdict_take s h _ _).trans refused)]

theorem queueClaim_queueFull (full : 8 ≤ s.waitQueue.length) : s.queueClaim h f = s.refuse .queueFull := if_pos full

theorem queueClaim_hostLimit (room : s.waitQueue.length < 8) (many : 4 ≤ (waitsOf s.waitQueue h).length) :
    s.queueClaim h f = s.refuse .hostLimit := by
  have below : ¬ Config.waitPlaces ≤ s.waitQueue.length := not_le.2 room
  rw [State.queueClaim, if_neg below]
  exact if_pos many

theorem queueClaim_queued (room : s.waitQueue.length < 8) (few : (waitsOf s.waitQueue h).length < 4) :
    s.queueClaim h f =
      { state := { s with waitQueue := s.waitQueue ++ [waitEntryOf h f] }
        status := .queued
        payload := [countByte (s.waitQueue.length + 1)] } := by
  have below : ¬ Config.waitPlaces ≤ s.waitQueue.length := not_le.2 room
  rw [State.queueClaim, if_neg below]
  exact if_neg (not_le.2 few)

end

/-- Settles O14: three refusals, the grant of a CLAIM_NOW, and the three outcomes at the Wait Queue. -/
theorem claimWaitDecidedInOrder : Obligations.ClaimWaitDecidedInOrder := by
  intro s h f v lines period duplicate wellFormed allowed unobstructed grantable
  have queue : (s.take h).waitQueue = s.waitQueue := State.take_waitQueue s h
  refine ⟨fun bad => ?_, fun ⟨named, short⟩ self => ?_, fun ⟨named, short⟩ notSelf dup => ?_,
    fun ⟨⟨named, short⟩, notSelf, fresh⟩ ⟨unowned, unwaited⟩ k low =>
      ⟨_, ?_, grantInto_written s.slots k h lines f.tag period⟩,
    fun ok blocked full => ?_, fun ok blocked room many => ?_, fun ok blocked room few => ?_⟩
  · rw [exec_claimWait v, if_pos (not_not.1 (mt claim_wellFormed_iff.1 bad))]
    rfl
  · rw [exec_claimWait v, if_neg (claim_wellFormed_iff.2 ⟨named, short⟩), if_pos self]
    rfl
  · rw [exec_claimWait v, if_neg (claim_wellFormed_iff.2 ⟨named, short⟩), if_neg (not_not.2 notSelf), if_pos dup]
    rfl
  · rw [exec_claimWait v, if_neg (claim_wellFormed_iff.2 ⟨named, short⟩), if_neg (not_not.2 notSelf), if_neg fresh,
      claimOrQueue_granted ((claimVerdict_take s h _ _).trans
        (claimVerdict_lowestFree named short unowned unwaited low))]
    exact congrArg _ (grantClaim_place s h f k lines period)
  · rw [exec_claimWait_queues v ok blocked, queueClaim_queueFull (by rwa [queue])]
    rfl
  · rw [exec_claimWait_queues v ok blocked, queueClaim_hostLimit (by rwa [queue]) (by rwa [queue])]
    rfl
  · rw [exec_claimWait_queues v ok blocked, queueClaim_queued (by rwa [queue]) (by rwa [queue]), queue]
    rfl

/-! ### CANCEL_WAIT and the wait expiry (R54, R56) -/

theorem removeWait_take (s : State) (h : HostId) (tag : Byte) :
    (s.take h).removeWait h tag = { s.take h with
      waitQueue := s.waitQueue.filter fun e => !(decide (e.host = h) && decide (e.tag = tag)) } := by
  simp only [State.removeWait, State.take_waitQueue]
  rfl

/-- Settles O15: the requester waits under the tag, or it does not. -/
theorem cancelWaitRemovesOwnEntry : Obligations.CancelWaitRemovesOwnEntry := by
  intro s h f v
  have e : exec .cancelWait s = .next _ := congrArg Host.Outcome.next (request_valid v _)
  rw [e, State.take_waitQueue]
  refine ⟨fun waits => ?_, fun absent => ?_⟩
  · rw [if_pos ((waitsOf_any_tag _ h _).2 waits), removeWait_take]
    rfl
  · rw [if_neg fun any => ?_]
    · rfl
    · obtain ⟨x, mem, host, tag⟩ := (waitsOf_any_tag _ h _).1 any
      exact absent x mem host tag

/-- A wait expiry is due for an entry of the host with the tag whose wait has run out (R54). -/
theorem waitExpiry_due_iff (q : List WaitEntry) (h : HostId) (tag : Byte) :
    (q.any fun e => decide (e.host = h) && e.tag == tag && e.expiryDue) = true ↔
      ∃ e ∈ q, e.host = h ∧ e.tag = tag ∧ e.remaining = some 0 := by
  simp [WaitEntry.expiryDue, and_assoc]

/-- Settles O40: the expiry is due, or it is not. -/
theorem waitExpiryRemovesEntry : Obligations.WaitExpiryRemovesEntry := by
  intro s h tag run
  have e : exec (.waitExpiry h tag) s = .next _ := congrArg Host.Outcome.next (running_of_not_inReset run _)
  rw [e]
  refine ⟨fun due => ?_, fun other => ?_⟩
  · rw [if_pos ((waitExpiry_due_iff _ h tag).2 due)]
    rfl
  · rw [if_neg fun any => ?_]
    obtain ⟨x, mem, host, named, out⟩ := (waitExpiry_due_iff _ h tag).1 any
    exact other x mem host named out

end Sys2Proof.Machine
end

section
/-! ## The limits of the Wait Queue and the law of the grant scan (R51, R58)

Both laws are read from the Holding Table and the Wait Queue, and a command that frees a slot or
lets an entry leave restores the second one only by its grant scan. So they are carried over whole
commands, not over the single operations of `TableStep`. -/

namespace Sys2Proof.Machine

/-! ### The limits as a property of a queue -/

/-- The limits of R51 on a list of entries. -/
def WaitLimits (q : List WaitEntry) : Prop :=
  q.length ≤ 8 ∧ (∀ h : HostId, (waitsOf q h).length ≤ 4) ∧ q.Pairwise fun x y => ¬ (x.host = y.host ∧ x.tag = y.tag)

theorem waitQueueLaw_iff (s : State) : s.WaitQueueLaw ↔ WaitLimits s.waitQueue := Iff.rfl

/-- Entries that leave break no limit. -/
theorem WaitLimits.sublist {q r : List WaitEntry} (limits : WaitLimits q) (left : r.Sublist q) : WaitLimits r := by
  obtain ⟨total, share, apart⟩ := limits
  exact ⟨left.length_le.trans total, fun h => (left.filter _).length_le.trans (share h), apart.sublist left⟩

/-- An entry joins within the limits when there is room, its host has a share left and its tag is new (R47). -/
theorem WaitLimits.append {q : List WaitEntry} (limits : WaitLimits q) {e : WaitEntry} (room : q.length < 8)
    (share : (waitsOf q e.host).length < 4) (fresh : ¬ ∃ x ∈ q, x.host = e.host ∧ x.tag = e.tag) :
    WaitLimits (q ++ [e]) := by
  obtain ⟨-, shares, apart⟩ := limits
  refine ⟨by simpa using room, fun h => ?_, List.pairwise_append.2 ⟨apart, List.pairwise_singleton _ _, ?_⟩⟩
  · have split : waitsOf (q ++ [e]) h = waitsOf q h ++ if e.host = h then [e] else [] := by
      simp [waitsOf, List.filter_cons]
    rw [split]
    split
    · subst h
      simpa using share
    · simpa using shares h
  · intro x hx y hy same
    rw [List.mem_singleton.1 hy] at same
    exact fresh ⟨x, hx, same⟩

/-! ### Entries but for their wait remaining -/

/-- An entry without its wait remaining, which neither law reads. -/
def WaitEntry.untimed (e : WaitEntry) : WaitEntry := { e with remaining := none }

theorem untimed_countDown (e : WaitEntry) : e.countDown.untimed = e.untimed := rfl

theorem waitLimits_untimed (q : List WaitEntry) : WaitLimits (q.map WaitEntry.untimed) ↔ WaitLimits q := by
  have share (h : HostId) : (waitsOf (q.map WaitEntry.untimed) h).length = (waitsOf q h).length := by
    rw [waitsOf, List.filter_map, List.length_map]
    rfl
  simp only [WaitLimits, List.length_map, share, List.pairwise_map]
  rfl

theorem waitingLines_untimed (q : List WaitEntry) : waitingLines (q.map WaitEntry.untimed) = waitingLines q := by
  rw [waitingLines, List.map_map]
  rfl

/-- An entry and its older ones, found again in a queue that differs in wait remainings alone. -/
theorem split_of_untimed {q older newer : List WaitEntry} {e : WaitEntry}
    (same : (older ++ e :: newer).map WaitEntry.untimed = q.map WaitEntry.untimed) :
    ∃ (older' newer' : List WaitEntry) (e' : WaitEntry), q = older' ++ e' :: newer' ∧ e'.lines = e.lines ∧
      waitingLines older' = waitingLines older := by
  rw [List.map_append, List.map_cons, eq_comm, List.map_eq_append_iff] at same
  obtain ⟨older', rest, rfl, before, after⟩ := same
  obtain ⟨e', newer', rfl, entry, -⟩ := List.map_eq_cons_iff.1 after
  have lines : e'.untimed.lines = e.untimed.lines := congrArg WaitEntry.lines entry
  refine ⟨older', newer', e', rfl, lines, ?_⟩
  rw [← waitingLines_untimed older', before, waitingLines_untimed]

/-! ### What a command leaves of the Holding Table and the Wait Queue -/

/-- Every slot in use stays in use with its lines, and the entries stay, some with less wait remaining. -/
structure State.ClaimsStay (s t : State) : Prop where
  used  : ∀ k : Fin 16, s.slots[k].isFree = false → t.slots[k].isFree = false ∧ t.slots[k].lines = s.slots[k].lines
  waits : t.waitQueue.map WaitEntry.untimed = s.waitQueue.map WaitEntry.untimed

/-- What a whole command leaves: holdings and entries stay; an entry joins that could not be granted; entries and holdings
leave and the grant scan runs; or no entry is left. -/
inductive ClaimStep (s t : State) : Prop
  | stay (claims : s.ClaimsStay t)
  | enqueue (e : WaitEntry) (slots : t.slots = s.slots) (waits : t.waitQueue = s.waitQueue ++ [e])
      (room : s.waitQueue.length < 8) (share : (waitsOf s.waitQueue e.host).length < 4)
      (fresh : ¬ ∃ x ∈ s.waitQueue, x.host = e.host ∧ x.tag = e.tag)
      (blocked : e.lines &&& heldLines s.slots = 0 → e.lines &&& waitingLines s.waitQueue = 0 → lowestFree s.slots = none)
  | scan (u : State) (left : u.waitQueue.Sublist s.waitQueue) (slots : t.slots = u.grantScan.slots)
      (waits : t.waitQueue = u.grantScan.waitQueue)
  | clear (waits : t.waitQueue = [])

namespace State.ClaimsStay

variable {s t : State}

theorem of_tables (slots : t.slots = s.slots) (waits : t.waitQueue = s.waitQueue) : s.ClaimsStay t :=
  ⟨fun k used => by rw [slots]; exact ⟨used, rfl⟩, by rw [waits]⟩

theorem heldLines (claims : s.ClaimsStay t) {n : Nat} (held : (heldLines s.slots).getLsbD n = true) :
    (Machine.heldLines t.slots).getLsbD n = true := by
  obtain ⟨k, hk⟩ := (getLsbD_heldLines s.slots n).1 held
  refine (getLsbD_heldLines t.slots n).2 ⟨k, ?_⟩
  rw [(claims.used k (Bool.eq_false_iff.2 fun free => ?_)).2]
  · exact hk
  · rw [lines_eq_zero_of_isFree free] at hk
    simp at hk

theorem full (claims : s.ClaimsStay t) (full : lowestFree s.slots = none) : lowestFree t.slots = none :=
  (lowestFree_eq_none t.slots).2 fun k => (claims.used k ((lowestFree_eq_none s.slots).1 full k)).1

/-- A claim granted takes a slot that was FREE. -/
theorem grant (s : State) {k : Fin 16} (free : s.slots[k].isFree = true) (h : HostId) (lines : LineMask) (tag : Byte)
    (period : Nat) : s.ClaimsStay { s with slots := grantInto s.slots k h lines tag period } := by
  refine ⟨fun j used => ?_, rfl⟩
  have other : j ≠ k := by
    rintro rfl
    rw [free] at used
    cases used
  have kept := (grantInto_written s.slots k h lines tag period).2 j other
  rw [kept]
  exact ⟨used, rfl⟩

theorem writeLease (s : State) (k : Fin 16) (lease : Option Lease) : s.ClaimsStay (s.writeLease k lease) := by
  rcases hb : s.slots[k].body with _ | ⟨owner, lines, tag, old⟩ | ⟨owner, tag, old, c⟩
  case held =>
    rw [writeLease_eq hb]
    refine ⟨fun j used => ?_, rfl⟩
    rw [getElem_set_fin]
    split
    · subst j
      exact ⟨rfl, by simp only [Slot.lines, hb]⟩
    · exact ⟨used, rfl⟩
  all_goals
    simp only [State.writeLease, hb]
    exact of_tables rfl rfl

theorem boundary (s : State) : s.ClaimsStay s.boundary := by
  refine ⟨fun k used => ?_, ?_⟩
  · have row : s.boundary.slots[k] = s.slots[k].countDown := getElem_tabulate_fin _ k
    rw [row]
    refine ⟨?_, (sameHolding_countDown _).lines⟩
    unfold Slot.countDown
    split
    · rfl
    · exact used
  · exact List.map_map.trans (List.map_congr_left fun e _ => untimed_countDown e)

end State.ClaimsStay

namespace ClaimStep

variable {s s' t t' : State}

theorem of_same (h : s.SameTables t) : ClaimStep s t := .stay (.of_tables h.slots h.waitQueue)

/-- What comes before and after and writes no table does not count. -/
theorem congr (before : s.SameTables s') (step : ClaimStep s' t') (after : t'.SameTables t) : ClaimStep s t := by
  have slots := before.slots
  have queue := before.waitQueue
  cases step with
  | stay claims =>
    refine .stay ⟨fun k used => ?_, ?_⟩
    · rw [after.slots, ← slots]
      exact claims.used k (by rwa [slots])
    · rw [after.waitQueue, ← queue, claims.waits]
  | enqueue e hslots hwaits room share fresh blocked =>
    rw [queue] at hwaits room share fresh blocked
    rw [slots] at hslots blocked
    exact .enqueue e (after.slots.trans hslots) (after.waitQueue.trans hwaits) room share fresh blocked
  | scan u left hslots hwaits =>
    exact .scan u (queue ▸ left) (after.slots.trans hslots) (after.waitQueue.trans hwaits)
  | clear hwaits => exact .clear (after.waitQueue.trans hwaits)

/-- Entries leave, the Holding Table is written, and the grant scan runs. -/
theorem scanned {u : State} (left : u.waitQueue.Sublist s.waitQueue) : ClaimStep s u.grantScan :=
  .scan u left rfl rfl

theorem waitQueueLaw (step : ClaimStep s t) (law : s.WaitQueueLaw) : t.WaitQueueLaw := by
  rw [waitQueueLaw_iff] at law ⊢
  cases step with
  | stay claims => rwa [← waitLimits_untimed, claims.waits, waitLimits_untimed]
  | enqueue e slots waits room share fresh =>
    rw [waits]
    exact law.append room share fresh
  | scan u left slots waits =>
    rw [waits, grantScan_waitQueue]
    exact law.sublist ((grantWalk_kept_sublist _ _ _).trans left)
  | clear waits =>
    rw [waits]
    exact law.sublist (List.nil_sublist _)

theorem scanLaw (step : ClaimStep s t) (law : s.ScanLaw) : t.ScanLaw := by
  intro older newer e queue unowned unblocked
  cases step with
  | stay claims =>
    obtain ⟨older', newer', e', queue', lines, before⟩ := split_of_untimed (queue ▸ claims.waits)
    refine claims.full (law older' newer' e' queue' ?_ ?_)
    · rw [lines, and_eq_zero_iff]
      intro n named
      refine Bool.eq_false_iff.2 fun held => ?_
      exact Bool.eq_false_iff.1 ((and_eq_zero_iff _ _).1 unowned n named) (claims.heldLines held)
    · rw [lines, before]
      exact unblocked
  | enqueue x slots waits room share fresh blocked =>
    rw [slots] at unowned ⊢
    rw [waits] at queue
    rcases newer.eq_nil_or_concat with rfl | ⟨newer', y, rfl⟩
    · obtain ⟨rfl, last⟩ := List.append_inj' queue rfl
      cases last
      exact blocked unowned unblocked
    · rw [List.concat_eq_append, ← List.cons_append, ← List.append_assoc] at queue
      exact law older newer' e (List.append_inj' queue rfl).1 unowned unblocked
  | scan u left slots waits =>
    rw [slots] at unowned ⊢
    exact scanLaw_grantScan u older newer e (waits ▸ queue) unowned unblocked
  | clear waits =>
    rw [waits] at queue
    simp at queue

end ClaimStep

/-! ### Requests -/

/-- A request does to the Holding Table and the Wait Queue what its body does. -/
theorem request_claimStep (s : State) (o : Opcode) {body : HostId → Frame → State → Answer}
    (hb : ∀ h f (t : State), ClaimStep t (body h f t).state) : ClaimStep s (s.request o body) := by
  rcases onRequest_cases s o fun h f t => (body h f t).place h f with e | ⟨h, f, r, -, e⟩ | ⟨h, f, -, e⟩ <;>
    rw [State.request, e]
  · exact .of_same (.refl s)
  · exact .of_same (sameTables_served s h f r [])
  · exact .congr (sameTables_take s h) (hb h f _) (sameTables_placeReply _ h _)

theorem running_claimStep {s : State} {f : State → State} (hf : ClaimStep s (f s)) : ClaimStep s (s.running f) := by
  unfold State.running
  split
  · exact .of_same (.refl s)
  · exact hf

/-- A request on a handle: a refusal, the end of an ENDED slot with its scan, or what it does on a HELD slot. -/
theorem withHolding_claimStep (s : State) (h : HostId) (handle : Byte) {f : Fin 16 → LineMask → Option Lease → Answer}
    (hf : ∀ k lines lease, ClaimStep s (f k lines lease).state) : ClaimStep s (s.withHolding h handle f).state := by
  rcases withHolding_cases s h handle f with
    ⟨r, e⟩ | ⟨k, tag, lease, cause, -, e⟩ | ⟨k, lines, tag, lease, -, -, e⟩ <;> rw [e]
  · exact .of_same (.refl s)
  · exact .scanned (List.Sublist.refl _)
  · exact hf k lines lease

theorem grantClaim_claimStep {s : State} {lines : LineMask} {period : Nat} {k : Fin 16}
    (v : s.claimVerdict lines period = .granted k) (h : HostId) (tag : Byte) :
    ClaimStep s (s.grantClaim k h lines tag period).state := by
  obtain ⟨-, -, free⟩ := claimVerdict_granted v
  exact .stay (.grant s free h lines tag period)

/-- A CLAIM_WAIT is queued only where the grant scan would not grant its entry (R47, R58). -/
theorem queueClaim_claimStep {s : State} {h : HostId} {f : Frame} {status : Status} {payload : List Byte}
    (named : f.maskAt 0 ≠ 0) (short : (f.halfAt 4).toNat ≤ 4095)
    (fresh : ¬ ∃ e ∈ s.waitQueue, e.host = h ∧ e.tag = f.tag)
    (refused : s.claimVerdict (f.maskAt 0) (f.halfAt 4).toNat = .refused status payload) :
    ClaimStep s (s.queueClaim h f).state := by
  by_cases full : 8 ≤ s.waitQueue.length
  · rw [queueClaim_queueFull full]
    exact .of_same (.refl s)
  · have room := not_le.1 full
    by_cases many : 4 ≤ (waitsOf s.waitQueue h).length
    · rw [queueClaim_hostLimit room many]
      exact .of_same (.refl s)
    · have few := not_le.1 many
      rw [queueClaim_queued room few]
      exact .enqueue (waitEntryOf h f) rfl rfl room few fresh (claimVerdict_refused named short refused)

theorem changeLines_claimStep (s : State) (h : HostId) (m : LineMask) (change : Option (Fin 32 → LineRecord → LineRecord)) :
    ClaimStep s (s.changeLines h m change).state := by
  rcases changeLines_cases s h m change with ⟨r, e⟩ | ⟨g, -, -, -, -, e⟩ <;> rw [e]
  · exact .of_same (.refl s)
  · exact .stay (.of_tables rfl rfl)

theorem startOn_claimStep (s : State) (f : Frame) (lines : LineMask) : ClaimStep s (s.startOn f lines).state := by
  unfold State.startOn
  split
  · exact .of_same (.refl s)
  · dsimp only
    split
    · exact .of_same (.refl s)
    · split
      · exact .of_same (.refl s)
      · split
        · exact .of_same (.refl s)
        · split <;> exact .stay (.of_tables rfl rfl)

theorem stopSlot_claimStep (s : State) (f : Frame) : ClaimStep s (s.stopSlot f).state := by
  unfold State.stopSlot
  split
  · split
    · split <;> exact .stay (.of_tables rfl rfl)
    · exact .of_same (.refl s)
  · exact .of_same (.refl s)

/-- A port reset withdraws the host's entries, frees its holdings by the policy and scans (R157). -/
theorem resetContext_claimStep (s : State) (h : HostId) (raw : LineMask) : ClaimStep s (s.resetContext h raw) := by
  rw [resetContext_eq]
  refine .scanned ?_
  rw [waitQueue_contextCleared]
  exact List.filter_sublist

/-! ### Commands -/

/-- The commands of the lines, the holdings, the claims, the patterns, the time and the device reset. -/
theorem exec_writingCommand_claimStep {c : Instr} (hr : sparingRequest c = false) (hb : busEvent c = false) {s t : State}
    (e : exec c s = .next t) : ClaimStep s t := by
  cases c <;> cases hr <;> cases hb <;> cases e
  case resetPort raw bits =>
    refine request_claimStep s _ fun h f t => ?_
    exact .congr ((sameTables_mapPort t h _).trans (sameTables_abandonTransfer _ h bits)) (resetContext_claimStep _ h raw)
      (.refl _)
  case claimNow =>
    refine request_claimStep s _ fun h f t => ?_
    split
    · exact .of_same (.refl t)
    · exact grantClaim_claimStep ‹_› h f.tag
  case claimWait =>
    refine request_claimStep s _ fun h f t => ?_
    split
    · exact .of_same (.refl t)
    · rename_i arg
      obtain ⟨named, short⟩ := claim_wellFormed_iff.1 arg
      split
      · exact .of_same (.refl t)
      · split
        · exact .of_same (.refl t)
        · rename_i fresh
          rw [waitsOf_any_tag] at fresh
          split
          · exact grantClaim_claimStep ‹_› h f.tag
          · exact queueClaim_claimStep named short fresh ‹_›
  case cancelWait =>
    refine request_claimStep s _ fun h f t => ?_
    split
    · exact .scanned List.filter_sublist
    · exact .of_same (.refl t)
  case release raw =>
    refine request_claimStep s _ fun h f t => withHolding_claimStep t h _ fun k _ _ => ?_
    exact .scanned (by rw [State.releaseHolding_waitQueue])
  case trim raw =>
    refine request_claimStep s _ fun h f t => withHolding_claimStep t h _ fun k lines _ => ?_
    dsimp only
    split
    · exact .of_same (.refl t)
    · split
      · exact .scanned (by rw [State.releaseHolding_waitQueue])
      · exact .scanned (by rw [State.trimHolding_waitQueue])
  case renew =>
    refine request_claimStep s _ fun h f t => withHolding_claimStep t h _ fun k _ lease => ?_
    dsimp only
    split
    · exact .of_same (.refl t)
    · exact .stay (.writeLease t k _)
  case setMode | setFilter | drive => exact request_claimStep s _ fun h f t => changeLines_claimStep t h _ _
  case setSafe raw =>
    refine request_claimStep s _ fun h f t => ?_
    split
    · exact .of_same (.refl t)
    · split
      · exact .of_same (.refl t)
      · split <;> exact .stay (.of_tables rfl rfl)
  case startPattern =>
    exact request_claimStep s _ fun h f t => withHolding_claimStep t h _ fun _ lines _ => startOn_claimStep t f lines
  case stopPattern =>
    exact request_claimStep s _ fun h f t => withHolding_claimStep t h _ fun _ _ _ => stopSlot_claimStep t f
  case revoke raw =>
    refine request_claimStep s _ fun h f t => ?_
    split
    · exact .of_same (.refl t)
    · split
      · exact .of_same (.refl t)
      · exact .scanned (by rw [State.endHolding_waitQueue])
      · exact .scanned (List.Sublist.refl _)
  case fullReset =>
    rcases onRequest_cases s .fullReset fun _ _ t => { t.deviceReset with since := { t.since with command := true } }
      with e | ⟨h, f, r, -, e⟩ | ⟨h, f, -, e⟩ <;> rw [e]
    · exact .of_same (.refl s)
    · exact .of_same (sameTables_served s h f r [])
    · exact .clear rfl
  case intervalBoundary => exact running_claimStep (.stay (.boundary s))
  case leaseExpiry k raw =>
    refine running_claimStep ?_
    split
    · exact .scanned (by rw [State.endHolding_waitQueue])
    · exact .of_same (.refl s)
  case waitExpiry h tag =>
    refine running_claimStep ?_
    split
    · refine .scanned ?_
      rw [State.sendEvent_waitQueue]
      exact List.filter_sublist
    · exact .of_same (.refl s)
  case patternStepEnd i =>
    refine running_claimStep ?_
    split
    · exact .stay (.of_tables (State.stepEnd_slots s i) (State.stepEnd_waitQueue s i))
    · exact .of_same (.refl s)
  case lineSample n raw =>
    exact running_claimStep (.stay (.of_tables (State.sampleLine_slots s n raw) (State.sampleLine_waitQueue s n raw)))
  case portResetNotice p raw =>
    refine running_claimStep ?_
    split
    · exact .congr (.refl s) (resetContext_claimStep s _ raw) (sameTables_mapBus _ p _)
    · exact .of_same (.refl s)
  case resetnLow | supplyLoss => exact .clear rfl
  case resetRelease adr sup =>
    split
    · exact .clear rfl
    · exact .of_same (.refl s)

/-- What every command leaves of the Holding Table and the Wait Queue. -/
theorem exec_claimStep {c : Instr} {s t : State} (e : exec c s = .next t) : ClaimStep s t := by
  by_cases hr : sparingRequest c = true
  · exact .of_same (exec_sparingRequest hr e)
  · by_cases hb : busEvent c = true
    · exact .of_same (exec_busEvent hb e)
    · exact exec_writingCommand_claimStep (Bool.eq_false_iff.2 hr) (Bool.eq_false_iff.2 hb) e

/-- What every step leaves of the Holding Table and the Wait Queue. -/
theorem step_claimStep {s t : State} (e : step s = .next t) : ClaimStep s t := by
  unfold step at e
  split at e
  · cases e
    rcases idle_cases s with h | ⟨i, h⟩ | ⟨p, h⟩ | ⟨p, h⟩ | ⟨-, -, h⟩
    · rw [h]
      exact .of_same (.refl s)
    · exact exec_claimStep h
    · exact exec_claimStep h
    · exact exec_claimStep h
    · rw [h]
      exact .stay (.of_tables rfl rfl)
  · rename_i c rest _
    have popped : s.SameTables { s with pending := rest } := ⟨rfl, rfl, rfl, rfl⟩
    exact .congr popped (exec_claimStep e) (.refl t)

/-- Settles O54: entries only leave or count down, but for one that joins under the checks of R47. -/
theorem stepKeepsWaitQueueLaw : Obligations.StepKeepsWaitQueueLaw :=
  fun _ _ law e => (step_claimStep e).waitQueueLaw law

/-- Settles O56: what frees a slot or lets an entry leave ends with a grant scan, and what is queued could not be granted. -/
theorem stepKeepsScanLaw : Obligations.StepKeepsScanLaw :=
  fun _ _ law e => (step_claimStep e).scanLaw law

end Sys2Proof.Machine
end

section
/-! ## The pattern engine (R65 to R76) -/

namespace Sys2Proof.Machine

/-! ### A step begins (R66, R69, R71) -/

/-- The begin of a step writes the lanes' levels and the pattern's slot, and nothing else. -/
theorem beginStep_tables (s : State) (i : Fin 4) {p : Pattern} {k : Nat} {st : PatternStep} (hst : p.steps[k]? = some st) :
    ∃ (L : Vector LineRecord 32) (P : Vector (Option Pattern) 4),
      s.beginStep i p k = { s with lines := L, patterns := P } ∧
      LanesWritten s.lines L p.bank p.lanes st.level ∧
      P[i] = some { p with current := k, timeLeft := st.duration } ∧
      ∀ j : Fin 4, j ≠ i → P[j] = s.patterns[j] := by
  refine ⟨_, _, beginStep_eq s i p k, ?_⟩
  rw [step_of_getElem? hst]
  exact ⟨writeLanes_written s p.bank p.lanes st.level, patternWritten_set s.patterns i _⟩

/-! ### START_PATTERN (R67 to R69) -/

/-- Bit j of a lane mask on bank k is line 8k + j (R120). -/
theorem isLane_eq (bank : Fin 4) (lanes : Byte) (n : Fin 32) :
    isLane bank lanes n = (decide (n.val / 8 = bank.val) && lanes.getLsbD (n.val % 8)) := by
  simp only [isLane, lineBank, Fin.ext_iff]

/-- A duration is sent least significant byte first (R120). -/
theorem duration_toNat (low high : Byte) : (high ++ low : Half).toNat = low.toNat + 256 * high.toNat := by
  rw [BitVec.toNat_append, ← Nat.shiftLeft_add_eq_or_of_lt low.isLt, Nat.shiftLeft_eq]
  omega

/-- What holds of the payload of a START_PATTERN that is read (R68 check 1). -/
theorem wellFormed_of_patternRequestOf {f : Frame} {r : PatternRequest} (hr : patternRequestOf f = some r) :
    (f.byteAt 1).toNat < 4 ∧ f.payload.length = 5 + 3 * (f.byteAt 4).toNat ∧ f.byteAt 2 ≠ 0 ∧
      1 ≤ (f.byteAt 4).toNat ∧ (f.byteAt 4).toNat ≤ 8 ∧ ∀ x ∈ stepsOf (f.payload.drop 5), 1 ≤ x.duration := by
  unfold patternRequestOf at hr
  split at hr
  · rename_i bank
    dsimp only at hr
    split at hr
    · rename_i form
      obtain ⟨length, lanes, least, most, durations⟩ := form
      exact ⟨bank, length, lanes, least, most, fun x hx => of_decide_eq_true (List.all_eq_true.1 durations x hx)⟩
    · cases hr
  · cases hr

/-- Step `i` of a START_PATTERN has the half at position 6 + 3i of the payload as its duration (R67). -/
theorem stepsOf_payload {f : Frame} (length : f.payload.length = 5 + 3 * (f.byteAt 4).toNat) {i : Nat}
    (hi : i < (f.byteAt 4).toNat) :
    (stepsOf (f.payload.drop 5))[i]? =
      some { level := f.byteAt (5 + 3 * i), duration := (f.halfAt (6 + 3 * i)).toNat } := by
  have dropped (j : Nat) : (f.payload.drop 5).getD j 0 = f.byteAt (5 + j) := by
    simp only [Frame.byteAt, List.getD_eq_getElem?_getD, List.getElem?_drop]
  have high : 5 + (3 * i + 2) = 6 + 3 * i + 1 := by omega
  have low : 5 + (3 * i + 1) = 6 + 3 * i := by omega
  rw [stepsOf_getElem? (f.byteAt 4).toNat _ (by rw [List.length_drop]; omega) i hi, dropped, dropped, dropped, high, low]
  rfl

/-- A payload of the right form with at least one step, read. -/
theorem patternRequestOf_cons {f : Frame} {bank : Fin 4} {first : PatternStep} {others : List PatternStep}
    (hb : f.byteAt 1 = countByte bank) (named : f.byteAt 2 ≠ 0) (most : (f.byteAt 4).toNat ≤ 8)
    (length : f.payload.length = 5 + 3 * (f.byteAt 4).toNat) (steps : stepsOf (f.payload.drop 5) = first :: others)
    (durations : ∀ x ∈ first :: others, 1 ≤ x.duration) :
    patternRequestOf f = some { bank := bank, lanes := f.byteAt 2, repeats := (f.byteAt 3).toNat
                                steps := first :: others } := by
  have count := stepsOf_length (f.byteAt 4).toNat (f.payload.drop 5) (by rw [List.length_drop]; omega)
  have least : 1 ≤ (f.byteAt 4).toNat := by
    rw [steps, List.length_cons] at count
    omega
  rw [patternRequestOf_eq_some hb named least most length (steps ▸ durations), steps]

theorem undriven_take (s : State) (h : HostId) : (s.take h).undriven = s.undriven := by
  simp only [State.undriven, State.take_lines]

theorem lowestIdle_take (s : State) (h : HostId) : (s.take h).lowestIdle = s.lowestIdle := by
  simp only [State.lowestIdle, State.take_patterns]

theorem and_undriven_ne_zero_iff (s : State) (m : LineMask) : m &&& s.undriven ≠ 0 ↔
    ∃ n : Fin 32, m.getLsbD n = true ∧ s.lines[n].mode ≠ .pushPull ∧ s.lines[n].mode ≠ .openDrain := by
  simp only [Ne, and_undriven_eq_zero_iff, not_forall, not_or, exists_prop]

theorem and_laneMask_ne_zero_iff (s : State) (m : LineMask) :
    m &&& s.laneMask ≠ 0 ↔ ∃ (i : Fin 4) (p : Pattern), s.patterns[i] = some p ∧ m &&& p.lines ≠ 0 := by
  simp only [Ne, and_laneMask_eq_zero_iff, not_forall, exists_prop]

theorem startOn_illFormed {f : Frame} (hr : patternRequestOf f = none) (s : State) (lines : LineMask) :
    s.startOn f lines = s.refuse .badArgument := by
  simp only [State.startOn, hr]

section
variable {s : State} {f : Frame} {r : PatternRequest} {lines : LineMask}

theorem startOn_notOwned (hr : patternRequestOf f = some r) (other : laneLines r.bank r.lanes &&& ~~~lines ≠ 0) :
    s.startOn f lines = s.refuse .badArgument := by
  simp only [State.startOn, hr, if_pos other]

variable (hr : patternRequestOf f = some r) (own : laneLines r.bank r.lanes &&& ~~~lines = 0)
include hr own

theorem startOn_undriven (undriven : laneLines r.bank r.lanes &&& s.undriven ≠ 0) :
    s.startOn f lines = s.refuse .modeConflict := by
  simp only [State.startOn, hr, if_neg (not_not.2 own), if_pos undriven]

variable (driven : laneLines r.bank r.lanes &&& s.undriven = 0)
include driven

theorem startOn_busy (busy : laneLines r.bank r.lanes &&& s.laneMask ≠ 0) :
    s.startOn f lines = s.refuse .lineBusy := by
  simp only [State.startOn, hr, if_neg (not_not.2 own), if_neg (not_not.2 driven), if_pos busy]

variable (apart : laneLines r.bank r.lanes &&& s.laneMask = 0)
include apart

theorem startOn_full (full : s.lowestIdle = none) : s.startOn f lines = s.refuse .noPatternSlot := by
  simp only [State.startOn, hr, if_neg (not_not.2 own), if_neg (not_not.2 driven), if_neg (not_not.2 apart), full]

/-- All checks pass: the pattern begins step 0 in the lowest IDLE slot (R69). -/
theorem startOn_starts {i : Fin 4} (idle : s.lowestIdle = some i) {first : PatternStep} (hf : r.steps[0]? = some first) :
    ∃ (L : Vector LineRecord 32) (P : Vector (Option Pattern) 4),
      s.startOn f lines = ({ s with lines := L, patterns := P } : State).answer [countByte i] ∧
      LanesWritten s.lines L r.bank r.lanes first.level ∧
      P[i] = some { patternOf f r with timeLeft := first.duration } ∧
      ∀ j : Fin 4, j ≠ i → P[j] = s.patterns[j] := by
  obtain ⟨L, P, e, tables⟩ := beginStep_tables s i (p := patternOf f r) hf
  refine ⟨L, P, ?_, tables⟩
  rw [← e]
  simp only [State.startOn, hr, if_neg (not_not.2 own), if_neg (not_not.2 driven), if_neg (not_not.2 apart), idle]

end

/-- A START_PATTERN on a HELD slot of the requester is checked and started with the lines of the holding. -/
theorem exec_startPattern {s : State} {h : HostId} {f : Frame} {k : Fin 16} {gen : BitVec 4} {lines : LineMask} {tag : Byte}
    {lease : Option Lease} (v : s.Valid .startPattern h f) (handle : f.byteAt 0 = handleOf k gen)
    (hk : s.slots[k] = { gen := gen, body := .held h lines tag lease }) :
    exec .startPattern s = .next (((s.take h).startOn f lines).place h f) := by
  have e : exec .startPattern s = .next _ := congrArg Host.Outcome.next (request_valid v _)
  rw [e, handle, withHolding_own hk]

/-- Settles O28: the checks of R68 one after the other, on the state that the take leaves. -/
theorem startPatternStartsLowestIdleSlot : Obligations.StartPatternStartsLowestIdleSlot := by
  refine ⟨fun bank lanes n => (getLsbD_laneLines bank lanes n).trans (isLane_eq bank lanes n), fun _ => rfl,
    ⟨rfl, fun level low high rest => ?_⟩,
    fun s h f k gen lines tag lease bank first others v handle hk hb named most length steps durations => ?_⟩
  · rw [stepsOf, duration_toNat]
  · have hr := patternRequestOf_cons hb named most length steps durations
    rw [exec_startPattern v handle hk]
    intro lanes undriven busy
    have undriven_iff : lanes &&& (s.take h).undriven ≠ 0 ↔ undriven :=
      undriven_take s h ▸ and_undriven_ne_zero_iff s lanes
    have busy_iff : lanes &&& (s.take h).laneMask ≠ 0 ↔ busy := laneMask_take s h ▸ and_laneMask_ne_zero_iff s lanes
    have driven (ok : ¬ undriven) : lanes &&& (s.take h).undriven = 0 := not_ne_iff.1 (mt undriven_iff.1 ok)
    have apart (ok : ¬ busy) : lanes &&& (s.take h).laneMask = 0 := not_ne_iff.1 (mt busy_iff.1 ok)
    refine ⟨fun other => ?_, fun own fault => ?_, fun own ok fault => ?_, fun own ok free full => ?_,
      fun own ok free i idle low => ?_⟩
    · rw [startOn_notOwned hr other]
      rfl
    · rw [startOn_undriven hr own (undriven_iff.2 fault)]
      rfl
    · rw [startOn_busy hr own (driven ok) (busy_iff.2 fault)]
      rfl
    · rw [startOn_full hr own (driven ok) (apart free) ((lowestIdle_take s h).trans ((lowestIdle_eq_none s).2 full))]
      rfl
    · have lowest : (s.take h).lowestIdle = some i :=
        (lowestIdle_take s h).trans ((lowestIdle_eq_some s i).2 ⟨idle, low⟩)
      obtain ⟨L, P, e, written, started, others⟩ := startOn_starts hr own (driven ok) (apart free) lowest rfl
      rw [State.take_lines] at written
      rw [State.take_patterns] at others
      rw [e, place_answer]
      refine ⟨L, P, rfl, written, started.trans ?_, others⟩
      have endless : (f.byteAt 3).toNat = 0 ↔ f.byteAt 3 = 0 := BitVec.toNat_inj (y := 0)
      simp only [patternOf, endless]

/-- Settles O29: a payload that is read has none of the faults. -/
theorem startPatternIllFormedRefused : Obligations.StartPatternIllFormedRefused := by
  intro s h f k gen lines tag lease v handle hk bad
  have unread : patternRequestOf f = none := by
    refine Option.eq_none_iff_forall_ne_some.2 fun r hr => ?_
    obtain ⟨bank, length, lanes, least, most, durations⟩ := wellFormed_of_patternRequestOf hr
    rcases bad with wrong | above | empty | stepless | more | ⟨i, hi, zero⟩
    · exact wrong length
    · exact absurd bank (not_lt.2 above)
    · exact lanes empty
    · rw [stepless] at least
      exact absurd least (by decide)
    · exact absurd most (not_le.2 more)
    · have duration := durations _ (List.mem_of_getElem? (stepsOf_payload length hi))
      rw [zero] at duration
      exact Nat.not_lt_zero 0 duration
  rw [exec_startPattern v handle hk, startOn_illFormed unread]
  rfl

/-! ### STOP_PATTERN and QUERY_PATTERN (R74, R76) -/

/-- The number of a pattern slot as sent names that slot. -/
theorem toNat_of_patternSlot {b : Byte} {i : Fin 4} (hi : b = countByte i) : b.toNat = i := by
  rw [hi, countByte_toNat_of_lt (by omega)]

theorem stopSlot_outside {f : Frame} (outside : 4 ≤ (f.byteAt 0).toNat) (s : State) :
    s.stopSlot f = s.refuse .badArgument := by
  simp only [State.stopSlot, dif_neg (not_lt.2 outside)]

theorem stopSlot_match {s : State} {f : Frame} {i : Fin 4} (hi : f.byteAt 0 = countByte i) {p : Pattern}
    (run : s.patterns[i] = some p) (same : p.handle = f.byteAt 1) :
    s.stopSlot f = ({ s with patterns := s.patterns.set i none } : State).done := by
  have run' : s.patterns[i.val] = some p := run
  simp only [State.stopSlot, toNat_of_patternSlot hi, i.isLt, dite_true, run', if_pos same]

theorem stopSlot_other {s : State} {f : Frame} {i : Fin 4} (hi : f.byteAt 0 = countByte i)
    (other : ∀ p, s.patterns[i] = some p → p.handle ≠ f.byteAt 1) : s.stopSlot f = s.refuse .notFound := by
  rcases hp : s.patterns[i] with _ | p
  · have idle : s.patterns[i.val] = none := hp
    simp only [State.stopSlot, toNat_of_patternSlot hi, i.isLt, dite_true, idle]
  · have run : s.patterns[i.val] = some p := hp
    simp only [State.stopSlot, toNat_of_patternSlot hi, i.isLt, dite_true, run, if_neg (other p hp)]

/-- A STOP_PATTERN with a handle of a HELD slot of the requester goes on to the pattern slot. -/
theorem exec_stopPattern {s : State} {h : HostId} {f : Frame} {k : Fin 16} {gen : BitVec 4} {lines : LineMask} {tag : Byte}
    {lease : Option Lease} (v : s.Valid .stopPattern h f) (handle : f.byteAt 1 = handleOf k gen)
    (hk : s.slots[k] = { gen := gen, body := .held h lines tag lease }) :
    exec .stopPattern s = .next (((s.take h).stopSlot f).place h f) := by
  have e : exec .stopPattern s = .next _ := congrArg Host.Outcome.next (request_valid v _)
  rw [e, handle, withHolding_own hk]

/-- Settles O30: no such slot, the matching slot, or one that is IDLE or under another handle. -/
theorem stopPatternIdlesMatchingSlot : Obligations.StopPatternIdlesMatchingSlot := by
  intro s h f k gen lines tag lease v handle hk
  have patterns : (s.take h).patterns = s.patterns := State.take_patterns s h
  rw [exec_stopPattern v handle hk]
  refine ⟨fun outside => ?_, fun i hi => ⟨fun p run same => ?_, fun other => ?_⟩⟩
  · rw [stopSlot_outside outside]
    rfl
  · rw [stopSlot_match hi (patterns ▸ run) same, place_done, patterns]
    exact ⟨_, rfl, patternWritten_set s.patterns i none⟩
  · rw [stopSlot_other hi (patterns ▸ other)]
    rfl

theorem patternPayload_idle {s : State} {i : Fin 4} (idle : s.patterns[i] = none) :
    s.patternPayload i = [countByte i, 0x00, 0x00, 0x00, 0x00] := by
  simp only [State.patternPayload, idle]

theorem patternPayload_running {s : State} {i : Fin 4} {p : Pattern} (run : s.patterns[i] = some p) :
    s.patternPayload i = [countByte i, 0x01, p.handle, countByte p.current, countByte (p.passes.getD 0)] := by
  simp only [State.patternPayload, run]

theorem exec_queryPattern {s : State} {h : HostId} {f : Frame} (v : s.Valid .queryPattern h f) {i : Fin 4}
    (hi : f.byteAt 0 = countByte i) :
    exec .queryPattern s = .next (s.served h f .ok ((s.take h).patternPayload i)) := by
  have e : exec .queryPattern s = .next _ := congrArg Host.Outcome.next (request_valid v _)
  have value := toNat_of_patternSlot hi
  have inside : (f.byteAt 0).toNat < 4 := value ▸ i.isLt
  have slot : (⟨(f.byteAt 0).toNat, inside⟩ : Fin 4) = i := Fin.ext value
  rw [e, dif_pos inside, slot]
  rfl

/-- Settles O31: no such slot, an IDLE slot, or a RUNNING one. -/
theorem queryPatternReportsSlot : Obligations.QueryPatternReportsSlot := by
  intro s h f v
  have patterns : (s.take h).patterns = s.patterns := State.take_patterns s h
  refine ⟨fun outside => ?_, fun i hi => ⟨fun idle => ?_, fun p run => ?_⟩⟩
  · have e : exec .queryPattern s = .next _ := congrArg Host.Outcome.next (request_valid v _)
    rw [e, dif_neg (not_lt.2 outside)]
    rfl
  · rw [exec_queryPattern v hi, patternPayload_idle (patterns ▸ idle)]
  · rw [exec_queryPattern v hi, patternPayload_running (patterns ▸ run)]
    cases p.passes <;> rfl

/-! ### Step ends (R70 to R72) -/

theorem completePattern_held {s : State} (i : Fin 4) {p : Pattern} {owner : HostId} {lines : LineMask} {tag : Byte}
    {lease : Option Lease} (hb : s.slots[handleSlot p.handle].body = .held owner lines tag lease) :
    s.completePattern i p =
      ({ s with patterns := s.patterns.set i none } : State).sendEvent owner (.patternDone i p.handle p.tag) := by
  simp only [State.completePattern, State.ownerOf, hb]

theorem exec_patternStepEnd_due {s : State} {i : Fin 4} {p : Pattern} (run : s.inReset = false) (hp : s.patterns[i] = some p)
    (due : p.timeLeft = 0) : exec (.patternStepEnd i) s = .next (s.stepEnd i) := by
  have e : exec (.patternStepEnd i) s = .next _ := congrArg Host.Outcome.next (running_of_not_inReset run _)
  rw [e, if_pos (stepDue_iff.2 ⟨p, hp, due⟩)]

/-- A step end that is not due changes nothing (log 2). -/
theorem exec_patternStepEnd_not_due {s : State} {i : Fin 4} (run : s.inReset = false) (wait : s.stepDue i = false) :
    exec (.patternStepEnd i) s = .next s := by
  have e : exec (.patternStepEnd i) s = .next _ := congrArg Host.Outcome.next (running_of_not_inReset run _)
  rw [e, wait]
  rfl

/-- Settles O32: nothing is due, or the step ends in the next step, the next pass or the end of the pattern. -/
theorem stepEndAdvancesPattern : Obligations.StepEndAdvancesPattern := by
  intro s i run
  refine ⟨fun idle => exec_patternStepEnd_not_due run (stepDue_none idle), fun p hp left => ?_, fun p hp due => ?_⟩
  · exact exec_patternStepEnd_not_due run ((stepDue_some hp).trans (decide_eq_false left))
  · rw [exec_patternStepEnd_due run hp due]
    refine ⟨fun st next => ?_, fun st last first not_one not_zero => ?_,
      fun last final owner lines tag lease hb => ?_⟩
    · obtain ⟨more, -⟩ := List.getElem?_eq_some_iff.1 next
      obtain ⟨L, P, e, tables⟩ := beginStep_tables s i next
      rw [stepEnd_next hp more, e]
      exact ⟨L, P, rfl, tables⟩
    · rcases passes : p.passes with _ | n
      · obtain ⟨L, P, e, written, begun, others⟩ := beginStep_tables s i first
        rw [stepEnd_endless hp (by omega) passes, e]
        rw [passes] at begun
        exact ⟨L, P, rfl, written, begun, others⟩
      · have again : ¬ n ≤ 1 := by
          intro low
          interval_cases n
          · exact not_zero passes
          · exact not_one passes
        obtain ⟨L, P, e, tables⟩ := beginStep_tables s i (p := { p with passes := some (n - 1) }) first
        rw [stepEnd_repeat hp (by omega) passes again, e]
        exact ⟨L, P, rfl, tables⟩
    · rw [stepEnd_complete hp (by omega) final le_rfl, completePattern_held i hb]
      exact ⟨_, rfl, patternWritten_set s.patterns i none⟩

end Sys2Proof.Machine
end

section
/-! ## The ports and their buses: queues, transfers and stuck times

What a step can do to the ports, the two-wire buses and Port C's exchange, as a list of operations. The law of the queues and the law of the
frames in transit are each carried over one operation at a time. -/

namespace Sys2Proof.Machine

open Relation (ReflTransGen)

/-! ### The operations -/

/-- Two states with the same ports and the same buses. -/
structure State.SamePorts (s t : State) : Prop where
  ports    : t.ports = s.ports
  twoWire  : t.twoWire = s.twoWire
  fourWire : t.fourWire = s.fourWire

/-- What of a selection is in transit was in transit before, with the same source and the same bytes. -/
def OutSelection.Onward (out out' : OutSelection) : Prop :=
  out'.inTransit = true → out.inTransit = true ∧ out'.source = out.source ∧ out'.bytes = out.bytes

/-- The states that a two-wire port can go to from a state, given its queues. -/
inductive StateMove (q : Port) (st st' : TwoWireState) : Prop
  | stay (after : st' = st)
  | quiet (after : st' = .idle ∨ st' = .address ∨ st' = .resetting)
  | receive {rx : RxRecord} (after : st' = .receiving rx) (room : rx.mark = .unmarked → q.requests.length < 4)
  | receiveOn {rx rx' : RxRecord} (before : st = .receiving rx) (unmarked : rx.mark = .unmarked) (after : st' = .receiving rx')
  | hold {rx : RxRecord} {time : Nat} (after : st' = .holding rx time)
  | read {refused : Bool} (after : st' = .sending q.select refused)
  | send {out out' : OutSelection} {refused refused' : Bool} (before : st = .sending out refused)
      (after : st' = .sending out' refused') (onward : out.Onward out')

/-- A move of a two-wire bus: its stuck time stays in bounds, and is 0 in a hold that begins or goes on. -/
structure BusMove (q : Port) (b b' : TwoWireBus) : Prop where
  state : StateMove q b.state b'.state
  stuck : b'.stuckTime ≤ b.stuckTime ∨ b'.stuckTime ≤ 35000
  held  : ∀ (rx : RxRecord) (time : Nat), b'.state = .holding rx time →
    b'.stuckTime = 0 ∨ b'.state = b.state ∧ b'.stuckTime = b.stuckTime

/-- The exchange on Port C goes on, or begins with the frame selected. -/
def FourWireMove (q : Port) (b b' : FourWireBus) : Prop :=
  ∀ (rx' : RxRecord) (bits' : Fin 8) (out' : OutSelection), b'.state = .exchange rx' bits' out' →
    out' = q.select ∨ ∃ (rx : RxRecord) (bits : Fin 8) (out : OutSelection), b.state = .exchange rx bits out ∧ out.Onward out'

/-- No frame of a host's queues is in transit. -/
def State.NothingInTransit (s : State) (h : HostId) : Prop :=
  ∀ out : OutSelection, s.selection h = some out → out.inTransit = false

/-- One operation on the ports and the buses that lets no reply enter. -/
inductive PortStep (s : State) : State → Prop
  | same {t : State} (h : s.SamePorts t) : PortStep s t
  | reset : PortStep s State.reset
  | deliver (l : List (HostId × Event)) : PortStep s (s.sendEvents l)
  | note (h : HostId) (f : Port → Port) (requests : (f (s.port h)).requests = (s.port h).requests)
      (replies : (f (s.port h)).replies = (s.port h).replies) (events : (f (s.port h)).events = (s.port h).events) :
      PortStep s (s.mapPort h f)
  | take (h : HostId) (waiting : (s.port h).requests ≠ []) : PortStep s (s.take h)
  | bus (p : TwoWire) (g : TwoWireBus → TwoWireBus) (move : BusMove (s.port p.host) (s.bus p) (g (s.bus p))) :
      PortStep s (s.mapBus p g)
  | receive (p : TwoWire) (x : Frame) (g : TwoWireBus → TwoWireBus) {rx rx' : RxRecord}
      (before : (s.bus p).state = .receiving rx) (unmarked : rx.mark = .unmarked)
      (after : (g (s.bus p)).state = .receiving rx') (marked : rx'.mark ≠ .unmarked)
      (stuck : (g (s.bus p)).stuckTime ≤ (s.bus p).stuckTime) :
      PortStep s ((s.mapPort p.host fun q => q.appendRequest x).mapBus p g)
  | exchange (w : FourWireBus) (move : FourWireMove (s.port .c) s.fourWire w) : PortStep s { s with fourWire := w }
  | enqueue (x : Frame) (f : Port → Port) (appended : f (s.port .c) = (s.port .c).appendRequest x)
      (room : (s.port .c).requests.length < 4) : PortStep s (s.mapPort .c f)
  | removeHead (h : HostId) (source : OutSource) (done : s.NothingInTransit h) :
      PortStep s (s.mapPort h fun q => q.removeHead source)
  | empty (h : HostId) (done : s.NothingInTransit h) : PortStep s (s.mapPort h Port.portReset)

/-- The ports and buses of one state come from those of another by operations that let no reply enter. -/
abbrev PortSteps : State → State → Prop := ReflTransGen PortStep

/-- What a whole command does to the ports and buses: operations, and at most one reply at the end, for which there is a place. -/
inductive PortEffect (s : State) : State → Prop
  | steps {t : State} (steps : PortSteps s t) : PortEffect s t
  | replied {t : State} (h : HostId) (r : Reply) (steps : PortSteps s t) (room : (t.port h).replies.length < 4) :
      PortEffect s (t.placeReply h r)

variable {s t : State}

theorem State.SamePorts.port (same : s.SamePorts t) (h : HostId) : t.port h = s.port h := by
  rw [State.port, same.ports]
  rfl

theorem State.SamePorts.bus (same : s.SamePorts t) (p : TwoWire) : t.bus p = s.bus p := by
  rw [State.bus, same.twoWire]
  rfl

theorem State.SamePorts.selection (same : s.SamePorts t) (h : HostId) : t.selection h = s.selection h :=
  selection_congr same.twoWire same.fourWire h

theorem State.SamePorts.steps (same : s.SamePorts t) : PortSteps s t := .single (.same same)

theorem PortStep.steps (step : PortStep s t) : PortSteps s t := .single step

/-! ### Outbound selections -/

/-- The outbound selection that a two-wire port has in a state. -/
def TwoWireState.selection : TwoWireState → Option OutSelection
  | .sending out _ => some out
  | _ => none

theorem selection_twoWire (s : State) (p : TwoWire) : s.selection p.host = (s.bus p).state.selection := by
  simp only [State.selection, hostTwoWire_host]
  rfl

theorem selection_four (s : State) (out : OutSelection) : s.selection .c = some out ↔
    ∃ (rx : RxRecord) (bits : Fin 8), s.fourWire.state = .exchange rx bits out := by
  rcases hs : s.fourWire.state with _ | ⟨rx, bits, x⟩ <;> simp [State.selection, hostTwoWire, hs]

theorem eq_sending_of_selection {st : TwoWireState} {out : OutSelection} (h : st.selection = some out) :
    ∃ refused, st = .sending out refused := by
  cases st <;> cases h
  exact ⟨_, rfl⟩

/-- A host is behind a two-wire port, or has Port C. -/
theorem host_cases (h : HostId) : (∃ p : TwoWire, h = p.host) ∨ h = .c := by
  cases h
  · exact .inl ⟨.a, rfl⟩
  · exact .inl ⟨.b, rfl⟩
  · exact .inr rfl

theorem host_ne_c (p : TwoWire) : p.host ≠ .c := by cases p <;> decide

theorem host_inj {p q : TwoWire} (h : q.host = p.host) : q = p := by
  cases p <;> cases q
  case a.a | b.b => rfl
  all_goals cases h

theorem selection_mapBus_ne (s : State) {h : HostId} {p : TwoWire} (ne : h ≠ p.host) (g : TwoWireBus → TwoWireBus) :
    (s.mapBus p g).selection h = s.selection h := by
  rcases host_cases h with ⟨q, rfl⟩ | rfl
  · rw [selection_twoWire, selection_twoWire, bus_mapBus_ne _ _ fun e => ne (congrArg TwoWire.host e)]
  · rfl

theorem selection_mapBus_same (s : State) (p : TwoWire) (g : TwoWireBus → TwoWireBus) :
    (s.mapBus p g).selection p.host = (g (s.bus p)).state.selection := by
  rw [selection_twoWire, bus_mapBus_same]

theorem selection_withFourWire (s : State) {h : HostId} (ne : h ≠ .c) (w : FourWireBus) :
    ({ s with fourWire := w } : State).selection h = s.selection h := by
  cases h
  case c => exact absurd rfl ne
  all_goals rfl

/-! ### Replies -/

@[simp] theorem removeHead_requests (q : Port) (source : OutSource) : (q.removeHead source).requests = q.requests := by
  cases source <;> rfl

theorem removeHead_replies_le (q : Port) (source : OutSource) :
    (q.removeHead source).replies.length ≤ q.replies.length := by
  cases source <;> simp [Port.removeHead]

theorem removeHead_events_le (q : Port) (source : OutSource) : (q.removeHead source).events.length ≤ q.events.length := by
  cases source <;> simp [Port.removeHead]

/-- A port whose record is changed keeps at most its replies if the changed record does. -/
theorem replies_mapPort_le (s : State) (h g : HostId) (f : Port → Port)
    (le : (f (s.port h)).replies.length ≤ (s.port h).replies.length) :
    ((s.mapPort h f).port g).replies.length ≤ (s.port g).replies.length := by
  rw [port_mapPort]
  split
  · subst g
    exact le
  · exact le_rfl

theorem PortStep.replies_le (step : PortStep s t) (h : HostId) :
    (t.port h).replies.length ≤ (s.port h).replies.length := by
  cases step with
  | same same => rw [same.port]
  | reset =>
    rw [reset_port]
    exact Nat.zero_le _
  | deliver l =>
    obtain ⟨es, lost, port⟩ := port_sendEvents s h l
    rw [port]
  | note g f requests replies => exact replies_mapPort_le s g h f (by rw [replies])
  | take g =>
    rw [port_take]
    split <;> exact le_rfl
  | bus => exact le_rfl
  | receive p x g => exact replies_mapPort_le s _ h (fun q => q.appendRequest x) le_rfl
  | exchange => exact le_rfl
  | enqueue x f appended => exact replies_mapPort_le s _ h f (by rw [appended]; exact le_rfl)
  | removeHead g source => exact replies_mapPort_le s g h _ (removeHead_replies_le _ source)
  | empty g => exact replies_mapPort_le s g h _ (Nat.zero_le _)

theorem PortSteps.replies_le (steps : PortSteps s t) (h : HostId) :
    (t.port h).replies.length ≤ (s.port h).replies.length := by
  induction steps with
  | refl => exact le_rfl
  | tail _ last ih => exact (last.replies_le h).trans ih

/-- A law that every operation keeps, and that a reply with a place keeps, is kept by a whole command. -/
theorem PortEffect.keeps {P : State → Prop} (step : ∀ {s t : State}, PortStep s t → P s → P t)
    (reply : ∀ {s : State} (h : HostId) (r : Reply), (s.port h).replies.length < 4 → P s → P (s.placeReply h r))
    (effect : PortEffect s t) (law : P s) : P t := by
  have all {t : State} (steps : PortSteps s t) : P t := by
    induction steps with
    | refl => exact law
    | tail _ last ih => exact step last ih
  cases effect with
  | steps steps => exact all steps
  | replied h r steps room => exact reply h r room (all steps)

end Sys2Proof.Machine
end

section
/-! ## Every operation keeps the law of the queues (R91, R131, R133, R140) -/

namespace Sys2Proof.Machine

variable {s t : State}

/-- The places of a port's queues (R91). -/
structure Port.InLimits (q : Port) : Prop where
  requests : q.requests.length ≤ 4
  replies  : q.replies.length ≤ 4
  events   : q.events.length ≤ 16

/-- A bus as the law wants it beside the queues of its port: room for a write in progress, and a stuck time in bounds. -/
structure TwoWireBus.Fits (b : TwoWireBus) (q : Port) : Prop where
  room  : ∀ rx : RxRecord, b.state = .receiving rx → rx.mark = .unmarked → q.requests.length < 4
  stuck : b.stuckTime ≤ 35000
  held  : ∀ (rx : RxRecord) (time : Nat), b.state = .holding rx time → b.stuckTime = 0

theorem queueLaw_iff (s : State) :
    s.QueueLaw ↔ (∀ h, (s.port h).InLimits) ∧ ∀ p, (s.bus p).Fits (s.port p.host) := by
  constructor
  · rintro ⟨limits, room, stuck⟩
    exact ⟨fun h => ⟨(limits h).1, (limits h).2.1, (limits h).2.2⟩, fun p => ⟨room p, (stuck p).1, (stuck p).2⟩⟩
  · rintro ⟨limits, fits⟩
    exact ⟨fun h => ⟨(limits h).requests, (limits h).replies, (limits h).events⟩, fun p => (fits p).room,
      fun p => ⟨(fits p).stuck, (fits p).held⟩⟩

/-- A bus fits beside a port with no more requests. -/
theorem TwoWireBus.Fits.mono {b : TwoWireBus} {q q' : Port} (fits : b.Fits q)
    (le : q'.requests.length ≤ q.requests.length) : b.Fits q' :=
  ⟨fun rx receiving unmarked => le.trans_lt (fits.room rx receiving unmarked), fits.stuck, fits.held⟩

/-- The law holds when the ports stay within their limits, no request enters, and the buses stay. -/
theorem queueLaw_of_ports (law : s.QueueLaw) (limits : ∀ h, (t.port h).InLimits)
    (fewer : ∀ h, (t.port h).requests.length ≤ (s.port h).requests.length) (buses : ∀ p, t.bus p = s.bus p) : t.QueueLaw := by
  obtain ⟨-, fits⟩ := (queueLaw_iff s).1 law
  refine (queueLaw_iff t).2 ⟨limits, fun p => ?_⟩
  rw [buses]
  exact (fits p).mono (fewer p.host)

/-- One port is changed to one within its limits, with no more requests. -/
theorem queueLaw_mapPort (law : s.QueueLaw) (h : HostId) {f : Port → Port} (limits : (f (s.port h)).InLimits)
    (fewer : (f (s.port h)).requests.length ≤ (s.port h).requests.length) : (s.mapPort h f).QueueLaw := by
  refine queueLaw_of_ports law (fun g => ?_) (fun g => ?_) fun p => rfl
  all_goals
    rw [port_mapPort]
    split
  · subst g
    exact limits
  · exact ((queueLaw_iff s).1 law).1 g
  · subst g
    exact fewer
  · exact le_rfl

/-- One bus is changed to one that fits. -/
theorem queueLaw_mapBus (law : s.QueueLaw) (p : TwoWire) {g : TwoWireBus → TwoWireBus}
    (fit : (g (s.bus p)).Fits (s.port p.host)) : (s.mapBus p g).QueueLaw := by
  obtain ⟨limits, fits⟩ := (queueLaw_iff s).1 law
  refine (queueLaw_iff _).2 ⟨limits, fun q => ?_⟩
  rw [bus_mapBus]
  split
  · subst q
    exact fit
  · exact fits q

theorem BusMove.fits {q : Port} {b b' : TwoWireBus} (move : BusMove q b b') (fits : b.Fits q) : b'.Fits q where
  room rx receiving unmarked := by
    cases move.state with
    | stay after => exact fits.room rx (after ▸ receiving) unmarked
    | quiet after => rcases after with e | e | e <;> cases e.symm.trans receiving
    | receive after room =>
      cases after.symm.trans receiving
      exact room unmarked
    | receiveOn before unfinished => exact fits.room _ before unfinished
    | hold after => cases after.symm.trans receiving
    | read after => cases after.symm.trans receiving
    | send _ after => cases after.symm.trans receiving
  stuck := move.stuck.elim (fun le => le.trans fits.stuck) id
  held rx time holding := by
    rcases move.held rx time holding with zero | ⟨state, stuck⟩
    · exact zero
    · exact stuck.trans (fits.held rx time (state ▸ holding))

/-- The port at which a request is taken has a place for another one, so that the write its hold becomes finds room (R134). -/
theorem fits_taken {b : TwoWireBus} {q : Port} (fits : b.Fits q) (limits : q.InLimits) (waiting : q.requests ≠ []) :
    b.released.Fits { q with requests := q.requests.tail } := by
  have room : q.requests.tail.length < 4 := by
    have filled := List.length_pos_iff.2 waiting
    have full := limits.requests
    rw [List.length_tail]
    omega
  by_cases holding : ∃ rx time, b.state = .holding rx time
  · obtain ⟨rx, time, holding⟩ := holding
    rw [released_holding holding]
    exact ⟨fun _ _ _ => room, Nat.zero_le _, nofun⟩
  · rw [released_of_not_holding fun rx time e => holding ⟨rx, time, e⟩]
    exact ⟨fun _ _ _ => room, fits.stuck, fits.held⟩

theorem queueLaw_take (law : s.QueueLaw) {h : HostId} (waiting : (s.port h).requests ≠ []) : (s.take h).QueueLaw := by
  obtain ⟨limits, fits⟩ := (queueLaw_iff s).1 law
  refine (queueLaw_iff _).2 ⟨fun g => ?_, fun p => ?_⟩
  · rw [port_take]
    split
    · obtain ⟨requests, replies, events⟩ := limits g
      exact ⟨(List.length_tail ▸ Nat.sub_le _ _).trans requests, replies, events⟩
    · exact limits g
  · rw [port_take, bus_take]
    split
    · rename_i own
      exact fits_taken (fits p) (limits p.host) (own ▸ waiting)
    · exact fits p

/-- Every operation on the ports and buses keeps the law of the queues. -/
theorem portStep_queueLaw (step : PortStep s t) (law : s.QueueLaw) : t.QueueLaw := by
  obtain ⟨limits, fits⟩ := (queueLaw_iff s).1 law
  cases step with
  | same same =>
    refine queueLaw_of_ports law (fun h => ?_) (fun h => ?_) same.bus <;> rw [same.port]
    exact limits h
  | reset => exact queueLaw_reset
  | deliver l =>
    have port (h : HostId) := port_sendEvents s h l
    refine queueLaw_of_ports law (fun h => ?_) (fun h => ?_) fun p => by rw [State.bus, State.sendEvents_twoWire]; rfl
    · have events := events_sendEvents_length s h l (limits h).events
      obtain ⟨es, lost, e⟩ := port h
      rw [e] at events ⊢
      exact ⟨(limits h).requests, (limits h).replies, events⟩
    · obtain ⟨es, lost, e⟩ := port h
      rw [e]
  | note h f requests replies events =>
    refine queueLaw_mapPort law h ⟨?_, ?_, ?_⟩ (by rw [requests])
    · exact requests ▸ (limits h).requests
    · exact replies ▸ (limits h).replies
    · exact events ▸ (limits h).events
  | take h waiting => exact queueLaw_take law waiting
  | bus p g move => exact queueLaw_mapBus law p (move.fits (fits p))
  | receive p x g before unmarked after marked stuck =>
    have room := (fits p).room _ before unmarked
    refine (queueLaw_iff _).2 ⟨fun h => ?_, fun q => ?_⟩
    · rw [port_mapBus, port_mapPort]
      split
      · subst h
        exact ⟨by simpa [Port.appendRequest] using room, (limits _).replies, (limits _).events⟩
      · exact limits h
    · rw [port_mapBus, bus_mapBus, bus_mapPort]
      split
      · subst q
        refine ⟨fun rx receiving unfinished => ?_, stuck.trans (fits p).stuck, fun rx time holding => ?_⟩
        · cases after.symm.trans receiving
          exact absurd unfinished marked
        · cases after.symm.trans holding
      · rename_i other
        rw [port_mapPort_ne s _ fun e => other (host_inj e)]
        exact fits q
  | exchange w => exact (queueLaw_iff _).2 ⟨limits, fits⟩
  | enqueue x f appended room =>
    refine (queueLaw_iff _).2 ⟨fun h => ?_, fun q => ?_⟩
    · rw [port_mapPort]
      split
      · subst h
        rw [appended]
        exact ⟨by simpa [Port.appendRequest] using room, (limits _).replies, (limits _).events⟩
      · exact limits h
    · rw [port_mapPort_ne s _ (host_ne_c q)]
      exact fits q
  | removeHead h source =>
    refine queueLaw_mapPort law h ⟨?_, ?_, ?_⟩ (by rw [removeHead_requests])
    · exact (removeHead_requests _ source).symm ▸ (limits h).requests
    · exact (removeHead_replies_le _ source).trans (limits h).replies
    · exact (removeHead_events_le _ source).trans (limits h).events
  | empty h =>
    exact queueLaw_mapPort law h ⟨Nat.zero_le _, Nat.zero_le _, Nat.zero_le _⟩ (Nat.zero_le _)

theorem queueLaw_placeReply {s : State} (h : HostId) (r : Reply) (room : (s.port h).replies.length < 4) (law : s.QueueLaw) :
    (s.placeReply h r).QueueLaw := by
  obtain ⟨requests, replies, events⟩ := ((queueLaw_iff s).1 law).1 h
  exact queueLaw_mapPort law h ⟨requests, by simpa using room, events⟩ le_rfl

end Sys2Proof.Machine
end

section
/-! ## Every operation keeps the law of the frames in transit (R93, R123, R124) -/

namespace Sys2Proof.Machine

variable {s t : State}

/-- The frame selected is the one of the head of its queue, under some flags byte. -/
def OutSelection.FrameOfHead (out : OutSelection) (q : Port) : Prop :=
  (out.source = .reply ∧ ∃ (r : Reply) (rest : List Reply) (flags : Byte), q.replies = r :: rest ∧
      out.bytes = outboundFrame 0x01 flags r.tag (statusByte r.status) r.payload) ∨
    (out.source = .event ∧ ∃ (e : Event) (rest : List Event) (flags : Byte), q.events = e :: rest ∧
      out.bytes = outboundFrame 0x02 flags (eventCode e) 0x00 (eventPayload e))

theorem transitLaw_iff (s : State) : s.TransitLaw ↔
    ∀ (h : HostId) (out : OutSelection), s.selection h = some out → out.inTransit = true → out.FrameOfHead (s.port h) :=
  Iff.rfl

/-- The frame is still that of the head when each queue that has a head keeps it. -/
theorem OutSelection.FrameOfHead.keep {out : OutSelection} {q q' : Port} (head : out.FrameOfHead q)
    (reply : ∀ r rest, q.replies = r :: rest → ∃ rest', q'.replies = r :: rest')
    (event : out.source = .event → ∀ e rest, q.events = e :: rest → ∃ rest', q'.events = e :: rest') :
    out.FrameOfHead q' := by
  rcases head with ⟨source, r, rest, flags, queue, bytes⟩ | ⟨source, e, rest, flags, queue, bytes⟩
  · obtain ⟨rest', queue'⟩ := reply r rest queue
    exact .inl ⟨source, r, rest', flags, queue', bytes⟩
  · obtain ⟨rest', queue'⟩ := event source e rest queue
    exact .inr ⟨source, e, rest', flags, queue', bytes⟩

theorem OutSelection.FrameOfHead.congr {out : OutSelection} {q q' : Port} (head : out.FrameOfHead q)
    (replies : q'.replies = q.replies) (events : q'.events = q.events) : out.FrameOfHead q' :=
  head.keep (fun _ rest e => ⟨rest, replies.trans e⟩) fun _ _ rest e => ⟨rest, events.trans e⟩

theorem OutSelection.FrameOfHead.onward {out out' : OutSelection} {q : Port} (head : out.FrameOfHead q)
    (source : out'.source = out.source) (bytes : out'.bytes = out.bytes) : out'.FrameOfHead q := by
  rw [OutSelection.FrameOfHead, source, bytes]
  exact head

/-- The selection at the start of a transfer is the frame of a head, unless it is the EMPTY frame (R123). -/
theorem select_frameOfHead {q : Port} (transit : q.select.inTransit = true) : q.select.FrameOfHead q := by
  unfold Port.select at transit ⊢
  dsimp only at transit ⊢
  split at transit
  · rename_i replies
    exact .inl ⟨rfl, _, _, _, replies, rfl⟩
  · rename_i events
    exact .inr ⟨rfl, _, _, _, events, rfl⟩
  · cases transit

/-- One port is changed so that the frame in transit on it, if there is one, is still that of the head. -/
theorem transitLaw_mapPort (law : s.TransitLaw) (h : HostId) {f : Port → Port}
    (keep : ∀ out, s.selection h = some out → out.inTransit = true → out.FrameOfHead (s.port h) →
      out.FrameOfHead (f (s.port h))) : (s.mapPort h f).TransitLaw := by
  intro g out sel transit
  have head := (transitLaw_iff s).1 law g out sel transit
  rw [port_mapPort]
  split
  · subst g
    exact keep out sel transit head
  · exact head

/-- The port's queues keep their replies and events. -/
theorem transitLaw_mapPort_congr (law : s.TransitLaw) (h : HostId) {f : Port → Port}
    (replies : (f (s.port h)).replies = (s.port h).replies) (events : (f (s.port h)).events = (s.port h).events) :
    (s.mapPort h f).TransitLaw :=
  transitLaw_mapPort law h fun _ _ _ head => head.congr replies events

/-- Nothing of the port's queues is in transit. -/
theorem transitLaw_mapPort_done (law : s.TransitLaw) {h : HostId} (done : s.NothingInTransit h) (f : Port → Port) :
    (s.mapPort h f).TransitLaw :=
  transitLaw_mapPort law h fun out sel transit => absurd transit (Bool.eq_false_iff.1 (done out sel))

/-- Ports and selections that stay as they are, but for the queues of requests and the flags. -/
theorem transitLaw_congr (law : s.TransitLaw) (selection : ∀ h, t.selection h = s.selection h)
    (replies : ∀ h, (t.port h).replies = (s.port h).replies) (events : ∀ h, (t.port h).events = (s.port h).events) :
    t.TransitLaw := by
  intro h out sel transit
  rw [selection] at sel
  exact ((transitLaw_iff s).1 law h out sel transit).congr (replies h) (events h)

/-- A frame in transit after a move was in transit before, or has just been selected. -/
theorem StateMove.frameOfHead {q : Port} {st st' : TwoWireState} (move : StateMove q st st')
    (law : ∀ out, st.selection = some out → out.inTransit = true → out.FrameOfHead q) {out' : OutSelection}
    (sel : st'.selection = some out') (transit : out'.inTransit = true) : out'.FrameOfHead q := by
  cases move with
  | stay after => exact law out' (after ▸ sel) transit
  | quiet after => rcases after with rfl | rfl | rfl <;> cases sel
  | receive after => subst after; cases sel
  | receiveOn _ _ after => subst after; cases sel
  | hold after => subst after; cases sel
  | read after =>
    subst after
    cases sel
    exact select_frameOfHead transit
  | send before after onward =>
    subst before after
    cases sel
    obtain ⟨was, source, bytes⟩ := onward transit
    exact (law _ rfl was).onward source bytes

/-- One two-wire bus moves. -/
theorem transitLaw_mapBus (law : s.TransitLaw) (p : TwoWire) {g : TwoWireBus → TwoWireBus}
    (move : StateMove (s.port p.host) (s.bus p).state (g (s.bus p)).state) : (s.mapBus p g).TransitLaw := by
  intro h out sel transit
  by_cases own : h = p.host
  · subst own
    rw [selection_mapBus_same] at sel
    exact move.frameOfHead (fun x hx => law p.host x (selection_twoWire s p ▸ hx)) sel transit
  · rw [selection_mapBus_ne s own] at sel
    exact law h out sel transit

theorem transitLaw_exchange (law : s.TransitLaw) {w : FourWireBus} (move : FourWireMove (s.port .c) s.fourWire w) :
    ({ s with fourWire := w } : State).TransitLaw := by
  intro h out sel transit
  by_cases own : h = .c
  · subst own
    obtain ⟨rx', bits', after⟩ := (selection_four _ out).1 sel
    rcases move rx' bits' out after with rfl | ⟨rx, bits, x, before, onward⟩
    · exact select_frameOfHead transit
    · obtain ⟨was, source, bytes⟩ := onward transit
      exact ((transitLaw_iff s).1 law .c x ((selection_four s x).2 ⟨rx, bits, before⟩) was).onward source bytes
  · rw [selection_withFourWire s own] at sel
    exact law h out sel transit

theorem transitLaw_deliver (law : s.TransitLaw) (l : List (HostId × Event)) : (s.sendEvents l).TransitLaw := by
  intro h out sel transit
  rw [selection_sendEvents] at sel
  refine ((transitLaw_iff s).1 law h out sel transit).keep (fun r rest queue => ?_) fun source e rest queue => ?_
  · obtain ⟨es, lost, port⟩ := port_sendEvents s h l
    exact ⟨rest, by rw [port]; exact queue⟩
  · have headInTransit : s.eventInTransit h = true := by simp [State.eventInTransit, sel, transit, source]
    exact events_sendEvents_head s h l headInTransit queue

/-- Every operation on the ports and buses keeps the law of the frames in transit. -/
theorem portStep_transitLaw (step : PortStep s t) (law : s.TransitLaw) : t.TransitLaw := by
  cases step with
  | same same => exact transitLaw_congr law same.selection (fun h => by rw [same.port]) fun h => by rw [same.port]
  | reset => exact transitLaw_reset
  | deliver l => exact transitLaw_deliver law l
  | note h f _ replies events => exact transitLaw_mapPort_congr law h replies events
  | take h =>
    refine transitLaw_congr law (fun g => selection_take s g h) (fun g => ?_) fun g => ?_ <;>
      (rw [port_take]; split <;> rfl)
  | bus p g move => exact transitLaw_mapBus law p move.state
  | receive p x g before unmarked after =>
    have appended : (s.mapPort p.host fun q => q.appendRequest x).TransitLaw := transitLaw_mapPort_congr law _ rfl rfl
    exact transitLaw_mapBus appended p (.receiveOn before unmarked after)
  | exchange w move => exact transitLaw_exchange law move
  | enqueue x f appended => exact transitLaw_mapPort_congr law _ (by rw [appended]; rfl) (by rw [appended]; rfl)
  | removeHead h source done => exact transitLaw_mapPort_done law done _
  | empty h done => exact transitLaw_mapPort_done law done _

theorem transitLaw_placeReply {s : State} (h : HostId) (r : Reply) (law : s.TransitLaw) : (s.placeReply h r).TransitLaw :=
  transitLaw_mapPort law h fun _ _ _ head =>
    head.keep (fun _ rest queue => ⟨rest ++ [r], by rw [queue]; rfl⟩) fun _ _ rest queue => ⟨rest, queue⟩

end Sys2Proof.Machine
end

section
/-! ## What a command does to the ports and their buses -/

namespace Sys2Proof.Machine

variable {s t : State}

/-! ### The tables and their events -/

/-- Tables are written, and events are sent. -/
theorem sent_portSteps {u : State} (l : List (HostId × Event)) (same : s.SamePorts u := by exact ⟨rfl, rfl, rfl⟩) :
    PortSteps s (u.sendEvents l) :=
  same.steps.tail (.deliver l)

theorem grantScan_portSteps (s : State) : PortSteps s s.grantScan := sent_portSteps _

theorem sendEvent_portSteps (s : State) (h : HostId) (e : Event) : PortSteps s (s.sendEvent h e) :=
  (PortStep.deliver [(h, e)]).steps

theorem releaseHolding_portSteps (s : State) (k : Fin 16) (raw : LineMask) (cause : Option AbortCause) :
    PortSteps s (s.releaseHolding k raw cause) := by
  rcases hb : s.slots[k].body with _ | ⟨owner, lines, tag, lease⟩ | _
  case held =>
    rw [releaseHolding_eq hb]
    exact sent_portSteps _
  all_goals
    simp only [State.releaseHolding, hb]
    exact .refl

theorem endHolding_portSteps (s : State) (k : Fin 16) (raw : LineMask) (cause : EndCause) :
    PortSteps s (s.endHolding k raw cause) := by
  rcases hb : s.slots[k].body with _ | ⟨owner, lines, tag, lease⟩ | _
  case held =>
    rw [endHolding_eq hb]
    exact sent_portSteps _
  all_goals
    simp only [State.endHolding, hb]
    exact .refl

theorem trimHolding_portSteps (s : State) (k : Fin 16) (named raw : LineMask) :
    PortSteps s (s.trimHolding k named raw) := by
  rcases hb : s.slots[k].body with _ | ⟨owner, lines, tag, lease⟩ | _
  case held =>
    rw [trimHolding_eq hb]
    exact sent_portSteps _
  all_goals
    simp only [State.trimHolding, hb]
    exact .refl

theorem stepEnd_portSteps (s : State) (i : Fin 4) : PortSteps s (s.stepEnd i) := by
  rcases stepEnd_cases s i with e | ⟨_, _, _, _, e, -⟩ | ⟨p, -, e⟩ <;> rw [e]
  · exact State.SamePorts.steps ⟨rfl, rfl, rfl⟩
  · have idled : s.SamePorts { s with patterns := s.patterns.set i none } := ⟨rfl, rfl, rfl⟩
    unfold State.completePattern
    dsimp only
    split
    · exact idled.steps.trans (sendEvent_portSteps _ _ _)
    · exact idled.steps

theorem sampleLine_portSteps (s : State) (n : Fin 32) (raw : Bool) : PortSteps s (s.sampleLine n raw) := by
  unfold State.sampleLine
  dsimp only
  split
  · exact State.SamePorts.steps ⟨rfl, rfl, rfl⟩
  · exact sent_portSteps _

theorem resetContext_portSteps (s : State) (h : HostId) (raw : LineMask) : PortSteps s (s.resetContext h raw) := by
  obtain ⟨S, L, P, e, -⟩ := contextCleared_eq s h raw
  have cleared : s.SamePorts (s.contextCleared h raw) := by
    rw [e]
    exact ⟨rfl, rfl, rfl⟩
  rw [resetContext_eq]
  exact cleared.steps.trans (grantScan_portSteps _)

/-! ### Requests -/

/-- A request that is taken and answered, for which intake has found a place in the reply queue (R99). -/
theorem answered_portEffect {h : HostId} {f : Frame} (next : s.nextRequest = some (h, f)) (r : Reply)
    (body : PortSteps (s.take h) t) : PortEffect s (t.placeReply h r) := by
  obtain ⟨-, head, room, -⟩ := nextRequest_port next
  have waiting : (s.port h).requests ≠ [] := by
    intro none
    rw [none] at head
    cases head
  have steps := (PortStep.take h waiting).steps.trans body
  exact .replied h r steps ((PortSteps.replies_le steps h).trans_lt room)

/-- A request does to the ports what its body does, and is answered. -/
theorem request_portEffect (s : State) (o : Opcode) {body : HostId → Frame → State → Answer}
    (hb : ∀ h f (t : State), PortSteps t (body h f t).state) : PortEffect s (s.request o body) := by
  rcases onRequest_cases s o fun h f t => (body h f t).place h f with e | ⟨h, f, r, next, e⟩ | ⟨h, f, valid, e⟩ <;>
    rw [State.request, e]
  · exact .steps .refl
  · exact answered_portEffect next.1 _ .refl
  · exact answered_portEffect valid.1.1 _ (hb h f _)

theorem running_portSteps {f : State → State} (hf : PortSteps s (f s)) : PortSteps s (s.running f) := by
  unfold State.running
  split
  · exact .refl
  · exact hf

/-- A request on a handle: a refusal, the end of an ENDED slot with its scan, or what it does on a HELD slot. -/
theorem withHolding_portSteps (s : State) (h : HostId) (handle : Byte) {f : Fin 16 → LineMask → Option Lease → Answer}
    (hf : ∀ k lines lease, PortSteps s (f k lines lease).state) : PortSteps s (s.withHolding h handle f).state := by
  rcases withHolding_cases s h handle f with
    ⟨r, e⟩ | ⟨k, tag, lease, cause, -, e⟩ | ⟨k, lines, tag, lease, -, -, e⟩ <;> rw [e]
  · exact .refl
  · have freed : s.SamePorts (s.freeSlot k) := ⟨rfl, rfl, rfl⟩
    exact freed.steps.trans (grantScan_portSteps _)
  · exact hf k lines lease

theorem writeConfig_portSteps (s : State) (h : HostId) (m : AttentionMask) (mode : HoldMode) (policy : ResetPolicy) :
    PortSteps s (s.writeConfig h m mode policy) := by
  have noted := PortStep.note (s := s) h (fun q => { q with mask := m, policy := policy }) rfl rfl rfl
  unfold State.writeConfig
  dsimp only
  split
  · exact noted.steps.tail (.bus _ _ ⟨.stay rfl, .inl le_rfl, fun _ _ _ => .inr ⟨rfl, rfl⟩⟩)
  · exact noted.steps

theorem changeLines_samePorts (s : State) (h : HostId) (m : LineMask) (change : Option (Fin 32 → LineRecord → LineRecord)) :
    s.SamePorts (s.changeLines h m change).state := by
  rcases changeLines_cases s h m change with ⟨r, e⟩ | ⟨g, -, -, -, -, e⟩ <;> rw [e] <;> exact ⟨rfl, rfl, rfl⟩

theorem queueClaim_samePorts (s : State) (h : HostId) (f : Frame) : s.SamePorts (s.queueClaim h f).state := by
  unfold State.queueClaim
  split
  · exact ⟨rfl, rfl, rfl⟩
  · split <;> exact ⟨rfl, rfl, rfl⟩

theorem queryAnswer_samePorts (s : State) (h : HostId) (k : Fin 16) : s.SamePorts (s.queryAnswer h k).state := by
  unfold State.queryAnswer
  dsimp only
  split
  · exact ⟨rfl, rfl, rfl⟩
  · split <;> exact ⟨rfl, rfl, rfl⟩
  · split <;> exact ⟨rfl, rfl, rfl⟩

theorem startOn_samePorts (s : State) (f : Frame) (lines : LineMask) : s.SamePorts (s.startOn f lines).state := by
  unfold State.startOn
  split
  · exact ⟨rfl, rfl, rfl⟩
  · dsimp only
    split
    · exact ⟨rfl, rfl, rfl⟩
    · split
      · exact ⟨rfl, rfl, rfl⟩
      · split
        · exact ⟨rfl, rfl, rfl⟩
        · split <;> exact ⟨rfl, rfl, rfl⟩

theorem stopSlot_samePorts (s : State) (f : Frame) : s.SamePorts (s.stopSlot f).state := by
  unfold State.stopSlot
  split
  · split
    · split <;> exact ⟨rfl, rfl, rfl⟩
    · exact ⟨rfl, rfl, rfl⟩
  · exact ⟨rfl, rfl, rfl⟩

theorem writeLease_samePorts (s : State) (k : Fin 16) (lease : Option Lease) : s.SamePorts (s.writeLease k lease) := by
  constructor <;> simp

/-! ### The port's side of a reset -/

/-- What of a selection is abandoned is no longer in transit (R143, R150). -/
theorem abandon_not_inTransit (out : OutSelection) (underWay : Bool) : (out.abandon underWay).inTransit = false := by
  unfold OutSelection.abandon
  split
  · rfl
  · exact Bool.eq_false_iff.2 ‹_›

theorem abandon_onward (out : OutSelection) (underWay : Bool) : out.Onward (out.abandon underWay) := by
  intro transit
  rw [abandon_not_inTransit] at transit
  cases transit

theorem abandonTransfer_portSteps (s : State) (h : HostId) (bits : Fin 8) : PortSteps s (s.abandonTransfer h bits) := by
  unfold State.abandonTransfer
  split
  · refine (PortStep.bus _ _ ?_).steps
    split
    · exact ⟨.send ‹_› rfl (abandon_onward _ _), .inl le_rfl, nofun⟩
    · exact ⟨.stay rfl, .inl le_rfl, fun _ _ _ => .inr ⟨rfl, rfl⟩⟩
  · split
    · refine (PortStep.exchange _ fun rx' bits' out' after => ?_).steps
      cases after
      exact .inr ⟨_, _, _, ‹_›, abandon_onward _ _⟩
    · exact .refl

theorem abandonTransfer_nothingInTransit (s : State) (h : HostId) (bits : Fin 8) :
    (s.abandonTransfer h bits).NothingInTransit h := by
  intro out sel
  rw [selection_abandonTransfer, if_pos rfl] at sel
  obtain ⟨x, -, rfl⟩ := Option.map_eq_some_iff.1 sel
  exact abandon_not_inTransit x _

/-- The queues of a port and its transfer are written apart from each other. -/
theorem abandonTransfer_mapPort (s : State) (h : HostId) (f : Port → Port) (bits : Fin 8) :
    (s.mapPort h f).abandonTransfer h bits = (s.abandonTransfer h bits).mapPort h f := by
  unfold State.abandonTransfer
  cases h
  case c =>
    dsimp only [hostTwoWire, State.mapPort_fourWire]
    split <;> rfl
  all_goals rfl

/-- The port's side of a RESET_PORT: the transfer is abandoned, and the queues are emptied. -/
theorem portReset_portSteps (s : State) (h : HostId) (bits : Fin 8) :
    PortSteps s ((s.mapPort h Port.portReset).abandonTransfer h bits) := by
  rw [abandonTransfer_mapPort]
  exact (abandonTransfer_portSteps s h bits).tail (.empty h (abandonTransfer_nothingInTransit s h bits))

/-- A two-wire bus that has been found stuck (R141). -/
def TwoWireBus.foundStuck (b : TwoWireBus) : TwoWireBus :=
  { b.enter .resetting with stuckTime := Config.stuckLimit, ack := false, tx := 0xFF }

theorem findStuck_samePorts (s : State) (p : TwoWire) :
    ((s.mapBus p TwoWireBus.foundStuck).mapPort p.host Port.portReset).SamePorts (s.findStuck p) := ⟨rfl, rfl, rfl⟩

/-- A bus is found stuck: the port goes into RESETTING, and its queues are emptied (R141). -/
theorem findStuck_portSteps (s : State) (p : TwoWire) : PortSteps s (s.findStuck p) := by
  have bus : PortStep s (s.mapBus p TwoWireBus.foundStuck) :=
    .bus p _ ⟨.quiet (.inr (.inr rfl)), .inr le_rfl, nofun⟩
  have done : (s.mapBus p TwoWireBus.foundStuck).NothingInTransit p.host := by
    intro out sel
    rw [selection_mapBus_same] at sel
    cases sel
  exact (bus.steps.tail (.empty p.host done)).tail (.same (findStuck_samePorts s p))

/-! ### The bytes of a two-wire port -/

theorem linesFree_stuckTime_le (b : TwoWireBus) (free : Bool) : (b.linesFree free).stuckTime ≤ b.stuckTime := by
  rw [TwoWireBus.linesFree_stuckTime]
  split
  · exact Nat.zero_le _
  · exact le_rfl

/-- A byte received never lengthens the stuck time, and an acknowledged one returns it to 0 (R140). -/
theorem answerByte_portStep (s : State) (p : TwoWire) {st : TwoWireState} (byte : Byte) {ack : Bool}
    (move : StateMove (s.port p.host) (s.bus p).state st)
    (held : ∀ (rx : RxRecord) (time : Nat), st = .holding rx time → ack = true) : PortStep s (s.answerByte p st byte ack) := by
  refine .bus p _ ⟨move, .inl (linesFree_stuckTime_le _ _), fun rx time holding => .inl ?_⟩
  rw [held rx time holding]
  rfl

theorem showByte_portStep (s : State) (p : TwoWire) {st : TwoWireState} (byte : Byte) {ack : Bool}
    (move : StateMove (s.port p.host) (s.bus p).state st)
    (held : ∀ (rx : RxRecord) (time : Nat), st ≠ .holding rx time) : PortStep s (s.showByte p st byte ack) :=
  .bus p _ ⟨move, .inl (linesFree_stuckTime_le _ _), fun rx time holding => absurd holding (held rx time)⟩

theorem ignoreTransaction_portStep (s : State) (p : TwoWire) (byte : Byte) : PortStep s (s.ignoreTransaction p byte) :=
  answerByte_portStep s p byte (.quiet (.inl rfl)) nofun

/-- A start or stop condition brings the port to ADDRESS or IDLE, with a stuck time of 0. -/
theorem condition_portStep (s : State) (p : TwoWire) {st : TwoWireState} (quiet : st = .idle ∨ st = .address) :
    PortStep s (s.mapBus p fun b => (b.enter st).linesHigh) := by
  refine .bus p _ ⟨.quiet ?_, .inl (Nat.zero_le _), fun rx time holding => .inl rfl⟩
  exact quiet.elim .inl fun e => .inr (.inl e)

/-- The port shows something, and its bus stays as it is. -/
theorem shown_portStep (s : State) (p : TwoWire) {g : TwoWireBus → TwoWireBus} (state : (g (s.bus p)).state = (s.bus p).state)
    (stuck : (g (s.bus p)).stuckTime = (s.bus p).stuckTime) : PortStep s (s.mapBus p g) :=
  .bus p g ⟨.stay state, .inl stuck.le, fun _ _ _ => .inr ⟨state, stuck⟩⟩

theorem setFrameError_portStep (s : State) (h : HostId) : PortStep s (s.mapPort h Port.setFrameError) :=
  .note h _ rfl rfl rfl

theorem endTransaction_portSteps (s : State) (p : TwoWire) : PortSteps s (s.endTransaction p) := by
  unfold State.endTransaction
  split
  · split
    · exact (setFrameError_portStep s _).steps
    · exact .refl
  · exact .refl

theorem beginWrite_portStep (s : State) (p : TwoWire) (byte : Byte) : PortStep s (s.beginWrite p byte) := by
  unfold State.beginWrite
  split
  · rename_i room
    exact answerByte_portStep s p byte (.receive rfl fun _ => room) nofun
  · split
    · exact ignoreTransaction_portStep s p byte
    · exact answerByte_portStep s p byte (.hold rfl) fun _ _ _ => rfl

/-- A byte of a write: the record goes on, and the check byte of a good frame brings the frame into its queue under a mark (R135). -/
theorem receiveByte_portSteps {p : TwoWire} {rx : RxRecord} (receiving : (s.bus p).state = .receiving rx)
    (unmarked : rx.mark = .unmarked) (byte : Byte) : PortSteps s (s.receiveByte p rx byte) := by
  have goesOn {u : State} (same : (u.bus p).state = .receiving rx) (ack : Bool) :
      PortStep u (u.answerByte p (.receiving (rx.receive byte)) byte ack) :=
    answerByte_portStep u p byte (.receiveOn same unmarked rfl) nofun
  unfold State.receiveByte
  split
  · exact (goesOn receiving true).steps
  · exact (goesOn receiving true).steps
  · rename_i good
    refine (PortStep.receive p _ _ receiving unmarked rfl ?_ (Nat.zero_le _)).steps
    simp only [RxRecord.receive, good, Verdict.mark]
    decide
  all_goals
    refine (setFrameError_portStep s _).steps.tail (goesOn ?_ false)
    exact receiving

/-- A byte of a read: when it is the check byte, the frame is no longer in transit, and leaves its queue (R138). -/
theorem sendByte_portSteps {p : TwoWire} {out : OutSelection} {refused : Bool} (sending : (s.bus p).state = .sending out refused)
    (ack : Bool) : PortSteps s (s.sendByte p out ack) := by
  have sent (leaves : Bool) : PortStep s (s.showByte p
      (.sending { out.advance with inTransit := out.inTransit && !leaves } (!ack)) out.next ack) :=
    showByte_portStep s p out.next
      (.send sending rfl fun transit => ⟨((Bool.and_eq_true _ _).mp transit).1, rfl, rfl⟩) nofun
  unfold State.sendByte
  dsimp only
  split
  · rename_i leaves
    rw [leaves]
    refine (sent true).steps.tail (.removeHead p.host out.source ?_)
    intro x sel
    rw [State.showByte, selection_mapBus_same] at sel
    cases sel
    exact Bool.and_false _
  · exact (sent _).steps

theorem passHoldLimit_portSteps (s : State) (p : TwoWire) : PortSteps s (s.passHoldLimit p) := by
  have noted := PortStep.note (s := s) p.host Port.setRequestOverrun rfl rfl rfl
  exact noted.steps.tail (.bus p _ ⟨.receive rfl nofun, .inl (Nat.zero_le _), nofun⟩)

/-! ### The exchange on Port C -/

theorem exchangeIn_portSteps (s : State) (rx : RxRecord) (byte : Byte) : PortSteps s (s.exchangeIn rx byte) := by
  unfold State.exchangeIn
  split
  · exact (setFrameError_portStep s _).steps
  · exact (setFrameError_portStep s _).steps
  · exact .refl

/-- Port C with its exchange over, before its frames leave and enter the queues. -/
def State.deselect (s : State) : State := { s with fourWire := { s.fourWire with state := .deselected } }

theorem deselect_nothingInTransit (s : State) : s.deselect.NothingInTransit .c := by
  intro out sel
  cases sel

theorem endOutbound_portStep (out : OutSelection) (done : s.NothingInTransit .c) :
    PortStep s (s.mapPort .c fun q => q.endOutbound out) := by
  by_cases leaves : (out.inTransit && out.complete) = true
  · simp only [Port.endOutbound, if_pos leaves]
    exact .removeHead .c out.source done
  · simp only [Port.endOutbound, if_neg leaves]
    exact .note .c _ rfl rfl rfl

/-- A complete request is appended where there is a place, and all else that an exchange leaves is a flag (R149). -/
theorem endInbound_portStep (s : State) (rx : RxRecord) : PortStep s (s.mapPort .c fun q => q.endInbound rx) := by
  rcases mark : rx.mark
  case done =>
    by_cases room : (s.port .c).requests.length < Config.requestPlaces
    · exact .enqueue rx.frame _ (by simp only [Port.endInbound, mark, if_pos room]) room
    · refine .note .c _ ?_ ?_ ?_ <;> simp only [Port.endInbound, mark, if_neg room] <;> rfl
  case unmarked =>
    by_cases broken : rx.broken = true
    · refine .note .c _ ?_ ?_ ?_ <;> simp only [Port.endInbound, mark, if_pos broken] <;> rfl
    · refine .note .c _ ?_ ?_ ?_ <;> simp only [Port.endInbound, mark, if_neg broken]
  all_goals refine .note .c _ ?_ ?_ ?_ <;> simp only [Port.endInbound, mark]

/-- SELC rises: the exchange is over, and then its frames leave and enter the queues (R147, R149). -/
theorem endExchange_portSteps (s : State) (rx : RxRecord) (out : OutSelection) :
    PortSteps s { s.mapPort .c (fun q => (q.endOutbound out).endInbound rx) with
      selcLow := false, fourWire := { s.fourWire with state := .deselected } } := by
  have ended : PortStep s s.deselect := .exchange _ nofun
  have outbound := endOutbound_portStep out (deselect_nothingInTransit s)
  exact ((ended.steps.tail outbound).tail (endInbound_portStep _ rx)).tail (.same ⟨rfl, rfl, rfl⟩)

/-! ### Commands -/

theorem exec_sparingRequest_portEffect {c : Instr} (hc : sparingRequest c = true) (e : exec c s = .next t) :
    PortEffect s t := by
  cases c <;> cases hc <;> cases e
  case identify | listHoldings | sample => exact request_portEffect s _ fun _ _ _ => .refl
  case status => exact request_portEffect s _ fun h _ t => (PortStep.note h _ rfl rfl rfl).steps
  case configPort =>
    refine request_portEffect s _ fun h f t => ?_
    split
    · exact writeConfig_portSteps t h _ _ _
    · exact .refl
  case queryHolding =>
    refine request_portEffect s _ fun h f t => ?_
    split
    · exact (queryAnswer_samePorts t h _).steps
    · exact .refl
  case queryPattern =>
    refine request_portEffect s _ fun h f t => ?_
    split <;> exact .refl
  case watch =>
    refine request_portEffect s _ fun h f t => ?_
    split
    · exact .refl
    · split
      · exact .refl
      · exact State.SamePorts.steps ⟨rfl, rfl, rfl⟩
  case unwatch =>
    refine request_portEffect s _ fun h f t => ?_
    split
    · exact .refl
    · exact State.SamePorts.steps ⟨rfl, rfl, rfl⟩
  case unknownOpcodeRequest =>
    split
    · split
      · exact answered_portEffect ‹_› _ .refl
      · exact .steps .refl
    · exact .steps .refl

theorem exec_busEvent_portSteps {c : Instr} (hc : busEvent c = true) (e : exec c s = .next t) : PortSteps s t := by
  cases c <;> cases hc <;> cases e
  case startCondition p | stopCondition p =>
    refine running_portSteps ?_
    split
    · exact (condition_portStep s p (by simp)).steps
    · exact (condition_portStep s p (by simp)).steps
    · exact (endTransaction_portSteps s p).tail (condition_portStep _ p (by simp))
    · exact (endTransaction_portSteps s p).tail (condition_portStep _ p (by simp))
    · exact .refl
    · exact .refl
  case writeAddress p byte =>
    refine running_portSteps ?_
    split
    · split
      · exact .refl
      · split
        · exact (beginWrite_portStep s p byte).steps
        · exact (ignoreTransaction_portStep s p byte).steps
    · exact (shown_portStep s p rfl rfl).steps
    · exact .refl
  case readAddress p byte =>
    refine running_portSteps ?_
    split
    · split
      · exact .refl
      · split
        · exact (answerByte_portStep s p byte (.read rfl) nofun).steps
        · exact (ignoreTransaction_portStep s p byte).steps
    · exact (shown_portStep s p rfl rfl).steps
    · exact .refl
  case addressNotAcknowledged p byte =>
    refine running_portSteps ?_
    split
    · split
      · exact .refl
      · exact (ignoreTransaction_portStep s p byte).steps
    · exact (ignoreTransaction_portStep s p byte).steps
    · exact (shown_portStep s p rfl rfl).steps
    · exact .refl
  case holdLimit p =>
    refine running_portSteps ?_
    split
    · exact passHoldLimit_portSteps s p
    · exact .refl
  case stuckBus p =>
    refine running_portSteps ?_
    split
    · exact findStuck_portSteps s p
    · exact .refl
  case writeByte p byte =>
    refine running_portSteps ?_
    split
    · rename_i rx receiving
      split
      · exact receiveByte_portSteps receiving ‹_› byte
      all_goals exact (answerByte_portStep s p byte (.stay receiving.symm) nofun).steps
    · exact (ignoreTransaction_portStep s p byte).steps
    · exact (shown_portStep s p rfl rfl).steps
    · exact .refl
  case readByte p ack =>
    refine running_portSteps ?_
    split
    · rename_i out refused sending
      split
      · exact (showByte_portStep s p _ (.send sending rfl fun transit => ⟨transit, rfl, rfl⟩) nofun).steps
      · exact sendByte_portSteps sending ack
    · exact (showByte_portStep s p _ (.quiet (.inl rfl)) nofun).steps
    · exact (shown_portStep s p rfl rfl).steps
    · exact .refl
  case selcFall =>
    split
    · exact .refl
    · split
      · exact State.SamePorts.steps ⟨rfl, rfl, rfl⟩
      · refine (PortStep.exchange { s.fourWire with state := .exchange RxRecord.empty 0 (s.port .c).select }
          fun rx bits out after => ?_).steps.tail (.same ⟨rfl, rfl, rfl⟩)
        cases after
        exact .inl rfl
  case exchangeByte byte =>
    refine running_portSteps ?_
    split
    · rename_i rx bits out exchanging
      refine (exchangeIn_portSteps s rx byte).tail (.exchange _ fun rx' bits' out' after => ?_)
      cases after
      rw [State.exchangeIn_fourWire]
      exact .inr ⟨rx, bits, out, exchanging, fun transit => ⟨transit, rfl, rfl⟩⟩
    · exact .refl
  case selcRise bits =>
    split
    · exact State.SamePorts.steps ⟨rfl, rfl, rfl⟩
    · split
      · exact endExchange_portSteps s _ _
      · exact State.SamePorts.steps ⟨rfl, rfl, rfl⟩

/-- A device reset gives the ports and buses their reset values. -/
theorem deviceReset_portSteps (s : State) {t : State} (reset : State.reset.SamePorts t) : PortSteps s t :=
  PortStep.reset.steps.tail (.same reset)

/-- The other commands: of the lines, the holdings, the claims, the patterns, the time and the device reset. -/
theorem exec_writingCommand_portEffect {c : Instr} (hr : sparingRequest c = false) (hb : busEvent c = false)
    (e : exec c s = .next t) : PortEffect s t := by
  cases c <;> cases hr <;> cases hb <;> cases e
  case resetPort raw bits =>
    exact request_portEffect s _ fun h f t => (portReset_portSteps t h bits).trans (resetContext_portSteps _ h raw)
  case claimNow =>
    refine request_portEffect s _ fun h f t => ?_
    split
    · exact .refl
    · exact State.SamePorts.steps ⟨rfl, rfl, rfl⟩
  case claimWait =>
    refine request_portEffect s _ fun h f t => ?_
    split
    · exact .refl
    · split
      · exact .refl
      · split
        · exact .refl
        · split
          · exact State.SamePorts.steps ⟨rfl, rfl, rfl⟩
          · exact (queueClaim_samePorts t h f).steps
  case cancelWait =>
    refine request_portEffect s _ fun h f t => ?_
    split
    · have removed : t.SamePorts (t.removeWait h (f.byteAt 0)) := ⟨rfl, rfl, rfl⟩
      exact removed.steps.trans (grantScan_portSteps _)
    · exact .refl
  case release raw =>
    refine request_portEffect s _ fun h f t => withHolding_portSteps t h _ fun k _ _ => ?_
    exact (releaseHolding_portSteps t k raw _).trans (grantScan_portSteps _)
  case trim raw =>
    refine request_portEffect s _ fun h f t => withHolding_portSteps t h _ fun k lines _ => ?_
    dsimp only
    split
    · exact .refl
    · split
      · exact (releaseHolding_portSteps t k raw _).trans (grantScan_portSteps _)
      · exact (trimHolding_portSteps t k _ raw).trans (grantScan_portSteps _)
  case renew =>
    refine request_portEffect s _ fun h f t => withHolding_portSteps t h _ fun k _ lease => ?_
    dsimp only
    split
    · exact .refl
    · exact (writeLease_samePorts t k _).steps
  case setMode | setFilter | drive => exact request_portEffect s _ fun h f t => (changeLines_samePorts t h _ _).steps
  case setSafe raw =>
    refine request_portEffect s _ fun h f t => ?_
    split
    · exact .refl
    · split
      · exact .refl
      · split
        · exact .refl
        · exact State.SamePorts.steps ⟨rfl, rfl, rfl⟩
  case startPattern =>
    exact request_portEffect s _ fun h f t => withHolding_portSteps t h _ fun _ lines _ => (startOn_samePorts t f lines).steps
  case stopPattern =>
    exact request_portEffect s _ fun h f t => withHolding_portSteps t h _ fun _ _ _ => (stopSlot_samePorts t f).steps
  case revoke raw =>
    refine request_portEffect s _ fun h f t => ?_
    split
    · exact .refl
    · rename_i k _
      split
      · exact .refl
      · exact (endHolding_portSteps t k raw _).trans (grantScan_portSteps _)
      · have freed : t.SamePorts (t.freeSlot k) := ⟨rfl, rfl, rfl⟩
        exact freed.steps.trans (grantScan_portSteps _)
  case fullReset =>
    rcases onRequest_cases s .fullReset fun _ _ t => { t.deviceReset with since := { t.since with command := true } }
      with e | ⟨h, f, r, next, e⟩ | ⟨h, f, -, e⟩ <;> rw [e]
    · exact .steps .refl
    · exact answered_portEffect next.1 _ .refl
    · exact .steps (deviceReset_portSteps s ⟨rfl, rfl, rfl⟩)
  case intervalBoundary => exact .steps (running_portSteps (State.SamePorts.steps ⟨rfl, rfl, rfl⟩))
  case leaseExpiry k raw =>
    refine .steps (running_portSteps ?_)
    split
    · exact (endHolding_portSteps s k raw _).trans (grantScan_portSteps _)
    · exact .refl
  case waitExpiry h tag =>
    refine .steps (running_portSteps ?_)
    split
    · have removed : s.SamePorts (s.removeWait h tag) := ⟨rfl, rfl, rfl⟩
      exact (removed.steps.trans (sendEvent_portSteps _ h _)).trans (grantScan_portSteps _)
    · exact .refl
  case patternStepEnd i =>
    refine .steps (running_portSteps ?_)
    split
    · exact stepEnd_portSteps s i
    · exact .refl
  case lineSample n raw => exact .steps (running_portSteps (sampleLine_portSteps s n raw))
  case portResetNotice p raw =>
    refine .steps (running_portSteps ?_)
    split
    · exact (resetContext_portSteps s _ raw).tail (.bus p _ ⟨.quiet (.inl rfl), .inl (Nat.zero_le _), nofun⟩)
    · exact .refl
  case resetnLow | supplyLoss => exact .steps (deviceReset_portSteps s ⟨rfl, rfl, rfl⟩)
  case resetRelease adr sup =>
    split
    · exact .steps (deviceReset_portSteps s ⟨rfl, rfl, rfl⟩)
    · exact .steps .refl

/-- What every command does to the ports and buses. -/
theorem exec_portEffect {c : Instr} (e : exec c s = .next t) : PortEffect s t := by
  by_cases hr : sparingRequest c = true
  · exact exec_sparingRequest_portEffect hr e
  · by_cases hb : busEvent c = true
    · exact .steps (exec_busEvent_portSteps hb e)
    · exact exec_writingCommand_portEffect (Bool.eq_false_iff.2 hr) (Bool.eq_false_iff.2 hb) e

/-! ### Steps -/

/-- A microsecond on a bus that is not due to be found stuck: its stuck time comes to at most 35 ms (R140). -/
theorem tick_busMove (q : Port) {b : TwoWireBus} (low : Bool)
    (early : b.state ≠ .resetting → (∀ rx time, b.state ≠ .holding rx time) → b.stuckTime < 35000) :
    BusMove q b (b.tick low) := by
  by_cases resetting : b.state = .resetting
  · rw [TwoWireBus.tick_resetting resetting]
    exact ⟨.stay rfl, .inl le_rfl, fun _ _ _ => .inr ⟨rfl, rfl⟩⟩
  · by_cases holding : ∃ rx time, b.state = .holding rx time
    · obtain ⟨rx, time, holding⟩ := holding
      rw [TwoWireBus.tick_holding holding]
      exact ⟨.hold rfl, .inl (Nat.zero_le _), fun _ _ _ => .inl rfl⟩
    · have other : ∀ rx time, b.state ≠ .holding rx time := fun rx time h => holding ⟨rx, time, h⟩
      have measured := early resetting other
      rw [TwoWireBus.tick_measures resetting other]
      refine ⟨.stay rfl, .inr ?_, fun rx time h => absurd h (other rx time)⟩
      dsimp only
      split <;> omega

theorem stuckTime_lt_of_not_stuckDue {p : TwoWire} (early : s.stuckDue p = false) (notResetting : (s.bus p).state ≠ .resetting)
    (notHolding : ∀ rx time, (s.bus p).state ≠ .holding rx time) : (s.bus p).stuckTime < 35000 := by
  by_contra late
  rw [stuckDue_iff.2 ⟨notResetting, notHolding, not_lt.1 late⟩] at early
  cases early

theorem tick_portSteps (early : ∀ p, s.stuckDue p = false) : PortSteps s s.tick := by
  have onA : PortStep s (s.mapBus .a fun b => b.tick (heldLow .a s.micros)) :=
    .bus .a _ (tick_busMove _ _ (stuckTime_lt_of_not_stuckDue (early .a)))
  have onB (u : State) (same : u.bus .b = s.bus .b) : PortStep u (u.mapBus .b fun b => b.tick (heldLow .b s.micros)) :=
    .bus .b _ (tick_busMove _ _ (same ▸ stuckTime_lt_of_not_stuckDue (early .b)))
  exact (onA.steps.tail (onB _ rfl)).tail (.same ⟨rfl, rfl, rfl⟩)

/-- A law of the ports and buses that the operations and a reply with a place keep is kept by every step. -/
theorem step_keeps_ports {P : State → Prop} (op : ∀ {s t : State}, PortStep s t → P s → P t)
    (reply : ∀ {s : State} (h : HostId) (r : Reply), (s.port h).replies.length < 4 → P s → P (s.placeReply h r))
    (law : P s) (e : step s = .next t) : P t := by
  unfold step at e
  split at e
  · cases e
    rcases idle_cases s with h | ⟨i, h⟩ | ⟨p, h⟩ | ⟨p, h⟩ | ⟨-, early, h⟩
    · rw [h]
      exact law
    · exact (exec_portEffect h).keeps op reply law
    · exact (exec_portEffect h).keeps op reply law
    · exact (exec_portEffect h).keeps op reply law
    · rw [h]
      exact (PortEffect.steps (tick_portSteps early)).keeps op reply law
  · rename_i c rest _
    have popped : s.SamePorts { s with pending := rest } := ⟨rfl, rfl, rfl⟩
    exact (exec_portEffect e).keeps op reply (op (.same popped) law)

/-- Settles O55: each operation keeps the limits, room and stuck times, and a reply enters only where intake has found a place. -/
theorem stepKeepsQueueLaw : Obligations.StepKeepsQueueLaw :=
  fun _ _ law e => step_keeps_ports portStep_queueLaw queueLaw_placeReply law e

/-- Settles O59: arrivals spare the head in transit, and what empties or shortens a queue comes after its transfer. -/
theorem stepKeepsTransitLaw : Obligations.StepKeepsTransitLaw :=
  fun _ _ law e => step_keeps_ports portStep_transitLaw (fun h r _ => transitLaw_placeReply h r) law e

end Sys2Proof.Machine
end

section
/-! ## WATCH and UNWATCH (R85, R86) -/

namespace Sys2Proof.Machine

variable {s : State} {h : HostId} {f : Frame}

theorem edgesOf_none : ∀ b : Byte, edgesOf b = none ↔ b = 0 ∨ 3 < b.toNat := by decide

/-- A write of watch entries after a take: the Watch Table is written at the named lines of the host, and nothing else. -/
theorem writeWatches_take (s : State) (h : HostId) (m : LineMask) (e : Edges) :
    ∃ V : PerHost (Vector Edges 32), (s.take h).writeWatches h m e = { s.take h with watches := V } ∧
      (∀ g : HostId, g ≠ h → V.get g = s.watches.get g) ∧
      ∀ n : Fin 32, (V.get h)[n] = if m.getLsbD n = true then e else (s.watches.get h)[n] := by
  refine ⟨_, rfl, fun g ne => ?_, fun n => ?_⟩
  · rw [PerHost.get_update_ne _ _ ne, State.take_watches]
  · rw [PerHost.get_update_same, getElem_tabulate_fin, State.take_watches]

theorem exec_watch_undefined (v : s.Valid .watch h f) (undefined : edgesOf (f.byteAt 4) = none) :
    exec .watch s = .next (s.served h f .badArgument []) := by
  refine congrArg Host.Outcome.next ((request_valid v _).trans ?_)
  rw [undefined]
  rfl

theorem exec_watch_defined (v : s.Valid .watch h f) {e : Edges} (defined : edgesOf (f.byteAt 4) = some e) :
    exec .watch s = .next (if f.maskAt 0 = 0 then s.served h f .badArgument []
      else ((s.take h).writeWatches h (f.maskAt 0) e).placeReply h (replyTo f .ok [])) := by
  refine congrArg Host.Outcome.next ((request_valid v _).trans ?_)
  by_cases unnamed : f.maskAt 0 = 0
  · simp only [defined, if_pos unnamed]
    rfl
  · simp only [defined, if_neg unnamed]
    rfl

theorem exec_unwatch (v : s.Valid .unwatch h f) :
    exec .unwatch s = .next (if f.maskAt 0 = 0 then s.served h f .badArgument []
      else ((s.take h).writeWatches h (f.maskAt 0) .none).placeReply h (replyTo f .ok [])) := by
  refine congrArg Host.Outcome.next ((request_valid v _).trans ?_)
  split <;> rfl

/-- Settles O27: a WATCH and an UNWATCH that name a line are one write of the requester's entries. -/
theorem watchAndUnwatchWriteOwnEntries : Obligations.WatchAndUnwatchWriteOwnEntries := by
  intro s h f written
  have write {c : Instr} {e : Edges} (named : f.maskAt 0 ≠ 0)
      (run : exec c s = .next (if f.maskAt 0 = 0 then s.served h f .badArgument []
        else ((s.take h).writeWatches h (f.maskAt 0) e).placeReply h (replyTo f .ok []))) : written c e := by
    obtain ⟨V, state, others, own⟩ := writeWatches_take s h (f.maskAt 0) e
    rw [if_neg named, state] at run
    exact ⟨V, run, others, own⟩
  refine ⟨fun v => ⟨fun bad => ?_, fun named edges => ?_, fun named edges => ?_, fun named edges => ?_⟩,
    fun v => ⟨fun unnamed => ?_, fun named => write named (exec_unwatch v)⟩⟩
  · rcases defined : edgesOf (f.byteAt 4) with _ | e
    · exact exec_watch_undefined v defined
    · have unnamed : f.maskAt 0 = 0 := by
        refine bad.resolve_right fun out => ?_
        rw [(edgesOf_none _).2 out] at defined
        cases defined
      rw [exec_watch_defined v defined, if_pos unnamed]
  · exact write named (exec_watch_defined v (by rw [edges]; rfl))
  · exact write named (exec_watch_defined v (by rw [edges]; rfl))
  · exact write named (exec_watch_defined v (by rw [edges]; rfl))
  · rw [exec_unwatch v, if_pos unnamed]

end Sys2Proof.Machine
end

section
/-! ## The arrival of events (R92 to R95) and what is in transit (R93, R123) -/

namespace Sys2Proof.Machine

/-! ### What is in transit -/

theorem selection_eq_some_iff (s : State) (h : HostId) (out : OutSelection) : s.selection h = some out ↔
    (∃ (p : TwoWire) (refused : Bool), p.host = h ∧ (s.bus p).state = .sending out refused) ∨
      (h = .c ∧ ∃ (rx : RxRecord) (bits : Fin 8), s.fourWire.state = .exchange rx bits out) := by
  constructor
  · intro sel
    rcases host_cases h with ⟨p, rfl⟩ | rfl
    · rw [selection_twoWire] at sel
      obtain ⟨refused, sending⟩ := eq_sending_of_selection sel
      exact .inl ⟨p, refused, rfl, sending⟩
    · exact .inr ⟨rfl, (selection_four s out).1 sel⟩
  · rintro (⟨p, refused, rfl, sending⟩ | ⟨rfl, exchanging⟩)
    · rw [selection_twoWire, sending]
      rfl
    · exact (selection_four s out).2 exchanging

theorem eventInTransit_iff (s : State) (h : HostId) : s.eventInTransit h = true ↔
    ∃ out : OutSelection, s.selection h = some out ∧ out.inTransit = true ∧ out.source = .event := by
  rcases sel : s.selection h with _ | out <;> simp [State.eventInTransit, sel]

/-! ### The queue after an arrival -/

/-- A queue holds no LINE_EDGE, but for its head while that is in transit. -/
def EdgeOnlyInTransit (inTransit : Bool) (q : List Event) : Prop :=
  ∀ (y : Event) (i : Nat), q[i]? = some y → y.isLineEdge = true → i = 0 ∧ inTransit = true

theorem EdgeOnlyInTransit.of_not_inTransit {q : List Event} (only : EdgeOnlyInTransit false q) :
    ∀ y ∈ q, y.isLineEdge = false := by
  intro y mem
  obtain ⟨i, hi⟩ := List.mem_iff_getElem?.1 mem
  exact Bool.eq_false_iff.2 fun edge => Bool.false_ne_true (only y i hi edge).2

theorem EdgeOnlyInTransit.of_cons {inTransit : Bool} {x : Event} {q : List Event}
    (only : EdgeOnlyInTransit inTransit (x :: q)) : ∀ y ∈ q, y.isLineEdge = false := by
  intro y mem
  obtain ⟨i, hi⟩ := List.mem_iff_getElem?.1 mem
  exact Bool.eq_false_iff.2 fun edge => Nat.succ_ne_zero i (only y (i + 1) hi edge).1

/-- The oldest LINE_EDGE that is not in transit leaves the queue. -/
theorem displaceEdge_append {inTransit : Bool} {ahead : List Event} (behind : List Event) {x : Event}
    (edge : x.isLineEdge = true) (first : ahead = [] → inTransit = false) (only : EdgeOnlyInTransit inTransit ahead) :
    displaceEdge inTransit (ahead ++ x :: behind) = some (ahead ++ behind) := by
  cases inTransit with
  | false =>
    have oldest := removeOldestEdge_append ahead behind x edge only.of_not_inTransit
    cases ahead <;> exact oldest
  | true =>
    cases ahead with
    | nil => cases first rfl
    | cons y ys =>
      have oldest := removeOldestEdge_append ys behind x edge only.of_cons
      simp [displaceEdge, oldest]

theorem displaceEdge_eq_none {inTransit : Bool} {q : List Event} (only : EdgeOnlyInTransit inTransit q) :
    displaceEdge inTransit q = none := by
  cases q with
  | nil => rfl
  | cons x rest =>
    cases inTransit with
    | false => exact removeOldestEdge_eq_none _ only.of_not_inTransit
    | true => simp [displaceEdge, removeOldestEdge_eq_none rest only.of_cons]

variable {inTransit : Bool} {q : List Event} {e : Event}

theorem arrive_room (inTransit : Bool) (room : q.length < 16) (e : Event) : arrive inTransit q e = (q ++ [e], false) :=
  if_pos room

theorem no_room (full : 16 ≤ q.length) : ¬ q.length < Config.eventPlaces := not_lt.2 full

/-- At a full queue a LINE_EDGE is dropped. -/
theorem arrive_edge (inTransit : Bool) (full : 16 ≤ q.length) (edge : e.isLineEdge = true) :
    arrive inTransit q e = (q, true) := by
  rw [arrive, if_neg (no_room full), if_pos edge]

/-- At a full queue any other event displaces the LINE_EDGE that can leave. -/
theorem arrive_displaces {rest : List Event} (full : 16 ≤ q.length) (other : e.isLineEdge = false)
    (leaves : displaceEdge inTransit q = some rest) : arrive inTransit q e = (rest ++ [e], true) := by
  rw [arrive, if_neg (no_room full), other, leaves]
  rfl

/-- At a full queue from which no LINE_EDGE can leave any event is dropped. -/
theorem arrive_dropped (full : 16 ≤ q.length) (other : e.isLineEdge = false) (stays : displaceEdge inTransit q = none) :
    arrive inTransit q e = (q, true) := by
  rw [arrive, if_neg (no_room full), other, stays]
  rfl

/-! ### The port after an arrival -/

variable {s : State} {h : HostId}

/-- A change of a port's record counts at the record alone. -/
theorem mapPort_eq (s : State) (h : HostId) (f : Port → Port) : s.mapPort h f = s.mapPort h fun _ => f (s.port h) := by
  cases h <;> rfl

theorem mapPort_congr {f g : Port → Port} (same : f (s.port h) = g (s.port h)) : s.mapPort h f = s.mapPort h g := by
  rw [mapPort_eq s h f, same, ← mapPort_eq s h g]

theorem sendEvent_resetting (resetting : s.resetting h = true) (e : Event) : s.sendEvent h e = s := if_pos resetting

/-- At a port that is not RESETTING the event queue becomes what the arrival leaves. -/
theorem sendEvent_arrived {moved : List Event × Bool} (up : s.resetting h = false)
    (arrived : arrive (s.eventInTransit h) (s.port h).events e = moved) :
    s.sendEvent h e = s.mapPort h fun p => ({ p with events := moved.1 }).noteOverflow moved.2 := by
  rw [State.sendEvent, up, ← arrived]
  rfl

theorem sendEvent_appended (up : s.resetting h = false) (room : (s.port h).events.length < 16) (e : Event) :
    s.sendEvent h e = s.mapPort h fun p => { p with events := p.events ++ [e] } := by
  rw [sendEvent_arrived up (arrive_room _ room e)]
  refine mapPort_congr ?_
  simp [Port.noteOverflow]

theorem sendEvent_dropped (up : s.resetting h = false)
    (dropped : arrive (s.eventInTransit h) (s.port h).events e = ((s.port h).events, true)) :
    s.sendEvent h e = s.mapPort h fun p => { p with flags := { p.flags with eventOverflow := true } } := by
  rw [sendEvent_arrived up dropped]
  refine mapPort_congr ?_
  simp [Port.noteOverflow]

theorem sendEvent_displaced {queue : List Event} (up : s.resetting h = false)
    (displaced : arrive (s.eventInTransit h) (s.port h).events e = (queue, true)) :
    s.sendEvent h e = s.mapPort h fun p =>
      { p with events := queue, flags := { p.flags with eventOverflow := true } } := by
  rw [sendEvent_arrived up displaced]
  refine mapPort_congr ?_
  simp [Port.noteOverflow]

/-- Settles O42: the four rows of R92, by what leaves a full queue. -/
theorem eventArrivalFollowsOverflowRule : Obligations.EventArrivalFollowsOverflowRule := by
  refine ⟨selection_eq_some_iff, eventInTransit_iff, fun _ => rfl, fun _ _ _ _ => rfl, fun s h e =>
    ⟨fun resetting => sendEvent_resetting resetting e, fun up room => sendEvent_appended up room e, fun up full =>
      ⟨fun edge => sendEvent_dropped up (arrive_edge _ full edge), fun other ahead behind x queue edge first only => ?_,
        fun other only => sendEvent_dropped up (arrive_dropped full other (displaceEdge_eq_none only))⟩⟩⟩
  have leaves := displaceEdge_append behind edge first only
  rw [← queue] at leaves
  exact sendEvent_displaced up (arrive_displaces full other leaves)

end Sys2Proof.Machine
end

section
/-! ## The next request (R98 to R100, R102, R103, R145) -/

namespace Sys2Proof.Machine

/-- A host's port is RESETTING when it is a two-wire port in that state (R145). -/
theorem resetting_iff (s : State) (h : HostId) :
    s.resetting h = true ↔ ∃ p : TwoWire, p.host = h ∧ (s.bus p).state = .resetting := by
  rcases host_cases h with ⟨p, rfl⟩ | rfl
  · simp only [State.resetting, hostTwoWire_host, decide_eq_true_eq]
    exact ⟨fun r => ⟨p, rfl, r⟩, fun ⟨q, same, r⟩ => host_inj same ▸ r⟩
  · exact ⟨nofun, fun ⟨p, c, _⟩ => absurd c (host_ne_c p)⟩

theorem eligible_eq_false_iff (s : State) (h : HostId) :
    s.eligible h = false ↔
      (s.port h).requests = [] ∨ 4 ≤ (s.port h).replies.length ∨ s.resetting h = true := by
  rw [← Bool.not_eq_true, eligible_iff]
  simp only [not_and_or, not_not, not_lt, Bool.not_eq_false]

/-- A search of a list ends at one of its members when the test holds of it and of none that stands before it. -/
theorem find?_eq_some_iff_takeWhile {α : Type} [DecidableEq α] (test : α → Bool) {x : α} {l : List α} (mem : x ∈ l) :
    l.find? test = some x ↔ test x = true ∧ ∀ y ∈ l.takeWhile (fun z => decide (z ≠ x)), test y = false := by
  induction l with
  | nil => cases mem
  | cons y rest ih =>
    by_cases here : y = x
    · subst here
      have first : (y :: rest).takeWhile (fun z => decide (z ≠ y)) = [] := by simp
      rw [first, List.find?_cons]
      cases hy : test y
      · refine ⟨fun found => ?_, fun ⟨holds, _⟩ => nomatch holds⟩
        exact absurd (List.find?_some found) (by rw [hy]; decide)
      · exact ⟨fun _ => ⟨rfl, nofun⟩, fun _ => rfl⟩
    · have later : x ∈ rest := (List.mem_cons.1 mem).resolve_left fun e => here e.symm
      cases hy : test y <;> simp [here, hy, ih later]

theorem searchOrder_eq (h : HostId) :
    searchOrder h = match h with
      | .a => [.a, .b, .c]
      | .b => [.b, .c, .a]
      | .c => [.c, .a, .b] := by cases h <;> rfl

/-- Settles O4: the search of the rotation, and what holds the intake back. -/
theorem intakeTakesFirstEligiblePort : Obligations.IntakeTakesFirstEligiblePort := by
  refine ⟨resetting_iff, fun s h f => ?_⟩
  rw [nextRequest_eq_some, intakeHeld_eq_false_iff, find?_eq_some_iff_takeWhile _ (mem_searchOrder _ h), eligible_iff,
    searchOrder_eq]
  simp only [eligible_eq_false_iff]
  constructor
  · rintro ⟨run, ⟨leases, waits, notices⟩, ⟨⟨-, room, ready⟩, before⟩, head⟩
    exact ⟨run, leases, waits, notices, head, room, ready, before⟩
  · rintro ⟨run, leases, waits, notices, head, room, ready, before⟩
    have waiting : (s.port h).requests ≠ [] := by
      intro none
      rw [none] at head
      cases head
    exact ⟨run, ⟨leases, waits, notices⟩, ⟨⟨waiting, room, ready⟩, before⟩, head⟩

end Sys2Proof.Machine
end

section
/-! ## Validation (R101, R104 to R106, R125) -/

namespace Sys2Proof.Machine

/-- A request of a defined opcode that validation refuses is taken by its own command, and changes nothing else (R104). -/
theorem exec_requestCommand_refused {s : State} {o : Opcode} {h : HostId} {f : Frame} {r : Status} (raw : LineMask)
    (bits : Fin 8) (next : s.Next o h f) (refused : (s.take h).validate o h f = some r) :
    exec (requestCommand o raw bits) s = .next (s.served h f r []) := by
  cases o <;> exact congrArg Host.Outcome.next (onRequest_refused next refused _)

theorem exec_unknownOpcodeRequest {s : State} {h : HostId} {f : Frame} (next : s.nextRequest = some (h, f))
    (unknown : opcodeOf f.opcode = none) : exec .unknownOpcodeRequest s = .next (s.served h f .badOpcode []) := by
  simp only [exec, execUnknownOpcodeRequest, next, if_pos unknown]
  rfl

/-- The defined codes are those of R125. -/
theorem opcodeOf_eq_none_of_notMem {b : Byte} (undefined : b ∉ allOpcodes.map opcodeByte) : opcodeOf b = none :=
  (opcodeOf_eq_none b).2 fun o e => undefined (List.mem_map.2 ⟨o, mem_allOpcodes o, e.symm⟩)

theorem replies_served (s : State) (h : HostId) (f : Frame) (status : Status) (payload : List Byte) :
    ((s.served h f status payload).port h).replies = (s.port h).replies ++ [replyTo f status payload] := by
  rw [State.served, port_placeReply_same, port_take_same]

/-- Settles O6: the opcode before the length, then the tables of R105 and R125 opcode by opcode. -/
theorem unknownOpcodeOrLengthRefused : Obligations.UnknownOpcodeOrLengthRefused := by
  refine ⟨fun s h f next => ⟨fun undefined => ?_, fun o raw bits code short => ?_⟩, fun o n => ?_, fun _ _ _ => rfl,
    replies_served⟩
  · exact exec_unknownOpcodeRequest next (opcodeOf_eq_none_of_notMem undefined)
  · exact exec_requestCommand_refused raw bits ⟨next, (opcodeOf_eq_some _ _).2 code⟩ (validate_badLength short)
  · cases o
    case startPattern => exact congrArg (Prod.mk _) (Bool.decide_and _ _).symm
    all_goals rfl

theorem supervisorOnly_iff (o : Opcode) : supervisorOnly o = true ↔ o = .revoke ∨ o = .fullReset := by
  cases o <;> decide

/-- Settles O7: the third order of validation is the last. -/
theorem supervisorOnlyRequestsRefused : Obligations.SupervisorOnlyRequestsRefused := by
  refine fun s o h f raw bits next length => ⟨fun only other => ?_, fun other => ?_⟩
  · refine exec_requestCommand_refused raw bits next (validate_notPermitted length ((supervisorOnly_iff o).2 only) ?_)
    rwa [State.take_supervisor]
  · exact (validate_eq_none _ o h f).2 ⟨length, fun only => absurd ((supervisorOnly_iff o).1 only) other⟩

end Sys2Proof.Machine
end

section
/-! ## IDENTIFY, STATUS and CONFIG_PORT (R113 to R115, R117, R122, R126, R152, R153) -/

namespace Sys2Proof.Machine

/-- The identity bytes as sent, with the codes of R126. -/
theorem identifyPayload_eq (s : State) (h : HostId) : s.identifyPayload h =
    [0x03, 0x32, 0x01, supervisorByte s.supervisor, hostByte h, resetCauseByte s.resetCause,
      s.time.count.setWidth 8, (s.time.count >>> 8).setWidth 8] := by
  rw [State.identifyPayload, halfBytes_eq, halfBytes_eq]
  rfl

theorem supervisorByte_eq (x : Option HostId) : supervisorByte x = match x with
    | none => 0
    | some .a => 1
    | some .b => 2
    | some .c => 3 := by rcases x with _ | _ | _ | _ <;> rfl

theorem identifyPayload_take (s : State) (h g : HostId) : (s.take g).identifyPayload h = s.identifyPayload h := by
  simp only [State.identifyPayload, State.take_supervisor, State.take_resetCause, State.take_time]

/-- Settles O8. -/
theorem identifyReportsThePart : Obligations.IdentifyReportsThePart := by
  intro s h f valid
  have e : exec .identify s = .next _ := congrArg Host.Outcome.next (request_valid valid _)
  rw [e, place_answer, identifyPayload_take, identifyPayload_eq, supervisorByte_eq]
  rfl

/-- The flags byte, bit by bit (R122). -/
theorem portFlags_byte_bits (x : PortFlags) :
    x.byte.getLsbD 0 = x.resetSeen ∧ x.byte.getLsbD 1 = x.frameError ∧ x.byte.getLsbD 2 = x.requestOverrun ∧
      x.byte.getLsbD 3 = x.eventOverflow ∧ x.byte &&& 0xF0 = 0 := by
  obtain ⟨a, b, c, d⟩ := x
  revert a b c d
  decide

/-- A STATUS counts what stands in the queues and tables when it has left its own queue (R114). -/
theorem statusPayload_take (s : State) (h : HostId) : (s.take h).statusPayload h =
    [(s.port h).flags.byte, countByte ((s.port h).requests.length - 1), countByte (s.port h).replies.length,
      countByte (s.port h).events.length, countByte (waitsOf s.waitQueue h).length,
      countByte ((List.finRange 16).filter fun k => s.slots[k].heldBy h).length,
      countByte ((List.finRange 16).filter fun k => s.slots[k].endedOf h).length] := by
  simp only [State.statusPayload, heldCount, endedCount, List.countP_eq_length_filter, port_take_same, State.take_slots,
    State.take_waitQueue, List.length_tail]

/-- Settles O9. -/
theorem statusReportsAndClearsFlags : Obligations.StatusReportsAndClearsFlags := by
  intro s h f valid
  refine ⟨(s.port h).flags.byte, ?_, portFlags_byte_bits _⟩
  have e : exec .status s = .next _ := congrArg Host.Outcome.next (request_valid valid _)
  rw [e, place_answer, statusPayload_take]
  rfl

end Sys2Proof.Machine
end

section
/-! ## CONFIG_PORT and the attention outputs (R117, R126, R151 to R153) -/

namespace Sys2Proof.Machine

/-- The attention output of a running part (R153). -/
theorem attention_iff (s : State) (h : HostId) : s.attention h = true ↔
    s.inReset = false ∧ s.resetting h = false ∧
      ((s.port h).mask.replyWaiting = true ∧ (s.port h).replies ≠ [] ∨
        (s.port h).mask.eventWaiting = true ∧ (s.port h).events ≠ [] ∨
        (s.port h).mask.requestRoom = true ∧ (s.port h).requests.length < 4) := by
  simp only [State.attention, Bool.and_eq_true, Bool.or_eq_true, Bool.not_eq_true', List.isEmpty_eq_false_iff,
    decide_eq_true_eq, and_assoc, or_assoc]
  rfl

/-! ### The fields of CONFIG_PORT (R126) -/

theorem attentionMaskOf_clear {b : Byte} (clear : b &&& 0xF8 = 0) : attentionMaskOf b =
    some { replyWaiting := b.getLsbD 0, eventWaiting := b.getLsbD 1, requestRoom := b.getLsbD 2 } := if_pos clear

theorem holdModeOf_eq : ∀ b : Byte, holdModeOf b =
    if b.toNat ≤ 1 then some (if b = 0 then .refuse else .hold) else none := by decide

theorem policyOf_eq : ∀ b : Byte, policyOf b =
    if b.toNat ≤ 1 then some (if b = 0 then .keep else .release) else none := by decide

/-- What CONFIG_PORT does after its take. -/
def State.configAnswer (t : State) (h : HostId) (f : Frame) : Answer :=
  match attentionMaskOf (f.byteAt 0), holdModeOf (f.byteAt 1), policyOf (f.byteAt 2) with
  | some m, some mode, some policy => (t.writeConfig h m mode policy).done
  | _, _, _ => t.refuse .badArgument

theorem exec_configPort {s : State} {h : HostId} {f : Frame} (valid : s.Valid .configPort h f) :
    exec .configPort s = .next (((s.take h).configAnswer h f).place h f) :=
  congrArg Host.Outcome.next (request_valid valid _)

theorem configAnswer_defined (t : State) (h : HostId) {f : Frame} (mask : f.byteAt 0 &&& 0xF8 = 0)
    (mode : (f.byteAt 1).toNat ≤ 1) (policy : (f.byteAt 2).toNat ≤ 1) :
    t.configAnswer h f = (t.writeConfig h
      { replyWaiting := (f.byteAt 0).getLsbD 0, eventWaiting := (f.byteAt 0).getLsbD 1
        requestRoom := (f.byteAt 0).getLsbD 2 }
      (if f.byteAt 1 = 0 then .refuse else .hold) (if f.byteAt 2 = 0 then .keep else .release)).done := by
  simp only [State.configAnswer, attentionMaskOf_clear mask, holdModeOf_eq, policyOf_eq, if_pos mode, if_pos policy]

theorem configAnswer_undefined (t : State) (h : HostId) {f : Frame}
    (bad : f.byteAt 0 &&& 0xF8 ≠ 0 ∨ 1 < (f.byteAt 1).toNat ∨ 1 < (f.byteAt 2).toNat) :
    t.configAnswer h f = t.refuse .badArgument := by
  unfold State.configAnswer
  split
  · rename_i m mode policy mask hold reset
    rw [holdModeOf_eq] at hold
    rw [policyOf_eq] at reset
    rcases bad with bad | bad | bad
    · rw [attentionMaskOf, if_neg bad] at mask
      cases mask
    · rw [if_neg (not_le.2 bad)] at hold
      cases hold
    · rw [if_neg (not_le.2 bad)] at reset
      cases reset
  · rfl

/-! ### The record -/

/-- The record that all ports have is written, and the buses apart from it. -/
theorem writeConfig_eq (s : State) (h : HostId) (m : AttentionMask) (mode : HoldMode) (policy : ResetPolicy) :
    s.writeConfig h m mode policy = { s.mapPort h fun p => { p with mask := m, policy := policy } with
      twoWire := (s.writeConfig h m mode policy).twoWire } := by
  cases h <;> rfl

/-- A hold mode is kept by the two-wire ports alone (R151). -/
theorem bus_writeConfig (s : State) (h : HostId) (m : AttentionMask) (mode : HoldMode) (policy : ResetPolicy)
    (p : TwoWire) : (s.writeConfig h m mode policy).bus p =
      if p.host = h then { s.bus p with holdMode := mode } else s.bus p := by
  cases h <;> cases p <;> rfl

/-- Settles O10: frame rules of a port's record and a bus, the attention output, and the two outcomes of CONFIG_PORT. -/
theorem configPortWritesOwnRecord : Obligations.ConfigPortWritesOwnRecord := by
  refine ⟨fun s h f => ⟨rfl, fun g => port_mapPort s g h f⟩,
    fun s p f => ⟨rfl, fun q => bus_mapBus s q p f⟩, attention_iff, fun s h f valid => ?_⟩
  rw [exec_configPort valid]
  refine ⟨fun ⟨mask, mode, policy⟩ => ?_, fun bad => ?_⟩
  · rw [configAnswer_defined _ h mask mode policy, place_done, writeConfig_eq]
    exact ⟨_, rfl, bus_writeConfig (s.take h) h _ _ _⟩
  · rw [configAnswer_undefined _ h bad]
    rfl

end Sys2Proof.Machine
end

section
/-! ## What the control fields keep (R98, R108, R112, R130, R158)

The queue of commands and the fields of the reset unit are written by a device reset and its release alone. -/

namespace Sys2Proof.Machine

/-- The queue of commands and the fields of the reset unit: whether a device reset is in progress, what has happened since the last
release, and what that release recorded. -/
structure Control where
  pending    : List Instr
  inReset    : Bool
  since      : ResetHistory
  adr        : BitVec 2
  supervisor : Option HostId
  resetCause : ResetCause

/-- The control fields of a state. -/
def State.control (s : State) : Control :=
  { pending := s.pending, inReset := s.inReset, since := s.since, adr := s.adr, supervisor := s.supervisor
    resetCause := s.resetCause }

variable {s : State}

/-! ### The shared operations keep them -/

@[simp] theorem control_take (s : State) (h : HostId) : (s.take h).control = s.control := by simp [State.control]

@[simp] theorem control_mapPort (s : State) (h : HostId) (f : Port → Port) : (s.mapPort h f).control = s.control := rfl

@[simp] theorem control_mapBus (s : State) (p : TwoWire) (f : TwoWireBus → TwoWireBus) :
    (s.mapBus p f).control = s.control := rfl

@[simp] theorem control_sendEvent (s : State) (h : HostId) (e : Event) : (s.sendEvent h e).control = s.control := by
  simp [State.control]

@[simp] theorem control_grantScan (s : State) : s.grantScan.control = s.control := by simp [State.control]

@[simp] theorem control_releaseHolding (s : State) (k : Fin 16) (raw : LineMask) (cause : Option AbortCause) :
    (s.releaseHolding k raw cause).control = s.control := by simp [State.control]

@[simp] theorem control_endHolding (s : State) (k : Fin 16) (raw : LineMask) (cause : EndCause) :
    (s.endHolding k raw cause).control = s.control := by simp [State.control]

@[simp] theorem control_trimHolding (s : State) (k : Fin 16) (named raw : LineMask) :
    (s.trimHolding k named raw).control = s.control := by simp [State.control]

@[simp] theorem control_writeLease (s : State) (k : Fin 16) (lease : Option Lease) :
    (s.writeLease k lease).control = s.control := by simp [State.control]

@[simp] theorem control_writeConfig (s : State) (h : HostId) (m : AttentionMask) (mode : HoldMode) (policy : ResetPolicy) :
    (s.writeConfig h m mode policy).control = s.control := by simp [State.control]

@[simp] theorem control_abandonTransfer (s : State) (h : HostId) (bits : Fin 8) :
    (s.abandonTransfer h bits).control = s.control := by simp [State.control]

@[simp] theorem control_resetContext (s : State) (h : HostId) (raw : LineMask) :
    (s.resetContext h raw).control = s.control := by
  obtain ⟨_, _, _, _, _, _, e⟩ := resetContext_frame s h raw
  rw [e]
  rfl

@[simp] theorem control_stepEnd (s : State) (i : Fin 4) : (s.stepEnd i).control = s.control := by simp [State.control]

@[simp] theorem control_sampleLine (s : State) (n : Fin 32) (raw : Bool) : (s.sampleLine n raw).control = s.control := by
  simp [State.control]

@[simp] theorem control_ignoreTransaction (s : State) (p : TwoWire) (byte : Byte) :
    (s.ignoreTransaction p byte).control = s.control := rfl

@[simp] theorem control_endTransaction (s : State) (p : TwoWire) : (s.endTransaction p).control = s.control := by
  simp [State.control]

@[simp] theorem control_beginWrite (s : State) (p : TwoWire) (byte : Byte) : (s.beginWrite p byte).control = s.control := by
  simp [State.control]

@[simp] theorem control_beginRead (s : State) (p : TwoWire) (byte : Byte) : (s.beginRead p byte).control = s.control := rfl

@[simp] theorem control_receiveByte (s : State) (p : TwoWire) (rx : RxRecord) (byte : Byte) :
    (s.receiveByte p rx byte).control = s.control := by simp [State.control]

@[simp] theorem control_sendByte (s : State) (p : TwoWire) (out : OutSelection) (ack : Bool) :
    (s.sendByte p out ack).control = s.control := by simp [State.control]

@[simp] theorem control_exchangeIn (s : State) (rx : RxRecord) (byte : Byte) : (s.exchangeIn rx byte).control = s.control := by
  simp [State.control]

theorem control_served (s : State) (h : HostId) (f : Frame) (r : Status) (payload : List Byte) :
    (s.served h f r payload).control = s.control := control_take s h

theorem control_running {f : State → State} (hf : (f s).control = s.control) : (s.running f).control = s.control := by
  unfold State.running
  split
  · rfl
  · exact hf

/-! ### Requests -/

/-- A request whose body keeps the control fields keeps them. -/
theorem control_request (s : State) (o : Opcode) {body : HostId → Frame → State → Answer}
    (hb : ∀ h f (t : State), (body h f t).state.control = t.control) : (s.request o body).control = s.control := by
  rcases onRequest_cases s o fun h f t => (body h f t).place h f with e | ⟨h, f, r, -, e⟩ | ⟨h, f, -, e⟩ <;>
    rw [State.request, e]
  · exact control_served s h f r []
  · exact (hb h f _).trans (control_take s h)

theorem control_withHolding (s : State) (h : HostId) (handle : Byte) {f : Fin 16 → LineMask → Option Lease → Answer}
    (hf : ∀ k lines lease, (f k lines lease).state.control = s.control) :
    (s.withHolding h handle f).state.control = s.control := by
  rcases withHolding_cases s h handle f with
    ⟨r, e⟩ | ⟨k, tag, lease, cause, -, e⟩ | ⟨k, lines, tag, lease, -, -, e⟩ <;> rw [e]
  · rfl
  · exact control_grantScan (s.freeSlot k)
  · exact hf k lines lease

theorem control_changeLines (s : State) (h : HostId) (m : LineMask) (change : Option (Fin 32 → LineRecord → LineRecord)) :
    (s.changeLines h m change).state.control = s.control := by
  rcases changeLines_cases s h m change with ⟨r, e⟩ | ⟨g, -, -, -, -, e⟩ <;> rw [e] <;> rfl

theorem control_queueClaim (s : State) (h : HostId) (f : Frame) : (s.queueClaim h f).state.control = s.control := by
  unfold State.queueClaim
  split
  · rfl
  · split <;> rfl

theorem control_queryAnswer (s : State) (h : HostId) (k : Fin 16) : (s.queryAnswer h k).state.control = s.control := by
  unfold State.queryAnswer
  dsimp only
  split
  · rfl
  · split <;> rfl
  · split <;> rfl

theorem control_startOn (s : State) (f : Frame) (lines : LineMask) : (s.startOn f lines).state.control = s.control := by
  unfold State.startOn
  split
  · rfl
  · dsimp only
    split
    · rfl
    · split
      · rfl
      · split
        · rfl
        · split <;> rfl

theorem control_stopSlot (s : State) (f : Frame) : (s.stopSlot f).state.control = s.control := by
  unfold State.stopSlot
  split
  · split
    · split <;> rfl
    · rfl
  · rfl

/-! ### Commands -/

variable {t : State}

/-- The commands that start a device reset or release the part from one. -/
def resetCommand : Instr → Bool
  | .fullReset | .resetnLow | .supplyLoss | .resetRelease _ _ => true
  | _ => false

theorem control_exec_sparingRequest {c : Instr} (hc : sparingRequest c = true) (e : exec c s = .next t) :
    t.control = s.control := by
  cases c <;> cases hc <;> cases e
  case identify | listHoldings | sample => exact control_request s _ fun _ _ _ => rfl
  case status => exact control_request s _ fun h _ t => control_mapPort t h _
  case configPort =>
    refine control_request s _ fun h f t => ?_
    split
    · exact control_writeConfig t h _ _ _
    · rfl
  case queryHolding =>
    refine control_request s _ fun h f t => ?_
    split
    · exact control_queryAnswer t h _
    · rfl
  case queryPattern =>
    refine control_request s _ fun h f t => ?_
    split <;> rfl
  case watch =>
    refine control_request s _ fun h f t => ?_
    split
    · rfl
    · split <;> rfl
  case unwatch =>
    refine control_request s _ fun h f t => ?_
    split <;> rfl
  case unknownOpcodeRequest =>
    split
    · split
      · exact control_served s _ _ _ []
      · rfl
    · rfl

theorem control_exec_busEvent {c : Instr} (hc : busEvent c = true) (e : exec c s = .next t) : t.control = s.control := by
  cases c <;> cases hc <;> cases e
  case selcFall =>
    split
    · rfl
    · split <;> rfl
  case selcRise bits =>
    split
    · rfl
    · split <;> rfl
  case writeByte p byte =>
    refine control_running ?_
    split
    · split
      · exact control_receiveByte s p _ byte
      all_goals rfl
    all_goals rfl
  case readByte p ack =>
    refine control_running ?_
    split
    · split
      · rfl
      · exact control_sendByte s p _ ack
    all_goals rfl
  case writeAddress p byte | readAddress p byte =>
    refine control_running ?_
    split
    · split
      · rfl
      · split <;> simp
    all_goals rfl
  case exchangeByte byte =>
    refine control_running ?_
    split
    · exact control_exchangeIn s _ byte
    · rfl
  case startCondition p | stopCondition p =>
    refine control_running ?_
    split <;> simp
  case addressNotAcknowledged p byte =>
    refine control_running ?_
    split
    · split <;> rfl
    all_goals rfl
  case holdLimit p | stuckBus p =>
    refine control_running ?_
    split <;> rfl

/-- The requests and time events that write tables. -/
theorem control_exec_tableCommand {c : Instr} (hr : sparingRequest c = false) (hb : busEvent c = false)
    (hd : resetCommand c = false) (e : exec c s = .next t) : t.control = s.control := by
  cases c <;> cases hr <;> cases hb <;> cases hd <;> cases e
  case resetPort raw bits => exact control_request s _ fun h f t => by simp [State.done]
  case claimNow =>
    refine control_request s _ fun h f t => ?_
    split <;> rfl
  case claimWait =>
    refine control_request s _ fun h f t => ?_
    split
    · rfl
    · split
      · rfl
      · split
        · rfl
        · split
          · rfl
          · exact control_queueClaim t h f
  case cancelWait =>
    refine control_request s _ fun h f t => ?_
    split
    · exact control_grantScan (t.removeWait h _)
    · rfl
  case release raw =>
    refine control_request s _ fun h f t => control_withHolding t h _ fun k _ _ => ?_
    exact (control_grantScan _).trans (control_releaseHolding t k raw _)
  case trim raw =>
    refine control_request s _ fun h f t => control_withHolding t h _ fun k lines _ => ?_
    dsimp only
    split
    · rfl
    · split
      · exact (control_grantScan _).trans (control_releaseHolding t k raw _)
      · exact (control_grantScan _).trans (control_trimHolding t k _ raw)
  case renew =>
    refine control_request s _ fun h f t => control_withHolding t h _ fun k _ lease => ?_
    dsimp only
    split
    · rfl
    · exact control_writeLease t k _
  case setMode | setFilter | drive => exact control_request s _ fun h f t => control_changeLines t h _ _
  case setSafe raw =>
    refine control_request s _ fun h f t => ?_
    split
    · rfl
    · split
      · rfl
      · split <;> rfl
  case startPattern =>
    exact control_request s _ fun h f t => control_withHolding t h _ fun _ lines _ => control_startOn t f lines
  case stopPattern => exact control_request s _ fun h f t => control_withHolding t h _ fun _ _ _ => control_stopSlot t f
  case revoke raw =>
    refine control_request s _ fun h f t => ?_
    split
    · rfl
    · rename_i k _
      split
      · rfl
      · exact (control_grantScan _).trans (control_endHolding t k raw _)
      · exact control_grantScan (t.freeSlot k)
  case intervalBoundary => exact control_running rfl
  case leaseExpiry k raw =>
    refine control_running ?_
    split
    · exact (control_grantScan _).trans (control_endHolding s k raw _)
    · rfl
  case waitExpiry h tag =>
    refine control_running ?_
    split
    · exact (control_grantScan _).trans (control_sendEvent (s.removeWait h tag) h _)
    · rfl
  case patternStepEnd i =>
    refine control_running ?_
    split
    · exact control_stepEnd s i
    · rfl
  case lineSample n raw => exact control_running (control_sampleLine s n raw)
  case portResetNotice p raw =>
    refine control_running ?_
    split
    · exact control_resetContext s p.host raw
    · rfl

/-- The control fields are written by a device reset and its release alone. -/
theorem control_exec {c : Instr} (hd : resetCommand c = false) (e : exec c s = .next t) : t.control = s.control := by
  by_cases hr : sparingRequest c = true
  · exact control_exec_sparingRequest hr e
  · by_cases hb : busEvent c = true
    · exact control_exec_busEvent hb e
    · exact control_exec_tableCommand (Bool.eq_false_iff.2 hr) (Bool.eq_false_iff.2 hb) hd e

/-! ### The reset cause (R112) -/

/-- A FULL_RESET that is not a valid request next starts no device reset. -/
theorem control_exec_fullReset (invalid : ¬ ∃ (h : HostId) (f : Frame), s.Valid .fullReset h f)
    (e : exec .fullReset s = .next t) : t.control = s.control := by
  cases e
  rcases onRequest_cases s .fullReset fun _ _ t => { t.deviceReset with since := { t.since with command := true } }
    with e | ⟨h, f, r, -, e⟩ | ⟨h, f, valid, -⟩
  · rw [e]
  · rw [e]
    exact control_served s h f r []
  · exact absurd ⟨h, f, valid⟩ invalid

/-- A command other than the release keeps the control fields, or starts a device reset and notes its cause. -/
theorem exec_control_cases {c : Instr} (hc : ∀ adr sup, c ≠ .resetRelease adr sup) (e : exec c s = .next t) :
    t.control = s.control ∨
      t = { s.deviceReset with
        since := { supply := decide (c = .supplyLoss) || s.since.supply
                   pin := decide (c = .resetnLow) || s.since.pin
                   command := decide (c = .fullReset) || s.since.command } } := by
  by_cases starts : c = .resetnLow ∨ c = .supplyLoss ∨ (c = .fullReset ∧ ∃ (h : HostId) (f : Frame), s.Valid .fullReset h f)
  · exact .inr (Host.Outcome.next.inj (e.symm.trans (exec_deviceReset starts)))
  · obtain ⟨notLow, notLoss, notFull⟩ : c ≠ .resetnLow ∧ c ≠ .supplyLoss ∧
        ¬ (c = .fullReset ∧ ∃ (h : HostId) (f : Frame), s.Valid .fullReset h f) := by simpa only [not_or] using starts
    left
    by_cases full : c = .fullReset
    · subst full
      exact control_exec_fullReset (fun valid => notFull ⟨rfl, valid⟩) e
    · refine control_exec ?_ e
      cases c
      case fullReset => exact absurd rfl full
      case resetnLow => exact absurd rfl notLow
      case supplyLoss => exact absurd rfl notLoss
      case resetRelease adr sup => exact absurd rfl (hc adr sup)
      all_goals rfl

theorem resetCause_exec {c : Instr} (hc : ∀ adr sup, c ≠ .resetRelease adr sup) (e : exec c s = .next t) :
    t.resetCause = s.resetCause := by
  rcases exec_control_cases hc e with kept | rfl
  · exact congrArg Control.resetCause kept
  · rfl

/-- What has happened since the last release is not forgotten before the next. -/
theorem since_exec {c : Instr} (hc : ∀ adr sup, c ≠ .resetRelease adr sup) (e : exec c s = .next t) :
    (s.since.supply = true → t.since.supply = true) ∧ (s.since.pin = true → t.since.pin = true) ∧
      (s.since.command = true → t.since.command = true) := by
  rcases exec_control_cases hc e with kept | rfl
  · have since : t.since = s.since := congrArg Control.since kept
    rw [since]
    exact ⟨id, id, id⟩
  · exact ⟨fun h => Bool.or_eq_true_iff.2 (.inr h), fun h => Bool.or_eq_true_iff.2 (.inr h),
      fun h => Bool.or_eq_true_iff.2 (.inr h)⟩

/-- The cause at a release: the supply before the pin before a FULL_RESET (R112). -/
theorem cause_cases (r : ResetHistory) :
    (r.supply = true → r.cause = .powerOn) ∧ (r.supply = false → r.pin = true → r.cause = .pin) ∧
      (r.supply = false → r.pin = false → r.command = true → r.cause = .command) := by
  obtain ⟨supply, pin, command⟩ := r
  cases supply <;> cases pin <;> simp [ResetHistory.cause]

/-- Settles O37: the release records the cause, and every other command keeps it and what the next release will read. -/
theorem resetCauseRecordedAtRelease : Obligations.ResetCauseRecordedAtRelease := by
  intro s t c e
  have noted (starts : c = .resetnLow ∨ c = .supplyLoss ∨
      (c = .fullReset ∧ ∃ (h : HostId) (f : Frame), s.Valid .fullReset h f)) : t = _ :=
    Host.Outcome.next.inj (e.symm.trans (exec_deviceReset starts))
  refine ⟨fun adr sup release reset => ?_, fun other => resetCause_exec other e, fun loss => ?_, fun low => ?_,
    fun full valid => ?_, fun other => since_exec other e⟩
  · subst release
    simp only [exec, execResetRelease, reset, if_true] at e
    cases e
    exact cause_cases s.since
  · rw [noted (.inr (.inl loss)), loss]
    rfl
  · rw [noted (.inl low), low]
    rfl
  · rw [noted (.inr (.inr ⟨full, valid⟩)), full]
    rfl

end Sys2Proof.Machine
end

section
/-! ## STUCK_BUS (R103, R140, R141) -/

namespace Sys2Proof.Machine

theorem exec_stuckBus {s : State} (run : s.inReset = false) (p : TwoWire) :
    exec (.stuckBus p) s = .next (if s.stuckDue p then s.findStuck p else s) :=
  congrArg Host.Outcome.next (running_of_not_inReset run _)

/-- A bus found stuck writes the ports, the buses and what has been overtaken. -/
theorem findStuck_eq (s : State) (p : TwoWire) : s.findStuck p = { s with
    ports := (s.findStuck p).ports, twoWire := (s.findStuck p).twoWire, overtaken := (s.findStuck p).overtaken } := rfl

theorem port_findStuck (s : State) (p : TwoWire) (g : HostId) :
    (s.findStuck p).port g = if g = p.host then (s.port g).portReset else s.port g :=
  port_mapPort s g p.host Port.portReset

theorem bus_findStuck (s : State) (p q : TwoWire) : (s.findStuck p).bus q =
    if q = p then { s.bus q with state := .resetting, stuckTime := 35000, ack := false, tx := 0xFF } else s.bus q :=
  bus_mapBus (s.mapPort p.host Port.portReset) q p _

theorem bus_findStuck_same (s : State) (p : TwoWire) : (s.findStuck p).bus p =
    { s.bus p with state := .resetting, stuckTime := 35000, ack := false, tx := 0xFF } :=
  (bus_findStuck s p p).trans (if_pos rfl)

theorem resetting_findStuck (s : State) (p : TwoWire) : (s.findStuck p).resetting p.host = true :=
  (resetting_iff _ _).2 ⟨p, rfl, congrArg TwoWireBus.state (bus_findStuck_same s p)⟩

/-- A RESETTING port asserts no attention output and is not eligible for intake (R99, R153). -/
theorem attention_resetting {s : State} {h : HostId} (r : s.resetting h = true) : s.attention h = false := by
  simp only [State.attention, r, Bool.not_true, Bool.and_false, Bool.false_and]

theorem eligible_resetting {s : State} {h : HostId} (r : s.resetting h = true) : s.eligible h = false :=
  (eligible_eq_false_iff s h).2 (.inr (.inr r))

/-- The notice that a stuck bus sends has been overtaken by no request (R103, log 9). -/
theorem notice_notMem_overtaken_findStuck (s : State) (p : TwoWire) : Due.notice p ∉ (s.findStuck p).overtaken :=
  fun mem => of_decide_eq_true (List.mem_filter.1 mem).2 rfl

/-- Settles O50: when a bus is stuck, and the state in which the port finds itself. -/
theorem stuckBusResetsPort : Obligations.StuckBusResetsPort := by
  intro s p run
  rw [exec_stuckBus run]
  refine ⟨fun early => ?_, fun ready unheld late => ?_⟩
  · have notDue : ¬ s.stuckDue p = true := fun due => by
      obtain ⟨ready, unheld, late⟩ := stuckDue_iff.1 due
      rcases early with resetting | ⟨rx, t, holding⟩ | short
      · exact ready resetting
      · exact unheld rx t holding
      · exact absurd late (not_le.2 short)
    rw [if_neg notDue]
  · have bus := bus_findStuck_same s p
    have resetting : ((s.findStuck p).bus p).state = .resetting := congrArg TwoWireBus.state bus
    rw [if_pos (stuckDue_iff.2 ⟨ready, unheld, late⟩)]
    refine ⟨_, rfl, findStuck_eq s p, (port_findStuck s p _).trans (if_pos rfl),
      fun g ne => (port_findStuck s p g).trans (if_neg ne), resetting, by rw [bus],
      by rw [bus], fun q ne => (bus_findStuck s p q).trans (if_neg ne),
      attention_resetting (resetting_findStuck s p), eligible_resetting (resetting_findStuck s p),
      (mem_dueNow_iff _ (.notice p)).2 resetting, notice_notMem_overtaken_findStuck s p⟩

end Sys2Proof.Machine
end

section
/-! ## PORT_RESET_NOTICE (R42, R62, R88, R103, R142, R157) -/

namespace Sys2Proof.Machine

theorem exec_portResetNotice_resetting {s : State} {p : TwoWire} (run : s.inReset = false)
    (resetting : (s.bus p).state = .resetting) (raw : LineMask) :
    exec (.portResetNotice p raw) s =
      .next ((s.resetContext p.host raw).mapBus p fun b => { b with state := .idle, stuckTime := 0 }) := by
  have e : exec (.portResetNotice p raw) s = .next _ := congrArg Host.Outcome.next (running_of_not_inReset run _)
  rw [e]
  simp only [resetting]
  rfl

theorem exec_portResetNotice_ready {s : State} {p : TwoWire} (run : s.inReset = false)
    (ready : (s.bus p).state ≠ .resetting) (raw : LineMask) : exec (.portResetNotice p raw) s = .next s := by
  have e : exec (.portResetNotice p raw) s = .next _ := congrArg Host.Outcome.next (running_of_not_inReset run _)
  rw [e]
  split
  · exact absurd ‹_› ready
  · rfl

/-- The controller's part of a port reset writes no bus. -/
theorem bus_resetContext (s : State) (h : HostId) (raw : LineMask) (p : TwoWire) :
    (s.resetContext h raw).bus p = s.bus p := by
  obtain ⟨_, _, _, _, _, _, e⟩ := resetContext_frame s h raw
  rw [e]
  rfl

/-- The tables from which the grant scan of a port reset starts. -/
theorem contextCleared_tables (s : State) (h : HostId) (raw : LineMask) :
    ∃ (S : Vector Slot 16) (L : Vector LineRecord 32) (P : Vector (Option Pattern) 4),
      s.contextCleared h raw = { s with
        waitQueue := s.waitQueue.filter fun e => decide (e.host ≠ h)
        watches := s.watches.update h fun _ => Vector.replicate 32 Edges.none
        slots := S, lines := L, patterns := P } ∧
      ((s.port h).policy = .keep → S = s.slots ∧ L = s.lines ∧ P = s.patterns) ∧
      ((s.port h).policy = .release → ∀ k : Fin 16, S[k] = s.slots[k].dropped h) := by
  obtain ⟨S, L, P, e, keep, release⟩ := contextCleared_eq s h raw
  rw [tabulate_const] at e
  exact ⟨S, L, P, e, keep, fun policy => (release policy).1⟩

theorem scalars_resetContext (s : State) (h : HostId) (raw : LineMask) :
    (s.resetContext h raw).rotation = s.rotation ∧ (s.resetContext h raw).supervisor = s.supervisor ∧
      (s.resetContext h raw).resetCause = s.resetCause := by
  obtain ⟨_, _, _, _, _, _, e⟩ := resetContext_frame s h raw
  rw [e]
  exact ⟨rfl, rfl, rfl⟩

/-- Settles O51: the controller's side of the port reset, row by row, and the return to IDLE. -/
theorem portResetNoticeReturnsPortToIdle : Obligations.PortResetNoticeReturnsPortToIdle := by
  refine fun s p raw run => ⟨fun ready => exec_portResetNotice_ready run ready raw, fun resetting => ?_⟩
  obtain ⟨S, L, P, cleared, keep, release⟩ := contextCleared_tables s p.host raw
  refine ⟨_, s.contextCleared p.host raw, S, L, P, exec_portResetNotice_resetting run resetting raw, rfl, cleared, keep,
    fun policy k => ?_, ?_, port_resetContext_same s p.host raw, fun n => ?_, fun g ne => ?_,
    fun e mem => waitQueue_resetContext mem, fun k g ne own => slots_resetContext_other raw ne own,
    fun policy => ⟨fun k own => ?_, tables_resetContext_keep raw policy⟩,
    fun policy k => slots_resetContext_release raw policy k, scalars_resetContext s p.host raw⟩
  · rw [release policy k, Slot.dropped]
    simp only [Bool.or_eq_true]
  · rw [bus_mapBus_same, bus_resetContext]
  · rw [State.mapBus_watches, watches_resetContext, PerHost.get_update_same, getElem_tabulate_fin]
  · rw [State.mapBus_watches, watches_resetContext, PerHost.get_update_ne _ _ ne]
  · exact slots_resetContext_keep raw policy (own.elim isFree_eq_false_of_heldBy isFree_eq_false_of_endedOf)

end Sys2Proof.Machine
end

section
/-! ## Frames: sums, byte order and codes (R120, R121, R126 to R128) -/

namespace Sys2Proof.Machine

/-! ### Sums and layout (R121) -/

/-- The sum does not depend on the order in which the bytes are added. -/
theorem byteSum_eq_foldl (bytes : List Byte) : byteSum bytes = bytes.foldl (· + ·) 0 := List.foldl_eq_foldr.symm

/-- The check byte is the complement of what comes before it. -/
theorem byteSum_withCheck (bytes : List Byte) : byteSum (withCheck bytes) = 0 := by
  have check : byteSum [-(byteSum bytes)] = -(byteSum bytes) := BitVec.add_zero _
  rw [withCheck, byteSum_append, check]
  exact BitVec.add_right_neg _

theorem length_withCheck (bytes : List Byte) : (withCheck bytes).length = bytes.length + 1 := by
  rw [withCheck, List.length_append, List.length_singleton]

theorem length_outboundFrame (kind flags ref status : Byte) (payload : List Byte) :
    (outboundFrame kind flags ref status payload).length = payload.length + 6 := by
  rw [outboundFrame, length_withCheck, List.length_append]
  simp only [List.length_cons, List.length_nil]
  omega

/-! ### Byte order (R120) -/

/-- The bytes of a half, least significant first, make up the half again. -/
theorem halfBytes_toNat (v : Half) : ∃ low high : Byte, halfBytes v = [low, high] ∧ v.toNat = low.toNat + 256 * high.toNat := by
  refine ⟨_, _, rfl, ?_⟩
  rw [← duration_toNat, BitVec.extractLsb'_append_extractLsb'_eq_extractLsb' (by decide)]
  simp

/-- Byte k of a line mask holds lines 8k to 8k + 7. -/
theorem getLsbD_maskByte (m : LineMask) (start : Nat) (j : Fin 8) :
    (m.extractLsb' start 8).getLsbD j = m.getLsbD (start + j) := by
  rw [BitVec.getLsbD_extractLsb', decide_eq_true j.isLt, Bool.true_and]

theorem getLsbD_maskBytes (m : LineMask) : ∃ b0 b1 b2 b3 : Byte, maskBytes m = [b0, b1, b2, b3] ∧
    ∀ j : Fin 8, b0.getLsbD j = m.getLsbD j ∧ b1.getLsbD j = m.getLsbD (8 + j) ∧ b2.getLsbD j = m.getLsbD (16 + j) ∧
      b3.getLsbD j = m.getLsbD (24 + j) := by
  refine ⟨_, _, _, _, rfl, fun j => ⟨?_, getLsbD_maskByte m 8 j, getLsbD_maskByte m 16 j, getLsbD_maskByte m 24 j⟩⟩
  rw [getLsbD_maskByte, Nat.zero_add]

theorem byteAt_of_getElem? {f : Frame} {i : Nat} {b : Byte} (h : f.payload[i]? = some b) : f.byteAt i = b := by
  rw [Frame.byteAt, List.getD_eq_getElem?_getD, h, Option.getD_some]

/-- A bit of the byte that stands first in the frame, which is the least significant one. -/
theorem getLsbD_append_first {w : Nat} (later : BitVec w) (first : Byte) {j : Nat} (hj : j < 8) :
    (later ++ first).getLsbD j = first.getLsbD j := by rw [BitVec.getLsbD_append, if_pos hj]

/-- A bit of the bytes that stand after the first. -/
theorem getLsbD_append_later {w : Nat} (later : BitVec w) (first : Byte) (j : Nat) :
    (later ++ first).getLsbD (8 + j) = later.getLsbD j := by
  rw [BitVec.getLsbD_append, if_neg (by omega), Nat.add_sub_cancel_left]

/-- Line n of a mask that is read stands in byte n / 8 from where the mask begins. -/
theorem getLsbD_maskAt (f : Frame) (i : Nat) (n : Fin 32) :
    (f.maskAt i).getLsbD n = (f.byteAt (i + n.val / 8)).getLsbD (n.val % 8) := by
  obtain ⟨k, j, hk, hj, line⟩ : ∃ k j, k < 4 ∧ j < 8 ∧ n.val = 8 * k + j :=
    ⟨n.val / 8, n.val % 8, by omega, by omega, by omega⟩
  have byte : n.val / 8 = k := by omega
  have bit : n.val % 8 = j := by omega
  rw [byte, bit, Frame.maskAt]
  match k, hk with
  | 0, _ =>
    have place : n.val = j := by omega
    rw [place, getLsbD_append_first _ _ hj, Nat.add_zero]
  | 1, _ =>
    have place : n.val = 8 + j := by omega
    rw [place, getLsbD_append_later, getLsbD_append_first _ _ hj]
  | 2, _ =>
    have place : n.val = 8 + (8 + j) := by omega
    rw [place, getLsbD_append_later, getLsbD_append_later, getLsbD_append_first _ _ hj]
  | 3, _ =>
    have place : n.val = 8 + (8 + (8 + j)) := by omega
    rw [place, getLsbD_append_later, getLsbD_append_later, getLsbD_append_later]

/-! ### Codes (R126 to R128) -/

theorem eventPayload_lineEdge (line : Fin 32) (level : Bool) (stamp : Half) :
    eventPayload (.lineEdge line level stamp) =
      [countByte line, if level then 0x01 else 0x00, stamp.setWidth 8, (stamp >>> 8).setWidth 8] := by
  rw [eventPayload, halfBytes_eq]
  rfl

theorem isLineEdge_iff (event : Event) :
    event.isLineEdge = true ↔ ∃ line level stamp, event = .lineEdge line level stamp := by
  cases event <;> simp [Event.isLineEdge]

/-- Settles O43: sums and layout, byte order in each direction, and the tables of codes. -/
theorem outboundFrameSumsToZero : Obligations.OutboundFrameSumsToZero := by
  refine ⟨fun kind flags ref status payload => ⟨⟨_, rfl⟩, ?_, length_outboundFrame kind flags ref status payload⟩,
    fun n => BitVec.toNat_ofNat n 8, halfBytes_toNat, getLsbD_maskBytes,
    fun f i => ⟨fun _ => byteAt_of_getElem?, duration_toNat _ _, getLsbD_maskAt f i⟩, fun h => by cases h <;> rfl,
    fun status => by cases status <;> rfl, fun event => ?_, isLineEdge_iff⟩
  · rw [← byteSum_eq_foldl]
    exact byteSum_withCheck _
  · cases event
    case lineEdge line level stamp => exact congrArg (Prod.mk 0x01) (eventPayload_lineEdge line level stamp)
    case patternAborted slot handle tag cause => cases cause <;> rfl
    all_goals rfl

end Sys2Proof.Machine
end

section
/-! ## Reads and writes of a two-wire port, byte by byte (R123, R124, R130, R135, R136, R138, R140, R142) -/

namespace Sys2Proof.Machine

variable {s : State} {p : TwoWire}

/-- Outside a device reset an event of the logic has the effect it names. -/
theorem next_running {f : State → State} {t : State} (run : s.inReset = false) (e : f s = t) :
    (.next (s.running f) : Result) = .next t := by
  rw [running_of_not_inReset run, e]

/-! ### The bus after a byte -/

/-- A change of a bus counts at its record alone. -/
theorem mapBus_eq (s : State) (p : TwoWire) (f : TwoWireBus → TwoWireBus) : s.mapBus p f = s.mapBus p fun _ => f (s.bus p) := by
  cases p <;> rfl

theorem mapBus_congr {f g : TwoWireBus → TwoWireBus} (same : f (s.bus p) = g (s.bus p)) : s.mapBus p f = s.mapBus p g := by
  rw [mapBus_eq s p f, same, ← mapBus_eq s p g]

/-- With an acknowledge the stuck time returns to 0, whatever the byte (R140). -/
theorem answerByte_acknowledged (s : State) (p : TwoWire) (st : TwoWireState) (byte : Byte) :
    s.answerByte p st byte true = s.mapBus p fun b => { b with state := st, ack := true, stuckTime := 0 } := rfl

/-- A byte received in a state that the port keeps, acknowledged. -/
theorem answerByte_acknowledged_stay {st : TwoWireState} (same : (s.bus p).state = st) (byte : Byte) :
    s.answerByte p st byte true = s.mapBus p fun b => { b with ack := true, stuckTime := 0 } :=
  (answerByte_acknowledged s p st byte).trans (mapBus_congr (by rw [same]))

/-- A byte received in a state that the port keeps, refused. -/
theorem answerByte_refused_stay {st : TwoWireState} (same : (s.bus p).state = st) (byte : Byte) :
    s.answerByte p st byte false = s.mapBus p fun b =>
      { b with ack := false, stuckTime := if byte ≠ 0 ∨ Config.sdaHeld p s.micros = false then 0 else b.stuckTime } := by
  rw [answerByte_eq]
  refine mapBus_congr ?_
  simp only [same, Bool.false_eq_true, false_or]

/-- A byte shown in a state that the port keeps, in which it leaves SDA released. -/
theorem showByte_released_stay {st : TwoWireState} (same : (s.bus p).state = st) (ack : Bool) :
    s.showByte p st 0xFF ack = s.mapBus p fun b =>
      { b with tx := 0xFF, stuckTime := if ack = false ∨ Config.sdaHeld p s.micros = false then 0 else b.stuckTime } := by
  rw [showByte_eq]
  refine mapBus_congr ?_
  simp only [same, ne_eq, not_true_eq_false, false_or]

/-! ### The frame that a read selects (R122, R123) -/

/-- The flags byte of an outbound frame, bit by bit. -/
theorem flagsByte_bits (x : PortFlags) (more : Bool) :
    (flagsByte x more).getLsbD 0 = x.resetSeen ∧ (flagsByte x more).getLsbD 1 = x.frameError ∧
      (flagsByte x more).getLsbD 2 = x.requestOverrun ∧ (flagsByte x more).getLsbD 3 = x.eventOverflow ∧
      flagsByte x more &&& 0x70 = 0 ∧ (flagsByte x more).getLsbD 7 = more := by
  obtain ⟨a, b, c, d⟩ := x
  revert a b c d more
  decide

variable {q : Port}

theorem select_reply {r : Reply} {rest : List Reply} (queue : q.replies = r :: rest) : q.select =
    { source := .reply, sent := 0, inTransit := true
      bytes := outboundFrame 0x01 (flagsByte q.flags q.more) r.tag (statusByte r.status) r.payload } := by
  simp only [Port.select, queue]

theorem select_event {e : Event} {rest : List Event} (noReply : q.replies = []) (queue : q.events = e :: rest) : q.select =
    { source := .event, sent := 0, inTransit := true
      bytes := outboundFrame 0x02 (flagsByte q.flags q.more) (eventCode e) 0x00 (eventPayload e) } := by
  simp only [Port.select, noReply, queue]

theorem select_empty (noReply : q.replies = []) (noEvent : q.events = []) : q.select =
    { source := .empty, sent := 0, inTransit := false
      bytes := outboundFrame 0x00 (flagsByte q.flags q.more) 0x00 0x00 [] } := by
  simp only [Port.select, noReply, noEvent]

theorem select_sent (q : Port) : q.select.sent = 0 := by
  unfold Port.select
  dsimp only
  split <;> rfl

theorem exec_readAddress_own {byte : Byte} (run : s.inReset = false) (address : (s.bus p).state = .address)
    (read : byte.getLsbD 0 = true) (own : addressOf byte = s.ownAddress p) :
    exec (.readAddress p byte) s = .next (s.beginRead p byte) :=
  next_running run (by simp only [address, read, own, Bool.not_true, Bool.false_eq_true, if_false, if_true])

/-- Settles O46: the selection is `Port.select`, whose three cases are the head reply, the head event and EMPTY. -/
theorem readAddressSelectsFrame : Obligations.ReadAddressSelectsFrame := by
  intro s p byte run address read own q
  obtain ⟨resetSeen, frameError, requestOverrun, eventOverflow, reserved, more⟩ := flagsByte_bits q.flags q.more
  refine ⟨flagsByte q.flags q.more, q.select,
    exec_readAddress_own run address read ((addressOf_eq_ownAddress s p byte).2 own),
    resetSeen, frameError, requestOverrun, eventOverflow, reserved, more, select_sent q, fun r rest replies => ?_,
    fun e rest noReply events => ?_, fun noReply noEvent => ?_⟩
  · rw [select_reply replies]
    exact ⟨rfl, rfl, rfl⟩
  · rw [select_event noReply events]
    exact ⟨rfl, rfl, rfl⟩
  · rw [select_empty noReply noEvent]
    exact ⟨rfl, rfl, rfl⟩

/-! ### A byte of a write (R135, R136) -/

section
variable {rx : RxRecord} {byte : Byte}

theorem exec_writeByte_idle (run : s.inReset = false) (idle : (s.bus p).state = .idle) (byte : Byte) :
    exec (.writeByte p byte) s = .next (s.answerByte p .idle byte false) :=
  next_running run (by simp only [idle])

theorem exec_writeByte_resetting (run : s.inReset = false) (resetting : (s.bus p).state = .resetting) (byte : Byte) :
    exec (.writeByte p byte) s = .next (s.mapBus p fun b => { b with ack := false }) :=
  next_running run (by simp only [resetting, TwoWireBus.answer])

/-- A byte received with no mark is judged by its place. -/
theorem exec_writeByte_unmarked (run : s.inReset = false) (receiving : (s.bus p).state = .receiving rx)
    (unmarked : rx.mark = .unmarked) (byte : Byte) : exec (.writeByte p byte) s = .next (s.receiveByte p rx byte) :=
  next_running run (by simp only [receiving, unmarked])

/-- After a mark no byte is kept, and only those of a NOP are acknowledged. -/
theorem exec_writeByte_marked (run : s.inReset = false) (receiving : (s.bus p).state = .receiving rx)
    (marked : rx.mark ≠ .unmarked) (byte : Byte) :
    exec (.writeByte p byte) s = .next (s.answerByte p (.receiving rx) byte (decide (rx.mark = .nop))) := by
  refine next_running run ?_
  simp only [receiving]
  cases mark : rx.mark
  case unmarked => exact absurd mark marked
  all_goals rfl

theorem receiveByte_acknowledged {r : RxRecord} (judged : rx.judge byte = .nop ∨ rx.judge byte = .accepted)
    (record : rx.receive byte = r) : s.receiveByte p rx byte = s.answerByte p (.receiving r) byte true := by
  rcases judged with judged | judged
  all_goals simp only [State.receiveByte, judged, record]

/-- A fault sets FRAME_ERROR, and the byte is refused. -/
theorem receiveByte_faulty {r : RxRecord} (judged : rx.judge byte = .badLength ∨ rx.judge byte = .badCheck)
    (record : rx.receive byte = r) :
    s.receiveByte p rx byte = (s.mapPort p.host Port.setFrameError).answerByte p (.receiving r) byte false := by
  rcases judged with judged | judged
  all_goals simp only [State.receiveByte, judged, record]

/-- A good check byte brings the frame into the request queue. -/
theorem receiveByte_good {r : RxRecord} {f : Frame} (judged : rx.judge byte = .good) (record : rx.receive byte = r)
    (frame : (rx.keep byte).frame = f) : s.receiveByte p rx byte =
      (s.mapPort p.host fun q => q.appendRequest f).answerByte p (.receiving r) byte true := by
  simp only [State.receiveByte, judged, record, frame]

/-- The frame that a record makes with its check byte (R118). -/
theorem frame_keep {opcode tag length : Byte} {payload : List Byte} (check : rx.AtCheck) (byte : Byte)
    (bytes : rx.bytes = [opcode, tag, length] ++ payload) :
    (rx.keep byte).frame = { opcode := opcode, tag := tag, payload := payload } := by
  have kept : rx.keep byte = rx.counted byte rx.mark :=
    keep_of_ne_length (fun third => by have := check.1; omega) rx.mark
  rw [kept, frame_counted check bytes]

end

/-- Settles O48: the byte is judged by its place, and the verdict decides the record, the answer and the queue. -/
theorem writeByteJudgedByPlace : Obligations.WriteByteJudgedByPlace := by
  refine ⟨fun s p byte run => ⟨fun idle => ?_, fun resetting => exec_writeByte_resetting run resetting byte⟩,
    fun s p rx byte run receiving => ?_⟩
  · rw [exec_writeByte_idle run idle, answerByte_refused_stay idle]
  · intro marked place isCheck goTo faulty
    have refused (unmarked : rx.mark = .unmarked) (verdict : rx.judge byte = .badLength ∨ rx.judge byte = .badCheck)
        (record : rx.receive byte = rx.counted byte .error) : exec (.writeByte p byte) s = .next faulty := by
      rw [exec_writeByte_unmarked run receiving unmarked, receiveByte_faulty verdict record, answerByte_eq]
      rfl
    refine ⟨fun unmarked first zero => ?_, fun unmarked third long => ?_, fun unmarked check bad => ?_,
      fun unmarked check good opcode tag length payload bytes => ?_, fun unmarked opening short recorded before => ?_,
      fun nop => ?_, fun ended => ?_⟩
    · obtain ⟨judged, record⟩ := judge_opening first
      subst zero
      rw [exec_writeByte_unmarked run receiving unmarked, receiveByte_acknowledged (.inl judged) record, answerByte_eq]
      rfl
    · obtain ⟨judged, record⟩ := judge_length third long
      exact refused unmarked (.inl judged) record
    · obtain ⟨judged, record⟩ := judge_bad_check check bad
      exact refused unmarked (.inr judged) record
    · obtain ⟨judged, record⟩ := judge_good_check check good
      rw [exec_writeByte_unmarked run receiving unmarked,
        receiveByte_good judged record (frame_keep check byte bytes), answerByte_eq]
      rfl
    · obtain ⟨judged, record⟩ := judge_accepted opening short recorded before
      rw [exec_writeByte_unmarked run receiving unmarked, receiveByte_acknowledged (.inr judged) record, answerByte_eq]
    · rw [exec_writeByte_marked run receiving (by rw [nop]; decide), decide_eq_true nop,
        answerByte_acknowledged_stay receiving]
    · obtain ⟨marked, notNop⟩ : rx.mark ≠ .unmarked ∧ rx.mark ≠ .nop := by
        rcases ended with mark | mark | mark
        all_goals exact mark ▸ ⟨nofun, nofun⟩
      rw [exec_writeByte_marked run receiving marked, decide_eq_false notNop, answerByte_eq]

/-! ### A byte of a read (R124, R138) -/

section
variable {out : OutSelection}

theorem exec_readByte_idle (run : s.inReset = false) (idle : (s.bus p).state = .idle) (ack : Bool) :
    exec (.readByte p ack) s = .next (s.showByte p .idle 0xFF ack) :=
  next_running run (by simp only [idle])

theorem exec_readByte_resetting (run : s.inReset = false) (resetting : (s.bus p).state = .resetting) (ack : Bool) :
    exec (.readByte p ack) s = .next (s.mapBus p fun b => { b with tx := 0xFF }) :=
  next_running run (by simp only [resetting, TwoWireBus.send])

theorem exec_readByte_sending {refused : Bool} (run : s.inReset = false) (sending : (s.bus p).state = .sending out refused)
    (ack : Bool) : exec (.readByte p ack) s =
      .next (if refused then s.showByte p (.sending out true) 0xFF ack else s.sendByte p out ack) :=
  next_running run (by simp only [sending])

theorem next_of_getElem? {byte : Byte} (left : out.bytes[out.sent]? = some byte) : out.next = byte := by
  rw [OutSelection.next, List.getD_eq_getElem?_getD, left, Option.getD_some]

theorem next_of_sent_whole (past : out.bytes.length ≤ out.sent) : out.next = 0xFF := by
  rw [OutSelection.next, List.getD_eq_getElem?_getD, List.getElem?_eq_none past, Option.getD_none]

theorem advance_of_lt (left : out.sent < out.bytes.length) : out.advance = { out with sent := out.sent + 1 } := by
  rw [OutSelection.advance, if_pos left]

theorem advance_of_sent_whole (past : out.bytes.length ≤ out.sent) : out.advance = out := by
  rw [OutSelection.advance, if_neg (not_lt.2 past)]

/-- A frame that is not in transit, or is not sent whole with this byte, leaves no queue. -/
theorem sendByte_stays (ack : Bool) (stays : out.inTransit = false ∨ out.advance.complete = false) :
    s.sendByte p out ack = s.showByte p (.sending out.advance (!ack)) out.next ack := by
  have kept : (out.inTransit && out.advance.complete) = false := Bool.and_eq_false_iff.2 stays
  simp only [State.sendByte, kept, Bool.not_false, Bool.and_true, Bool.false_eq_true, if_false]
  rfl

/-- With its check byte a frame in transit leaves its queue. -/
theorem sendByte_leaves (ack : Bool) (transit : out.inTransit = true) (whole : out.advance.complete = true) :
    s.sendByte p out ack = (s.mapPort p.host fun q => q.removeHead out.source).showByte p
      (.sending { out.advance with inTransit := false } (!ack)) out.next ack := by
  simp only [State.sendByte, transit, whole, Bool.and_true, Bool.not_true, Bool.and_false, if_true]

/-- What leaves a queue, by the source of the frame. -/
theorem removeHead_eq (q : Port) (source : OutSource) : q.removeHead source =
    { q with
      replies := if source = .reply then q.replies.drop 1 else q.replies
      events := if source = .event then q.events.drop 1 else q.events } := by
  cases source <;> simp [Port.removeHead]

end

/-- Settles O49: nothing is left, or the byte is not the check byte of a frame in transit, or it is. -/
theorem readByteSendsAndRemoves : Obligations.ReadByteSendsAndRemoves := by
  refine ⟨fun s p ack run => ⟨fun idle => ?_, fun resetting => exec_readByte_resetting run resetting ack⟩,
    fun s p out ack run => ?_⟩
  · rw [exec_readByte_idle run idle, showByte_released_stay idle]
  · refine ⟨fun refused => ?_, fun sending => ?_⟩
    · rw [exec_readByte_sending run refused, if_pos rfl, showByte_eq]
    · rw [exec_readByte_sending run sending, if_neg (by decide)]
      refine ⟨fun past done => ?_, fun byte left => ?_⟩
      · rw [sendByte_stays ack (.inl (by rw [done])), advance_of_sent_whole past, next_of_sent_whole past, showByte_eq]
      · have inside : out.sent < out.bytes.length := (List.getElem?_eq_some_iff.1 left).1
        have advanced := advance_of_lt inside
        have shown := next_of_getElem? left
        refine ⟨fun stays => ?_, fun transit last => ?_⟩
        · have unfinished : out.inTransit = false ∨ out.advance.complete = false := stays.imp_right fun more => by
            rw [advanced]
            exact beq_false_of_ne more.ne
          rw [sendByte_stays ack unfinished, advanced, shown, showByte_eq]
        · have whole : out.advance.complete = true := by
            rw [advanced]
            exact beq_iff_eq.2 last
          rw [sendByte_leaves ack transit whole, advanced, shown, showByte_eq]
          simp only [removeHead_eq]
          rfl

end Sys2Proof.Machine
end

section
/-! ## Conditions, writes to an address and the hold limit (R129, R130, R132 to R134, R137, R139, R140, R142) -/

namespace Sys2Proof.Machine

variable {s : State} {p : TwoWire}

/-! ### Start and stop conditions (R132, R137, R139) -/

section
variable {st : TwoWireState} {rx : RxRecord}

/-- A partial frame ends with FRAME_ERROR (R137). -/
theorem endTransaction_partial (receiving : (s.bus p).state = .receiving rx) (unmarked : rx.mark = .unmarked)
    (begun : rx.bytes ≠ []) : s.endTransaction p = s.mapPort p.host Port.setFrameError := by
  have broken : rx.broken = true := by simp [RxRecord.broken, unmarked, begun]
  simp only [State.endTransaction, receiving, broken, if_true]

/-- A write with a mark, or with no byte, ends with no flag set (R137). -/
theorem endTransaction_no_partial (receiving : (s.bus p).state = .receiving rx) (ended : rx.mark ≠ .unmarked ∨ rx.bytes = []) :
    s.endTransaction p = s := by
  have whole : rx.broken = false := by
    rcases ended with marked | empty
    · simp [RxRecord.broken, marked]
    · simp [RxRecord.broken, empty]
  simp only [State.endTransaction, receiving, whole, Bool.false_eq_true, if_false]

/-- Outside a write nothing is noted: a read is broken off with its queue untouched (R139). -/
theorem endTransaction_not_receiving (same : (s.bus p).state = st) (other : ∀ rx, st ≠ .receiving rx) :
    s.endTransaction p = s := by
  subst same
  unfold State.endTransaction
  split
  · exact absurd ‹_› (other _)
  · rfl

/-- A port that is neither HOLDING nor RESETTING sees both conditions: its transaction ends, and with both lines high the stuck time
returns to 0 (R132, R140). -/
theorem exec_start_and_stop_seen {t : State} (run : s.inReset = false) (same : (s.bus p).state = st)
    (ready : st ≠ .resetting) (unheld : ∀ rx time, st ≠ .holding rx time) (ended : s.endTransaction p = t) :
    exec (.startCondition p) s = .next (t.mapBus p fun b => { b with state := .address, stuckTime := 0 }) ∧
      exec (.stopCondition p) s = .next (t.mapBus p fun b => { b with state := .idle, stuckTime := 0 }) := by
  subst ended
  refine ⟨next_running run ?_, next_running run ?_⟩
  all_goals
    simp only [same]
    cases st with
    | resetting => exact absurd rfl ready
    | holding rx time => exact absurd rfl (unheld rx time)
    | idle => rw [endTransaction_not_receiving same nofun]; rfl
    | address => rw [endTransaction_not_receiving same nofun]; rfl
    | receiving _ => rfl
    | sending _ _ => rfl

/-- In HOLDING the bus can show neither condition, and a RESETTING port stays as it is (R132). -/
theorem exec_start_and_stop_unseen (run : s.inReset = false)
    (unseen : (s.bus p).state = .resetting ∨ ∃ rx time, (s.bus p).state = .holding rx time) :
    exec (.startCondition p) s = .next s ∧ exec (.stopCondition p) s = .next s := by
  rcases unseen with same | ⟨rx, time, same⟩
  all_goals exact ⟨next_running run (by simp only [same]), next_running run (by simp only [same])⟩

end

/-- Settles O44: the states of a port one by one, by what the end of the transaction notes. -/
theorem startAndStopEndTransaction : Obligations.StartAndStopEndTransaction := by
  intro s p run goTo noted
  refine ⟨fun idle => ?_, fun address => ?_, fun rx receiving => ⟨fun unmarked begun => ?_, fun ended => ?_⟩,
    fun out refused sending => ?_, exec_start_and_stop_unseen run⟩
  · exact exec_start_and_stop_seen run idle nofun nofun (endTransaction_not_receiving idle nofun)
  · exact exec_start_and_stop_seen run address nofun nofun (endTransaction_not_receiving address nofun)
  · exact exec_start_and_stop_seen run receiving nofun nofun (endTransaction_partial receiving unmarked begun)
  · exact exec_start_and_stop_seen run receiving nofun nofun (endTransaction_no_partial receiving ended)
  · exact exec_start_and_stop_seen run sending nofun nofun (endTransaction_not_receiving sending nofun)

/-! ### Address bytes (R130, R133, R142) -/

/-- A port holds SCL low in HOLDING and in no other state (R134). -/
theorem sclHeldLow_iff : s.sclHeldLow p = true ↔ ∃ (rx : RxRecord) (time : Nat), (s.bus p).state = .holding rx time := by
  unfold State.sclHeldLow
  cases (s.bus p).state <;> simp

section
variable {byte : Byte}

/-- A byte that names a port has a 1 bit: the addresses of the ports start at 0x34 and 0x38. -/
theorem ne_zero_of_own_address (own : addressOf byte = s.ownAddress p) : byte ≠ 0 := by
  rintro rfl
  have sum := (addressOf_eq_ownAddress s p 0).1 own
  cases p <;> simp at sum <;> omega

/-- A byte that nobody acknowledges returns the stuck time to 0 with a 1 bit, and with a high SDA on the acknowledge clock (R140). -/
theorem answerByte_refused (s : State) (p : TwoWire) (st : TwoWireState) (byte : Byte) :
    s.answerByte p st byte false = s.mapBus p fun b =>
      { b with state := st, ack := false
               stuckTime := if byte ≠ 0 ∨ Config.sdaHeld p s.micros = false then 0 else b.stuckTime } := by
  simp only [answerByte_eq, Bool.false_eq_true, false_or]

theorem exec_writeAddress_own (run : s.inReset = false) (address : (s.bus p).state = .address) (write : byte.getLsbD 0 = false)
    (own : addressOf byte = s.ownAddress p) : exec (.writeAddress p byte) s = .next (s.beginWrite p byte) :=
  next_running run (by simp only [address, write, own, Bool.false_eq_true, if_false, if_true])

theorem beginWrite_room (room : (s.port p.host).requests.length < Config.requestPlaces) (byte : Byte) :
    s.beginWrite p byte = s.answerByte p (.receiving RxRecord.empty) byte true :=
  if_pos room

/-- At a full queue the hold mode decides (R133). -/
theorem beginWrite_refuse (full : Config.requestPlaces ≤ (s.port p.host).requests.length)
    (refuse : (s.bus p).holdMode = .refuse) (byte : Byte) : s.beginWrite p byte = s.answerByte p .idle byte false := by
  simp only [State.beginWrite, if_neg (not_lt.2 full), refuse, State.ignoreTransaction]

theorem beginWrite_hold (full : Config.requestPlaces ≤ (s.port p.host).requests.length)
    (hold : (s.bus p).holdMode = .hold) (byte : Byte) :
    s.beginWrite p byte = s.answerByte p (.holding RxRecord.empty 0) byte true := by
  simp only [State.beginWrite, if_neg (not_lt.2 full), hold]

/-- A port whose address it is not, or that waits for a start, takes no part (R130, R132). -/
theorem exec_addressNotAcknowledged (run : s.inReset = false)
    (absent : (s.bus p).state = .address ∧ addressOf byte ≠ s.ownAddress p ∨ (s.bus p).state = .idle) :
    exec (.addressNotAcknowledged p byte) s = .next (s.answerByte p .idle byte false) := by
  rcases absent with ⟨address, other⟩ | idle
  · exact next_running run (by simp only [address, other, if_false, State.ignoreTransaction])
  · exact next_running run (by simp only [idle, State.ignoreTransaction])

/-- A RESETTING port acknowledges no address byte and stays (R142). -/
theorem exec_address_resetting (run : s.inReset = false) (resetting : (s.bus p).state = .resetting) (byte : Byte) :
    exec (.addressNotAcknowledged p byte) s = .next (s.mapBus p fun b => { b with ack := false }) ∧
      exec (.writeAddress p byte) s = .next (s.mapBus p fun b => { b with ack := false }) ∧
      exec (.readAddress p byte) s = .next (s.mapBus p fun b => { b with ack := false }) := by
  refine ⟨next_running run ?_, next_running run ?_, next_running run ?_⟩
  all_goals simp only [resetting, TwoWireBus.answer]

end

/-- Settles O45: a write to the port's address by the room in the queue and the hold mode, then the bytes that are not answered. -/
theorem writeAddressDecided : Obligations.WriteAddressDecided := by
  refine ⟨fun s p => sclHeldLow_iff, fun s p byte run => ?_⟩
  intro own fresh
  refine ⟨fun address write named => ?_, fun absent => ?_, fun resetting => exec_address_resetting run resetting byte⟩
  · have ownAddress : addressOf byte = s.ownAddress p := (addressOf_eq_ownAddress s p byte).2 named
    rw [exec_writeAddress_own run address write ownAddress]
    refine ⟨fun room => ?_, fun full refuse => ?_, fun full hold => ?_⟩
    · rw [beginWrite_room room, answerByte_acknowledged]
      rfl
    · have oneBit : byte ≠ 0 ∨ Config.sdaHeld p s.micros = false := .inl (ne_zero_of_own_address ownAddress)
      simp only [beginWrite_refuse full refuse, answerByte_refused, if_pos oneBit]
    · rw [beginWrite_hold full hold, answerByte_acknowledged]
      rfl
  · rw [exec_addressNotAcknowledged run (absent.imp_left fun ⟨address, other⟩ =>
      ⟨address, fun named => other ((addressOf_eq_ownAddress s p byte).1 named)⟩), answerByte_refused]

/-! ### The hold limit (R134, R140) -/

theorem exec_holdLimit (run : s.inReset = false) (p : TwoWire) :
    exec (.holdLimit p) s = .next (if s.holdDue p then s.passHoldLimit p else s) :=
  next_running run rfl

/-- A hold that has lasted less than 10 ms is at no limit. -/
theorem holdDue_of_short {rx : RxRecord} {t : Nat} (holding : (s.bus p).state = .holding rx t) (short : t < 10000) :
    ¬ s.holdDue p = true := by
  rw [holdDue_iff]
  rintro ⟨rx', t', holding', long⟩
  cases holding.symm.trans holding'
  exact absurd long (not_le.2 short)

/-- Settles O47: the limit passes exactly when it is due. -/
theorem holdLimitRefusesRestOfWrite : Obligations.HoldLimitRefusesRestOfWrite := by
  intro s p run
  rw [exec_holdLimit run]
  refine ⟨fun rx t holding long => ?_, fun rx t holding short => ?_, fun unheld => ?_⟩
  · rw [if_pos (holdDue_iff.2 ⟨rx, t, holding, long⟩)]
    rfl
  · rw [if_neg (holdDue_of_short holding short)]
  · rw [if_neg (Bool.eq_false_iff.1 (holdDue_of_not_holding unheld))]

end Sys2Proof.Machine
end

section
/-! ## The exchanges of Port C (R144 to R149) -/

namespace Sys2Proof.Machine

variable {s : State} {rx : RxRecord} {bits : Fin 8} {out : OutSelection} {byte : Byte}

/-! ### The fall of SELC (R144, R145) -/

theorem exec_selcFall_low (low : s.selcLow = true) : exec .selcFall s = .next s :=
  congrArg Host.Outcome.next (if_pos low)

theorem exec_selcFall_high (run : s.inReset = false) (high : s.selcLow = false) :
    exec .selcFall s = .next { s with
      selcLow := true
      fourWire := { s.fourWire with state := .exchange RxRecord.empty 0 (s.port .c).select } } := by
  simp only [exec, execSelcFall, high, run, Bool.false_eq_true, if_false]

theorem sdoc_deselected (deselected : s.fourWire.state = .deselected) : s.sdoc = none := by
  simp only [State.sdoc, deselected]

/-- Before the first byte of an exchange SDOC shows the first bit of the byte to be sent. -/
theorem sdoc_opening (exchange : s.fourWire.state = .exchange rx 0 out) (opening : rx.bytes = []) :
    s.sdoc = some (out.next.getLsbD 7) := by
  simp only [State.sdoc, exchange, opening, ne_eq, not_true_eq_false, if_false, if_true]
  rfl

/-- Every frame has a first byte: its kind. -/
theorem select_first (q : Port) : ∃ kind : Byte, q.select.bytes[0]? = some kind := by
  unfold Port.select
  dsimp only
  split <;> exact ⟨_, rfl⟩

/-! ### A byte of an exchange (R146, R148) -/

theorem exec_exchangeByte_deselected (run : s.inReset = false) (deselected : s.fourWire.state = .deselected) (byte : Byte) :
    exec (.exchangeByte byte) s = .next s :=
  next_running run (by simp only [deselected])

theorem exec_exchangeByte_exchange (run : s.inReset = false) (exchange : s.fourWire.state = .exchange rx bits out) (byte : Byte) :
    exec (.exchangeByte byte) s = .next { s.exchangeIn rx byte with
      fourWire := { state := .exchange (rx.exchanged byte) 0 out.advance, tx := out.next } } :=
  next_running run (by simp only [exchange])

/-- Once a mark is set, the inbound byte is ignored. -/
theorem exchange_marked (s : State) (marked : rx.mark ≠ .unmarked) (byte : Byte) :
    s.exchangeIn rx byte = s ∧ rx.exchanged byte = rx := by
  cases mark : rx.mark
  case unmarked => exact absurd mark marked
  all_goals simp only [State.exchangeIn, RxRecord.exchanged, mark, and_self]

theorem exchanged_unmarked (unmarked : rx.mark = .unmarked) (byte : Byte) : rx.exchanged byte = rx.receive byte := by
  simp only [RxRecord.exchanged, unmarked]

theorem exchangeIn_faulty (unmarked : rx.mark = .unmarked) (judged : rx.judge byte = .badLength ∨ rx.judge byte = .badCheck) :
    s.exchangeIn rx byte = s.mapPort .c Port.setFrameError := by
  rcases judged with judged | judged
  all_goals simp only [State.exchangeIn, unmarked, judged]

theorem exchangeIn_faultless (length : rx.judge byte ≠ .badLength) (check : rx.judge byte ≠ .badCheck) :
    s.exchangeIn rx byte = s := by
  unfold State.exchangeIn
  split
  · exact absurd ‹_› length
  · exact absurd ‹_› check
  · rfl

/-- Settles O52: the fall by the level of SELC, and a byte of an exchange by the mark and the verdict on its place. -/
theorem exchangeShiftsBothWays : Obligations.ExchangeShiftsBothWays := by
  intro s byte run
  refine ⟨fun high => ⟨_, exec_selcFall_high run high, rfl, ?_⟩, exec_selcFall_low,
    fun deselected => ⟨exec_exchangeByte_deselected run deselected byte, sdoc_deselected deselected⟩,
    fun rx bits out exchange => ?_⟩
  · obtain ⟨kind, first⟩ := select_first (s.port .c)
    refine ⟨kind, first, (sdoc_opening rfl rfl).trans ?_⟩
    rw [next_of_getElem? ((select_sent (s.port .c)).symm ▸ first)]
  · intro shifted advanced received counted noted place isCheck
    have outbound : out.next = shifted ∧ out.advance = advanced := by
      rcases left : out.bytes[out.sent]? with _ | x
      · have past : out.bytes.length ≤ out.sent := List.getElem?_eq_none_iff.1 left
        simp only [shifted, advanced, left]
        exact ⟨next_of_sent_whole past, advance_of_sent_whole past⟩
      · simp only [shifted, advanced, left]
        exact ⟨next_of_getElem? left, advance_of_lt (List.getElem?_eq_some_iff.1 left).1⟩
    obtain ⟨shown, advance⟩ := outbound
    have exchanged {r : RxRecord} {q : PerHost Port} (ports : s.exchangeIn rx byte = { s with ports := q })
        (record : rx.exchanged byte = r) : exec (.exchangeByte byte) s = .next (received r q) := by
      rw [exec_exchangeByte_exchange run exchange, ports, record, shown, advance]
    have faultless {r : RxRecord} (unmarked : rx.mark = .unmarked) (length : rx.judge byte ≠ .badLength)
        (check : rx.judge byte ≠ .badCheck) (record : rx.receive byte = r) :
        exec (.exchangeByte byte) s = .next (received r s.ports) :=
      exchanged (exchangeIn_faultless length check) ((exchanged_unmarked unmarked byte).trans record)
    have faulty {r : RxRecord} (unmarked : rx.mark = .unmarked)
        (judged : rx.judge byte = .badLength ∨ rx.judge byte = .badCheck) (record : rx.receive byte = r) :
        exec (.exchangeByte byte) s = .next (received r noted) :=
      exchanged (exchangeIn_faulty unmarked judged) ((exchanged_unmarked unmarked byte).trans record)
    refine ⟨fun marked => ?_, fun unmarked first zero => ?_, fun unmarked third long => ?_, fun unmarked check bad => ?_,
      fun unmarked check good => ?_, fun unmarked opening short recorded before => ?_⟩
    · obtain ⟨unchanged, record⟩ := exchange_marked s marked byte
      exact exchanged unchanged record
    · subst zero
      obtain ⟨judged, record⟩ := judge_opening first
      exact faultless unmarked (judged ▸ nofun) (judged ▸ nofun) record
    · obtain ⟨judged, record⟩ := judge_length third long
      exact faulty unmarked (.inl judged) record
    · obtain ⟨judged, record⟩ := judge_bad_check check bad
      exact faulty unmarked (.inr judged) record
    · obtain ⟨judged, record⟩ := judge_good_check check good
      exact faultless unmarked (judged ▸ nofun) (judged ▸ nofun) record
    · obtain ⟨judged, record⟩ := judge_accepted opening short recorded before
      exact faultless unmarked (judged ▸ nofun) (judged ▸ nofun) record

/-! ### The rise of SELC (R145, R147, R149) -/

theorem exec_selcRise_deselected (run : s.inReset = false) (deselected : s.fourWire.state = .deselected) (bits : Fin 8) :
    exec (.selcRise bits) s = .next { s with selcLow := false } := by
  refine congrArg Host.Outcome.next ((if_neg (Bool.eq_false_iff.1 run)).trans ?_)
  simp only [deselected]

/-- Of the whole state only the level of SELC, the state of Port C and its port record are written. -/
theorem exec_selcRise_exchange {b : Fin 8} (run : s.inReset = false) (exchange : s.fourWire.state = .exchange rx b out)
    (bits : Fin 8) : exec (.selcRise bits) s = .next { s with
      selcLow := false
      ports := { s.ports with c := (s.ports.c.endOutbound out).endInbound rx }
      fourWire := { s.fourWire with state := .deselected } } := by
  refine congrArg Host.Outcome.next ((if_neg (Bool.eq_false_iff.1 run)).trans ?_)
  simp only [exchange]
  rfl

/-- What leaves a queue at the end of an exchange: the frame in transit, if it was sent whole (R147). -/
theorem endOutbound_eq (q : Port) (out : OutSelection) : q.endOutbound out =
    { q with
      replies := if out.inTransit = true ∧ out.sent = out.bytes.length ∧ out.source = .reply then q.replies.drop 1 else q.replies
      events := if out.inTransit = true ∧ out.sent = out.bytes.length ∧ out.source = .event then q.events.drop 1 else q.events } := by
  by_cases leaves : out.inTransit = true ∧ out.sent = out.bytes.length
  · obtain ⟨transit, whole⟩ := leaves
    have complete : out.complete = true := beq_iff_eq.2 whole
    simp only [Port.endOutbound, transit, complete, whole, Bool.and_self, if_true, true_and, removeHead_eq]
  · have stays : ¬ (out.inTransit && out.complete) = true := fun both =>
      leaves ((Bool.and_eq_true_iff.1 both).imp_right beq_iff_eq.1)
    simp only [Port.endOutbound, if_neg stays, ← and_assoc, leaves, false_and, if_false]

/-- What a receive record leaves at the end of an exchange: a complete frame, or a flag (R149). -/
theorem endInbound_eq (q : Port) (rx : RxRecord) : q.endInbound rx =
    { q with
      requests := if rx.mark = .done ∧ q.requests.length < 4 then q.requests ++ [rx.frame] else q.requests
      flags := { q.flags with
        frameError := if rx.mark = .unmarked ∧ rx.bytes ≠ [] then true else q.flags.frameError
        requestOverrun := if rx.mark = .done ∧ 4 ≤ q.requests.length then true else q.flags.requestOverrun } } := by
  cases mark : rx.mark
  case unmarked =>
    by_cases empty : rx.bytes = []
    · simp [Port.endInbound, RxRecord.broken, mark, empty]
    · simp [Port.endInbound, RxRecord.broken, mark, empty, Port.setFrameError]
  case done =>
    by_cases room : q.requests.length < 4
    · simp [Port.endInbound, mark, Config.requestPlaces, room, not_le.2 room, Port.appendRequest]
    · simp [Port.endInbound, mark, Config.requestPlaces, room, not_lt.1 room, Port.setRequestOverrun]
  all_goals simp [Port.endInbound, mark]

/-- The frame in a record that holds all its bytes (R118). -/
theorem frame_of_bytes {opcode tag length check : Byte} {payload : List Byte} (recorded : rx.len = some length)
    (whole : payload.length = length.toNat) (bytes : rx.bytes = [opcode, tag, length] ++ payload ++ [check]) :
    rx.frame = { opcode := opcode, tag := tag, payload := payload } := by
  simp [RxRecord.frame, recorded, bytes, ← whole]

/-- Settles O53: the port record after the rise is that of the two halves' ends, field by field. -/
theorem selcRiseEndsExchange : Obligations.SelcRiseEndsExchange := by
  refine ⟨fun s bits run deselected => exec_selcRise_deselected run deselected bits,
    fun s rx b bits out run exchange => ⟨_, exec_selcRise_exchange run exchange bits, ?_⟩⟩
  rw [endInbound_eq, endOutbound_eq]
  refine ⟨rfl, rfl, rfl, rfl, rfl, rfl, fun unmarked begun => if_pos ⟨unmarked, begun⟩, fun whole => if_neg whole,
    fun done full => ⟨if_neg fun room => absurd room.2 (not_lt.2 full), if_pos ⟨done, full⟩⟩, fun room => if_neg room,
    fun done room opcode tag length check payload recorded whole bytes => ?_,
    fun other => if_neg fun done => other done.1⟩
  rw [← frame_of_bytes recorded whole bytes]
  exact if_pos ⟨done, room⟩

end Sys2Proof.Machine
end

section
/-! ## The queue of commands (logs 1 and 2) -/

namespace Sys2Proof.Machine

theorem step_of_cons {s : State} {c : Instr} {rest : List Instr} (h : s.pending = c :: rest) :
    step s = exec c { s with pending := rest } := by
  unfold step
  rw [h]

/-- Settles O1: on a queue that is not empty the step is the front command's. -/
theorem stepRunsFrontCommand : Obligations.StepRunsFrontCommand :=
  fun c rest s => step_of_cons (s := { s with pending := c :: rest }) rfl

/-- No command's meaning is a fault or a refusal. -/
theorem exists_exec_eq_next (c : Instr) (s : State) : ∃ t : State, exec c s = .next t := by
  cases c <;> exact ⟨_, rfl⟩

/-- The release and the start of a device reset keep the queue, as every command that keeps the control fields does. -/
theorem pending_exec {c : Instr} {s t : State} (e : exec c s = .next t) : t.pending = s.pending := by
  by_cases release : ∃ adr sup, c = .resetRelease adr sup
  · obtain ⟨adr, sup, rfl⟩ := release
    cases e
    split <;> rfl
  · have other : ∀ adr sup, c ≠ .resetRelease adr sup := fun adr sup h => release ⟨adr, sup, h⟩
    rcases exec_control_cases other e with kept | rfl
    · exact congrArg Control.pending kept
    · rfl

/-- Settles O3: the state each command answers, and the queue in it. -/
theorem everyCommandAnswersNext : Obligations.EveryCommandAnswersNext := fun c s =>
  let ⟨t, e⟩ := exists_exec_eq_next c s
  ⟨t, e, pending_exec e⟩

end Sys2Proof.Machine
end
